-- ==== Sys2Proof/Word.lean ====
section
/-! DEFINITION. The word types of the GS9 model and their plainest arithmetic (R5: bit 0 is the least
significant bit, a range `x[hi:lo]` includes both ends). -/

namespace Sys2Proof

/-- A byte of memory. -/
abbrev Byte := BitVec 8
/-- A 32-bit v-register value (R181). -/
abbrev Word32 := BitVec 32
/-- A 64-bit s-register value or address (R181, R79). -/
abbrev Word64 := BitVec 64

/-- `x[hi:lo]` of R9 on a natural number. -/
def bitsN (x hi lo : Nat) : Nat := (x / 2 ^ lo) % 2 ^ (hi + 1 - lo)

/-- Bit `i` of a natural number. -/
def bitN (x i : Nat) : Bool := (x / 2 ^ i) % 2 == 1

/-- One as `true` (a one-bit field). -/
def b2n (b : Bool) : Nat := if b then 1 else 0

end Sys2Proof
end

