-- ==== Sys2Proof/Syntax/Types.lean ====
section
/-! DEFINITION. The operand types of the instructions: one structure per operand shape. A register field
has the width of its class (R181), so a field value outside the class cannot be written; what remains to
check (even pairs, ranges, reserved values) is `WellFormed`. -/

namespace Sys2Proof

/-- Register classes of R181, by the width of their index. -/
abbrev VReg := BitVec 8
abbrev PReg := BitVec 7
abbrev SReg := BitVec 6
abbrev TReg := BitVec 3
abbrev AReg := BitVec 2
abbrev CvReg := BitVec 4
abbrev BReg := BitVec 4
abbrev DbReg := BitVec 2
abbrev HReg := BitVec 6
abbrev EvReg := BitVec 4
abbrev Imm16 := BitVec 16

/-- STALL, PN and PREG of R179. -/
structure Hdr where
  stall : BitVec 4
  pn    : Bool
  preg  : PReg
  deriving DecidableEq, Repr

/-- The second source of an F word: register, broadcast s-register (U) or immediate (I), R180. -/
inductive SrcB where
  | v (r : VReg)
  | s (r : SReg)
  | imm (i : Imm16)
  deriving DecidableEq, Repr

/-- An operand that is an immediate (I = 1) or an s-register (U = 1). -/
inductive ImmS where
  | imm (i : Imm16)
  | s (r : SReg)
  deriving DecidableEq, Repr

/-- CALL's target: relative (I) or a v pair (R214). -/
inductive TgtV where
  | rel (i : Imm16)
  | v (r : VReg)
  deriving DecidableEq, Repr

/-- The global address forms of R207 and R258. -/
inductive GAddr where
  | off (pair : VReg) (imm : Imm16)
  | idx (base : SReg) (index : VReg) (k : BitVec 2) (imm : BitVec 8)
  | plain (pair : VReg)
  | split (pair : VReg) (join : Imm16)
  deriving DecidableEq, Repr

/-- HOP values of R193. -/
inductive Hop where
  | iadd | isub | imul | imin | imax | and | or | xor | andn | shl | shr | sar | mov | movi
  | fadd | fsub | fmul | fmin | fmax | h2add | h2mul | h2min | h2max
  deriving DecidableEq, Repr

/-- One half of a P word (R192). `s` is the raw S field, `m` the raw M field. -/
structure Half where
  hop   : Hop
  stall : BitVec 3
  d     : VReg
  s     : BitVec 8
  m     : BitVec 6
  deriving DecidableEq, Repr

structure Op0 where (h : Hdr)
  deriving DecidableEq, Repr
structure OpI where (h : Hdr) (imm : Imm16)
  deriving DecidableEq, Repr
structure OpV where (h : Hdr) (a : VReg)
  deriving DecidableEq, Repr
structure OpT where (h : Hdr) (t : ImmS)
  deriving DecidableEq, Repr
structure OpCall where (h : Hdr) (d : VReg) (t : TgtV)
  deriving DecidableEq, Repr
structure OpP where (h : Hdr) (d : PReg)
  deriving DecidableEq, Repr
structure OpCvSet where (h : Hdr) (cv : CvReg) (c : ImmS)
  deriving DecidableEq, Repr
structure OpCv where (h : Hdr) (cv : CvReg)
  deriving DecidableEq, Repr
structure OpPrefi where (h : Hdr) (imm : Imm16) (n : BitVec 8)
  deriving DecidableEq, Repr
structure OpEvBind where (h : Hdr) (ev : EvReg) (a : SReg) (imm : Imm16) (kind : BitVec 4)
  deriving DecidableEq, Repr
structure OpEvMask where (h : Hdr) (op : BitVec 2) (x : ImmS)
  deriving DecidableEq, Repr
structure OpX where (h : Hdr) (x : ImmS)
  deriving DecidableEq, Repr
structure OpEvPoll where (h : Hdr) (d : SReg) (x : ImmS)
  deriving DecidableEq, Repr
structure OpWaitAny where (h : Hdr) (list : BitVec 16) (tmo : Bool) (timeout : BitVec 32)
  deriving DecidableEq, Repr
structure OpSS where (h : Hdr) (a b : SReg)
  deriving DecidableEq, Repr
structure OpSSS where (h : Hdr) (d a b : SReg)
  deriving DecidableEq, Repr
structure OpSd where (h : Hdr) (d a : SReg)
  deriving DecidableEq, Repr
structure OpS where (h : Hdr) (a : SReg)
  deriving DecidableEq, Repr
structure OpD where (h : Hdr) (d : SReg)
  deriving DecidableEq, Repr
structure OpMbRecv where (h : Hdr) (d : SReg) (m : BitVec 5) (p : PReg)
  deriving DecidableEq, Repr
structure OpBarArv where (h : Hdr) (d : SReg) (b : BReg)
  deriving DecidableEq, Repr
structure OpB where (h : Hdr) (b : BReg)
  deriving DecidableEq, Repr
structure OpDb where (h : Hdr) (db : DbReg)
  deriving DecidableEq, Repr
structure OpWaitC where (h : Hdr) (cls : BitVec 2) (n : BitVec 8)
  deriving DecidableEq, Repr
structure OpFence where (h : Hdr) (kind : BitVec 2) (scope : BitVec 3)
  deriving DecidableEq, Repr
/-- One source: IABS, INEG (SAT), NOT, POPC, CLZ, CTZ, BREV, MOV (no modifier). -/
structure Alu1 where (h : Hdr) (d a : VReg) (sat : Bool)
  deriving DecidableEq, Repr
/-- Two sources with the N and SAT modifiers of R232. -/
structure Alu2 where (h : Hdr) (d a : VReg) (b : SrcB) (n sat : Bool)
  deriving DecidableEq, Repr
/-- Three sources with the N and SAT modifiers of R232. -/
structure Alu3 where (h : Hdr) (d a : VReg) (b : SrcB) (c : VReg) (n sat : Bool)
  deriving DecidableEq, Repr
structure OpIdp4 where (h : Hdr) (d a : VReg) (b : SrcB) (c : VReg) (ua sat ub : Bool)
  deriving DecidableEq, Repr
structure OpSetp where (h : Hdr) (d : PReg) (a : VReg) (b : SrcB) (n : Bool) (cond : BitVec 3) (acc : BitVec 2)
  deriving DecidableEq, Repr
structure OpH2Setp where (h : Hdr) (d : PReg) (a : VReg) (b : SrcB) (t : Bool) (cond : BitVec 3)
  deriving DecidableEq, Repr
structure OpISel where (h : Hdr) (d a : VReg) (b : SrcB) (c : PReg)
  deriving DecidableEq, Repr
structure OpLea where (h : Hdr) (d a : VReg) (b : SrcB) (n : Bool) (sh : BitVec 5)
  deriving DecidableEq, Repr
structure OpIAdd64 where (h : Hdr) (d a : VReg) (b : SrcB) (n : Bool)
  deriving DecidableEq, Repr
structure OpMovi where (h : Hdr) (d : VReg) (imm : Imm16) (n hi : Bool)
  deriving DecidableEq, Repr
structure OpMovs where (h : Hdr) (d : VReg) (sr : BitVec 8)
  deriving DecidableEq, Repr
structure OpMovu where (h : Hdr) (d : VReg) (a : SReg) (hi : Bool)
  deriving DecidableEq, Repr
structure OpPlop3 where (h : Hdr) (d a b c : PReg) (neg fn : BitVec 3)
  deriving DecidableEq, Repr
/-- PMOV: `fromv` = DIR; `r` is DST for `.tov`, SA for `.fromv`. -/
structure OpPmov where (h : Hdr) (r : VReg) (fromv : Bool) (k : BitVec 2)
  deriving DecidableEq, Repr
/-- Uniform two-source operation; `b` is an s-register or an immediate (R236). -/
structure U2 where (h : Hdr) (d a : SReg) (b : ImmS) (n : Bool)
  deriving DecidableEq, Repr
structure OpUmovi where (h : Hdr) (d : SReg) (imm : BitVec 64)
  deriving DecidableEq, Repr
structure OpUsel where (h : Hdr) (d a b c : SReg)
  deriving DecidableEq, Repr
structure OpUcmp where (h : Hdr) (d a : SReg) (b : ImmS) (n : Bool) (cond : BitVec 3)
  deriving DecidableEq, Repr
structure OpUfrom where (h : Hdr) (d : SReg) (a : VReg) (w : Bool)
  deriving DecidableEq, Repr
structure OpUlea where (h : Hdr) (d a b : SReg) (sh : BitVec 5)
  deriving DecidableEq, Repr
structure OpMovc where (h : Hdr) (d : SReg) (cr : BitVec 8)
  deriving DecidableEq, Repr
structure OpMovcw where (h : Hdr) (cr : BitVec 8) (x : ImmS)
  deriving DecidableEq, Repr
structure OpClkr where (h : Hdr) (d : SReg) (pkg : Bool)
  deriving DecidableEq, Repr
structure OpPerfr where (h : Hdr) (d : SReg) (n : BitVec 2)
  deriving DecidableEq, Repr
structure OpEcall where (h : Hdr) (d a : SReg) (imm : Imm16)
  deriving DecidableEq, Repr
/-- L.LAUNCH (R186). -/
structure OpLaunch where
  (h : Hdr) (sarg sgrid stok : SReg) (prio : BitVec 2) (rq : Bool) (dieMask : BitVec 4) (dep : BitVec 2)
  (sdep : SReg) (cmpl : BitVec 2) (queue : BitVec 3) (kobj : BitVec 16) (mbox : BitVec 32)
  deriving DecidableEq, Repr
/-- FP32 two-source operation (R244). -/
structure F2 where (h : Hdr) (d a : VReg) (b : SrcB) (rm : BitVec 2)
  deriving DecidableEq, Repr
structure F3 where (h : Hdr) (d a : VReg) (b : SrcB) (c : VReg) (rm : BitVec 2)
  deriving DecidableEq, Repr
structure OpFrnd where (h : Hdr) (d a : VReg) (rm : BitVec 2)
  deriving DecidableEq, Repr
/-- One v source, no modifier: FCLASS, the special functions, ACT. -/
structure Un where (h : Hdr) (d a : VReg)
  deriving DecidableEq, Repr
structure OpH2 where (h : Hdr) (d a : VReg) (b : SrcB) (t : Bool)
  deriving DecidableEq, Repr
structure OpH3 where (h : Hdr) (d a : VReg) (b : SrcB) (c : VReg) (t : Bool)
  deriving DecidableEq, Repr
/-- CVT (R250): `dt`, `st` are the destination and source type codes. -/
structure OpCvt where (h : Hdr) (d a : VReg) (dt st : BitVec 4) (c : VReg) (rm : BitVec 3) (sat : Bool)
  deriving DecidableEq, Repr
structure OpCvtq where (h : Hdr) (d a : VReg) (b : SrcB) (c : VReg) (fmt pos : BitVec 3) (sr : Bool)
  deriving DecidableEq, Repr
structure OpCvtdq where (h : Hdr) (d a : VReg) (b : SrcB) (fmt pos : BitVec 3)
  deriving DecidableEq, Repr
structure OpMxq where (h : Hdr) (d a c : VReg) (fmt : BitVec 4) (sr : Bool)
  deriving DecidableEq, Repr
structure OpMxdq where (h : Hdr) (d a : VReg) (b : SrcB) (fmt : BitVec 4) (bf : Bool)
  deriving DecidableEq, Repr
structure OpRngs where (h : Hdr) (d a : VReg) (b : SrcB)
  deriving DecidableEq, Repr
structure OpShfl where (h : Hdr) (d a : VReg) (b : SrcB) (mode : BitVec 2) (rel vp : Bool) (c : PReg)
  deriving DecidableEq, Repr
structure OpVote where (h : Hdr) (d : SReg) (a : PReg) (mode : BitVec 2)
  deriving DecidableEq, Repr
structure OpMatch where (h : Hdr) (d a : VReg) (w n : Bool)
  deriving DecidableEq, Repr
structure OpRedl where (h : Hdr) (d a : VReg) (op : BitVec 3) (ty : BitVec 2) (ex : Bool)
  deriving DecidableEq, Repr
structure OpPackl where (h : Hdr) (d a : VReg) (p : PReg) (c : Bool) (sc : SReg)
  deriving DecidableEq, Repr
/-- LD and ST (R258). -/
structure OpMem where (h : Hdr) (d : VReg) (a : GAddr) (mfmt : BitVec 3) (w : Bool)
  deriving DecidableEq, Repr
/-- LDS and STS (R258, R261). -/
structure OpLds where (h : Hdr) (d a : VReg) (imm : Imm16) (mfmt : BitVec 3) (w : Bool)
  deriving DecidableEq, Repr
structure OpLdc where (h : Hdr) (d a : VReg) (imm : Imm16) (bank : BitVec 3) (w : Bool)
  deriving DecidableEq, Repr
structure OpUld where (h : Hdr) (d : SReg) (a : VReg) (imm : Imm16) (w : Bool)
  deriving DecidableEq, Repr
structure OpAtom where
  (h : Hdr) (d a : VReg) (b : SrcB) (op ty : BitVec 3) (nr : Bool) (ord : BitVec 2) (scope : BitVec 3)
  deriving DecidableEq, Repr
structure OpRedst where (h : Hdr) (a : VReg) (b : SrcB) (op ty scope : BitVec 3)
  deriving DecidableEq, Repr
structure OpCas where
  (h : Hdr) (d a : VReg) (b : SrcB) (c : VReg) (w : Bool) (ord : BitVec 2) (scope : BitVec 3)
  deriving DecidableEq, Repr
structure OpSxsect where (h : Hdr) (d a b c : VReg) (lo emit : Bool) (m1 : BitVec 5)
  deriving DecidableEq, Repr
structure OpCctl where (h : Hdr) (a : VReg) (op : BitVec 2) (l2 : Bool)
  deriving DecidableEq, Repr
structure OpPrefd where (h : Hdr) (a : VReg) (lvl : BitVec 2)
  deriving DecidableEq, Repr
structure OpTcfg where (h : Hdr) (tc : TReg) (a : SReg)
  deriving DecidableEq, Repr
structure OpTl where (h : Hdr) (t : TReg) (a : SReg)
  deriving DecidableEq, Repr
structure OpTz where (h : Hdr) (t : TReg)
  deriving DecidableEq, Repr
structure OpTt where (h : Hdr) (d a : TReg)
  deriving DecidableEq, Repr
/-- L.MMA for MMA and MMAS (R187). -/
structure OpMma where
  (h : Hdr) (acc : AReg) (asp : Bool) (aop : SReg) (bsp : Bool) (bop : SReg) (mq nq : BitVec 5) (kq : BitVec 8)
  (pm1 : BitVec 6) (clr : Bool) (tok : SReg) (cv : CvReg) (afmt bfmt : BitVec 4) (atyp saen : Bool) (sas : SReg)
  (sben : Bool) (sbs : SReg) (pat : BitVec 2) (smeta : SReg)
  deriving DecidableEq, Repr
/-- L.MMA for ACCCVT (R187). -/
structure OpAcccvt where
  (h : Hdr) (acc : AReg) (asp : Bool) (aop : SReg) (mq nq : BitVec 5) (tok : SReg) (cv : CvReg) (afmt : BitVec 4)
  (pat : BitVec 2)
  deriving DecidableEq, Repr
structure OpAccz where (h : Hdr) (d : SReg) (a : AReg)
  deriving DecidableEq, Repr
structure OpAccrd where (h : Hdr) (d : VReg) (a : AReg) (b : SrcB)
  deriving DecidableEq, Repr
structure OpAccwr where (h : Hdr) (acc : AReg) (a : VReg) (b : SrcB)
  deriving DecidableEq, Repr
structure OpAccst where (h : Hdr) (d : SReg) (a : AReg) (b c : SReg)
  deriving DecidableEq, Repr
/-- L.CPY (R189): CPY, CPYG, CPYX, CPYC, CPYF and COLL. -/
structure OpCpy where
  (h : Hdr) (tok : SReg) (cv : CvReg) (dir : BitVec 3) (sloc scrd : SReg) (bl : Bool) (ndm1 : BitVec 3)
  (sub : BitVec 4) (obj : BitVec 16) (sbh : SReg) (efmt : BitVec 4) (rop : BitVec 2) (saux : SReg)
  deriving DecidableEq, Repr
structure OpHb where (h : Hdr) (hd : HReg) (a : SReg)
  deriving DecidableEq, Repr
structure OpHs where (h : Hdr) (hd : HReg) (st : BitVec 2)
  deriving DecidableEq, Repr
structure OpHr where (h : Hdr) (hd : HReg)
  deriving DecidableEq, Repr
/-- OBJQ (R301): `sa` is the raw SA field. -/
structure OpObjq where (h : Hdr) (d : SReg) (sa : BitVec 6) (word : BitVec 3) (mode : BitVec 2) (bl : Bool)
  deriving DecidableEq, Repr
structure OpRqrd where (h : Hdr) (d a : SReg) (off : BitVec 7)
  deriving DecidableEq, Repr
structure OpRqwr where (h : Hdr) (a b : SReg) (off : BitVec 7) (w : Bool)
  deriving DecidableEq, Repr
structure OpRqbind where (h : Hdr) (a : VReg) (unb : Bool)
  deriving DecidableEq, Repr
structure OpSI where (h : Hdr) (a : SReg) (imm : Imm16)
  deriving DecidableEq, Repr
/-- L.KV, KVAPND (R191). -/
structure OpKvapnd where (h : Hdr) (tok sq sa : SReg) (layer : BitVec 2) (nrows : BitVec 9)
  deriving DecidableEq, Repr
/-- L.KV, KVSEL (R191). -/
structure OpKvsel where
  (h : Hdr) (tok sq sa sb : SReg) (layer : BitVec 2) (ovr : Bool) (cs cw ck : BitVec 16)
  deriving DecidableEq, Repr
/-- L.KV, KVPF (R191). -/
structure OpKvpf where
  (h : Hdr) (tok sq sb : SReg) (layer tsel : BitVec 2) (dm1 : BitVec 3) (list : Bool) (ring rnm1 : BitVec 6)
  deriving DecidableEq, Repr
/-- L.ATTN (R190). -/
structure OpAttn where
  (h : Hdr) (acc : AReg) (tq : TReg) (shm : SReg) (mq : BitVec 5) (head : BitVec 6) (layer : BitVec 2) (clr : Bool)
  (tok : SReg) (cv : CvReg) (vrows : BitVec 9)
  deriving DecidableEq, Repr
structure OpAttnf where (h : Hdr) (d : SReg) (t : TReg) (b c : SReg)
  deriving DecidableEq, Repr

/-! Operands of the table's events: steps that an engine, the scheduler, a host or the fabric takes. -/

/-- A group by the model's team key and its slot number `%gid`. -/
structure GRef where (team gid : Nat)
  deriving DecidableEq, Repr

/-- A host command to a context through a port (CTXCMD, R361), or an access of the context's W1 region (R362). -/
structure CtxOp where (port ctx : Nat)
  deriving DecidableEq, Repr

/-- A disposition written through FQACK (R387, R389). -/
structure AckOp where (port ctx index : Nat)
  deriving DecidableEq, Repr

/-- The host's side of an access: its port and the function (R356). -/
structure HostFn where (port fn : Nat)
  deriving DecidableEq, Repr

/-- An access of a register through a function's window: 0 is W0, 1 is W1 (R356); the byte offset in it. -/
structure RegOp where (port fn win off : Nat)
  deriving DecidableEq, Repr

/-- An access of a W2 aperture: port, function and byte offset (R365). -/
structure W2Op where (port fn off : Nat)
  deriving DecidableEq, Repr

/-- Operations of a fabric request (R366). An atomic carries the operands of the lanes that were merged, lowest lane first (R265). -/
inductive FabOp where
  | read (off size : Nat)
  | write (off : Nat) (data : List Byte)
  | atom (off : Nat) (op ty : BitVec 3) (vals : List Word64)
  | cas (off : Nat) (wide : Bool) (vals : List (Word64 × Word64))
  | redst (off : Nat) (op ty : BitVec 3) (vals : List Word64)
  | mbsend (name : BitVec 32) (msg : Word64)
  deriving DecidableEq, Repr

/-- An incoming request: the port that it comes in by, sending chip, the sender's tag and JOINTAG, the operation. -/
structure FabReqOp where (port chip tag : Nat) (join : BitVec 32) (op : FabOp)
  deriving DecidableEq, Repr

/-- A response to an outgoing request: success with data, or a refusal with the target's reason (R432). -/
inductive FabAns where
  | ok (data : List Byte)
  | nack (reason : BitVec 8)
  | full
  deriving DecidableEq, Repr

/-- What a soft error does to a line on its way home (R417, R418). -/
inductive LineFail where
  | none | data | metadata
  deriving DecidableEq, Repr

/-- Throttle inputs: has package power been above 2,600 W for 1 ms, is T1 insufficient, the hottest junction (R373). -/
structure ThrOp where (power insuff : Bool) (tj : BitVec 8)
  deriving DecidableEq, Repr

/-- The outcome of a power-on phase (R369, R370, R436): the image read, whether training succeeds and whether the two signatures
verify under the fused keys, the digests of the ROM loader and of the configuration, and those of later updates (R371). -/
structure BootOp where
  (image : List Byte) (flashOk trainOk ed25519 mldsa : Bool) (romDigest cfgDigest : BitVec 384) (updates : List (BitVec 384))
  deriving DecidableEq, Repr

end Sys2Proof
end

