-- ==== Sys2Proof/Syntax.lean ====
section
/-! DEFINITION. The instructions and events of spec/opcode_table.json: one constructor per row. The first
194 rows are the words of the instruction stream (R204); the rest are the steps that the machine's other
agents take (95_what_each_step_holds.md). -/

namespace Sys2Proof

inductive Instr where
  -- control, threads, convergence (R214, R216)
  | nop (o : Op0)
  | bra (o : OpI)
  | brx (o : OpV)
  | bru (o : OpT)
  | call (o : OpCall)
  | ret (o : OpV)
  | exit (o : Op0)
  | reform (o : Op0)
  | spawn (o : OpT)
  | join (o : Op0)
  | elect (o : OpP)
  | yield (o : Op0)
  | cvset (o : OpCvSet)
  | cvsign (o : OpCv)
  -- traps, hints (R219)
  | prefi (o : OpPrefi)
  | idempBegin (o : Op0)
  | idempEnd (o : Op0)
  | trap (o : OpI)
  | trapfence (o : Op0)
  | bkpt (o : OpI)
  -- events, mailboxes, barriers, waits (R223, R226, R228, R231)
  | evbind (o : OpEvBind)
  | evmask (o : OpEvMask)
  | waitany (o : OpWaitAny)
  | evclr (o : OpX)
  | evpoll (o : OpEvPoll)
  | evraise (o : OpSS)
  | mbsend (o : OpSSS)
  | mbrecv (o : OpMbRecv)
  | bararv (o : OpBarArv)
  | barwt (o : OpB)
  | barsync (o : OpB)
  | diebar (o : OpDb)
  | gridbar (o : Op0)
  | waitc (o : OpWaitC)
  | fence (o : OpFence)
  -- integer (R232)
  | iadd (o : Alu2)
  | isub (o : Alu2)
  | iadd3 (o : Alu3)
  | imul (o : Alu2)
  | imulh (o : Alu2)
  | imad (o : Alu3)
  | imadw (o : Alu3)
  | idiv (o : Alu2)
  | irem (o : Alu2)
  | imin (o : Alu2)
  | imax (o : Alu2)
  | iabs (o : Alu1)
  | ineg (o : Alu1)
  | idp4 (o : OpIdp4)
  | and (o : Alu2)
  | or (o : Alu2)
  | xor (o : Alu2)
  | andn (o : Alu2)
  | not (o : Alu1)
  | shl (o : Alu2)
  | shr (o : Alu2)
  | sar (o : Alu2)
  | rotl (o : Alu2)
  | bfe (o : Alu2)
  | bfi (o : Alu3)
  | popc (o : Alu1)
  | clz (o : Alu1)
  | ctz (o : Alu1)
  | brev (o : Alu1)
  | prmt (o : Alu3)
  | isetp (o : OpSetp)
  | isel (o : OpISel)
  | lea (o : OpLea)
  | iadd64 (o : OpIAdd64)
  | mov (o : Alu1)
  | movi (o : OpMovi)
  | movs (o : OpMovs)
  | movu (o : OpMovu)
  | plop3 (o : OpPlop3)
  | pmov (o : OpPmov)
  -- uniform (R236)
  | uadd (o : U2)
  | usub (o : U2)
  | umul (o : U2)
  | uand (o : U2)
  | uor (o : U2)
  | uxor (o : U2)
  | ushl (o : U2)
  | ushr (o : U2)
  | umov (o : OpSd)
  | umovi (o : OpUmovi)
  | usel (o : OpUsel)
  | ucmp (o : OpUcmp)
  | ufrom (o : OpUfrom)
  | ulea (o : OpUlea)
  -- system (R237)
  | movc (o : OpMovc)
  | movcw (o : OpMovcw)
  | clkr (o : OpClkr)
  | perfr (o : OpPerfr)
  | ecall (o : OpEcall)
  | launch (o : OpLaunch)
  -- floating point (R244, R246, R247, R248, R249)
  | fadd (o : F2)
  | fsub (o : F2)
  | fmul (o : F2)
  | ffma (o : F3)
  | fmin (o : F2)
  | fmax (o : F2)
  | fsetp (o : OpSetp)
  | frnd (o : OpFrnd)
  | fclass (o : Un)
  | h2add (o : OpH2)
  | h2mul (o : OpH2)
  | h2fma (o : OpH3)
  | h2min (o : OpH2)
  | h2max (o : OpH2)
  | h2setp (o : OpH2Setp)
  | frcp (o : Un)
  | frsq (o : Un)
  | fsqrt (o : Un)
  | fexp2 (o : Un)
  | flog2 (o : Un)
  | fsin (o : Un)
  | fcos (o : Un)
  | ftanh (o : Un)
  | act (o : Un)
  | actld (o : OpSd)
  | actsel (o : OpI)
  -- conversions (R250 to R253)
  | cvt (o : OpCvt)
  | cvtq (o : OpCvtq)
  | cvtdq (o : OpCvtdq)
  | mxq (o : OpMxq)
  | mxdq (o : OpMxdq)
  | rngs (o : OpRngs)
  -- cross-lane (R254 to R257)
  | shfl (o : OpShfl)
  | vote (o : OpVote)
  | redl (o : OpRedl)
  | scanl (o : OpRedl)
  | matchL (o : OpMatch)
  | packl (o : OpPackl)
  -- memory and atomics (R258 to R270)
  | ld (o : OpMem)
  | st (o : OpMem)
  | lds (o : OpLds)
  | sts (o : OpLds)
  | ldc (o : OpLdc)
  | uld (o : OpUld)
  | atom (o : OpAtom)
  | atoms (o : OpAtom)
  | redst (o : OpRedst)
  | cas (o : OpCas)
  | sxsect (o : OpSxsect)
  | cctl (o : OpCctl)
  | prefd (o : OpPrefd)
  -- tiles and matrix (R274, R277 to R285)
  | tcfg (o : OpTcfg)
  | tzero (o : OpTz)
  | tld (o : OpTl)
  | tst (o : OpTl)
  | ttrn (o : OpTt)
  | mma (o : OpMma)
  | mmas (o : OpMma)
  | accz (o : OpAccz)
  | acccvt (o : OpAcccvt)
  | accrd (o : OpAccrd)
  | accwr (o : OpAccwr)
  | accst (o : OpAccst)
  -- copies, handles, collectives (R288 to R305)
  | cpy (o : OpCpy)
  | cpyg (o : OpCpy)
  | cpyx (o : OpCpy)
  | cpyc (o : OpCpy)
  | cpyf (o : OpCpy)
  | hbind (o : OpHb)
  | hset (o : OpHs)
  | hwait (o : OpHs)
  | hrel (o : OpHr)
  | coll (o : OpCpy)
  | objq (o : OpObjq)
  -- requests (R307)
  | rqadmit (o : OpSd)
  | rqstep (o : OpD)
  | rqretire (o : OpSd)
  | rqrd (o : OpRqrd)
  | rqwr (o : OpRqwr)
  | rqwrEmit (o : OpSS)
  | rqbind (o : OpRqbind)
  | rqflagCancel (o : OpS)
  | rqflagFault (o : OpSI)
  | rqevict (o : OpS)
  -- key-value pages and attention (R312 to R326)
  | kvapnd (o : OpKvapnd)
  | kvseal (o : OpSd)
  | kvsel (o : OpKvsel)
  | kvpf (o : OpKvpf)
  | attn (o : OpAttn)
  | attnv (o : OpAttn)
  | attnf (o : OpAttnf)
  | kvwashReq (o : OpSd)
  | kvwashPage (o : OpSd)
  | kvtierHbm (o : OpSd)
  | kvtierLp (o : OpSd)
  | kvmap (o : OpSSS)
  | kvrebld (o : OpSd)
  | kvfree (o : OpSd)
  | pWord (a b : Half)
  -- events of the machine's own
  | loadDataArrival (g : GRef) (id : Nat)
  | splitDataArrival (g : GRef) (lane : Nat)
  | commandCompletion (cmd : Nat)
  | matrixCommandStart (core : Nat)
  | attnArrayStart (core : Nat)
  | filingRetry (g : GRef) (lane : Nat)
  | binAgeExpiry (core bin : Nat)
  | binLaunch (core bin : Nat)
  | groupEnd (g : GRef)
  | eventTimerExpiry (g : GRef) (ev : Nat)
  | waitanyTimeout (g : GRef)
  | swEventDelivery (id : Nat)
  | mailboxDelivery (id : Nat)
  | icacheFill (core seq : Nat)
  | sauApply (id : Nat)
  | pageWalk (core ctx : Nat) (va : Word64)
  | lineWriteBack (l2 : Bool) (unit line : Nat) (evict : Bool) (fail : LineFail)
  | hotLineIdle (die line : Nat)
  | wheelTurn (md : Nat) (lp : Bool)
  | teamPlacement
  | starvationLimit (ctx queue : Nat)
  | depWordPoll (ctx queue : Nat)
  | autoPreempt
  | drainDeadline (team : Nat)
  | flushRestart (team : Nat)
  | teamSave (team : Nat)
  | teamResume (team : Nat)
  | chainFill (cmd : Nat) (soft : Bool)
  | pageAllocation (cmd : Nat)
  | evictionMove (ctx handle : Nat)
  | tailReturnMove (ctx handle : Nat)
  | washEvaluation (ctx handle : Nat)
  | washDemotion (ctx handle : Nat)
  | coldMove (ctx handle : Nat)
  | collTimeout (cmd : Nat)
  | fabricTimeout (id : Nat)
  | fabricRequest (r : FabReqOp)
  | throttleChange (o : ThrOp)
  | powerGate (core : Nat)
  | attestationReportReady
  | watchdogNotice (g : GRef)
  | faultRecordWrite (ctx : Nat)
  | takeoverTimeout (ctx : Nat)
  | ctxcmdCompletion (ctx : Nat)
  -- parity, collectives, the fabric, power-on, hosts
  | parityContribution (ctx block : Nat)
  | parityXorOut (ctx block : Nat)
  | parityAck (ctx member block : Nat) (out : Bool) (data : List Byte)
  | parityBlockRequest (ctx member block : Nat) (blocks : List (Nat × List Byte))
  | pageRebuild (ctx handle : Nat) (blocks : List (List Byte)) (avail : Bool)
  | collNotice (cmd peer : Nat)
  | collPull (cmd peer : Nat) (inbound : Bool) (data : List Byte)
  | fabricResponse (id : Nat) (a : FabAns)
  | pauseFlit (port cls : Nat)
  | resumeFlit (port cls : Nat)
  | linkDown (port : Nat)
  | linkUp (port : Nat)
  | pcieLinkDown (port : Nat)
  | powerOn
  | bootPhaseComplete (o : BootOp)
  | create (o : CtxOp) (priv : Bool)
  | destroy (o : CtxOp)
  | hold (o : CtxOp)
  | resume (o : CtxOp)
  | inval (o : CtxOp)
  | takeover (o : CtxOp)
  | deny (o : CtxOp)
  | lose (o : CtxOp)
  | reseal (o : CtxOp)
  | launchWindowGo (o : CtxOp) (queue : Nat)
  | hmqRead (o : CtxOp)
  | ecallReply (o : CtxOp) (val : Word64)
  | hostMailboxWrite (o : CtxOp) (vcore mbn : Nat) (val : Word64)
  | fqackReplay (o : AckOp)
  | fqackSkip (o : AckOp)
  | fqackExit (o : AckOp)
  | fqackEndteam (o : AckOp)
  | fqackEndgrid (o : AckOp)
  | fqackContinue (o : AckOp)
  | attcmdGo
  | thrcapWrite (val : Word64)
  | bwAllotmentWrite (off : Nat) (val : Word64)
  | w2Read (o : W2Op) (n : Nat)
  | w2Write (o : W2Op) (data : List Byte) (poisoned : Bool)
  | registerWrite (h : HostFn) (win off : Nat) (val : Word64)
  deriving DecidableEq, Repr

end Sys2Proof
end

