-- ==== Sys2Proof/WellFormed.lean ====
section
/-! DEFINITION. Which instructions are well formed under a kernel's declarations: the fields that the instruction
does not use are zero (`mods`, check 4 of R205), every field holds a value in its range (`range`, check 5), every
register lies inside its class and below its limit (`regs`, check 7), and the two halves of a P word may be paired
(`mul`, check 6, and `banks`, check 8). -/

namespace Sys2Proof

/-- The declarations that bound register names (R181). -/
structure Limits where
  regs   : Nat
  tiles  : Nat
  accs   : Nat
  cvregs : Nat
  nbar   : Nat
  deriving DecidableEq, Repr

/-- The limits of a kernel that declares the most (R30). -/
def Limits.most : Limits := ⟨256, 8, 4, 16, 16⟩

/-- What the decoder checks of an instruction, in the order of R205. -/
structure Checks where
  mods  : Bool := true
  range : Bool := true
  mul   : Bool := true
  regs  : Bool := true
  banks : Bool := true
  deriving DecidableEq, Repr

def Checks.all (c : Checks) : Bool := c.mods && c.range && c.mul && c.regs && c.banks

/-- A v-register below `.regs` (R181). -/
def Limits.v (L : Limits) (r : VReg) : Bool := decide (r.toNat < L.regs)

/-- An even v pair below `.regs` (R181). -/
def Limits.vp (L : Limits) (r : VReg) : Bool := decide (r.toNat % 2 = 0 ∧ r.toNat + 1 < L.regs)

/-- A v-register, or the lower of a pair when `w`. -/
def Limits.vw (L : Limits) (w : Bool) (r : VReg) : Bool := if w then L.vp r else L.v r

def Limits.t (L : Limits) (r : TReg) : Bool := decide (r.toNat < L.tiles)
def Limits.a (L : Limits) (r : AReg) : Bool := decide (r.toNat < L.accs)
def Limits.cv (L : Limits) (r : CvReg) : Bool := decide (r.toNat < L.cvregs)
def Limits.b (L : Limits) (r : BReg) : Bool := decide (r.toNat < L.nbar)

/-- SB as a v-register of width `w` where it names one. -/
def Limits.src (L : Limits) (w : Bool) : SrcB → Bool
  | .v r => L.vw w r
  | .s _ => true
  | .imm _ => true

/-- The immediate form is absent. -/
def SrcB.noImm : SrcB → Bool
  | .imm _ => false
  | .v _ => true
  | .s _ => true

/-- The v-register form, the only one. -/
def SrcB.isV : SrcB → Bool
  | .v _ => true
  | .s _ => false
  | .imm _ => false

def GAddr.regs (L : Limits) : GAddr → Bool
  | .off p _ => L.vp p
  | .idx _ v _ _ => L.v v
  | .plain p => L.vp p
  | .split p _ => L.vp p

namespace Wf

/-- The immediate and U forms of R180 by shape: one source. -/
def one (L : Limits) (o : Alu1) (sat : Bool) : Checks :=
  { mods := sat || !o.sat, regs := L.v o.d && L.v o.a }

def two (L : Limits) (o : Alu2) (n sat : Bool) : Checks :=
  { mods := (n || !o.n) && (sat || !o.sat), regs := L.v o.d && L.v o.a && L.src false o.b }

def three (L : Limits) (o : Alu3) (n sat wide : Bool) : Checks :=
  { mods := o.b.noImm && (n || !o.n) && (sat || !o.sat),
    regs := L.vw wide o.d && L.v o.a && L.src false o.b && L.vw wide o.c }

def setp (L : Limits) (o : OpSetp) (n : Bool) (conds : Nat) : Checks :=
  { mods := n || !o.n, range := decide (o.cond.toNat < conds), regs := L.v o.a && L.src false o.b }

/-- ATOM and ATOMS (R263): the accepted operations and types. -/
def atomPair (op ty : BitVec 3) : Bool :=
  match op.toNat with
  | 0 | 1 | 2 => decide (ty.toNat < 6)
  | 3 | 4 | 5 => decide (ty.toNat < 3)
  | 6 => decide (ty.toNat < 4)
  | _ => decide (ty.toNat = 1)

def atom (L : Limits) (o : OpAtom) (shared : Bool) : Checks :=
  { mods := o.b.noImm && (!o.nr || decide (o.d = 0)),
    range := atomPair o.op o.ty && decide (o.scope.toNat < 5),
    regs := (o.nr || L.vw (decide (o.ty = 2)) o.d) && L.vw (!shared) o.a && L.src (decide (o.ty = 2)) o.b }

def mem (L : Limits) (o : OpMem) : Checks :=
  { mods := decide (o.mfmt = 0) || !o.w,
    range := match o.a with | .split _ j => decide (j ≠ 0) | .off _ _ => true | .idx _ _ _ _ => true | .plain _ => true,
    regs := L.vw o.w o.d && o.a.regs L }

def lds (L : Limits) (o : OpLds) : Checks :=
  { mods := decide (o.mfmt = 0) || !o.w, regs := L.vw o.w o.d && L.v o.a }

/-- R277: the operand pairs of MMA. -/
def mmaPair (a b : Nat) (ints : Bool) : Bool :=
  let f := fun (x : Nat) => decide (x = 2 ∨ x = 3)
  let h := fun (x : Nat) => decide (x < 2)
  let m := fun (x : Nat) => decide (4 ≤ x ∧ x ≤ 9)
  let i := fun (x : Nat) => decide (x = 10 ∨ x = 11)
  (((f a && f b) || (h a && h b) || (m a && m b)) && !ints) || (i a && i b)

/-- The k-step of an MMA (R277). -/
def kstep (a : Nat) : Nat := if a < 2 then 16 else 32

def mma (L : Limits) (o : OpMma) (sparse : Bool) : Checks :=
  let a := o.afmt.toNat
  { mods := (o.saen || decide (o.sas = 0)) && (o.sben || decide (o.sbs = 0)) &&
      (sparse || (decide (o.pat = 0) && decide (o.smeta = 0))),
    range := decide (o.mq.toNat ≤ 16) && decide (o.nq.toNat ≤ 24) && decide (o.kq.toNat ≤ 128) &&
      mmaPair a o.bfmt.toNat o.atyp && (decide (o.kq.toNat ≤ 64) || decide (kstep a = 16)) &&
      (!(o.saen || o.sben) || decide (128 % ((o.pm1.toNat + 1) * kstep a) = 0)) &&
      (!(decide (4 ≤ a) && decide (a ≤ 9)) || decide (o.pm1 = 0)) && decide (o.pat ≠ 3),
    regs := L.a o.acc && (o.asp || decide (o.aop.toNat < L.tiles)) && (o.bsp || decide (o.bop.toNat < L.tiles)) &&
      L.cv o.cv }

/-- R284: the roundings of each ACCCVT format. -/
def cvtRound (f p : Nat) : Bool :=
  if f ≤ 3 then decide (p < 3) else if f ≤ 9 then decide (p = 0 ∨ p = 2) else decide (f ≤ 13 ∧ p = 0)

def acccvt (L : Limits) (o : OpAcccvt) : Checks :=
  let f := o.afmt.toNat
  { range := decide (o.mq.toNat ≤ 16) && decide (o.nq.toNat ≤ 24) && cvtRound f o.pat.toNat &&
      (!(decide (4 ≤ f) && decide (f ≤ 9)) || decide (o.nq.toNat % 2 = 0)),
    regs := L.a o.acc && (o.asp || decide (o.aop.toNat < L.tiles)) && L.cv o.cv }

/-- The L.CPY fields that the copies leave unused (R189, R288, R296), and those every copy checks. `noObj`: the
instruction reads no object entry. -/
def cpyBase (L : Limits) (o : OpCpy) (noSloc noObj sub aux : Bool) : Checks :=
  { mods := (!noSloc || decide (o.sloc = 0)) && decide (o.rop = 0) && (sub || decide (o.sub = 0)) &&
      (aux || decide (o.saux = 0)) &&
      (if noObj then decide (o.obj = 0) && !o.bl && decide (o.sbh = 0)
       else if o.bl then decide (o.obj = 0) else decide (o.sbh = 0)),
    range := decide (o.dir.toNat < 7) && decide (o.ndm1.toNat < 5) && decide (o.efmt.toNat < 14) &&
      decide (o.sub.toNat < 3),
    regs := L.cv o.cv }

/-- NDM1 of DIR 4 and 5, which read no box, is not checked: R288 lists what is reserved there, and it is not in the list (log entry 11). -/
def cpy (L : Limits) (o : OpCpy) : Checks :=
  cpyBase L o (decide (o.dir = 6)) (decide (o.dir = 4) || decide (o.dir = 5)) false false

def cpyg (L : Limits) (o : OpCpy) : Checks :=
  let c := cpyBase L o (decide (o.dir = 6)) false false true
  { c with range := c.range && (decide (o.dir = 0) || decide (o.dir = 2)) && decide (o.ndm1 = 1) }

/-- CPYX and CPYC; a direction that R294 and R295 forbid faults when the command executes. -/
def cpyx (L : Limits) (o : OpCpy) : Checks :=
  cpyBase L o (decide (o.dir = 6)) false true false

def cpyf (L : Limits) (o : OpCpy) : Checks :=
  let c := cpyBase L o (decide (o.dir = 1)) (decide (o.dir = 0) || decide (o.dir = 2)) false true
  { c with range := c.range && decide (o.dir.toNat < 3) }

/-- ROP is not checked under the SUB codes 2 and 3, which reduce nothing (log entry 95). -/
def coll (L : Limits) (o : OpCpy) : Checks :=
  { mods := decide (o.dir = 0) && decide (o.sloc = 0) && !o.bl && decide (o.ndm1 = 0) && decide (o.obj = 0) &&
      decide (o.sbh = 0) && decide (o.efmt = 0) && decide (o.saux = 0),
    range := decide (o.sub.toNat < 4), regs := L.cv o.cv }

/-- R76: the reserved bits and the forbidden combination of a mailbox name. -/
def mboxResv (x : Nat) : Bool := decide (bitsN x 7 5 ≠ 0) || decide (bitsN x 31 26 ≠ 0)
def mboxBoth (x : Nat) : Bool := bitN x 14 && bitN x 15

def launch (o : OpLaunch) : Checks :=
  { mods := (!o.rq || decide (o.sgrid = 0)) && (decide (o.dep ≠ 0) || decide (o.sdep = 0)) &&
      (if bitN o.cmpl.toNat 1 then !mboxResv o.mbox.toNat else decide (o.mbox = 0)),
    range := decide (o.dieMask ≠ 0) && decide (o.dep ≠ 3) && !(bitN o.cmpl.toNat 1 && mboxBoth o.mbox.toNat) }

/-- R250: the width classes of CVT's types. -/
def cvtFloat (t : Nat) : Bool := decide (t < 5)

def cvt (L : Limits) (o : OpCvt) : Checks :=
  let d := o.dt.toNat
  let s := o.st.toNat
  let r := o.rm.toNat
  { mods := decide (o.rm = 4) || decide (o.c = 0),
    range := decide (r < 5) && decide (d < 11) && decide (s < 11) && decide (d ≠ s) &&
      (if cvtFloat s then (cvtFloat d || decide (r < 4)) else (!cvtFloat d || decide (r = 0))),
    regs := L.v o.d && L.v o.a && (decide (o.rm ≠ 4) || L.v o.c) }

/-- R251: how many elements of the format fit in 32 bits. -/
def cvtqN (f : Nat) : Nat := if f < 2 then 2 else if f < 6 then 4 else if f = 6 then 8 else 0

def fmtq (fmt pos : BitVec 3) : Bool := decide (pos.toNat < cvtqN fmt.toNat)

def redl (L : Limits) (o : OpRedl) (scan : Bool) : Checks :=
  { mods := scan || !o.ex,
    range := decide (o.op.toNat < 6) && decide (o.ty.toNat < 3) && !(decide (3 ≤ o.op.toNat) && decide (o.ty = 2)),
    regs := L.v o.d && L.v o.a }

/-- R192, R193: the fields of one half. -/
def halfMods (x : Half) : Bool :=
  match x.hop with
  | .movi => decide (x.s = 0)
  | .h2add | .h2mul | .h2min | .h2max => decide (x.m.toNat < 4)
  | _ => decide (x.m.toNat < 2)

def Half.useS (x : Half) : Bool := decide (x.hop ≠ .movi)
def Half.sv (x : Half) : Bool := Half.useS x && !(x.m.getLsbD 0)
def Half.mul (x : Half) : Bool := decide (x.hop = .imul) || decide (x.hop = .fmul)
def halfRegs (L : Limits) (x : Half) : Bool :=
  L.v x.d && (if Half.sv x then L.v x.s else !(Half.useS x) || decide (x.s.toNat < 64))

def pword (L : Limits) (a b : Half) : Checks :=
  { mods := halfMods a && halfMods b, mul := !(Half.mul a && Half.mul b), regs := halfRegs L a && halfRegs L b,
    banks := decide (a.d.toNat % 4 ≠ b.d.toNat % 4) &&
      !(Half.sv a && Half.sv b && decide (a.s.toNat % 4 = b.s.toNat % 4)) }

/-- The checks of each instruction. Events are no words: all of theirs hold. -/
def checks (L : Limits) : Instr → Checks
  | .nop _ => {}
  | .bra _ => {}
  | .brx o => { regs := L.vp o.a }
  | .bru _ => {}
  | .call o => { regs := L.vp o.d && (match o.t with | .rel _ => true | .v r => L.vp r) }
  | .ret o => { regs := L.vp o.a }
  | .exit _ => {}
  | .reform _ => {}
  | .spawn _ => {}
  | .join _ => {}
  | .elect _ => {}
  | .yield _ => {}
  | .cvset o => { regs := L.cv o.cv }
  | .cvsign o => { regs := L.cv o.cv }
  | .prefi _ => {}
  | .idempBegin _ => {}
  | .idempEnd _ => {}
  | .trap _ => {}
  | .trapfence _ => {}
  | .bkpt _ => {}
  | .evbind o => { range := decide (o.kind.toNat < 9) }
  | .evmask o => { range := decide (o.op ≠ 3) }
  | .waitany o => { mods := o.tmo || decide (o.timeout = 0), range := !o.tmo || decide (o.timeout ≠ 0) }
  | .evclr _ => {}
  | .evpoll _ => {}
  | .evraise _ => {}
  | .mbsend _ => {}
  | .mbrecv _ => {}
  | .bararv o => { regs := L.b o.b }
  | .barwt o => { regs := L.b o.b }
  | .barsync o => { regs := L.b o.b }
  | .diebar _ => {}
  | .gridbar _ => {}
  | .waitc _ => {}
  | .fence o => { range := decide (o.kind ≠ 3) && decide (o.scope.toNat < 5) }
  | .iadd o => two L o true true
  | .isub o => two L o true true
  | .iadd3 o => three L o true true false
  | .imul o => two L o true true
  | .imulh o => two L o true false
  | .imad o => three L o true true false
  | .imadw o => three L o true false true
  | .idiv o => two L o true false
  | .irem o => two L o true false
  | .imin o => two L o true false
  | .imax o => two L o true false
  | .iabs o => one L o true
  | .ineg o => one L o true
  | .idp4 o => { mods := o.b.noImm, regs := L.v o.d && L.v o.a && L.src false o.b && L.v o.c }
  | .and o => two L o false false
  | .or o => two L o false false
  | .xor o => two L o false false
  | .andn o => two L o false false
  | .not o => one L o false
  | .shl o => two L o false false
  | .shr o => two L o false false
  | .sar o => two L o false false
  | .rotl o => two L o false false
  | .bfe o => two L o true false
  | .bfi o => three L o false false false
  | .popc o => one L o false
  | .clz o => one L o false
  | .ctz o => one L o false
  | .brev o => one L o false
  | .prmt o => three L o false false false
  | .isetp o => setp L o true 6
  | .isel o => { mods := o.b.noImm, regs := L.v o.d && L.v o.a && L.src false o.b }
  | .lea o => { mods := o.b.noImm, regs := L.vp o.d && L.v o.a && L.src true o.b }
  | .iadd64 o => { regs := L.vp o.d && L.vp o.a && L.src true o.b }
  | .mov o => one L o false
  | .movi o => { regs := L.v o.d }
  | .movs o => { regs := L.v o.d && decide (o.sr.toNat < 13) }
  | .movu o => { regs := L.v o.d }
  | .plop3 o => { range := decide (o.fn ≠ 7) }
  | .pmov o => { mods := true, regs := L.v o.r }
  | .uadd _ => {}
  | .usub _ => {}
  | .umul _ => {}
  | .uand _ => {}
  | .uor _ => {}
  | .uxor _ => {}
  | .ushl _ => {}
  | .ushr _ => {}
  | .umov _ => {}
  | .umovi _ => {}
  | .usel _ => {}
  | .ucmp o => { range := decide (o.cond.toNat < 6) }
  | .ufrom o => { regs := L.vw o.w o.a }
  | .ulea _ => {}
  | .movc o => { regs := decide (o.cr.toNat < 13) }
  -- MOVCW of a register that is read only fails the decoder's check 7 (R203, log entry 76).
  | .movcw o => { regs := decide (o.cr.toNat < 11) && decide (o.cr ≠ 7) && decide (o.cr ≠ 8) }
  | .clkr _ => {}
  | .perfr _ => {}
  | .ecall _ => {}
  | .launch o => launch o
  | .fadd o => { regs := L.v o.d && L.v o.a && L.src false o.b }
  | .fsub o => { regs := L.v o.d && L.v o.a && L.src false o.b }
  | .fmul o => { regs := L.v o.d && L.v o.a && L.src false o.b }
  | .ffma o => { mods := o.b.noImm, regs := L.v o.d && L.v o.a && L.src false o.b && L.v o.c }
  | .fmin o => { mods := decide (o.rm = 0), regs := L.v o.d && L.v o.a && L.src false o.b }
  | .fmax o => { mods := decide (o.rm = 0), regs := L.v o.d && L.v o.a && L.src false o.b }
  | .fsetp o => setp L o false 8
  | .frnd o => { regs := L.v o.d && L.v o.a }
  | .fclass o => { regs := L.v o.d && L.v o.a }
  | .h2add o => { regs := L.v o.d && L.v o.a && L.src false o.b }
  | .h2mul o => { regs := L.v o.d && L.v o.a && L.src false o.b }
  | .h2fma o => { mods := o.b.noImm, regs := L.v o.d && L.v o.a && L.src false o.b && L.v o.c }
  | .h2min o => { regs := L.v o.d && L.v o.a && L.src false o.b }
  | .h2max o => { regs := L.v o.d && L.v o.a && L.src false o.b }
  | .h2setp o => { regs := decide (o.d ≠ 127) && L.v o.a && L.src false o.b }
  | .frcp o => { regs := L.v o.d && L.v o.a }
  | .frsq o => { regs := L.v o.d && L.v o.a }
  | .fsqrt o => { regs := L.v o.d && L.v o.a }
  | .fexp2 o => { regs := L.v o.d && L.v o.a }
  | .flog2 o => { regs := L.v o.d && L.v o.a }
  | .fsin o => { regs := L.v o.d && L.v o.a }
  | .fcos o => { regs := L.v o.d && L.v o.a }
  | .ftanh o => { regs := L.v o.d && L.v o.a }
  | .act o => { regs := L.v o.d && L.v o.a }
  | .actld _ => {}
  | .actsel o => { range := decide (o.imm.toNat < 2) }
  | .cvt o => cvt L o
  | .cvtq o => { mods := o.sr || decide (o.c = 0), range := fmtq o.fmt o.pos && (!o.sr || o.b.noImm), regs := L.v o.d && L.v o.a && L.src false o.b && (!o.sr || L.v o.c) }
  | .cvtdq o => { range := fmtq o.fmt o.pos, regs := L.v o.d && L.v o.a && L.src false o.b }
  | .mxq o => { mods := o.sr || decide (o.c = 0), range := decide (4 ≤ o.fmt.toNat) && decide (o.fmt.toNat ≤ 9), regs := L.vp o.d && L.v o.a && (!o.sr || L.v o.c) }
  | .mxdq o => { mods := o.b.noImm, range := decide (4 ≤ o.fmt.toNat) && decide (o.fmt.toNat ≤ 9), regs := L.v o.d && L.v o.a && L.src false o.b }
  | .rngs o => { regs := L.v o.d && L.v o.a && L.src false o.b }
  | .shfl o => { mods := (o.vp && o.b.noImm) || decide (o.c = 0), regs := L.v o.d && L.v o.a && L.src false o.b }
  | .vote _ => {}
  | .redl o => redl L o false
  | .scanl o => redl L o true
  | .matchL o => { regs := L.v o.d && L.vw o.w o.a }
  | .packl o => { mods := o.c || decide (o.sc = 0), regs := L.v o.d && L.v o.a }
  | .ld o => mem L o
  | .st o => mem L o
  | .lds o => lds L o
  | .sts o => lds L o
  | .ldc o => { regs := L.vw o.w o.d && L.v o.a }
  | .uld o => { regs := L.vp o.a }
  | .atom o => atom L o false
  | .atoms o => atom L o true
  | .redst o => { mods := o.b.isV, range := decide (o.op.toNat < 3) && decide (o.ty.toNat < 6) &&
      (decide (o.scope = 3) || decide (o.scope = 4)), regs := L.vp o.a && L.src (decide (o.ty = 2)) o.b }
  | .cas o => { mods := o.b.noImm, range := decide (o.scope.toNat < 5), regs := L.vw o.w o.d && L.vp o.a && L.src o.w o.b && L.vw o.w o.c }
  | .sxsect o => { mods := o.emit || decide (o.m1 = 0), range := !(o.lo && o.emit), regs := L.v o.d && L.vp o.a && L.vp o.b && L.vp o.c }
  | .cctl o => { range := decide (o.op ≠ 3), regs := L.vp o.a }
  | .prefd o => { range := decide (o.lvl ≠ 3), regs := L.vp o.a }
  | .tcfg o => { regs := L.t o.tc }
  | .tzero o => { regs := L.t o.t }
  | .tld o => { regs := L.t o.t }
  | .tst o => { regs := L.t o.t }
  | .ttrn o => { regs := L.t o.d && L.t o.a }
  | .mma o => mma L o false
  | .mmas o => mma L o true
  | .accz o => { regs := L.a o.a }
  | .acccvt o => acccvt L o
  | .accrd o => { mods := o.b.noImm, regs := L.v o.d && L.a o.a && L.src false o.b }
  | .accwr o => { mods := o.b.noImm, regs := L.a o.acc && L.v o.a && L.src false o.b }
  | .accst o => { regs := L.a o.a }
  | .cpy o => cpy L o
  | .cpyg o => cpyg L o
  | .cpyx o => cpyx L o
  | .cpyc o => cpyx L o
  | .cpyf o => cpyf L o
  | .hbind _ => {}
  | .hset _ => {}
  | .hwait _ => {}
  | .hrel _ => {}
  | .coll o => coll L o
  | .objq o => { mods := !o.bl || decide (o.mode = 1) || decide (o.mode = 3), range := decide (o.mode ≠ 3), regs := decide (o.mode ≠ 2) || decide (o.sa.toNat < L.tiles) }
  | .rqadmit _ => {}
  | .rqstep _ => {}
  | .rqretire _ => {}
  | .rqrd o => { range := decide (o.off.toNat % 8 = 0) }
  | .rqwr o => { range := if o.w then decide (o.off.toNat % 8 = 0) else decide (o.off.toNat % 4 = 0) }
  | .rqwrEmit _ => {}
  | .rqbind o => { mods := !o.unb || decide (o.a = 0), regs := o.unb || L.v o.a }
  | .rqflagCancel _ => {}
  | .rqflagFault o => { range := decide (1 ≤ o.imm.toNat) && decide (o.imm.toNat ≤ 255) }
  | .rqevict _ => {}
  | .kvapnd o => { range := decide (1 ≤ o.nrows.toNat) && decide (o.nrows.toNat ≤ 256) }
  | .kvseal _ => {}
  | .kvsel o => { mods := o.ovr || (decide (o.cs = 0) && decide (o.cw = 0) && decide (o.ck = 0)) }
  | .kvpf o => { range := decide (o.tsel ≠ 0) }
  | .attn o => { range := decide (o.mq.toNat ≤ 16) && decide (o.vrows.toNat ≤ 16 * o.mq.toNat), regs := L.t o.tq && L.cv o.cv }
  | .attnv o => { range := decide (o.mq.toNat ≤ 16) && decide (o.vrows.toNat ≤ 16 * o.mq.toNat), regs := L.t o.tq && L.cv o.cv }
  | .attnf o => { regs := L.t o.t }
  | .kvwashReq _ => {}
  | .kvwashPage _ => {}
  | .kvtierHbm _ => {}
  | .kvtierLp _ => {}
  | .kvmap _ => {}
  | .kvrebld _ => {}
  | .kvfree _ => {}
  | .pWord a b => pword L a b
  | .loadDataArrival _ _ => {}
  | .splitDataArrival _ _ => {}
  | .commandCompletion _ => {}
  | .matrixCommandStart _ => {}
  | .attnArrayStart _ => {}
  | .filingRetry _ _ => {}
  | .binAgeExpiry _ _ => {}
  | .binLaunch _ _ => {}
  | .groupEnd _ => {}
  | .eventTimerExpiry _ _ => {}
  | .waitanyTimeout _ => {}
  | .swEventDelivery _ => {}
  | .mailboxDelivery _ => {}
  | .icacheFill _ _ => {}
  | .sauApply _ => {}
  | .pageWalk _ _ _ => {}
  | .lineWriteBack _ _ _ _ _ => {}
  | .hotLineIdle _ _ => {}
  | .wheelTurn _ _ => {}
  | .teamPlacement => {}
  | .starvationLimit _ _ => {}
  | .depWordPoll _ _ => {}
  | .autoPreempt => {}
  | .drainDeadline _ => {}
  | .flushRestart _ => {}
  | .teamSave _ => {}
  | .teamResume _ => {}
  | .chainFill _ _ => {}
  | .pageAllocation _ => {}
  | .washEvaluation _ _ => {}
  | .washDemotion _ _ => {}
  | .coldMove _ _ => {}
  | .evictionMove _ _ => {}
  | .parityContribution _ _ => {}
  | .parityXorOut _ _ => {}
  | .parityAck _ _ _ _ _ => {}
  | .parityBlockRequest _ _ _ _ => {}
  | .pageRebuild _ _ _ _ => {}
  | .collNotice _ _ => {}
  | .collPull _ _ _ _ => {}
  | .collTimeout _ => {}
  | .fabricRequest _ => {}
  | .fabricResponse _ _ => {}
  | .fabricTimeout _ => {}
  | .pauseFlit _ _ => {}
  | .resumeFlit _ _ => {}
  | .linkDown _ => {}
  | .linkUp _ => {}
  | .pcieLinkDown _ => {}
  | .throttleChange _ => {}
  | .powerGate _ => {}
  | .powerOn => {}
  | .bootPhaseComplete _ => {}
  | .attestationReportReady => {}
  | .watchdogNotice _ => {}
  | .faultRecordWrite _ => {}
  | .takeoverTimeout _ => {}
  | .create _ _ => {}
  | .destroy _ => {}
  | .hold _ => {}
  | .resume _ => {}
  | .inval _ => {}
  | .takeover _ => {}
  | .deny _ => {}
  | .lose _ => {}
  | .reseal _ => {}
  | .launchWindowGo _ _ => {}
  | .hmqRead _ => {}
  | .ecallReply _ _ => {}
  | .hostMailboxWrite _ _ _ _ => {}
  | .fqackReplay _ => {}
  | .fqackSkip _ => {}
  | .fqackExit _ => {}
  | .fqackEndteam _ => {}
  | .fqackEndgrid _ => {}
  | .fqackContinue _ => {}
  | .attcmdGo => {}
  | .thrcapWrite _ => {}
  | .bwAllotmentWrite _ _ => {}
  | .w2Read _ _ => {}
  | .w2Write _ _ _ => {}
  | .registerWrite _ _ _ _ => {}
  | .ctxcmdCompletion _ => {}
  | .tailReturnMove _ _ => {}

end Wf

/-- An instruction whose word the decoder accepts under the limits. -/
def Instr.wellFormed (L : Limits) (i : Instr) : Bool := (Wf.checks L i).all

end Sys2Proof
end

