-- ==== Sys2Proof/Decode.lean ====
section
/-! DEFINITION. The decoder, total on any bytes, and the encoder, both written from R177 to R205 and the field
tables of the instruction chapters. `parse` reads the fields of a word and says which reserved bits are set (check 4
of R205), which fields are outside a stated range that the operand types cannot hold (check 5), and which register
fields are outside their class (check 7); `Wf.checks` holds the other conditions. -/

namespace Sys2Proof

/-! ## Fields -/

/-- Lays fields of the given widths one above the other, the first at bit 0. -/
def pack : List (Nat × Nat) → Nat
  | [] => 0
  | (w, x) :: r => x + 2 ^ w * pack r

/-- Reads fields of the given widths, the first from bit 0. -/
def unpack : List Nat → Nat → List Nat
  | [], _ => []
  | w :: ws, x => x % 2 ^ w :: unpack ws (x / 2 ^ w)

/-- The decoder's rejections (R205), with the order of the check that failed. -/
inductive DErr where
  | illenc (check : Nat)
  | illop
  | illreg
  | pairbank
  /-- Fewer bytes than the instruction has. -/
  | truncated
  deriving DecidableEq, Repr

/-- The fields of an F word (R179). -/
structure FW where
  op  : Nat
  h   : Hdr
  dst : Nat
  sa  : Nat
  sb  : Nat
  sc  : Nat
  mod : Nat
  deriving DecidableEq, Repr

/-- What the fields of a word say. -/
structure Parse where
  i     : Instr
  resv  : Bool := false
  range : Bool := false
  cls   : Bool := false

def mkHdr (stall pn preg : Nat) : Hdr := ⟨.ofNat 4 stall, pn == 1, .ofNat 7 preg⟩

def FW.i (f : FW) : Bool := bitN f.mod 8
def FW.u (f : FW) : Bool := bitN f.mod 7
def FW.n (f : FW) (k : Nat) : Bool := bitN f.mod k
def FW.m (f : FW) (hi lo : Nat) : Nat := bitsN f.mod hi lo
/-- The 16-bit immediate of the I form (R180). -/
def FW.imm (f : FW) : Imm16 := .ofNat 16 (f.sb * 256 + f.sc)

/-- A reserved bit is set: I or U where the form is absent, both, an unused field, a MOD range of `z` (R180, R205). -/
def FW.resv (f : FW) (iOk uOk d a b c : Bool) (z : List (Nat × Nat)) : Bool :=
  (f.i && !iOk) || (f.u && !uOk) || (f.i && f.u) ||
  (!d && decide (f.dst ≠ 0)) || (!a && decide (f.sa ≠ 0)) ||
  (!f.i && !b && !f.u && decide (f.sb ≠ 0)) || (!f.i && !c && decide (f.sc ≠ 0)) ||
  z.any (fun r => decide (f.m r.1 r.2 ≠ 0))

/-- SB by form. -/
def FW.srcB (f : FW) : SrcB :=
  if f.i then .imm f.imm else if f.u then .s (.ofNat 6 f.sb) else .v (.ofNat 8 f.sb)

/-- The operand of an instruction that takes exactly one of I and U. -/
def FW.immS (f : FW) : ImmS := if f.i then .imm f.imm else .s (.ofNat 6 f.sb)

/-- SB names an s-register outside the class. -/
def FW.clsB (f : FW) : Bool := f.u && decide (64 ≤ f.sb)

/-! ## Parsers by operand shape -/

namespace Prs

def op0 (f : FW) (c : Op0 → Instr) : Parse :=
  { i := c ⟨f.h⟩, resv := f.resv false false false false false false [(6, 0)] }

def opI (f : FW) (c : OpI → Instr) : Parse :=
  { i := c ⟨f.h, f.imm⟩, resv := f.resv true false false false false false [(6, 0)] || !f.i }

def opV (f : FW) (c : OpV → Instr) : Parse :=
  { i := c ⟨f.h, .ofNat 8 f.sa⟩, resv := f.resv false false false true false false [(6, 0)] }

def opT (f : FW) (c : OpT → Instr) : Parse :=
  { i := c ⟨f.h, f.immS⟩, resv := f.resv true true false false false false [(6, 0)] || (!f.i && !f.u), cls := f.clsB }

def opX (f : FW) (c : OpX → Instr) : Parse :=
  { i := c ⟨f.h, f.immS⟩, resv := f.resv true true false false false false [(6, 0)] || (!f.i && !f.u), cls := f.clsB }

def alu1 (f : FW) (sat : Bool) (c : Alu1 → Instr) : Parse :=
  { i := c ⟨f.h, .ofNat 8 f.dst, .ofNat 8 f.sa, f.n 1⟩,
    resv := f.resv false false true true false false ((0, 0) :: (6, 2) :: if sat then [] else [(1, 1)]) }

def alu2 (f : FW) (n sat : Bool) (c : Alu2 → Instr) : Parse :=
  { i := c ⟨f.h, .ofNat 8 f.dst, .ofNat 8 f.sa, f.srcB, f.n 0, f.n 1⟩,
    resv := f.resv true true true true true false
      ((6, 2) :: ((if n then [] else [(0, 0)]) ++ if sat then [] else [(1, 1)])),
    cls := f.clsB }

def alu3 (f : FW) (n sat : Bool) (c : Alu3 → Instr) : Parse :=
  { i := c ⟨f.h, .ofNat 8 f.dst, .ofNat 8 f.sa, f.srcB, .ofNat 8 f.sc, f.n 0, f.n 1⟩,
    resv := f.resv false true true true true true
      ((6, 2) :: ((if n then [] else [(0, 0)]) ++ if sat then [] else [(1, 1)])),
    cls := f.clsB }

def setp (f : FW) (n : Bool) (c : OpSetp → Instr) : Parse :=
  { i := c ⟨f.h, .ofNat 7 f.dst, .ofNat 8 f.sa, f.srcB, f.n 0, .ofNat 3 (f.m 4 2), .ofNat 2 (f.m 6 5)⟩,
    resv := f.resv true true true true true false ((1, 1) :: if n then [] else [(0, 0)]),
    cls := f.clsB || decide (128 ≤ f.dst) }

def f2 (f : FW) (rm : Bool) (c : F2 → Instr) : Parse :=
  { i := c ⟨f.h, .ofNat 8 f.dst, .ofNat 8 f.sa, f.srcB, .ofNat 2 (f.m 1 0)⟩,
    resv := f.resv true true true true true false ((6, 2) :: if rm then [] else [(1, 0)]), cls := f.clsB }

def h2 (f : FW) (c : OpH2 → Instr) : Parse :=
  { i := c ⟨f.h, .ofNat 8 f.dst, .ofNat 8 f.sa, f.srcB, f.n 0⟩,
    resv := f.resv true true true true true false [(6, 1)], cls := f.clsB }

def un (f : FW) (c : Un → Instr) : Parse :=
  { i := c ⟨f.h, .ofNat 8 f.dst, .ofNat 8 f.sa⟩, resv := f.resv false false true true false false [(6, 0)] }

def u2 (f : FW) (c : U2 → Instr) : Parse :=
  { i := c ⟨f.h, .ofNat 6 f.dst, .ofNat 6 f.sa, f.immS, f.n 0⟩,
    resv := f.resv true false true true true false [(6, 1)],
    cls := decide (64 ≤ f.dst) || decide (64 ≤ f.sa) || (!f.i && decide (64 ≤ f.sb)) }

def sss (f : FW) (c : OpSSS → Instr) : Parse :=
  { i := c ⟨f.h, .ofNat 6 f.dst, .ofNat 6 f.sa, .ofNat 6 f.sb⟩,
    resv := f.resv false false true true true false [(6, 0)],
    cls := decide (64 ≤ f.dst) || decide (64 ≤ f.sa) || decide (64 ≤ f.sb) }

/-- A token or result s-register and one s source; `z` are the MOD ranges that must be zero. -/
def sd (f : FW) (z : List (Nat × Nat)) (c : OpSd → Instr) : Parse :=
  { i := c ⟨f.h, .ofNat 6 f.dst, .ofNat 6 f.sa⟩, resv := f.resv false false true true false false z,
    cls := decide (64 ≤ f.dst) || decide (64 ≤ f.sa) }

def opB (f : FW) (c : OpB → Instr) : Parse :=
  { i := c ⟨f.h, .ofNat 4 f.sa⟩, resv := f.resv false false false true false false [(6, 0)], cls := decide (16 ≤ f.sa) }

def redl (f : FW) (ex : Bool) (c : OpRedl → Instr) : Parse :=
  { i := c ⟨f.h, .ofNat 8 f.dst, .ofNat 8 f.sa, .ofNat 3 (f.m 2 0), .ofNat 2 (f.m 4 3), f.n 5⟩,
    resv := f.resv false false true true false false ((6, 6) :: if ex then [] else [(5, 5)]) }

/-- LD and ST: their address forms (R207, R258). -/
def mem (f : FW) (c : OpMem → Instr) : Parse :=
  let sp := f.n 6
  let a : GAddr :=
    if f.i then .off (.ofNat 8 f.sa) f.imm
    else if f.u then .idx (.ofNat 6 f.sb) (.ofNat 8 f.sa) (.ofNat 2 (f.m 1 0)) (.ofNat 8 f.sc)
    else if sp then .split (.ofNat 8 f.sa) f.imm else .plain (.ofNat 8 f.sa)
  { i := c ⟨f.h, .ofNat 8 f.dst, a, .ofNat 3 (f.m 4 2), f.n 5⟩,
    resv := f.resv true true true true (sp && !f.i) (f.u || sp) [] || (!f.u && decide (f.m 1 0 ≠ 0)) ||
      (f.n 5 && decide (f.m 4 2 ≠ 0)) || (sp && (f.i || f.u)),
    cls := f.clsB }

def lds (f : FW) (c : OpLds → Instr) : Parse :=
  { i := c ⟨f.h, .ofNat 8 f.dst, .ofNat 8 f.sa, f.imm, .ofNat 3 (f.m 4 2), f.n 5⟩,
    resv := f.resv true false true true false false [(1, 0), (6, 6)] || !f.i || (f.n 5 && decide (f.m 4 2 ≠ 0)) }

def atom (f : FW) (c : OpAtom → Instr) : Parse :=
  let nr := f.n 6
  { i := c ⟨f.h, .ofNat 8 f.dst, .ofNat 8 f.sa, f.srcB, .ofNat 3 (f.m 2 0), .ofNat 3 (f.m 5 3), nr,
      .ofNat 2 (bitsN f.sc 1 0), .ofNat 3 (bitsN f.sc 4 2)⟩,
    resv := f.resv false true (!nr) true true true [] || decide (bitsN f.sc 7 5 ≠ 0), cls := f.clsB }

def tl (f : FW) (c : OpTl → Instr) : Parse :=
  { i := c ⟨f.h, .ofNat 3 f.dst, .ofNat 6 f.sa⟩, resv := f.resv false false true true false false [(6, 0)],
    cls := decide (8 ≤ f.dst) || decide (64 ≤ f.sa) }

/-- A buffer handle and a state in MOD[1:0]. -/
def hs (f : FW) (c : OpHs → Instr) : Parse :=
  { i := c ⟨f.h, .ofNat 6 f.dst, .ofNat 2 (f.m 1 0)⟩, resv := f.resv false false true false false false [(6, 2)],
    cls := decide (64 ≤ f.dst) }

/-- A v address pair with MOD[1:0] and one more bit. -/
def cctl (f : FW) : Parse :=
  { i := .cctl ⟨f.h, .ofNat 8 f.sa, .ofNat 2 (f.m 1 0), f.n 2⟩,
    resv := f.resv false false false true false false [(6, 3)] }

/-- The F opcodes of R204, by their numbers; none where no F instruction has the opcode. -/
def full (f : FW) : Option Parse :=
  match f.op with
  | 0x000 => some (op0 f .nop)
  | 0x001 => some (opI f .bra)
  | 0x002 => some (opV f .brx)
  | 0x003 => some (opT f .bru)
  | 0x004 => some
      { i := .call ⟨f.h, .ofNat 8 f.dst, if f.i then .rel f.imm else .v (.ofNat 8 f.sa)⟩,
        resv := f.resv true false true (!f.i) false false [(6, 0)] }
  | 0x005 => some (opV f .ret)
  | 0x006 => some (op0 f .exit)
  | 0x007 => some (op0 f .reform)
  | 0x008 => some (opT f .spawn)
  | 0x009 => some (op0 f .join)
  | 0x00A => some
      { i := .elect ⟨f.h, .ofNat 7 f.dst⟩, resv := f.resv false false true false false false [(6, 0)],
        cls := decide (128 ≤ f.dst) }
  | 0x00B => some (op0 f .yield)
  | 0x00C => some
      { i := .cvset ⟨f.h, .ofNat 4 f.dst, f.immS⟩,
        resv := f.resv true true true false false false [(6, 0)] || (!f.i && !f.u),
        cls := f.clsB || decide (16 ≤ f.dst) }
  | 0x00D => some
      { i := .cvsign ⟨f.h, .ofNat 4 f.dst⟩, resv := f.resv false false true false false false [(6, 0)],
        cls := decide (16 ≤ f.dst) }
  | 0x00E => some
      { i := .prefi ⟨f.h, f.imm, .ofNat 8 f.dst⟩, resv := f.resv true false true false false false [(6, 0)] || !f.i }
  | 0x00F => some
      { i := if f.n 0 then .idempEnd ⟨f.h⟩ else .idempBegin ⟨f.h⟩,
        resv := f.resv false false false false false false [(6, 1)] }
  | 0x010 => some (opI f .trap)
  | 0x011 => some (op0 f .trapfence)
  | 0x012 => some (opI f .bkpt)
  | 0x018 => some
      { i := .evbind ⟨f.h, .ofNat 4 f.dst, .ofNat 6 f.sa, f.imm, .ofNat 4 (f.m 3 0)⟩,
        resv := f.resv true false true true false false [(6, 4)] || !f.i,
        cls := decide (16 ≤ f.dst) || decide (64 ≤ f.sa) }
  | 0x019 => some
      { i := .evmask ⟨f.h, .ofNat 2 (f.m 1 0), f.immS⟩,
        resv := f.resv true true false false false false [(6, 2)] || (!f.i && !f.u), cls := f.clsB }
  | 0x01B => some (opX f .evclr)
  | 0x01C => some
      { i := .evpoll ⟨f.h, .ofNat 6 f.dst, f.immS⟩,
        resv := f.resv true true true false false false [(6, 0)] || (!f.i && !f.u),
        cls := f.clsB || decide (64 ≤ f.dst) }
  | 0x01D => some
      { i := .evraise ⟨f.h, .ofNat 6 f.sa, .ofNat 6 f.sb⟩,
        resv := f.resv false false false true true false [(6, 0)],
        cls := decide (64 ≤ f.sa) || decide (64 ≤ f.sb) }
  | 0x020 => some (sss f .mbsend)
  | 0x021 => some
      { i := .mbrecv ⟨f.h, .ofNat 6 f.dst, .ofNat 5 f.sa, .ofNat 7 f.sb⟩,
        resv := f.resv false false true true true false [(6, 0)] || decide (32 ≤ f.sa),
        cls := decide (64 ≤ f.dst) || decide (128 ≤ f.sb) }
  | 0x024 => some
      { i := .bararv ⟨f.h, .ofNat 6 f.dst, .ofNat 4 f.sa⟩, resv := f.resv false false true true false false [(6, 0)],
        cls := decide (64 ≤ f.dst) || decide (16 ≤ f.sa) }
  | 0x025 => some (opB f .barwt)
  | 0x026 => some (opB f .barsync)
  | 0x027 => some
      { i := .diebar ⟨f.h, .ofNat 2 f.sa⟩, resv := f.resv false false false true false false [(6, 0)],
        cls := decide (4 ≤ f.sa) }
  | 0x028 => some (op0 f .gridbar)
  | 0x02C => some
      { i := .waitc ⟨f.h, .ofNat 2 (f.m 1 0), .ofNat 8 f.sc⟩,
        resv := f.resv true false false false false false [(6, 2)] || !f.i, range := decide (f.sb ≠ 0) }
  | 0x02D => some
      { i := .fence ⟨f.h, .ofNat 2 (f.m 1 0), .ofNat 3 (f.m 4 2)⟩,
        resv := f.resv false false false false false false [(6, 5)] }
  | 0x040 => some (alu2 f true true .iadd)
  | 0x041 => some (alu2 f true true .isub)
  | 0x042 => some (alu3 f true true .iadd3)
  | 0x043 => some (alu2 f true true .imul)
  | 0x044 => some (alu2 f true false .imulh)
  | 0x045 => some (alu3 f true true .imad)
  | 0x046 => some (alu3 f true false .imadw)
  | 0x047 => some (alu2 f true false .idiv)
  | 0x048 => some (alu2 f true false .irem)
  | 0x049 => some (alu2 f true false .imin)
  | 0x04A => some (alu2 f true false .imax)
  | 0x04B => some (alu1 f true .iabs)
  | 0x04C => some (alu1 f true .ineg)
  | 0x04D => some
      { i := .idp4 ⟨f.h, .ofNat 8 f.dst, .ofNat 8 f.sa, f.srcB, .ofNat 8 f.sc, f.n 0, f.n 1, f.n 2⟩,
        resv := f.resv false true true true true true [(6, 3)], cls := f.clsB }
  | 0x050 => some (alu2 f false false .and)
  | 0x051 => some (alu2 f false false .or)
  | 0x052 => some (alu2 f false false .xor)
  | 0x053 => some (alu2 f false false .andn)
  | 0x054 => some (alu1 f false .not)
  | 0x055 => some (alu2 f false false .shl)
  | 0x056 => some (alu2 f false false .shr)
  | 0x057 => some (alu2 f false false .sar)
  | 0x058 => some (alu2 f false false .rotl)
  | 0x059 => some (alu2 f true false .bfe)
  | 0x05A => some (alu3 f false false .bfi)
  | 0x05B => some (alu1 f false .popc)
  | 0x05C => some (alu1 f false .clz)
  | 0x05D => some (alu1 f false .ctz)
  | 0x05E => some (alu1 f false .brev)
  | 0x05F => some (alu3 f false false .prmt)
  | 0x060 => some (setp f true .isetp)
  | 0x061 => some
      { i := .isel ⟨f.h, .ofNat 8 f.dst, .ofNat 8 f.sa, f.srcB, .ofNat 7 f.sc⟩,
        resv := f.resv false true true true true true [(6, 0)], cls := f.clsB || decide (128 ≤ f.sc) }
  | 0x062 => some
      { i := .lea ⟨f.h, .ofNat 8 f.dst, .ofNat 8 f.sa, f.srcB, f.n 0, .ofNat 5 (f.m 6 2)⟩,
        resv := f.resv false true true true true false [(1, 1)], cls := f.clsB }
  | 0x063 => some
      { i := .iadd64 ⟨f.h, .ofNat 8 f.dst, .ofNat 8 f.sa, f.srcB, f.n 0⟩,
        resv := f.resv true true true true true false [(6, 1)], cls := f.clsB }
  | 0x064 => some (alu1 f false .mov)
  | 0x065 => some
      { i := .movi ⟨f.h, .ofNat 8 f.dst, f.imm, f.n 0, f.n 2⟩,
        resv := f.resv true false true false false false [(1, 1), (6, 3)] || !f.i }
  | 0x066 => some
      { i := .movs ⟨f.h, .ofNat 8 f.dst, .ofNat 8 f.sa⟩, resv := f.resv false false true true false false [(6, 0)] }
  | 0x067 => some
      { i := .movu ⟨f.h, .ofNat 8 f.dst, .ofNat 6 f.sa, f.n 2⟩,
        resv := f.resv false false true true false false [(1, 0), (6, 3)], cls := decide (64 ≤ f.sa) }
  | 0x068 => some
      { i := .plop3 ⟨f.h, .ofNat 7 f.dst, .ofNat 7 f.sa, .ofNat 7 f.sb, .ofNat 7 f.sc, .ofNat 3 (f.m 2 0),
          .ofNat 3 (f.m 5 3)⟩,
        resv := f.resv false false true true true true [(6, 6)],
        cls := decide (128 ≤ f.dst) || decide (128 ≤ f.sa) || decide (128 ≤ f.sb) || decide (128 ≤ f.sc) }
  | 0x069 => some
      { i := .pmov ⟨f.h, .ofNat 8 (if f.n 2 then f.sa else f.dst), f.n 2, .ofNat 2 (f.m 4 3)⟩,
        resv := f.resv false false (!f.n 2) (f.n 2) false false [(1, 0), (6, 5)] }
  | 0x080 => some (u2 f .uadd)
  | 0x081 => some (u2 f .usub)
  | 0x082 => some (u2 f .umul)
  | 0x083 => some (u2 f .uand)
  | 0x084 => some (u2 f .uor)
  | 0x085 => some (u2 f .uxor)
  | 0x086 => some (u2 f .ushl)
  | 0x087 => some (u2 f .ushr)
  | 0x088 => some (sd f [(6, 0)] .umov)
  | 0x08A => some
      { i := .usel ⟨f.h, .ofNat 6 f.dst, .ofNat 6 f.sa, .ofNat 6 f.sb, .ofNat 6 f.sc⟩,
        resv := f.resv false false true true true true [(6, 0)],
        cls := decide (64 ≤ f.dst) || decide (64 ≤ f.sa) || decide (64 ≤ f.sb) || decide (64 ≤ f.sc) }
  | 0x08B => some
      { i := .ucmp ⟨f.h, .ofNat 6 f.dst, .ofNat 6 f.sa, f.immS, f.n 0, .ofNat 3 (f.m 4 2)⟩,
        resv := f.resv true false true true true false [(1, 1), (6, 5)],
        cls := decide (64 ≤ f.dst) || decide (64 ≤ f.sa) || (!f.i && decide (64 ≤ f.sb)) }
  | 0x08C => some
      { i := .ufrom ⟨f.h, .ofNat 6 f.dst, .ofNat 8 f.sa, f.n 2⟩,
        resv := f.resv false false true true false false [(1, 0), (6, 3)], cls := decide (64 ≤ f.dst) }
  | 0x08D => some
      { i := .ulea ⟨f.h, .ofNat 6 f.dst, .ofNat 6 f.sa, .ofNat 6 f.sb, .ofNat 5 (f.m 6 2)⟩,
        resv := f.resv false false true true true false [(1, 0)],
        cls := decide (64 ≤ f.dst) || decide (64 ≤ f.sa) || decide (64 ≤ f.sb) }
  | 0x0A0 => some
      { i := .movc ⟨f.h, .ofNat 6 f.dst, .ofNat 8 f.sa⟩, resv := f.resv false false true true false false [(6, 0)],
        cls := decide (64 ≤ f.dst) }
  | 0x0A1 => some
      { i := .movcw ⟨f.h, .ofNat 8 f.dst, if f.i then .imm f.imm else .s (.ofNat 6 f.sa)⟩,
        resv := f.resv true false true (!f.i) false false [(6, 0)], cls := !f.i && decide (64 ≤ f.sa) }
  | 0x0A2 => some
      { i := .clkr ⟨f.h, .ofNat 6 f.dst, f.n 2⟩, resv := f.resv false false true false false false [(1, 0), (6, 3)],
        cls := decide (64 ≤ f.dst) }
  | 0x0A3 => some
      { i := .perfr ⟨f.h, .ofNat 6 f.dst, .ofNat 2 f.sa⟩, resv := f.resv false false true true false false [(6, 0)],
        range := decide (4 ≤ f.sa), cls := decide (64 ≤ f.dst) }
  | 0x0A4 => some
      { i := .ecall ⟨f.h, .ofNat 6 f.dst, .ofNat 6 f.sa, f.imm⟩,
        resv := f.resv true false true true false false [(6, 0)] || !f.i,
        cls := decide (64 ≤ f.dst) || decide (64 ≤ f.sa) }
  | 0x0C0 => some (f2 f true .fadd)
  | 0x0C1 => some (f2 f true .fsub)
  | 0x0C2 => some (f2 f true .fmul)
  | 0x0C3 => some
      { i := .ffma ⟨f.h, .ofNat 8 f.dst, .ofNat 8 f.sa, f.srcB, .ofNat 8 f.sc, .ofNat 2 (f.m 1 0)⟩,
        resv := f.resv false true true true true true [(6, 2)], cls := f.clsB }
  | 0x0C4 => some (f2 f false .fmin)
  | 0x0C5 => some (f2 f false .fmax)
  | 0x0C6 => some (setp f false .fsetp)
  | 0x0C7 => some
      { i := .frnd ⟨f.h, .ofNat 8 f.dst, .ofNat 8 f.sa, .ofNat 2 (f.m 1 0)⟩,
        resv := f.resv false false true true false false [(6, 2)] }
  | 0x0C8 => some (un f .fclass)
  | 0x0CC => some (h2 f .h2add)
  | 0x0CD => some (h2 f .h2mul)
  | 0x0CE => some
      { i := .h2fma ⟨f.h, .ofNat 8 f.dst, .ofNat 8 f.sa, f.srcB, .ofNat 8 f.sc, f.n 0⟩,
        resv := f.resv false true true true true true [(6, 1)], cls := f.clsB }
  | 0x0CF => some (h2 f .h2min)
  | 0x0D0 => some (h2 f .h2max)
  | 0x0D1 => some
      { i := .h2setp ⟨f.h, .ofNat 7 f.dst, .ofNat 8 f.sa, f.srcB, f.n 0, .ofNat 3 (f.m 4 2)⟩,
        resv := f.resv true true true true true false [(1, 1), (6, 5)], cls := f.clsB || decide (128 ≤ f.dst) }
  | 0x0D4 => some (un f .frcp)
  | 0x0D5 => some (un f .frsq)
  | 0x0D6 => some (un f .fsqrt)
  | 0x0D7 => some (un f .fexp2)
  | 0x0D8 => some (un f .flog2)
  | 0x0D9 => some (un f .fsin)
  | 0x0DA => some (un f .fcos)
  | 0x0DB => some (un f .ftanh)
  | 0x0DC => some (un f .act)
  | 0x0DD => some (sd f [(6, 0)] .actld)
  | 0x0DE => some (opI f .actsel)
  | 0x0E0 => some
      { i := .cvt ⟨f.h, .ofNat 8 f.dst, .ofNat 8 f.sa, .ofNat 4 (bitsN f.sb 3 0), .ofNat 4 (bitsN f.sb 7 4),
          .ofNat 8 f.sc, .ofNat 3 (f.m 2 0), f.n 3⟩,
        resv := f.resv false false true true true (decide (f.m 2 0 = 4)) [(6, 4)] }
  | 0x0E1 => some
      { i := .cvtq ⟨f.h, .ofNat 8 f.dst, .ofNat 8 f.sa, f.srcB, .ofNat 8 (if f.i then 0 else f.sc), .ofNat 3 (f.m 2 0),
          .ofNat 3 (f.m 5 3), f.n 6⟩,
        resv := f.resv true true true true true (f.n 6) [], cls := f.clsB }
  | 0x0E2 => some
      { i := .cvtdq ⟨f.h, .ofNat 8 f.dst, .ofNat 8 f.sa, f.srcB, .ofNat 3 (f.m 2 0), .ofNat 3 (f.m 5 3)⟩,
        resv := f.resv true true true true true false [(6, 6)], cls := f.clsB }
  | 0x0E3 => some
      { i := .mxq ⟨f.h, .ofNat 8 f.dst, .ofNat 8 f.sa, .ofNat 8 f.sc, .ofNat 4 (f.m 3 0), f.n 4⟩,
        resv := f.resv false false true true false (f.n 4) [(6, 5)] }
  | 0x0E4 => some
      { i := .mxdq ⟨f.h, .ofNat 8 f.dst, .ofNat 8 f.sa, f.srcB, .ofNat 4 (f.m 3 0), f.n 4⟩,
        resv := f.resv false true true true true false [(6, 5)], cls := f.clsB }
  | 0x0E5 => some
      { i := .rngs ⟨f.h, .ofNat 8 f.dst, .ofNat 8 f.sa, f.srcB⟩,
        resv := f.resv true true true true true false [(6, 0)], cls := f.clsB }
  | 0x100 => some
      { i := .shfl ⟨f.h, .ofNat 8 f.dst, .ofNat 8 f.sa, f.srcB, .ofNat 2 (f.m 1 0), f.n 2, f.n 3,
          .ofNat 7 (if f.i then 0 else f.sc)⟩,
        resv := f.resv true true true true true (f.n 3) [(6, 4)],
        cls := f.clsB || (!f.i && decide (128 ≤ f.sc)) }
  | 0x101 => some
      { i := .vote ⟨f.h, .ofNat 6 f.dst, .ofNat 7 f.sa, .ofNat 2 (f.m 1 0)⟩,
        resv := f.resv false false true true false false [(6, 2)],
        cls := decide (64 ≤ f.dst) || decide (128 ≤ f.sa) }
  | 0x102 => some (redl f false .redl)
  | 0x103 => some (redl f true .scanl)
  | 0x104 => some
      { i := .matchL ⟨f.h, .ofNat 8 f.dst, .ofNat 8 f.sa, f.n 0, f.n 1⟩,
        resv := f.resv false false true true false false [(6, 2)] }
  | 0x105 => some
      { i := .packl ⟨f.h, .ofNat 8 f.dst, .ofNat 8 f.sa, .ofNat 7 f.sb, f.n 0, .ofNat 6 f.sc⟩,
        resv := f.resv false false true true true (f.n 0) [(6, 1)],
        cls := decide (128 ≤ f.sb) || decide (64 ≤ f.sc) }
  | 0x120 => some (mem f .ld)
  | 0x121 => some (mem f .st)
  | 0x122 => some (lds f .lds)
  | 0x123 => some (lds f .sts)
  | 0x124 => some
      { i := .ldc ⟨f.h, .ofNat 8 f.dst, .ofNat 8 f.sa, f.imm, .ofNat 3 (f.m 6 4), f.n 0⟩,
        resv := f.resv true false true true false false [(3, 1)] || !f.i }
  | 0x125 => some
      { i := .uld ⟨f.h, .ofNat 6 f.dst, .ofNat 8 f.sa, f.imm, f.n 0⟩,
        resv := f.resv true false true true false false [(6, 1)] || !f.i, cls := decide (64 ≤ f.dst) }
  | 0x128 => some (atom f .atom)
  | 0x129 => some (atom f .atoms)
  | 0x12A => some
      { i := .redst ⟨f.h, .ofNat 8 f.sa, f.srcB, .ofNat 3 (f.m 2 0), .ofNat 3 (f.m 5 3), .ofNat 3 (bitsN f.sc 4 2)⟩,
        resv := f.resv false false false true true true [(6, 6)] || decide (bitsN f.sc 1 0 ≠ 0) ||
          decide (bitsN f.sc 7 5 ≠ 0), cls := f.clsB }
  | 0x12B => some
      { i := .cas ⟨f.h, .ofNat 8 f.dst, .ofNat 8 f.sa, f.srcB, .ofNat 8 f.sc, f.n 0, .ofNat 2 (f.m 2 1),
          .ofNat 3 (f.m 5 3)⟩,
        resv := f.resv false true true true true true [(6, 6)], cls := f.clsB }
  | 0x130 => some
      { i := .sxsect ⟨f.h, .ofNat 8 f.dst, .ofNat 8 f.sa, .ofNat 8 f.sb, .ofNat 8 f.sc, f.n 0, f.n 1, .ofNat 5 (f.m 6 2)⟩,
        resv := f.resv false false true true true true [] }
  | 0x138 => some (cctl f)
  | 0x139 => some
      { i := .prefd ⟨f.h, .ofNat 8 f.sa, .ofNat 2 (f.m 1 0)⟩, resv := f.resv false false false true false false [(6, 2)] }
  | 0x160 => some
      { i := .tcfg ⟨f.h, .ofNat 3 f.dst, .ofNat 6 f.sa⟩, resv := f.resv false false true true false false [(6, 0)],
        cls := decide (8 ≤ f.dst) || decide (64 ≤ f.sa) }
  | 0x161 => some
      { i := .tzero ⟨f.h, .ofNat 3 f.dst⟩, resv := f.resv false false true false false false [(6, 0)],
        cls := decide (8 ≤ f.dst) }
  | 0x162 => some (tl f .tld)
  | 0x163 => some
      { i := .tst ⟨f.h, .ofNat 3 f.sb, .ofNat 6 f.sa⟩, resv := f.resv false false false true true false [(6, 0)],
        cls := decide (8 ≤ f.sb) || decide (64 ≤ f.sa) }
  | 0x164 => some
      { i := .ttrn ⟨f.h, .ofNat 3 f.dst, .ofNat 3 f.sa⟩, resv := f.resv false false true true false false [(6, 0)],
        cls := decide (8 ≤ f.dst) || decide (8 ≤ f.sa) }
  | 0x16A => some
      { i := .accz ⟨f.h, .ofNat 6 f.dst, .ofNat 2 f.sa⟩, resv := f.resv false false true true false false [(6, 0)],
        cls := decide (64 ≤ f.dst) || decide (4 ≤ f.sa) }
  | 0x16C => some
      { i := .accrd ⟨f.h, .ofNat 8 f.dst, .ofNat 2 f.sa, f.srcB⟩,
        resv := f.resv false true true true true false [(6, 0)], cls := f.clsB || decide (4 ≤ f.sa) }
  | 0x16D => some
      { i := .accwr ⟨f.h, .ofNat 2 f.dst, .ofNat 8 f.sa, f.srcB⟩,
        resv := f.resv false true true true true false [(6, 0)], cls := f.clsB || decide (4 ≤ f.dst) }
  | 0x16E => some
      { i := .accst ⟨f.h, .ofNat 6 f.dst, .ofNat 2 f.sa, .ofNat 6 f.sb, .ofNat 6 f.sc⟩,
        resv := f.resv false false true true true true [(6, 0)],
        cls := decide (64 ≤ f.dst) || decide (4 ≤ f.sa) || decide (64 ≤ f.sb) || decide (64 ≤ f.sc) }
  | 0x1A8 => some
      { i := .hbind ⟨f.h, .ofNat 6 f.dst, .ofNat 6 f.sa⟩, resv := f.resv false false true true false false [(6, 0)],
        cls := decide (64 ≤ f.dst) || decide (64 ≤ f.sa) }
  | 0x1A9 => some (hs f .hset)
  | 0x1AA => some (hs f .hwait)
  | 0x1AB => some
      { i := .hrel ⟨f.h, .ofNat 6 f.dst⟩, resv := f.resv false false true false false false [(6, 0)],
        cls := decide (64 ≤ f.dst) }
  | 0x1B1 => some
      { i := .objq ⟨f.h, .ofNat 6 f.dst, .ofNat 6 f.sa, .ofNat 3 (f.sb * 256 + f.sc), .ofNat 2 (f.m 1 0), f.n 2⟩,
        resv := f.resv true false true true false false [(6, 3)] || !f.i || (f.n 2 && decide (f.m 1 0 ≠ 1) && decide (f.m 1 0 ≠ 3)),
        range := decide (8 ≤ f.sb * 256 + f.sc),
        cls := decide (64 ≤ f.dst) || decide (64 ≤ f.sa) }
  | 0x1C0 => some (sd f [(6, 0)] .rqadmit)
  | 0x1C1 => some
      { i := .rqstep ⟨f.h, .ofNat 6 f.dst⟩, resv := f.resv false false true false false false [(6, 0)],
        cls := decide (64 ≤ f.dst) }
  | 0x1C2 => some (sd f [(6, 0)] .rqretire)
  | 0x1C3 => some
      { i := .rqrd ⟨f.h, .ofNat 6 f.dst, .ofNat 6 f.sa, .ofNat 7 (f.sb * 256 + f.sc)⟩,
        resv := f.resv true false true true false false [(6, 0)] || !f.i,
        range := decide (0x78 < f.sb * 256 + f.sc), cls := decide (64 ≤ f.dst) || decide (64 ≤ f.sa) }
  | 0x1C4 => some
      { i := if f.n 1 then .rqwrEmit ⟨f.h, .ofNat 6 f.sa, .ofNat 6 f.sb⟩
             else .rqwr ⟨f.h, .ofNat 6 f.sa, .ofNat 6 f.sb, .ofNat 7 f.sc, f.n 0⟩,
        resv := f.resv false false false true true (!f.n 1) [(6, 2)] || (f.n 1 && f.n 0),
        range := !f.n 1 && decide (128 ≤ f.sc), cls := decide (64 ≤ f.sa) || decide (64 ≤ f.sb) }
  | 0x1C5 => some
      { i := .rqbind ⟨f.h, .ofNat 8 f.sa, f.n 0⟩, resv := f.resv false false false (!f.n 0) false false [(6, 1)] }
  | 0x1C6 => some
      { i := if f.n 0 then .rqflagFault ⟨f.h, .ofNat 6 f.sa, f.imm⟩ else .rqflagCancel ⟨f.h, .ofNat 6 f.sa⟩,
        resv := f.resv (f.n 0) false false true false false [(6, 1)] || (f.n 0 && !f.i), cls := decide (64 ≤ f.sa) }
  | 0x1C7 => some
      { i := .rqevict ⟨f.h, .ofNat 6 f.sa⟩, resv := f.resv false false false true false false [(6, 0)],
        cls := decide (64 ≤ f.sa) }
  | 0x1E1 => some (sd f [(6, 0)] .kvseal)
  | 0x1E6 => some
      { i := .attnf ⟨f.h, .ofNat 6 f.dst, .ofNat 3 f.sa, .ofNat 6 f.sb, .ofNat 6 f.sc⟩,
        resv := f.resv false false true true true true [(6, 0)],
        cls := decide (64 ≤ f.dst) || decide (8 ≤ f.sa) || decide (64 ≤ f.sb) || decide (64 ≤ f.sc) }
  | 0x1E7 => some (sd f [(6, 1)] (if f.n 0 then .kvwashPage else .kvwashReq))
  | 0x1E8 => some (sd f [(6, 1)] (if f.n 0 then .kvtierLp else .kvtierHbm))
  | 0x1E9 => some (sss f .kvmap)
  | 0x1EA => some (sd f [(6, 0)] .kvrebld)
  | 0x1EB => some (sd f [(6, 0)] .kvfree)
  | _ => none

/-! ## The L forms (R183 to R191): the fields of word 0's bits [40:0] and of word 1, from bit 0. -/

def wImm64 : List Nat × List Nat := ([33, 8], [64])
def wWait : List Nat × List Nat := ([24, 1, 16], [32, 32])
def wLaunch : List Nat × List Nat := ([3, 3, 2, 6, 2, 4, 1, 2, 6, 6, 6], [16, 32, 16])
def wMma : List Nat × List Nat := ([1, 6, 8, 5, 5, 6, 1, 6, 1, 2], [23, 6, 2, 6, 1, 6, 1, 1, 4, 4, 4, 6])
def wCpy : List Nat × List Nat := ([8, 4, 3, 1, 6, 6, 3, 4, 6], [30, 6, 2, 4, 6, 16])
def wAttn : List Nat × List Nat := ([4, 4, 6, 1, 2, 6, 2, 5, 6, 3, 2], [9, 55])
def wKv : List Nat × List Nat := ([8, 1, 1, 3, 2, 2, 6, 6, 6, 6], [64])

def mmaOf (h : Hdr) (lo w1 : Nat) (c : OpMma → Instr) : Option Parse :=
  match unpack wMma.1 lo, unpack wMma.2 w1 with
  | [clr, pm1, kq, nq, mq, bop, bsp, aop, asp, acc],
    [z, smeta, pat, sbs, sben, sas, saen, atyp, bfmt, afmt, cv, tok] => some
      { i := c ⟨h, .ofNat 2 acc, asp == 1, .ofNat 6 aop, bsp == 1, .ofNat 6 bop, .ofNat 5 mq, .ofNat 5 nq, .ofNat 8 kq,
          .ofNat 6 pm1, clr == 1, .ofNat 6 tok, .ofNat 4 cv, .ofNat 4 afmt, .ofNat 4 bfmt, atyp == 1, saen == 1,
          .ofNat 6 sas, sben == 1, .ofNat 6 sbs, .ofNat 2 pat, .ofNat 6 smeta⟩,
        resv := decide (z ≠ 0) }
  | _, _ => none

def acccvtOf (h : Hdr) (lo w1 : Nat) : Option Parse :=
  match unpack wMma.1 lo, unpack wMma.2 w1 with
  | [clr, pm1, kq, nq, mq, bop, bsp, aop, asp, acc],
    [z, smeta, pat, sbs, sben, sas, saen, atyp, bfmt, afmt, cv, tok] => some
      { i := .acccvt ⟨h, .ofNat 2 acc, asp == 1, .ofNat 6 aop, .ofNat 5 mq, .ofNat 5 nq, .ofNat 6 tok, .ofNat 4 cv,
          .ofNat 4 afmt, .ofNat 2 pat⟩,
        resv := [z, clr, pm1, kq, bop, bsp, smeta, sbs, sben, sas, saen, atyp, bfmt].any (fun x => decide (x ≠ 0)) }
  | _, _ => none

def cpyOf (h : Hdr) (lo w1 : Nat) (c : OpCpy → Instr) : Option Parse :=
  match unpack wCpy.1 lo, unpack wCpy.2 w1 with
  | [z, sub, ndm1, bl, scrd, sloc, dir, cv, tok], [y, saux, rop, efmt, sbh, obj] => some
      { i := c ⟨h, .ofNat 6 tok, .ofNat 4 cv, .ofNat 3 dir, .ofNat 6 sloc, .ofNat 6 scrd, bl == 1, .ofNat 3 ndm1,
          .ofNat 4 sub, .ofNat 16 obj, .ofNat 6 sbh, .ofNat 4 efmt, .ofNat 2 rop, .ofNat 6 saux⟩,
        resv := decide (z ≠ 0) || decide (y ≠ 0) }
  | _, _ => none

def attnOf (h : Hdr) (lo w1 : Nat) (c : OpAttn → Instr) : Option Parse :=
  match unpack wAttn.1 lo, unpack wAttn.2 w1 with
  | [z, cv, tok, clr, layer, head, y, mq, shm, tq, acc], [vrows, x] => some
      { i := c ⟨h, .ofNat 2 acc, .ofNat 3 tq, .ofNat 6 shm, .ofNat 5 mq, .ofNat 6 head, .ofNat 2 layer, clr == 1,
          .ofNat 6 tok, .ofNat 4 cv, .ofNat 9 vrows⟩,
        resv := decide (z ≠ 0) || decide (y ≠ 0) || decide (x ≠ 0) }
  | _, _ => none

/-- Word 0 of L.KV; the three instructions read word 1 in their own ways (R191). -/
def kvOf (op : Nat) (h : Hdr) (lo w1 : Nat) : Option Parse :=
  match unpack wKv.1 lo with
  | [z, ovr, list, dm1, tsel, layer, sb, sa, sq, tok] =>
    if op = 0x1E0 then
      match unpack [9, 55] w1 with
      | [nrows, y] => some
          { i := .kvapnd ⟨h, .ofNat 6 tok, .ofNat 6 sq, .ofNat 6 sa, .ofNat 2 layer, .ofNat 9 nrows⟩,
            resv := [z, ovr, list, dm1, tsel, sb, y].any (fun x => decide (x ≠ 0)) }
      | _ => none
    else if op = 0x1E2 then
      match unpack [16, 16, 16, 16] w1 with
      | [s, w, k, y] => some
          { i := .kvsel ⟨h, .ofNat 6 tok, .ofNat 6 sq, .ofNat 6 sa, .ofNat 6 sb, .ofNat 2 layer, ovr == 1, .ofNat 16 s,
              .ofNat 16 w, .ofNat 16 k⟩,
            resv := [z, list, dm1, tsel, y].any (fun x => decide (x ≠ 0)) }
      | _ => none
    else
      match unpack [6, 6, 52] w1 with
      | [ring, rnm1, y] => some
          { i := .kvpf ⟨h, .ofNat 6 tok, .ofNat 6 sq, .ofNat 6 sb, .ofNat 2 layer, .ofNat 2 tsel, .ofNat 3 dm1, list == 1,
              .ofNat 6 ring, .ofNat 6 rnm1⟩,
            resv := [z, ovr, sa, y].any (fun x => decide (x ≠ 0)) }
      | _ => none
  | _ => none

/-- The L opcodes of R204. -/
def long (op : Nat) (h : Hdr) (lo w1 : Nat) : Option Parse :=
  match op with
  | 0x01A =>
    match unpack wWait.1 lo, unpack wWait.2 w1 with
    | [z, tmo, list], [t, y] => some
        { i := .waitany ⟨h, .ofNat 16 list, tmo == 1, .ofNat 32 t⟩, resv := decide (z ≠ 0) || decide (y ≠ 0) }
    | _, _ => none
  | 0x089 =>
    match unpack wImm64.1 lo, unpack wImm64.2 w1 with
    | [z, d], [x] => some { i := .umovi ⟨h, .ofNat 6 d, .ofNat 64 x⟩, resv := decide (z ≠ 0), cls := decide (64 ≤ d) }
    | _, _ => none
  | 0x0A5 =>
    match unpack wLaunch.1 lo, unpack wLaunch.2 w1 with
    | [z, queue, cmpl, sdep, dep, dm, rq, prio, stok, sgrid, sarg], [kobj, mbox, y] => some
        { i := .launch ⟨h, .ofNat 6 sarg, .ofNat 6 sgrid, .ofNat 6 stok, .ofNat 2 prio, rq == 1, .ofNat 4 dm,
            .ofNat 2 dep, .ofNat 6 sdep, .ofNat 2 cmpl, .ofNat 3 queue, .ofNat 16 kobj, .ofNat 32 mbox⟩,
          resv := decide (z ≠ 0) || decide (y ≠ 0) }
    | _, _ => none
  | 0x168 => mmaOf h lo w1 .mma
  | 0x169 => mmaOf h lo w1 .mmas
  | 0x16B => acccvtOf h lo w1
  | 0x1A0 => cpyOf h lo w1 .cpy
  | 0x1A1 => cpyOf h lo w1 .cpyg
  | 0x1A2 => cpyOf h lo w1 .cpyx
  | 0x1A3 => cpyOf h lo w1 .cpyc
  | 0x1A4 => cpyOf h lo w1 .cpyf
  | 0x1B0 => cpyOf h lo w1 .coll
  | 0x1E0 => kvOf 0x1E0 h lo w1
  | 0x1E2 => kvOf 0x1E2 h lo w1
  | 0x1E3 => kvOf 0x1E3 h lo w1
  | 0x1E4 => attnOf h lo w1 .attn
  | 0x1E5 => attnOf h lo w1 .attnv
  | _ => none

/-! ## P words (R192, R193) -/

def hop (n : Nat) : Option Hop :=
  match n with
  | 0x00 => some .iadd
  | 0x01 => some .isub
  | 0x02 => some .imul
  | 0x03 => some .imin
  | 0x04 => some .imax
  | 0x05 => some .and
  | 0x06 => some .or
  | 0x07 => some .xor
  | 0x08 => some .andn
  | 0x09 => some .shl
  | 0x0A => some .shr
  | 0x0B => some .sar
  | 0x0C => some .mov
  | 0x0D => some .movi
  | 0x0E => some .fadd
  | 0x0F => some .fsub
  | 0x10 => some .fmul
  | 0x11 => some .fmin
  | 0x12 => some .fmax
  | 0x14 => some .h2add
  | 0x15 => some .h2mul
  | 0x16 => some .h2min
  | 0x17 => some .h2max
  | _ => none

/-- A half of 31 bits; none where its HOP is reserved. -/
def half (x : Nat) : Option Half :=
  match unpack [6, 8, 8, 3, 6] x with
  | [m, s, d, stall, op] => (hop op).map (fun o => ⟨o, .ofNat 3 stall, .ofNat 8 d, .ofNat 8 s, .ofNat 6 m⟩)
  | _ => none

end Prs

/-- Is the opcode one of the L opcodes of R183? -/
def isLong (op : Nat) : Bool :=
  [0x01A, 0x089, 0x0A5, 0x168, 0x169, 0x16B, 0x1A0, 0x1A1, 0x1A2, 0x1A3, 0x1A4, 0x1B0, 0x1E0, 0x1E2, 0x1E3, 0x1E4,
    0x1E5].contains op

/-- The fields of a first word. -/
def fieldsOf (w : Nat) : FW × Nat :=
  match unpack [9, 8, 8, 8, 8, 7, 1, 4, 9, 2] w with
  | [mod, sc, sb, sa, dst, preg, pn, stall, op, fmt] => (⟨op, mkHdr stall pn preg, dst, sa, sb, sc, mod⟩, fmt)
  | _ => (⟨0, mkHdr 0 0 0, 0, 0, 0, 0, 0⟩, 3)

/-- The length in bytes of the instruction whose first word is `w` (R177). -/
def lengthOf (w : Nat) : Nat := if bitsN w 63 62 = 2 then 16 else 8

/-- Checks 4 to 8 of R205, in order. -/
def finish (L : Limits) (p : Parse) : Except DErr Instr :=
  let c := Wf.checks L p.i
  if p.resv || !c.mods then .error (.illenc 4)
  else if p.range || !c.range then .error (.illenc 5)
  else if !c.mul then .error (.illenc 6)
  else if p.cls || !c.regs then .error .illreg
  else if !c.banks then .error .pairbank
  else .ok p.i

/-- The decoder on the first word and the word after it (R177, R178, R204, R205). -/
def decode (L : Limits) (w0 w1 : Nat) : Except DErr Instr :=
  let fw := fieldsOf w0
  let f := fw.1
  match fw.2 with
  | 0 =>
    match Prs.full f with
    | some p => finish L p
    | none => if isLong f.op then .error (.illenc 3) else .error .illop
  | 1 =>
    match Prs.half (bitsN w0 61 31), Prs.half (bitsN w0 30 0) with
    | some a, some b => finish L { i := .pWord a b }
    | _, _ => .error .illop
  | 2 =>
    match Prs.long f.op f.h (bitsN w0 40 0) (w1 % 2 ^ 64) with
    | some p => finish L p
    | none => if (Prs.full f).isSome then .error (.illenc 3) else .error .illop
  | _ => .error (.illenc 1)

/-- Little-endian value of bytes (R5). -/
def ofBytes : List Byte → Nat
  | [] => 0
  | b :: bs => b.toNat + 256 * ofBytes bs

/-- The decoder on bytes in ascending address (R177). -/
def decodeBytes (L : Limits) (bs : List Byte) : Except DErr Instr :=
  let w0 := ofBytes (bs.take 8)
  if bs.length < 8 then .error .truncated
  else if lengthOf w0 = 16 ∧ bs.length < 16 then .error .truncated
  else decode L w0 (ofBytes ((bs.drop 8).take 8))

/-- The low `n` bytes of a number, least significant first (R5). -/
def toBytes (x : Nat) : Nat → List Byte
  | 0 => []
  | n + 1 => BitVec.ofNat 8 x :: toBytes (x / 256) n

/-- The host's question about one row of the opcode table: the word's bytes in memory order, zeros above it. -/
def decodeTableWord (_nbits w : Nat) : Option Instr := (decodeBytes Limits.most (toBytes w 16)).toOption

/-! ## The encoder -/

/-- An F word from its fields (R179). -/
def fword (op : Nat) (h : Hdr) (dst sa sb sc mod : Nat) : List Nat :=
  [pack [(9, mod), (8, sc), (8, sb), (8, sa), (8, dst), (7, h.preg.toNat), (1, b2n h.pn), (4, h.stall.toNat), (9, op), (2, 0)]]

/-- The words of an L instruction. -/
def lword (op : Nat) (h : Hdr) (lo w1 : List (Nat × Nat)) : List Nat :=
  [pack [(41, pack lo), (7, h.preg.toNat), (1, b2n h.pn), (4, h.stall.toNat), (9, op), (2, 2)], pack w1]

namespace Enc

def iBit : Nat := 256
def uBit : Nat := 128

/-- SB, SC and the I and U bits of a second source; `c` is what SC holds where the source leaves it free. -/
def src (b : SrcB) (c : Nat) : Nat × Nat × Nat :=
  match b with
  | .v r => (r.toNat, c, 0)
  | .s r => (r.toNat, c, uBit)
  | .imm i => (i.toNat / 256, i.toNat % 256, iBit)

def immS (x : ImmS) : Nat × Nat × Nat :=
  match x with
  | .imm i => (i.toNat / 256, i.toNat % 256, iBit)
  | .s r => (r.toNat, 0, uBit)

/-- As `immS`, where the register form sets no U bit (R236). -/
def immR (x : ImmS) : Nat × Nat × Nat :=
  match x with
  | .imm i => (i.toNat / 256, i.toNat % 256, iBit)
  | .s r => (r.toNat, 0, 0)

def op0 (op : Nat) (o : Op0) : List Nat := fword op o.h 0 0 0 0 0
def opI (op : Nat) (o : OpI) : List Nat := fword op o.h 0 0 (o.imm.toNat / 256) (o.imm.toNat % 256) iBit
def opV (op : Nat) (o : OpV) : List Nat := fword op o.h 0 o.a.toNat 0 0 0
def opT (op : Nat) (o : OpT) : List Nat := let s := immS o.t; fword op o.h 0 0 s.1 s.2.1 s.2.2
def opX (op : Nat) (o : OpX) : List Nat := let s := immS o.x; fword op o.h 0 0 s.1 s.2.1 s.2.2
def alu1 (op : Nat) (o : Alu1) : List Nat := fword op o.h o.d.toNat o.a.toNat 0 0 (2 * b2n o.sat)
def alu2 (op : Nat) (o : Alu2) : List Nat :=
  let s := src o.b 0
  fword op o.h o.d.toNat o.a.toNat s.1 s.2.1 (s.2.2 + b2n o.n + 2 * b2n o.sat)
def alu3 (op : Nat) (o : Alu3) : List Nat :=
  let s := src o.b o.c.toNat
  fword op o.h o.d.toNat o.a.toNat s.1 s.2.1 (s.2.2 + b2n o.n + 2 * b2n o.sat)
def setp (op : Nat) (o : OpSetp) : List Nat :=
  let s := src o.b 0
  fword op o.h o.d.toNat o.a.toNat s.1 s.2.1 (s.2.2 + b2n o.n + 4 * o.cond.toNat + 32 * o.acc.toNat)
def f2 (op : Nat) (o : F2) : List Nat :=
  let s := src o.b 0
  fword op o.h o.d.toNat o.a.toNat s.1 s.2.1 (s.2.2 + o.rm.toNat)
def h2 (op : Nat) (o : OpH2) : List Nat :=
  let s := src o.b 0
  fword op o.h o.d.toNat o.a.toNat s.1 s.2.1 (s.2.2 + b2n o.t)
def un (op : Nat) (o : Un) : List Nat := fword op o.h o.d.toNat o.a.toNat 0 0 0
def u2 (op : Nat) (o : U2) : List Nat :=
  let s := immR o.b
  fword op o.h o.d.toNat o.a.toNat s.1 s.2.1 (s.2.2 + b2n o.n)
def sss (op : Nat) (o : OpSSS) : List Nat := fword op o.h o.d.toNat o.a.toNat o.b.toNat 0 0
def sd (op m : Nat) (o : OpSd) : List Nat := fword op o.h o.d.toNat o.a.toNat 0 0 m
def opB (op : Nat) (o : OpB) : List Nat := fword op o.h 0 o.b.toNat 0 0 0
def redl (op : Nat) (o : OpRedl) : List Nat :=
  fword op o.h o.d.toNat o.a.toNat 0 0 (o.op.toNat + 8 * o.ty.toNat + 32 * b2n o.ex)
def mem (op : Nat) (o : OpMem) : List Nat :=
  let m := 4 * o.mfmt.toNat + 32 * b2n o.w
  match o.a with
  | .off p i => fword op o.h o.d.toNat p.toNat (i.toNat / 256) (i.toNat % 256) (m + iBit)
  | .idx b v k i => fword op o.h o.d.toNat v.toNat b.toNat i.toNat (m + uBit + k.toNat)
  | .plain p => fword op o.h o.d.toNat p.toNat 0 0 m
  | .split p j => fword op o.h o.d.toNat p.toNat (j.toNat / 256) (j.toNat % 256) (m + 64)
def lds (op : Nat) (o : OpLds) : List Nat :=
  fword op o.h o.d.toNat o.a.toNat (o.imm.toNat / 256) (o.imm.toNat % 256) (iBit + 4 * o.mfmt.toNat + 32 * b2n o.w)
def atom (op : Nat) (o : OpAtom) : List Nat :=
  let s := src o.b (o.ord.toNat + 4 * o.scope.toNat)
  fword op o.h o.d.toNat o.a.toNat s.1 s.2.1 (s.2.2 + o.op.toNat + 8 * o.ty.toNat + 64 * b2n o.nr)
def hs (op : Nat) (o : OpHs) : List Nat := fword op o.h o.hd.toNat 0 0 0 o.st.toNat
def mma (op : Nat) (o : OpMma) : List Nat :=
  lword op o.h
    [(1, b2n o.clr), (6, o.pm1.toNat), (8, o.kq.toNat), (5, o.nq.toNat), (5, o.mq.toNat), (6, o.bop.toNat),
     (1, b2n o.bsp), (6, o.aop.toNat), (1, b2n o.asp), (2, o.acc.toNat)]
    [(23, 0), (6, o.smeta.toNat), (2, o.pat.toNat), (6, o.sbs.toNat), (1, b2n o.sben), (6, o.sas.toNat),
     (1, b2n o.saen), (1, b2n o.atyp), (4, o.bfmt.toNat), (4, o.afmt.toNat), (4, o.cv.toNat), (6, o.tok.toNat)]
def cpy (op : Nat) (o : OpCpy) : List Nat :=
  lword op o.h
    [(8, 0), (4, o.sub.toNat), (3, o.ndm1.toNat), (1, b2n o.bl), (6, o.scrd.toNat), (6, o.sloc.toNat), (3, o.dir.toNat),
     (4, o.cv.toNat), (6, o.tok.toNat)]
    [(30, 0), (6, o.saux.toNat), (2, o.rop.toNat), (4, o.efmt.toNat), (6, o.sbh.toNat), (16, o.obj.toNat)]
def attn (op : Nat) (o : OpAttn) : List Nat :=
  lword op o.h
    [(4, 0), (4, o.cv.toNat), (6, o.tok.toNat), (1, b2n o.clr), (2, o.layer.toNat), (6, o.head.toNat), (2, 0),
     (5, o.mq.toNat), (6, o.shm.toNat), (3, o.tq.toNat), (2, o.acc.toNat)]
    [(9, o.vrows.toNat), (55, 0)]
/-- Word 0 of L.KV. -/
def kv (op : Nat) (h : Hdr) (tok sq sa sb layer tsel dm1 list ovr : Nat) (w1 : List (Nat × Nat)) : List Nat :=
  lword op h [(8, 0), (1, ovr), (1, list), (3, dm1), (2, tsel), (2, layer), (6, sb), (6, sa), (6, sq), (6, tok)] w1

def hop (o : Hop) : Nat :=
  match o with
  | .iadd => 0x00
  | .isub => 0x01
  | .imul => 0x02
  | .imin => 0x03
  | .imax => 0x04
  | .and => 0x05
  | .or => 0x06
  | .xor => 0x07
  | .andn => 0x08
  | .shl => 0x09
  | .shr => 0x0A
  | .sar => 0x0B
  | .mov => 0x0C
  | .movi => 0x0D
  | .fadd => 0x0E
  | .fsub => 0x0F
  | .fmul => 0x10
  | .fmin => 0x11
  | .fmax => 0x12
  | .h2add => 0x14
  | .h2mul => 0x15
  | .h2min => 0x16
  | .h2max => 0x17

def half (x : Half) : Nat :=
  pack [(6, x.m.toNat), (8, x.s.toNat), (8, x.d.toNat), (3, x.stall.toNat), (6, hop x.hop)]

/-- The words of an instruction of the stream (R179 to R194); an event has none. -/
def words : Instr → List Nat
  | .nop o => op0 0x000 o
  | .bra o => opI 0x001 o
  | .brx o => opV 0x002 o
  | .bru o => opT 0x003 o
  | .call o =>
    match o.t with
    | .rel i => fword 0x004 o.h o.d.toNat 0 (i.toNat / 256) (i.toNat % 256) iBit
    | .v r => fword 0x004 o.h o.d.toNat r.toNat 0 0 0
  | .ret o => opV 0x005 o
  | .exit o => op0 0x006 o
  | .reform o => op0 0x007 o
  | .spawn o => opT 0x008 o
  | .join o => op0 0x009 o
  | .elect o => fword 0x00A o.h o.d.toNat 0 0 0 0
  | .yield o => op0 0x00B o
  | .cvset o => let s := immS o.c; fword 0x00C o.h o.cv.toNat 0 s.1 s.2.1 s.2.2
  | .cvsign o => fword 0x00D o.h o.cv.toNat 0 0 0 0
  | .prefi o => fword 0x00E o.h o.n.toNat 0 (o.imm.toNat / 256) (o.imm.toNat % 256) iBit
  | .idempBegin o => fword 0x00F o.h 0 0 0 0 0
  | .idempEnd o => fword 0x00F o.h 0 0 0 0 1
  | .trap o => opI 0x010 o
  | .trapfence o => op0 0x011 o
  | .bkpt o => opI 0x012 o
  | .evbind o =>
    fword 0x018 o.h o.ev.toNat o.a.toNat (o.imm.toNat / 256) (o.imm.toNat % 256) (iBit + o.kind.toNat)
  | .evmask o => let s := immS o.x; fword 0x019 o.h 0 0 s.1 s.2.1 (s.2.2 + o.op.toNat)
  | .waitany o => lword 0x01A o.h [(24, 0), (1, b2n o.tmo), (16, o.list.toNat)] [(32, o.timeout.toNat), (32, 0)]
  | .evclr o => opX 0x01B o
  | .evpoll o => let s := immS o.x; fword 0x01C o.h o.d.toNat 0 s.1 s.2.1 s.2.2
  | .evraise o => fword 0x01D o.h 0 o.a.toNat o.b.toNat 0 0
  | .mbsend o => sss 0x020 o
  | .mbrecv o => fword 0x021 o.h o.d.toNat o.m.toNat o.p.toNat 0 0
  | .bararv o => fword 0x024 o.h o.d.toNat o.b.toNat 0 0 0
  | .barwt o => opB 0x025 o
  | .barsync o => opB 0x026 o
  | .diebar o => fword 0x027 o.h 0 o.db.toNat 0 0 0
  | .gridbar o => op0 0x028 o
  | .waitc o => fword 0x02C o.h 0 0 0 o.n.toNat (iBit + o.cls.toNat)
  | .fence o => fword 0x02D o.h 0 0 0 0 (o.kind.toNat + 4 * o.scope.toNat)
  | .iadd o => alu2 0x040 o
  | .isub o => alu2 0x041 o
  | .iadd3 o => alu3 0x042 o
  | .imul o => alu2 0x043 o
  | .imulh o => alu2 0x044 o
  | .imad o => alu3 0x045 o
  | .imadw o => alu3 0x046 o
  | .idiv o => alu2 0x047 o
  | .irem o => alu2 0x048 o
  | .imin o => alu2 0x049 o
  | .imax o => alu2 0x04A o
  | .iabs o => alu1 0x04B o
  | .ineg o => alu1 0x04C o
  | .idp4 o =>
    let s := src o.b o.c.toNat
    fword 0x04D o.h o.d.toNat o.a.toNat s.1 s.2.1 (s.2.2 + b2n o.ua + 2 * b2n o.sat + 4 * b2n o.ub)
  | .and o => alu2 0x050 o
  | .or o => alu2 0x051 o
  | .xor o => alu2 0x052 o
  | .andn o => alu2 0x053 o
  | .not o => alu1 0x054 o
  | .shl o => alu2 0x055 o
  | .shr o => alu2 0x056 o
  | .sar o => alu2 0x057 o
  | .rotl o => alu2 0x058 o
  | .bfe o => alu2 0x059 o
  | .bfi o => alu3 0x05A o
  | .popc o => alu1 0x05B o
  | .clz o => alu1 0x05C o
  | .ctz o => alu1 0x05D o
  | .brev o => alu1 0x05E o
  | .prmt o => alu3 0x05F o
  | .isetp o => setp 0x060 o
  | .isel o => let s := src o.b o.c.toNat; fword 0x061 o.h o.d.toNat o.a.toNat s.1 s.2.1 s.2.2
  | .lea o =>
    let s := src o.b 0
    fword 0x062 o.h o.d.toNat o.a.toNat s.1 s.2.1 (s.2.2 + b2n o.n + 4 * o.sh.toNat)
  | .iadd64 o => let s := src o.b 0; fword 0x063 o.h o.d.toNat o.a.toNat s.1 s.2.1 (s.2.2 + b2n o.n)
  | .mov o => alu1 0x064 o
  | .movi o =>
    fword 0x065 o.h o.d.toNat 0 (o.imm.toNat / 256) (o.imm.toNat % 256) (iBit + b2n o.n + 4 * b2n o.hi)
  | .movs o => fword 0x066 o.h o.d.toNat o.sr.toNat 0 0 0
  | .movu o => fword 0x067 o.h o.d.toNat o.a.toNat 0 0 (4 * b2n o.hi)
  | .plop3 o => fword 0x068 o.h o.d.toNat o.a.toNat o.b.toNat o.c.toNat (o.neg.toNat + 8 * o.fn.toNat)
  | .pmov o =>
    fword 0x069 o.h (if o.fromv then 0 else o.r.toNat) (if o.fromv then o.r.toNat else 0) 0 0
      (4 * b2n o.fromv + 8 * o.k.toNat)
  | .uadd o => u2 0x080 o
  | .usub o => u2 0x081 o
  | .umul o => u2 0x082 o
  | .uand o => u2 0x083 o
  | .uor o => u2 0x084 o
  | .uxor o => u2 0x085 o
  | .ushl o => u2 0x086 o
  | .ushr o => u2 0x087 o
  | .umov o => sd 0x088 0 o
  | .umovi o => lword 0x089 o.h [(33, 0), (8, o.d.toNat)] [(64, o.imm.toNat)]
  | .usel o => fword 0x08A o.h o.d.toNat o.a.toNat o.b.toNat o.c.toNat 0
  | .ucmp o =>
    let s := immR o.b
    fword 0x08B o.h o.d.toNat o.a.toNat s.1 s.2.1 (s.2.2 + b2n o.n + 4 * o.cond.toNat)
  | .ufrom o => fword 0x08C o.h o.d.toNat o.a.toNat 0 0 (4 * b2n o.w)
  | .ulea o => fword 0x08D o.h o.d.toNat o.a.toNat o.b.toNat 0 (4 * o.sh.toNat)
  | .movc o => fword 0x0A0 o.h o.d.toNat o.cr.toNat 0 0 0
  | .movcw o =>
    match o.x with
    | .imm i => fword 0x0A1 o.h o.cr.toNat 0 (i.toNat / 256) (i.toNat % 256) iBit
    | .s r => fword 0x0A1 o.h o.cr.toNat r.toNat 0 0 0
  | .clkr o => fword 0x0A2 o.h o.d.toNat 0 0 0 (4 * b2n o.pkg)
  | .perfr o => fword 0x0A3 o.h o.d.toNat o.n.toNat 0 0 0
  | .ecall o => fword 0x0A4 o.h o.d.toNat o.a.toNat (o.imm.toNat / 256) (o.imm.toNat % 256) iBit
  | .launch o =>
    lword 0x0A5 o.h
      [(3, 0), (3, o.queue.toNat), (2, o.cmpl.toNat), (6, o.sdep.toNat), (2, o.dep.toNat), (4, o.dieMask.toNat),
       (1, b2n o.rq), (2, o.prio.toNat), (6, o.stok.toNat), (6, o.sgrid.toNat), (6, o.sarg.toNat)]
      [(16, o.kobj.toNat), (32, o.mbox.toNat), (16, 0)]
  | .fadd o => f2 0x0C0 o
  | .fsub o => f2 0x0C1 o
  | .fmul o => f2 0x0C2 o
  | .ffma o =>
    let s := src o.b o.c.toNat
    fword 0x0C3 o.h o.d.toNat o.a.toNat s.1 s.2.1 (s.2.2 + o.rm.toNat)
  | .fmin o => f2 0x0C4 o
  | .fmax o => f2 0x0C5 o
  | .fsetp o => setp 0x0C6 o
  | .frnd o => fword 0x0C7 o.h o.d.toNat o.a.toNat 0 0 o.rm.toNat
  | .fclass o => un 0x0C8 o
  | .h2add o => h2 0x0CC o
  | .h2mul o => h2 0x0CD o
  | .h2fma o =>
    let s := src o.b o.c.toNat
    fword 0x0CE o.h o.d.toNat o.a.toNat s.1 s.2.1 (s.2.2 + b2n o.t)
  | .h2min o => h2 0x0CF o
  | .h2max o => h2 0x0D0 o
  | .h2setp o =>
    let s := src o.b 0
    fword 0x0D1 o.h o.d.toNat o.a.toNat s.1 s.2.1 (s.2.2 + b2n o.t + 4 * o.cond.toNat)
  | .frcp o => un 0x0D4 o
  | .frsq o => un 0x0D5 o
  | .fsqrt o => un 0x0D6 o
  | .fexp2 o => un 0x0D7 o
  | .flog2 o => un 0x0D8 o
  | .fsin o => un 0x0D9 o
  | .fcos o => un 0x0DA o
  | .ftanh o => un 0x0DB o
  | .act o => un 0x0DC o
  | .actld o => sd 0x0DD 0 o
  | .actsel o => opI 0x0DE o
  | .cvt o =>
    fword 0x0E0 o.h o.d.toNat o.a.toNat (o.dt.toNat + 16 * o.st.toNat) o.c.toNat (o.rm.toNat + 8 * b2n o.sat)
  | .cvtq o =>
    let s := src o.b o.c.toNat
    fword 0x0E1 o.h o.d.toNat o.a.toNat s.1 s.2.1 (s.2.2 + o.fmt.toNat + 8 * o.pos.toNat + 64 * b2n o.sr)
  | .cvtdq o =>
    let s := src o.b 0
    fword 0x0E2 o.h o.d.toNat o.a.toNat s.1 s.2.1 (s.2.2 + o.fmt.toNat + 8 * o.pos.toNat)
  | .mxq o => fword 0x0E3 o.h o.d.toNat o.a.toNat 0 o.c.toNat (o.fmt.toNat + 16 * b2n o.sr)
  | .mxdq o =>
    let s := src o.b 0
    fword 0x0E4 o.h o.d.toNat o.a.toNat s.1 s.2.1 (s.2.2 + o.fmt.toNat + 16 * b2n o.bf)
  | .rngs o => let s := src o.b 0; fword 0x0E5 o.h o.d.toNat o.a.toNat s.1 s.2.1 s.2.2
  | .shfl o =>
    let s := src o.b o.c.toNat
    fword 0x100 o.h o.d.toNat o.a.toNat s.1 s.2.1 (s.2.2 + o.mode.toNat + 4 * b2n o.rel + 8 * b2n o.vp)
  | .vote o => fword 0x101 o.h o.d.toNat o.a.toNat 0 0 o.mode.toNat
  | .redl o => redl 0x102 o
  | .scanl o => redl 0x103 o
  | .matchL o => fword 0x104 o.h o.d.toNat o.a.toNat 0 0 (b2n o.w + 2 * b2n o.n)
  | .packl o => fword 0x105 o.h o.d.toNat o.a.toNat o.p.toNat o.sc.toNat (b2n o.c)
  | .ld o => mem 0x120 o
  | .st o => mem 0x121 o
  | .lds o => lds 0x122 o
  | .sts o => lds 0x123 o
  | .ldc o =>
    fword 0x124 o.h o.d.toNat o.a.toNat (o.imm.toNat / 256) (o.imm.toNat % 256) (iBit + b2n o.w + 16 * o.bank.toNat)
  | .uld o => fword 0x125 o.h o.d.toNat o.a.toNat (o.imm.toNat / 256) (o.imm.toNat % 256) (iBit + b2n o.w)
  | .atom o => atom 0x128 o
  | .atoms o => atom 0x129 o
  | .redst o =>
    let s := src o.b (4 * o.scope.toNat)
    fword 0x12A o.h 0 o.a.toNat s.1 s.2.1 (s.2.2 + o.op.toNat + 8 * o.ty.toNat)
  | .cas o =>
    let s := src o.b o.c.toNat
    fword 0x12B o.h o.d.toNat o.a.toNat s.1 s.2.1 (s.2.2 + b2n o.w + 2 * o.ord.toNat + 8 * o.scope.toNat)
  | .sxsect o =>
    fword 0x130 o.h o.d.toNat o.a.toNat o.b.toNat o.c.toNat (b2n o.lo + 2 * b2n o.emit + 4 * o.m1.toNat)
  | .cctl o => fword 0x138 o.h 0 o.a.toNat 0 0 (o.op.toNat + 4 * b2n o.l2)
  | .prefd o => fword 0x139 o.h 0 o.a.toNat 0 0 o.lvl.toNat
  | .tcfg o => fword 0x160 o.h o.tc.toNat o.a.toNat 0 0 0
  | .tzero o => fword 0x161 o.h o.t.toNat 0 0 0 0
  | .tld o => fword 0x162 o.h o.t.toNat o.a.toNat 0 0 0
  | .tst o => fword 0x163 o.h 0 o.a.toNat o.t.toNat 0 0
  | .ttrn o => fword 0x164 o.h o.d.toNat o.a.toNat 0 0 0
  | .mma o => mma 0x168 o
  | .mmas o => mma 0x169 o
  | .accz o => fword 0x16A o.h o.d.toNat o.a.toNat 0 0 0
  | .acccvt o =>
    mma 0x16B ⟨o.h, o.acc, o.asp, o.aop, false, 0, o.mq, o.nq, 0, 0, false, o.tok, o.cv, o.afmt, 0, false, false, 0, false,
      0, o.pat, 0⟩
  | .accrd o => let s := src o.b 0; fword 0x16C o.h o.d.toNat o.a.toNat s.1 s.2.1 s.2.2
  | .accwr o => let s := src o.b 0; fword 0x16D o.h o.acc.toNat o.a.toNat s.1 s.2.1 s.2.2
  | .accst o => fword 0x16E o.h o.d.toNat o.a.toNat o.b.toNat o.c.toNat 0
  | .cpy o => cpy 0x1A0 o
  | .cpyg o => cpy 0x1A1 o
  | .cpyx o => cpy 0x1A2 o
  | .cpyc o => cpy 0x1A3 o
  | .cpyf o => cpy 0x1A4 o
  | .hbind o => fword 0x1A8 o.h o.hd.toNat o.a.toNat 0 0 0
  | .hset o => hs 0x1A9 o
  | .hwait o => hs 0x1AA o
  | .hrel o => fword 0x1AB o.h o.hd.toNat 0 0 0 0
  | .coll o => cpy 0x1B0 o
  | .objq o => fword 0x1B1 o.h o.d.toNat o.sa.toNat 0 o.word.toNat (iBit + o.mode.toNat + 4 * b2n o.bl)
  | .rqadmit o => sd 0x1C0 0 o
  | .rqstep o => fword 0x1C1 o.h o.d.toNat 0 0 0 0
  | .rqretire o => sd 0x1C2 0 o
  | .rqrd o => fword 0x1C3 o.h o.d.toNat o.a.toNat 0 o.off.toNat iBit
  | .rqwr o => fword 0x1C4 o.h 0 o.a.toNat o.b.toNat o.off.toNat (b2n o.w)
  | .rqwrEmit o => fword 0x1C4 o.h 0 o.a.toNat o.b.toNat 0 2
  | .rqbind o => fword 0x1C5 o.h 0 o.a.toNat 0 0 (b2n o.unb)
  | .rqflagCancel o => fword 0x1C6 o.h 0 o.a.toNat 0 0 0
  | .rqflagFault o => fword 0x1C6 o.h 0 o.a.toNat (o.imm.toNat / 256) (o.imm.toNat % 256) (iBit + 1)
  | .rqevict o => fword 0x1C7 o.h 0 o.a.toNat 0 0 0
  | .kvapnd o =>
    kv 0x1E0 o.h o.tok.toNat o.sq.toNat o.sa.toNat 0 o.layer.toNat 0 0 0 0 [(9, o.nrows.toNat), (55, 0)]
  | .kvseal o => sd 0x1E1 0 o
  | .kvsel o =>
    kv 0x1E2 o.h o.tok.toNat o.sq.toNat o.sa.toNat o.sb.toNat o.layer.toNat 0 0 0 (b2n o.ovr)
      [(16, o.cs.toNat), (16, o.cw.toNat), (16, o.ck.toNat), (16, 0)]
  | .kvpf o =>
    kv 0x1E3 o.h o.tok.toNat o.sq.toNat 0 o.sb.toNat o.layer.toNat o.tsel.toNat o.dm1.toNat (b2n o.list) 0
      [(6, o.ring.toNat), (6, o.rnm1.toNat), (52, 0)]
  | .attn o => attn 0x1E4 o
  | .attnv o => attn 0x1E5 o
  | .attnf o => fword 0x1E6 o.h o.d.toNat o.t.toNat o.b.toNat o.c.toNat 0
  | .kvwashReq o => sd 0x1E7 0 o
  | .kvwashPage o => sd 0x1E7 1 o
  | .kvtierHbm o => sd 0x1E8 0 o
  | .kvtierLp o => sd 0x1E8 1 o
  | .kvmap o => sss 0x1E9 o
  | .kvrebld o => sd 0x1EA 0 o
  | .kvfree o => sd 0x1EB 0 o
  | .pWord a b => [pack [(31, Enc.half b), (31, Enc.half a), (2, 1)]]
  | .loadDataArrival _ _ => []
  | .splitDataArrival _ _ => []
  | .commandCompletion _ => []
  | .matrixCommandStart _ => []
  | .attnArrayStart _ => []
  | .filingRetry _ _ => []
  | .binAgeExpiry _ _ => []
  | .binLaunch _ _ => []
  | .groupEnd _ => []
  | .eventTimerExpiry _ _ => []
  | .waitanyTimeout _ => []
  | .swEventDelivery _ => []
  | .mailboxDelivery _ => []
  | .icacheFill _ _ => []
  | .sauApply _ => []
  | .pageWalk _ _ _ => []
  | .lineWriteBack _ _ _ _ _ => []
  | .hotLineIdle _ _ => []
  | .wheelTurn _ _ => []
  | .teamPlacement => []
  | .starvationLimit _ _ => []
  | .depWordPoll _ _ => []
  | .autoPreempt => []
  | .drainDeadline _ => []
  | .flushRestart _ => []
  | .teamSave _ => []
  | .teamResume _ => []
  | .chainFill _ _ => []
  | .pageAllocation _ => []
  | .washEvaluation _ _ => []
  | .washDemotion _ _ => []
  | .coldMove _ _ => []
  | .evictionMove _ _ => []
  | .parityContribution _ _ => []
  | .parityXorOut _ _ => []
  | .parityAck _ _ _ _ _ => []
  | .parityBlockRequest _ _ _ _ => []
  | .pageRebuild _ _ _ _ => []
  | .collNotice _ _ => []
  | .collPull _ _ _ _ => []
  | .collTimeout _ => []
  | .fabricRequest _ => []
  | .fabricResponse _ _ => []
  | .fabricTimeout _ => []
  | .pauseFlit _ _ => []
  | .resumeFlit _ _ => []
  | .linkDown _ => []
  | .linkUp _ => []
  | .pcieLinkDown _ => []
  | .throttleChange _ => []
  | .powerGate _ => []
  | .powerOn => []
  | .bootPhaseComplete _ => []
  | .attestationReportReady => []
  | .watchdogNotice _ => []
  | .faultRecordWrite _ => []
  | .takeoverTimeout _ => []
  | .create _ _ => []
  | .destroy _ => []
  | .hold _ => []
  | .resume _ => []
  | .inval _ => []
  | .takeover _ => []
  | .deny _ => []
  | .lose _ => []
  | .reseal _ => []
  | .launchWindowGo _ _ => []
  | .hmqRead _ => []
  | .ecallReply _ _ => []
  | .hostMailboxWrite _ _ _ _ => []
  | .fqackReplay _ => []
  | .fqackSkip _ => []
  | .fqackExit _ => []
  | .fqackEndteam _ => []
  | .fqackEndgrid _ => []
  | .fqackContinue _ => []
  | .attcmdGo => []
  | .thrcapWrite _ => []
  | .bwAllotmentWrite _ _ => []
  | .w2Read _ _ => []
  | .w2Write _ _ _ => []
  | .registerWrite _ _ _ _ => []
  | .ctxcmdCompletion _ => []
  | .tailReturnMove _ _ => []

end Enc

/-- The encoder. -/
def encode (i : Instr) : List Nat := Enc.words i

/-- Does the instruction belong to the stream (R204), rather than being an event? -/
def Instr.isWord (i : Instr) : Bool := !(encode i).isEmpty

/-- The decoder on encoded words. -/
def decodeWords (L : Limits) (ws : List Nat) : Except DErr Instr :=
  match ws with
  | [] => .error .truncated
  | [w0] => decode L w0 0
  | w0 :: w1 :: _ => decode L w0 w1

end Sys2Proof
end

