-- ==== Sys2Proof/Machine/Map.lean ====
section
/-! DEFINITION. Sparse maps from natural numbers, as lists of pairs with rising keys: register files,
memories and tables of records are held this way. `Map.set d` keeps the canonical form in which no entry
equals what an unlisted key reads as (`d`), so equal maps are equal lists. -/

namespace Sys2Proof.Machine

abbrev Map (α : Type) := List (Nat × α)

/-- The entry at key `k`, if one is listed. -/
def Map.find {α : Type} : Map α → Nat → Option α
  | [], _ => none
  | (j, v) :: m, k => if j == k then some v else Map.find m k

/-- What key `k` reads as; `d` where nothing is listed. -/
def Map.get {α : Type} (d : α) (m : Map α) (k : Nat) : α := (Map.find m k).getD d

/-- Lists `v` at `k`, in key order, in place of any entry there. -/
def Map.put {α : Type} : Map α → Nat → α → Map α
  | [], k, v => [(k, v)]
  | (j, w) :: m, k, v =>
    if k < j then (k, v) :: (j, w) :: m
    else if k = j then (k, v) :: m
    else (j, w) :: Map.put m k v

/-- Removes every entry at `k`. -/
def Map.erase {α : Type} : Map α → Nat → Map α
  | [], _ => []
  | (j, w) :: m, k => if j = k then Map.erase m k else (j, w) :: Map.erase m k

/-- Makes key `k` read as `v`, keeping the canonical form over `d`. -/
def Map.set {α : Type} [DecidableEq α] (d : α) (m : Map α) (k : Nat) (v : α) : Map α :=
  if v = d then Map.erase m k else Map.put m k v

/-- Applies `f` to what `k` reads as. -/
def Map.upd {α : Type} (d : α) (m : Map α) (k : Nat) (f : α → α) : Map α :=
  Map.put m k (f (Map.get d m k))

/-- Keys rise strictly, all above `lo`. -/
def Map.sortedFrom {α : Type} : Nat → Map α → Bool
  | _, [] => true
  | lo, (j, _) :: m => decide (lo ≤ j) && Map.sortedFrom (j + 1) m

/-- The canonical form: keys rise strictly and no entry equals the default. -/
def Map.wf {α : Type} [DecidableEq α] (d : α) (m : Map α) : Bool :=
  Map.sortedFrom 0 m && m.all (fun e => decide (e.2 ≠ d))

/-- The entries whose keys lie in `[lo, hi)`, keys less `lo`. -/
def Map.slice {α : Type} (m : Map α) (lo hi : Nat) : Map α :=
  (m.filter (fun e => decide (lo ≤ e.1 ∧ e.1 < hi))).map (fun e => (e.1 - lo, e.2))

/-- Removes the entries whose keys lie in `[lo, hi)`. -/
def Map.clear {α : Type} (m : Map α) (lo hi : Nat) : Map α :=
  m.filter (fun e => decide (e.1 < lo ∨ hi ≤ e.1))

/-- `n` consecutive values from key `k`. -/
def Map.getN {α : Type} (d : α) (m : Map α) (k : Nat) : Nat → List α
  | 0 => []
  | n + 1 => Map.get d m k :: Map.getN d m (k + 1) n

/-- Writes consecutive values from key `k`. -/
def Map.setN {α : Type} [DecidableEq α] (d : α) (m : Map α) (k : Nat) : List α → Map α
  | [] => m
  | v :: vs => Map.setN d (Map.set d m k v) (k + 1) vs

/-- The entries of consecutive values from key `k`, in canonical form. -/
def Map.run {α : Type} [DecidableEq α] (d : α) : Nat → List α → Map α
  | _, [] => []
  | k, v :: vs => if v = d then Map.run d (k + 1) vs else (k, v) :: Map.run d (k + 1) vs

/-- `Map.setN` in one pass over the map, for long runs: the entries of the span make way for the run. -/
def Map.splice {α : Type} [DecidableEq α] (d : α) (m : Map α) (k : Nat) (vs : List α) : Map α :=
  m.filter (fun e => decide (e.1 < k)) ++ (Map.run d k vs ++ m.filter (fun e => decide (k + vs.length ≤ e.1)))

/-- Little-endian value of a list of bytes (R5). -/
def leNat : List Byte → Nat
  | [] => 0
  | b :: bs => b.toNat + 256 * leNat bs

/-- The low `n` bytes of a number, least significant first (R5). -/
def leBytes (x : Nat) : Nat → List Byte
  | 0 => []
  | n + 1 => BitVec.ofNat 8 x :: leBytes (x / 256) n

end Sys2Proof.Machine
end

