-- ==== Sys2Proof/Machine/State.lean ====
section
/-! DEFINITION. The state of the package as plain data: threads, groups, teams, grids, contexts, cores, dies,
memory dies, the package registers, memory, and the work in flight. Every field cites the rule that names it;
fields marked MODEL are the model's own. -/

namespace Sys2Proof.Machine

/-! ## Stops -/

/-- Why a step can stop. -/
inductive Fault where
  /-- Raised by the shared issue operation (`issue`) when an instruction of the stream is executed in a state in
  which no group is selected for issue; the hardware never issues without a group. Safe. -/
  | noIssuingGroup
  deriving DecidableEq, Repr

/-- Why an instruction has no meaning. -/
inductive Refusal where
  /-- Raised by `exec`'s arms of instructions whose meaning is not written yet. Safe. -/
  | notModelled (mnemonic : String)
  deriving DecidableEq, Repr

/-! ## Memory -/

/-- Home memory: byte cells by physical address. Store `k` (0–7 the HBM4E stacks, 8–15 the LPDDR-6 channels)
occupies addresses from `k * 2^37` (R82); addresses from `2^48` are the die-shared windows (R51). -/
abbrev Memory := List Host.Cell

/-- What an unlisted byte reads as (log entry 2). -/
def Memory.zero : Byte := 0

/-- The canonical form of memory. -/
def Memory.wf (m : Memory) : Bool := Map.wf Memory.zero m

/-- A valid byte of a cache line (R89, R90): its value and its dirty bit. A byte not listed is not valid. -/
structure CByte where
  val   : Byte
  dirty : Bool
  deriving DecidableEq, Repr

/-- A leaf entry held by a TLB (R82, R84). -/
structure TlbE where
  ctx : Nat
  vpn : Nat
  lvl : Nat
  pte : Word64
  deriving DecidableEq, Repr

/-- A failed access: the code, and LEVEL, SITE and MAL of R410. `line` is a line to be marked as malformed. -/
structure MErr where
  code  : Nat
  level : Nat := 7
  site  : Nat := 0
  mal   : Bool := false
  line  : Option Nat := none
  deriving DecidableEq, Repr

/-! ## Threads (R24, R28) -/

/-- What a pending or busy result names. -/
inductive RegCls where
  | v | p | s
  deriving DecidableEq, Repr

/-- A fixed-latency write that no consumer may read before the spacing count reaches `due` (R196, R197). -/
structure PendW where
  cls : RegCls
  reg : Nat
  due : Nat
  val : Word64
  deriving DecidableEq, Repr

/-- Why a lane is parked (R32). -/
inductive Park where
  | bar (b : Nat) (phase : BitVec 16)
  | dieBar (b : Nat) (phase : BitVec 16)
  | gridBar (phase : BitVec 16)
  | waitAny (list : BitVec 16) (deadline : Option Nat)
  | hwait (h : Nat) (st : BitVec 2)
  | reform
  | spawn (entry : Word64)
  | ecall (seq : BitVec 32) (dst : Nat)
  deriving DecidableEq, Repr

/-- A lane's standing in its group (R32, R37, R41). -/
inductive LaneSt where
  | live
  | exited
  | left
  | parked (why : Park)
  | splitWait
  | joinWait
  deriving DecidableEq, Repr

structure Thread where
  /-- R24: the thread's program counter. -/
  pc   : Word64 := 0
  /-- R29: `%tid`. -/
  tid  : BitVec 32 := 0
  /-- R181: v-registers, zero where unlisted (R331). -/
  v    : Map Word32 := []
  /-- R181: predicates p0–p127; bit 127 is not stored and reads true. -/
  p    : BitVec 128 := 0
  /-- R197: fixed-latency writes not yet at adequate distance. -/
  pend : List PendW := []
  /-- R32. -/
  st   : LaneSt := .exited
  /-- R66, R67: the bound slot and the request named at RQBIND. -/
  bind : Option (Nat × Nat) := none
  /-- R417: v-registers and predicates whose contents an uncorrectable error has lost. -/
  bad  : List Nat := []
  badP : List Nat := []
  deriving DecidableEq, Repr

/-! ## Groups (R28) -/

/-- Kinds of event slots (R68). -/
inductive EvKind where
  | none | bar | dbar | tok | hnd | mbx | step | sw | timer
  deriving DecidableEq, Repr

/-- An event slot (R68, R70). -/
structure EvSlot where
  kind     : EvKind := .none
  obj      : BitVec 8 := 0
  ref      : BitVec 32 := 0
  handler  : Word64 := 0
  armed    : Bool := false
  /-- TIMER: cycle at which the count expires (R350), and whether that occurrence has come (R69). -/
  deadline : Nat := 0
  fired    : Bool := false
  /-- SW: the word of the first occurrence since the pending bit was last cleared (R70). -/
  word     : Word64 := 0
  /-- SW: the scope of the raising EVRAISE's release (R122). -/
  scope    : Nat := 0
  deriving DecidableEq, Repr

/-- The split record when open (R36, R37). -/
structure Split where
  mask : BitVec 64
  join : Word64
  deriving DecidableEq, Repr

/-- A scoreboarded result not yet written: who will write it, which lanes and register. -/
structure Busy where
  id    : Nat
  lanes : BitVec 64
  cls   : RegCls
  reg   : Nat
  deriving DecidableEq, Repr

/-- Where an access leads: a leaf's physical address, its entry (R82) and walk level; `win`: in a die-shared window (R51). -/
structure Leaf where
  pa  : Nat
  pte : Nat
  lvl : Nat
  win : Bool := false
  deriving DecidableEq, Repr

/-- A load whose values are read and not yet written (R260): lane and value; `far`: lanes of a SPLIT load whose data come from
another chip (R37, R80), and the instruction. -/
structure OutLoad where
  id    : Nat
  dst   : Nat
  wide  : Bool
  store : Bool
  split : Bool
  vals  : List (Nat × Word64)
  /-- R110: the memory format, the bytes of each lane, and the places of the lanes whose reads may still be performed anew (MODEL). -/
  mfmt  : Nat := 0
  n     : Nat := 0
  again : List (Nat × Leaf) := []
  far   : List Nat := []
  pc    : Nat := 0
  deriving DecidableEq, Repr

/-- R110: a store of `n` bytes to one place that its core has not performed yet, lane and value (MODEL); `tids`: the threads that
made it, and those spawned by one of them since (R43). -/
structure HeldSt where
  id   : Nat
  leaf : Leaf
  n    : Nat
  ys   : List (Nat × Word64)
  tids : List (BitVec 32) := []
  deriving DecidableEq, Repr

/-- A fault record (R386). -/
structure FRec where
  code   : BitVec 8 := 0
  replay : Bool := false
  rqf    : Bool := false
  defer  : Bool := false
  wdog   : Bool := false
  vcore  : BitVec 6 := 0
  gid    : BitVec 6 := 0
  tslot  : BitVec 4 := 0
  rqidx  : BitVec 13 := 0
  info   : BitVec 16 := 0
  pc     : Word64 := 0
  lanes  : BitVec 64 := 0
  addr   : Word64 := 0
  deriving DecidableEq, Repr

/-- A record held by a group or a command (R387): its ring entry once written, a stored disposition (R405). -/
structure Held where
  frec  : FRec
  entry : Option Nat := none
  disp  : Option Nat := none
  deriving DecidableEq, Repr

/-- A wait that the watchdog times (R403): kind, the lanes that wait and the instruction at which (R404), cycles at which it
began and at which the interval ends, whether its notice is out, the entry once written. `cmd`: the command that waits;
`atIssue`: the group waits at issue. -/
structure Wait where
  kind   : Nat
  lanes  : List Nat
  pc     : Nat
  born   : Nat
  until_ : Nat
  noted  : Bool := false
  entry  : Option Nat := none
  cmd    : Option Nat := none
  atIssue : Bool := false
  deriving DecidableEq, Repr

/-- A deferred failure waiting for the next release of one of the threads `tids` (R419), or, where a drain met it, of the group
`gid`; `sys`: for one at `.sys`. -/
structure Defer where
  code : BitVec 8
  info : BitVec 16
  addr : Word64
  sys  : Bool
  tids : List (BitVec 32) := []
  gid  : Nat := 0
  deriving DecidableEq, Repr

structure Group where
  /-- The slot holds a group (R41, R45). -/
  live      : Bool := false
  /-- R26: the sequencer. -/
  seq       : Nat := 0
  lanes     : Map Thread := []
  /-- R181: s-registers, zero where unlisted (R331). -/
  sr        : Map Word64 := []
  spend     : List PendW := []
  busy      : List Busy := []
  loads     : List OutLoad := []
  /-- R110: stores not yet performed, in issue order. -/
  stq       : List HeldSt := []
  /-- R227: token registers with an outstanding command. -/
  toks      : List (Nat × Nat) := []
  /-- R120, R122: token registers whose token is written and not read yet. -/
  tokNew    : List Nat := []
  /-- R68. -/
  ev        : Map EvSlot := []
  evPend    : BitVec 16 := 0
  evMask    : BitVec 16 := 0
  /-- R119: the four outstanding-operation counters. -/
  cCopy     : Nat := 0
  cMatrix   : Nat := 0
  cGather   : Nat := 0
  cColl     : Nat := 0
  /-- R36. -/
  split     : Option Split := none
  /-- R35. -/
  yieldMask : BitVec 64 := 0
  /-- R33: the issue set selected while the group waits to issue it. -/
  hold      : Option (BitVec 64) := none
  /-- R240: the number of an ECALL whose first message is placed and whose second waits for room. -/
  ecallHalf : Option (BitVec 32) := none
  /-- R41: the last thread has left by REFORM. -/
  gone      : Bool := false
  /-- R389: the lanes for which the faulting instruction issues again next; R394: whether unchecked, after STALLCHK. -/
  replay    : Option (BitVec 64) := none
  unchecked : Bool := false
  /-- R139. -/
  fpctl     : Word64 := 0
  fpflags   : Word64 := 0
  srseed    : Word64 := 0
  /-- R133. -/
  fp4x      : Word64 := 0
  /-- R198. -/
  chkctl    : Word64 := 0
  /-- R202. -/
  trapctl   : Word64 := 0
  /-- R46. -/
  binage    : BitVec 16 := 256
  /-- R249: the bound activation bank. -/
  actBank   : Bool := false
  /-- R221. -/
  idempf    : Bool := false
  /-- R196: the spacing count. -/
  spacing   : Nat := 0
  /-- R196: first cycle at which the group may issue again. -/
  nextIssue : Nat := 0
  /-- R239. -/
  issueCnt  : Word64 := 0
  sbwait    : Word64 := 0
  /-- R338: cycle of the last issue; consecutive opportunities at which it was passed over, and the last of them; cycle of the
  last WAITANY resumption. -/
  lastIssue : Nat := 0
  waited    : Nat := 0
  waitedAt  : Nat := 0
  resumed   : Option Nat := none
  /-- R229, R230: arrival records. -/
  barA      : Map (BitVec 16) := []
  dieA      : Map (BitVec 16) := []
  gridA     : Option (BitVec 16) := none
  /-- R387, R390: the fault that parks the group. -/
  fault     : Option Held := none
  waits     : List Wait := []
  /-- R417: s-registers lost to an uncorrectable error. -/
  badS      : List Nat := []
  deriving DecidableEq, Repr

/-! ## Teams (R26, R28, R30) -/

/-- A convergence register (R47): count, phase, signed threads, command held. -/
structure CvReg where
  count  : Nat := 0
  phase  : BitVec 16 := 0
  signed : List (BitVec 32) := []
  cmd    : Option Nat := none
  deriving DecidableEq, Repr

/-- The declarations of a kernel object (R330). -/
structure Decl where
  kobj    : Nat := 0
  entry   : Word64 := 0
  gw      : Nat := 32
  team    : Nat := 1
  regs    : Nat := 32
  tiles   : Nat := 0
  accs    : Nat := 0
  cvregs  : Nat := 0
  nbar    : Nat := 0
  pair    : Bool := false
  coop    : Bool := false
  rqsc    : Bool := false
  idem    : Bool := false
  scratch : Nat := 0
  expect  : Nat := 0
  win     : Nat := 0
  caddr   : List Word64 := []
  csize   : List Nat := []
  deriving DecidableEq, Repr

/-- How a team is being pre-empted (R345, R346), or where it stands; `ending` after ENDTEAM or ENDGRID, while commands that
have reached their engines complete (R390). -/
inductive TeamSt where
  | resident
  | draining (deadline : Nat)
  | flushing
  | saving
  | saved
  | ending
  | ended
  deriving DecidableEq, Repr

/-- A bin (R39): its team, key, threads in order of entry, first entry, expiry (cycle, or cycles left while saved). -/
structure Bin where
  team    : Nat
  key     : Word64
  threads : List Thread
  first   : Nat
  expiry  : Nat
  ready   : Bool
  deriving DecidableEq, Repr

structure Team where
  ctx      : Nat := 0
  lid      : BitVec 32 := 0
  /-- R29: `%team`. -/
  index    : Nat := 0
  die      : Nat := 0
  /-- Physical core (the lower one of a pair). -/
  core     : Nat := 0
  /-- R351: the virtual core, and for a pair team that of the upper core. -/
  vcore    : Nat := 0
  vcore2   : Nat := 0
  tslot    : Nat := 0
  st       : TeamSt := .ended
  decl     : Decl := {}
  groups   : Map Group := []
  /-- R31: scratchpad window bytes; the partner half from offset 3 MiB. -/
  scratch  : Map Byte := []
  badScr   : List Nat := []
  /-- R30: tile bytes at `(half * 8 + t) * 65536 + offset`. -/
  tiles    : Map Byte := []
  badTile  : List Nat := []
  /-- R272: shapes at `half * 8 + t`. -/
  tc       : Map Word64 := []
  /-- R30: accumulator elements at `(half * 4 + a) * 98304 + m * 384 + n`. -/
  acc      : Map Word32 := []
  badAcc   : List Nat := []
  /-- R47. -/
  cv       : Map CvReg := []
  /-- R229: phase numbers of b0–b15. -/
  bar      : Map (BitVec 16) := []
  /-- R29: the next thread identifier. -/
  nextTid  : BitVec 32 := 0
  /-- R239: RETIRED. -/
  retired  : Word64 := 0
  /-- R344. -/
  nonIdem  : Bool := false
  /-- R347: image slot while saved, and the bins saved with it (sequencer, bin). -/
  slot     : Option Nat := none
  binsSaved : List (Nat × Bin) := []
  savedAt  : Nat := 0
  /-- R419: failures that no release of the team's threads has reported. -/
  defer    : List Defer := []
  /-- R406: its pre-emption has been refused; the entry of the notice while the team holds it. -/
  refused  : Bool := false
  note     : Option Nat := none
  age      : Nat := 0
  deriving DecidableEq, Repr

/-! ## Grids, launches, contexts -/

/-- A launch (R241, R332) and, once a team is placed, its grid (R27). -/
structure Grid where
  lid      : BitVec 32 := 0
  decl     : Decl := {}
  arg      : Word64 := 0
  teams    : Nat := 0
  rq       : Bool := false
  dieMask  : BitVec 4 := 0
  prio     : Nat := 0
  queue    : Nat := 0
  dep      : Nat := 0
  depop    : Word64 := 0
  depMet   : Bool := false
  cmpl     : BitVec 2 := 0
  mbox     : BitVec 32 := 0
  /-- R335: acceptance order, cycle since which it has been head with met dependence. -/
  accepted : Nat := 0
  headAt   : Option Nat := none
  starved  : Bool := false
  pollAt   : Nat := 0
  started  : Bool := false
  placed   : Nat := 0
  /-- R346: team indices returned unplaced by FLUSH-RESTART. -/
  back     : List Nat := []
  done     : Nat := 0
  finished : Bool := false
  /-- STATUS of the completion word: R419, and R390 once a disposition has ended a team. -/
  status   : BitVec 8 := 0
  ended    : Option (BitVec 8) := none
  /-- R87, R124: home memory as of the kernel boundary before the grid, with the metadata codes of its lines (R93). -/
  snap     : Memory := []
  snapMeta : Map (BitVec 4) := []
  /-- R87: the lines of 64 bytes of constant banks at fabric global addresses, as first read. -/
  constFab : Map (List Byte) := []
  /-- R53: die barrier phases at `die * 4 + b`. -/
  dieBar   : Map (BitVec 16) := []
  gridBar  : BitVec 16 := 0
  age      : Nat := 0
  /-- R337, R241: completion actions still to make (bit 0 word, bit 1 post). -/
  todo     : BitVec 2 := 0
  deriving DecidableEq, Repr

/-- A message and the scope its release carried (R77). -/
structure Msg where
  val   : Word64
  scope : Nat
  deriving DecidableEq, Repr

/-- The snapshot of a page that a handle holds (R163, R298). -/
structure Snap where
  page : BitVec 32
  gen  : BitVec 16
  fmt  : BitVec 3
  tier : BitVec 2
  ntok : BitVec 7
  scale : BitVec 32
  ord  : BitVec 32
  addr : Word64
  /-- R425: a snapshot of a TIER 2 page takes no reader count. -/
  counted : Bool
  deriving DecidableEq, Repr

/-- The geometry of a map entry (R152, R153): KV heads, DH, layers, strides of a head, a tensor and a layer. -/
structure Geo where
  nkvh : Nat := 0
  dh   : Nat := 0
  nl   : Nat := 0
  hs   : Nat := 0
  ts   : Nat := 0
  ls   : Nat := 0
  deriving DecidableEq, Repr

/-- A buffer handle (R298). -/
structure Handle where
  st     : BitVec 2 := 0
  fail   : Bool := false
  filled : BitVec 32 := 0
  offset : BitVec 23 := 0
  size   : BitVec 24 := 0
  tsel   : BitVec 2 := 0
  snap   : Option Snap := none
  /-- MODEL: the scratchpad holding the buffer is that of this team. -/
  team   : Nat := 0
  /-- MODEL: the geometry of the snapshot's page, which outlives the page's map entry (R327, log entry 72). -/
  geo    : Geo := {}
  deriving DecidableEq, Repr

/-- The W0 context registers (R150, R286, R329, R360, R428). -/
structure CtxRegs where
  ctxarg  : Word64 := 0
  ptroot  : Word64 := 0
  rqtab   : Word64 := 0
  expbase : Word64 := 0
  expsize : BitVec 45 := 0
  jointag : BitVec 32 := 0
  fqbase  : Word64 := 0
  fqn     : BitVec 32 := 0
  w2base  : Word64 := 0
  kvpt    : Word64 := 0
  kvptn   : BitVec 32 := 0
  kvslot  : BitVec 32 := 0
  kvhpool : Word64 := 0
  kvhn    : BitVec 32 := 0
  kvlpool : Word64 := 0
  kvln    : BitVec 32 := 0
  kvsk    : Word64 := 0
  kvsksz  : BitVec 32 := 0
  kvwpol  : Word64 := 0
  kvpolyPos  : BitVec 4 := 15
  kvpolyPred : BitVec 10 := 0
  kvpar   : Word64 := 0
  kvparm  : Word64 := 0
  ctxcmd  : BitVec 5 := 0
  objt    : Word64 := 0
  objn    : BitVec 16 := 0
  objbl   : Word64 := 0
  objbln  : BitVec 20 := 0
  kobjt   : Word64 := 0
  kobjn   : BitVec 16 := 0
  savebase : Word64 := 0
  savesz  : BitVec 32 := 0
  saven   : BitVec 16 := 0
  evbase  : Word64 := 0
  evn     : BitVec 32 := 0
  actimg  : Word64 := 0
  defbin  : BitVec 16 := 256
  sched   : BitVec 32 := 51200
  preAuto : Bool := false
  preNoflush : Bool := false
  preNodrain : Bool := false
  drainb  : BitVec 16 := 32
  drainto : BitVec 16 := 128
  deriving DecidableEq, Repr

/-- An active entry of the step table published last (R64). -/
structure StepEnt where
  slot : Nat
  rq   : Nat
  ntok : Nat
  deriving DecidableEq, Repr

/-- An RQSTEP in its eviction action (R62): the group that executes it, the requests still to be considered, those that
were marked, the release entries so far, the requests evicted, whether the watermark has begun to evict, the requests admitted once
action 4 has admitted, and the failure to report (R414). -/
structure FStage where
  own     : GRef
  todo    : List Nat
  marked  : List Nat
  rel     : List (Nat × Nat × Nat)
  out     : List Nat := []
  started : Bool := false
  admitted : Option (List Nat) := none
  fail    : Option Defer := none
  deriving DecidableEq, Repr

/-- The batch former's registers (R61) and its state that no record shows (R62, R310). -/
structure Former where
  nslot   : BitVec 11 := 0
  chunk   : BitVec 13 := 512
  lowwm   : BitVec 32 := 0
  highwm  : BitVec 32 := 0
  freepg  : BitVec 32 := 0
  step    : BitVec 32 := 0
  nextseq : Word64 := 0
  steptab : Word64 := 0
  table   : List StepEnt := []
  marks   : List Nat := []
  withheld : List (Nat × Nat) := []
  stage   : Option FStage := none
  deriving DecidableEq, Repr

/-- A retired body (R163): handle, old GEN, old ADDR, old TIER, readers left; and whether the body is sealed (MODEL). -/
structure Retired where
  ctx : Nat
  handle : Nat
  gen : BitVec 16
  addr : Word64
  tier : BitVec 2
  count : Nat
  seald : Bool
  deriving DecidableEq, Repr

/-- An entry of the event backing ring (R354). -/
structure RingEnt where
  pos   : Nat
  vcore : Nat
  kind  : Nat
  team  : Nat
  gid   : Nat
  obj   : Nat
  word  : Word64
  arg   : Word64
  lid   : BitVec 32
  scope : Nat
  deriving DecidableEq, Repr

/-- A record waiting to be written to the fault queue (R387, R388): of a group, of a command, a notice of a group or (R406)
of a team, or one that nobody holds (a request charge or a device record). -/
inductive FqItem where
  | group (g : GRef)
  | cmd (id : Nat)
  | notice (g : GRef) (r : FRec) (born : Nat)
  | team (k : Nat) (r : FRec)
  | loose (r : FRec)
  deriving DecidableEq, Repr

/-- What a parity packet is (R176, R429): a member's contribution to a stripe or its XOR-out; a member's request for a lost block; the
predella's pull of a survivor's block; the survivor's block; the block rebuilt; the answer that it is not rebuildable. -/
inductive ParKind where
  | seal
  | unseal
  | ask
  | pull
  | give
  | rebuilt
  | lost
  deriving DecidableEq, Repr

/-- A parity packet handed to the fabric: its receiver (the predella's chip, or the member), the block, the bytes. -/
structure ParPkt where
  chip   : Nat
  block  : Nat
  kind   : ParKind
  data   : List Byte := []
  deriving DecidableEq, Repr

structure Ctx where
  /-- R360: CTXSTAT.STATE: 0 NONE, 1 RUNNING, 2 HELD. -/
  st      : BitVec 2 := 0
  busy    : Bool := false
  owner   : Bool := false
  fqerr   : Bool := false
  last    : BitVec 4 := 0
  lastPort : Bool := false
  /-- R328: CTXID.PRIV. -/
  priv    : Bool := false
  /-- R356: the function it is assigned to; R364: it has been taken over, and keeps its place among the contexts of the same
  function of the port that lost it until contexts are assigned anew. -/
  fn      : Nat := 0
  lostTo  : Bool := false
  regs    : CtxRegs := {}
  former  : Former := {}
  /-- R342: CAPHEAD, once the driver has mapped the capability list. -/
  capHead : Option Word64 := none
  /-- R332: queues of launch identifiers; R242: the next identifier. -/
  queues  : Map (List (BitVec 32)) := []
  nextLid : BitVec 32 := 1
  grids   : Map Grid := []
  /-- R333: the completed identifiers that the context remembers, newest first. -/
  doneLids : List (BitVec 32) := []
  /-- R345: RETIRED of completed teams by kernel object, newest first. -/
  history : Map (List Word64) := []
  /-- R75: mailboxes at `vcore * 32 + m`; the host mailbox queue. -/
  mbox    : Map (List Msg) := []
  hmq     : List Word64 := []
  /-- R240: sequence number of the next ECALL; replies kept for saved teams. -/
  ecallSeq : BitVec 32 := 1
  replies : List (BitVec 32 × Word64) := []
  repseq  : BitVec 32 := 0
  /-- R298: handles at `vcore * 64 + h`. -/
  handles : Map Handle := []
  /-- R249: bank contents at `bank * 8192 + offset`, whether each has been loaded, the default bank. -/
  actMem  : Map Byte := []
  actInit : BitVec 2 := 0
  actDef  : Bool := false
  /-- R239: SLIP of the sequencers, at `vcore * 4 + seq`. -/
  slips   : Map Word64 := []
  /-- R351: virtual core to physical core. -/
  vmap    : Map Nat := []
  /-- R354: backed-up occurrences. -/
  ring    : List RingEnt := []
  ringPos : Nat := 0
  /-- R387: next ring entry, records written, records waiting, entries held by nobody known. -/
  fqNext  : Nat := 0
  fqProd  : BitVec 32 := 0
  fqWait  : List FqItem := []
  /-- MODEL: the last write of a record failed, and no RESUME or INVAL has come since (R388). -/
  fqStuck : Bool := false
  /-- R362: launch window words at `q * 8 + word`, status of the last GO. -/
  lwin    : Map Word64 := []
  lstat   : Map Word64 := []
  /-- R364: a takeover in progress: requesting port, cycle of expiry. -/
  takeover : Option (Bool × Nat) := none
  /-- R62: pages of evicted requests still to move, and tail pages still to return. -/
  evicting : List Nat := []
  returning : List Nat := []
  /-- R172: by memory die, one above the place of the page that its wash engine reached last. -/
  washAt  : Map Nat := []
  /-- R175, R176, R428: member side: blocks whose contribution the predella has acknowledged; contributions awaiting it;
  blocks that a write waits to have XORed out, and those of them sent. -/
  parSealed : List Nat := []
  parIn   : List Nat := []
  parOut  : List Nat := []
  parSent : List Nat := []
  /-- R429: pages whose blocks are restored and whose new GEN is still to be written; pages whose blocks have been asked for; on a
  predella, the member and the block of each request whose pulls are out. -/
  rebuilt : List Nat := []
  parAsked : List Nat := []
  parServe : List (Nat × Nat) := []
  /-- R425, R430: pages lost with the member, which LOSE found in HBM. -/
  lostWith : List Nat := []
  /-- R422: predella side: stripes made unusable. -/
  parBad  : List Nat := []
  /-- MODEL: parity packets handed to the fabric. -/
  parPkts : List ParPkt := []
  deriving DecidableEq, Repr

/-! ## Cores, dies, memory dies -/

/-- A sequencer (R34, R339): the line that it misses, and since when; cycles spent frozen; the cycle of its last issue. -/
structure Seq where
  frozen  : Option Nat := none
  frozenAt : Nat := 0
  lost    : Nat := 0
  lastAt  : Option Nat := none
  deriving DecidableEq, Repr

structure Core where
  /-- R336: the context whose teams are resident. -/
  ctx    : Option Nat := none
  /-- R89: valid bytes by physical address; the lines allocated, oldest first; the dirty FIFO, oldest first. -/
  l1     : Map CByte := []
  ways   : List Nat := []
  fifo   : List Nat := []
  /-- R84. -/
  tlb    : List TlbE := []
  seqs   : Map Seq := []
  /-- R39: bins at `seq * 16 + bin`. -/
  bins   : Map Bin := []
  /-- R282: matrix commands in order of arrival; the one executing. -/
  matrix : List Nat := []
  array  : Option Nat := none
  /-- R238: the cycle from which the core's clock counts, moved on by the time for which it stood still; R374: cycle since
  which no team is resident, gating and since when. -/
  bornAt : Nat := 0
  idleAt : Nat := 0
  gated  : Bool := false
  gatedAt : Nat := 0
  /-- R110: stores of the core's groups are performed later than they issue (MODEL: the outside's choice). -/
  slow   : Bool := false
  deriving DecidableEq, Repr

structure Die where
  /-- R90: valid bytes by physical address; the lines allocated, oldest first; the SHX dirty FIFO; lines with the hot bit and their
  last atomic (R97). -/
  l2   : Map CByte := []
  ways : List Nat := []
  shx  : List Nat := []
  hot  : Map Nat := []
  /-- R339: lines of the shared instruction cache. -/
  ic   : List Nat := []
  tlb  : List TlbE := []
  /-- R367: port sets by chip number. -/
  route : Map (BitVec 48) := []
  deriving DecidableEq, Repr

structure MemDie where
  /-- R358: allotments in effect and those waiting for the next turn of their wheels. -/
  bwHbm  : Word64 := 0x0000010302020414
  bwLp   : Word64 := 0x0000020208000410
  newHbm : Option Word64 := none
  newLp  : Option Word64 := none
  deriving DecidableEq, Repr

/-! ## Work in flight -/

/-- Counter classes of R119; `none` for MBSEND and LAUNCH (R227). -/
inductive CmdCls where
  | copy | matrix | gather | coll | none
  deriving DecidableEq, Repr

/-- Where a command stands. -/
inductive CmdSt where
  | held
  | queued
  | running
  | waiting
  | suspended
  | done
  deriving DecidableEq, Repr

/-- KVPF's progress (R167, R317). -/
structure PfSt where
  next   : Word64 := 0xFFFFFFFF
  index  : Nat := 0
  count  : Nat := 0
  filled : Nat := 0
  ring   : Nat := 0
  geom   : Option (Nat × Nat) := none
  /-- The handle being rebuilt for, if the fill waits (R425). -/
  busyH  : Option Nat := none
  /-- It waits for a FREE handle of its ring (R167, R403). -/
  waits  : Bool := false
  deriving DecidableEq, Repr

/-- COLL's progress (R304): bytes received from each peer, bytes noticed to each, bytes that each has pulled, peers that
send no more, package time of the last progress; the STATUS with which it ends, while its token waits for room (R354). -/
structure CollSt where
  got    : Map (List Byte) := []
  noticed : Map Nat := []
  out    : Map (List Byte) := []
  ended  : List Nat := []
  lastAt : Nat := 0
  ending : Option Nat := none
  deriving DecidableEq, Repr

/-- An asynchronous command (R119, R271): the instruction, the s-registers and words captured at execution. -/
structure Cmd where
  id     : Nat
  ctx    : Nat
  own    : GRef
  instr  : Instr
  cls    : CmdCls
  tok    : Option Nat
  lane   : Nat
  lanes  : BitVec 64 := 0
  pc     : Word64
  cv     : Option Nat := none
  st     : CmdSt := .running
  sv     : Map Word64 := []
  cap    : List Word64 := []
  fp4x   : Word64 := 0
  srseed : Word64 := 0
  flags  : BitVec 6 := 0
  status : Word64 := 0
  retired : Bool := false
  /-- R415: a copy's row; the bytes that its reads have given; its writes still to make. -/
  prog   : Nat := 0
  had    : List Byte := []
  left   : List (Nat × List Byte) := []
  pf     : PfSt := {}
  coll   : CollSt := {}
  /-- R269: lane results of SXSECT. -/
  res    : List (Nat × Word64) := []
  held   : Option Held := none
  deriving DecidableEq, Repr

/-- What the second half of a packed atomic came to: the old halves, or its failure (R265, R421, R422). -/
inductive SauAns where
  | olds (l : List (Nat × Nat))
  | failed (e : MErr)
  deriving DecidableEq, Repr

/-- An atomic or reduce store on its way to its site (R98, R117, R265): lane operands, one half of a packed pair; `tids`: the threads
that made it; `heirs`: threads that one of them has spawned since (R43); `atom`: it is an atomic's; `keep`: the instruction waits for
it, and finds its answer in `ans`. The halves that go second stand before the others, in the order in which their first halves were
applied. -/
structure SauOp where
  id    : Nat
  own   : GRef
  tids  : List (BitVec 32) := []
  heirs : List (BitVec 32) := []
  atom  : Bool
  keep  : Bool := false
  ans   : Option SauAns := none
  l2    : Option Nat
  pa    : Nat
  va    : Word64
  op    : BitVec 3
  ty    : BitVec 3
  high  : Bool
  ys    : List (Nat × Word64)
  olds  : List (Nat × Word64)
  pc    : Word64
  deriving DecidableEq, Repr

/-- What an outgoing fabric request is for (R432): a load or atomic that its instruction waits for; a store or reduce
store; a mailbox send; a launch's completion post. -/
inductive FabKind where
  | sync
  | store
  | redst
  | send
  | post
  deriving DecidableEq, Repr

/-- An outgoing fabric request (R80, R366): the threads that made it, the die from which it goes, the port that it has left by, the
answer once it has come. -/
structure FabReq where
  id    : Nat
  own   : GRef
  tids  : List (BitVec 32) := []
  ctx   : Nat
  die   : Nat
  port  : Option Nat := none
  lane  : Nat
  kind  : FabKind
  chip  : Nat
  addr  : Word64
  op    : FabOp
  tok   : Option Nat
  pc    : Word64
  sentAt : Nat
  ans   : Option FabAns := none
  deriving DecidableEq, Repr

/-- A software event on its way (R225). -/
structure SwEv where
  id    : Nat
  own   : GRef
  ctx   : Nat
  lid   : BitVec 32
  team  : Nat
  gid   : Nat
  num   : BitVec 8
  word  : Word64
  arg   : Word64
  scope : Nat
  deriving DecidableEq, Repr

/-- A message on its way to a mailbox (R76, R77); `own` is none for a host write and a completion post. `post` is the
launch whose completion post it is; `port` the port whose later W1 writes wait behind a host write (R363); `arrived`: it has
reached the mailbox by way of the event backing ring (R354), and its order is fixed. -/
structure Send where
  arrived : Bool := false
  id    : Nat
  own   : Option GRef
  tids  : List (BitVec 32) := []
  post  : Option Nat := none
  port  : Option Bool := none
  tok   : Option Nat
  ctx   : Nat
  name  : BitVec 32
  msg   : Word64
  scope : Nat
  deriving DecidableEq, Repr

/-- An interrupt sent (R365): port, function, vector. -/
structure Irq where
  port   : Bool
  fn     : Nat
  vector : Nat
  deriving DecidableEq, Repr

/-- The answer to an incoming request (R366): the die from which it goes, the port that it has left by. -/
structure FabOut where
  die  : Nat
  port : Option Nat := none
  chip : Nat
  tag  : Nat
  ans  : FabAns
  deriving DecidableEq, Repr

/-- A fabric port (R366, R368, R431): up; the classes (0 request, 1 response, 2 notice, 3 pull) that the peer has paused; those for
which this port has sent a pause flit and no resume flit since. -/
structure FabPort where
  up     : Bool := false
  paused : BitVec 4 := 0
  full   : BitVec 4 := 0
  deriving DecidableEq, Repr

/-- The package block of W0 and the package's own state (R357, R369, R373, R431). -/
structure Pkg where
  fabid   : BitVec 10 := 0
  thrState : BitVec 3 := 0
  thrCause : BitVec 3 := 0
  tj      : BitVec 8 := 0
  /-- R373: package power above its limit, T1 insufficient. -/
  power   : Bool := false
  insuff  : Bool := false
  thrCount : BitVec 32 := 0
  thrcap  : BitVec 3 := 0
  phase   : BitVec 4 := 0
  cause   : BitVec 4 := 0
  svn     : BitVec 16 := 0
  meas    : List (BitVec 384) := [0, 0, 0, 0]
  nonce   : BitVec 256 := 0
  attGo   : Bool := false
  /-- The nonce latched when GO was written (R372). -/
  attNonce : BitVec 256 := 0
  attRpt  : List Byte := []
  staging : Map Byte := []
  fabwt   : BitVec 32 := 0x04010201
  linkevt : BitVec 32 := 0
  eccce   : Word64 := 0
  eccue   : Word64 := 0
  fabtmo  : BitVec 32 := 1000
  hotidle : BitVec 16 := 4096
  /-- R435: by port, a poisoned write reported through Advanced Error Reporting. -/
  aer     : BitVec 2 := 0
  deriving DecidableEq, Repr

/-- A host write that waits behind a mailbox write of its port (R124, R363); `cmd`: of CTXCMD. -/
inductive HostWr where
  | reg (o : RegOp) (val : Word64)
  | cmd (o : CtxOp) (cmd : Nat)
  | go (o : CtxOp) (queue : Nat)
  | reply (o : CtxOp) (val : Word64)
  | mbox (o : CtxOp) (vcore mbn : Nat) (val : Word64)
  | ack (o : AckOp) (disp : Nat)
  | w2 (o : W2Op) (data : List Byte)
  deriving DecidableEq, Repr

/-- What a host read returns: nothing yet, bytes, an Unsupported Request, a poisoned TLP (R413, R435). -/
inductive HostRd where
  | none
  | bytes (l : List Byte)
  | unsupported
  | poisoned
  deriving DecidableEq, Repr

/-- What is to happen next, when the outside fixes it (MODEL): a group issues, an event of the table happens, cycles
pass, a soft error strikes (R417), the stores of a core's groups are to wait, one that waits is performed, an outstanding read is
performed anew (R110); the host driver writes a routing table (R367), assigns a context to a function (R356) or reads a
register (R357 to R362); a poisoned write to W1 comes in (R435); a host link comes up; a receive buffer of a fabric port fills or drains to a percentage (R368). -/
inductive Act where
  | issue (g : GRef)
  | event (i : Instr)
  | cycles (n : Nat)
  | softReg (g : GRef) (lane reg : Nat)
  | softSReg (g : GRef) (reg : Nat)
  | softPred (g : GRef) (lane reg : Nat)
  | softScratch (team word : Nat)
  | softTile (team tile : Nat)
  | softAcc (team acc : Nat)
  | softSector (pa : Nat)
  | softMeta (line : Nat)
  | softCorrected
  | softClean (l2 : Bool) (unit line : Nat)
  | softInstr (die line : Nat)
  | route (die chip : Nat) (ports : BitVec 48)
  | assign (ctx : Nat) (port : Bool) (fn : Nat)
  | poisonedW1 (port : Nat)
  | pcieUp (port : Nat)
  | fabFill (port cls percent : Nat)
  | regRead (o : RegOp)
  | storesLate (core : Nat) (on : Bool)
  | storeEnter (g : GRef) (id : Nat)
  | readAgain (g : GRef) (id lane : Nat)
  deriving DecidableEq, Repr

/-- The attributes with which a 256-byte line was last accessed (MODEL): bits [14:0] of its leaf entry (R82) and
the context. -/
structure LineAttr where
  pte : Nat
  ctx : Nat
  deriving DecidableEq, Repr

/-- A failed write-back not yet charged to a group (R419): on which core, or on which die for a failed L2
write-back, and of which context. -/
structure LateFail where
  l2   : Bool
  unit : Nat
  ctx  : Nat
  d    : Defer
  deriving DecidableEq, Repr

structure State where
  /-- R7, R17: core cycles since package reset; R238: package time in units of 1/168 ns. -/
  now    : Nat
  time   : Nat
  /-- R104: home memory of every store, one coherence order per byte. -/
  mem    : Memory
  /-- R93: metadata codes of lines, 0x0 where unlisted; R418: poisoned 64 B sectors. -/
  lmeta  : Map (BitVec 4)
  poison : List Nat
  /-- MODEL: attributes of cached lines, by 256-byte line. -/
  lattr  : Map LineAttr
  late   : List LateFail
  ctxs   : Map Ctx
  teams  : Map Team
  cores  : Map Core
  dies   : Map Die
  mds    : Map MemDie
  retired : List Retired
  pkg    : Pkg
  fports : Map FabPort
  /-- R435: host links up. -/
  pcieUp : BitVec 2
  cmds   : List Cmd
  sauQ   : List SauOp
  fabQ   : List FabReq
  swQ    : List SwEv
  sends  : List Send
  irqs   : List Irq
  /-- R354: requests of other chips that wait for room in a backing ring. -/
  fabIn  : List FabReqOp
  fabOut : List FabOut
  /-- R363: host writes that wait behind a mailbox write of their port, oldest first. -/
  hostQ  : List HostWr
  /-- MODEL: the answer of the last host read. -/
  hostRd : HostRd
  /-- MODEL: the next identifier of a team, command or request in flight. -/
  fresh  : Nat
  /-- MODEL: counter of the free values (Config). -/
  free   : Nat
  /-- MODEL: the group selected for issue. -/
  cur    : Option GRef
  /-- MODEL: inputs and choices fixed from outside, first first. -/
  agenda : List Act
  deriving DecidableEq, Repr

/-- The package at reset release: no context exists, no team is resident, nothing is in flight. -/
def State.reset : State where
  now := 0
  time := 0
  mem := []
  lmeta := []
  poison := []
  lattr := []
  late := []
  ctxs := []
  teams := []
  cores := []
  dies := []
  mds := []
  retired := []
  pkg := {}
  fports := []
  pcieUp := 0
  cmds := []
  sauQ := []
  fabQ := []
  swQ := []
  sends := []
  irqs := []
  fabIn := []
  fabOut := []
  hostQ := []
  hostRd := .none
  fresh := 1
  free := 0
  cur := none
  agenda := []

end Sys2Proof.Machine
end

