-- ==== Sys2Proof/Machine/Operands.lean ====
section
/-! DEFINITION. What each instruction reads and writes: header, registers read in the reading order of R394,
registers written, fixed latency (R195), instruction length (R177), and the non-idempotent instructions (R344). -/

namespace Sys2Proof.Machine

/-- A register operand. -/
abbrev RegRef := RegCls × Nat

def rdV (r : VReg) : List RegRef := [(.v, r.toNat)]
def rdVp (r : VReg) : List RegRef := [(.v, r.toNat), (.v, r.toNat + 1)]
def rdVw (w : Bool) (r : VReg) : List RegRef := if w then rdVp r else rdV r
/-- p127 reads true and is never a dependence (R181). -/
def rdP (r : PReg) : List RegRef := if r = 127 then [] else [(.p, r.toNat)]
def rdS (r : SReg) : List RegRef := [(.s, r.toNat)]
def rdB (w : Bool) : SrcB → List RegRef
  | .v r => rdVw w r
  | .s r => rdS r
  | .imm _ => []
def rdIS : ImmS → List RegRef
  | .imm _ => []
  | .s r => rdS r
def rdAddr : GAddr → List RegRef
  | .off p _ => rdVp p
  | .idx b v _ _ => rdV v ++ rdS b
  | .plain p => rdVp p
  | .split p _ => rdVp p

/-- The predicates p(32K) to p(32K + 31), p127 aside. -/
def pBlock (k : Nat) : List RegRef :=
  ((List.range 32).map (fun j => (RegCls.p, 32 * k + j))).filter (fun r => decide (r.2 ≠ 127))

/-- Reads and writes of an instruction, guard aside, and its fixed latency; 0 where its results are interlocked. -/
structure Uses where
  reads  : List RegRef := []
  writes : List RegRef := []
  lat    : Nat := 0
  deriving DecidableEq, Repr

namespace Us

def a1 (o : Alu1) (l : Nat) : Uses := ⟨rdV o.a, rdV o.d, l⟩
def a2 (o : Alu2) (l : Nat) : Uses := ⟨rdV o.a ++ rdB false o.b, rdV o.d, l⟩
def a3 (o : Alu3) (l : Nat) : Uses := ⟨rdV o.a ++ rdB false o.b ++ rdV o.c, rdV o.d, l⟩
def setp (o : OpSetp) (l : Nat) : Uses :=
  ⟨(if o.acc = 0 then [] else rdP o.d) ++ rdV o.a ++ rdB false o.b, rdP o.d, l⟩
def f2 (o : F2) : Uses := ⟨rdV o.a ++ rdB false o.b, rdV o.d, 4⟩
def h2 (o : OpH2) : Uses := ⟨rdV o.a ++ rdB false o.b, rdV o.d, 4⟩
def un (o : Un) (l : Nat) : Uses := ⟨rdV o.a, rdV o.d, l⟩
def u2 (o : U2) : Uses := ⟨rdS o.a ++ rdIS o.b, rdS o.d, 2⟩
def sd (o : OpSd) : Uses := ⟨rdS o.a, rdS o.d, 0⟩
def mma (o : OpMma) (sparse : Bool) : Uses :=
  ⟨(if o.asp then rdS o.aop else []) ++ (if o.bsp then rdS o.bop else []) ++ (if o.saen then rdS o.sas else []) ++
    (if o.sben then rdS o.sbs else []) ++ (if sparse then rdS o.smeta else []), rdS o.tok, 0⟩
def cpy (o : OpCpy) (sloc aux : Bool) : Uses :=
  ⟨(if sloc then rdS o.sloc else []) ++ rdS o.scrd ++ (if o.bl then rdS o.sbh else []) ++ (if aux then rdS o.saux else []),
    rdS o.tok, 0⟩
def attn (o : OpAttn) : Uses := ⟨rdS o.shm, rdS o.tok, 0⟩

/-- Latency of a P half (R192, R195). -/
def hopLat : Hop → Nat
  | .imul => 5
  | .fadd | .fsub | .fmul | .fmin | .fmax | .h2add | .h2mul | .h2min | .h2max => 4
  | .iadd | .isub | .imin | .imax | .and | .or | .xor | .andn | .shl | .shr | .sar | .mov | .movi => 3

def halfReads (x : Half) : List RegRef :=
  (match x.hop with
    | .mov | .movi => []
    | _ => rdV x.d) ++
  (if x.hop = .movi then [] else if x.m.getLsbD 0 then [(.s, x.s.toNat % 64)] else rdV x.s)

end Us

/-- The registers an instruction reads and writes, and its latency (R195, R196). -/
def uses : Instr → Uses
  | .nop _ => {}
  | .bra _ => {}
  | .brx o => { reads := rdVp o.a }
  | .bru o => { reads := rdIS o.t }
  | .call o => { reads := (match o.t with | .rel _ => [] | .v r => rdVp r), writes := rdVp o.d }
  | .ret o => { reads := rdVp o.a }
  | .exit _ => {}
  | .reform _ => {}
  | .spawn o => { reads := rdIS o.t }
  | .join _ => {}
  | .elect o => { writes := rdP o.d }
  | .yield _ => {}
  | .cvset o => { reads := rdIS o.c }
  | .cvsign _ => {}
  | .prefi _ => {}
  | .idempBegin _ => {}
  | .idempEnd _ => {}
  | .trap _ => {}
  | .trapfence _ => {}
  | .bkpt _ => {}
  | .evbind o => { reads := rdS o.a }
  | .evmask o => { reads := rdIS o.x }
  | .waitany _ => { writes := [(.s, 62), (.s, 63)] }
  | .evclr o => { reads := rdIS o.x }
  | .evpoll o => { reads := rdIS o.x, writes := rdS o.d }
  | .evraise o => { reads := rdS o.a ++ rdS o.b }
  | .mbsend o => { reads := rdS o.a ++ rdS o.b, writes := rdS o.d }
  | .mbrecv o => { writes := rdS o.d ++ rdP o.p }
  | .bararv o => { writes := rdS o.d }
  | .barwt _ => {}
  | .barsync _ => {}
  | .diebar _ => {}
  | .gridbar _ => {}
  | .waitc _ => {}
  | .fence _ => {}
  | .iadd o => Us.a2 o 3
  | .isub o => Us.a2 o 3
  | .iadd3 o => Us.a3 o 3
  | .imul o => Us.a2 o 5
  | .imulh o => Us.a2 o 5
  | .imad o => Us.a3 o 5
  | .imadw o => ⟨rdV o.a ++ rdB false o.b ++ rdVp o.c, rdVp o.d, 5⟩
  | .idiv o => Us.a2 o 0
  | .irem o => Us.a2 o 0
  | .imin o => Us.a2 o 3
  | .imax o => Us.a2 o 3
  | .iabs o => Us.a1 o 3
  | .ineg o => Us.a1 o 3
  | .idp4 o => ⟨rdV o.a ++ rdB false o.b ++ rdV o.c, rdV o.d, 5⟩
  | .and o => Us.a2 o 3
  | .or o => Us.a2 o 3
  | .xor o => Us.a2 o 3
  | .andn o => Us.a2 o 3
  | .not o => Us.a1 o 3
  | .shl o => Us.a2 o 3
  | .shr o => Us.a2 o 3
  | .sar o => Us.a2 o 3
  | .rotl o => Us.a2 o 3
  | .bfe o => Us.a2 o 3
  | .bfi o => Us.a3 o 3
  | .popc o => Us.a1 o 3
  | .clz o => Us.a1 o 3
  | .ctz o => Us.a1 o 3
  | .brev o => Us.a1 o 3
  | .prmt o => Us.a3 o 3
  | .isetp o => Us.setp o 2
  | .isel o => ⟨rdV o.a ++ rdB false o.b ++ rdP o.c, rdV o.d, 3⟩
  | .lea o => ⟨rdV o.a ++ rdB true o.b, rdVp o.d, 3⟩
  | .iadd64 o => ⟨rdVp o.a ++ rdB true o.b, rdVp o.d, 3⟩
  | .mov o => Us.a1 o 3
  | .movi o => ⟨if o.hi then rdV o.d else [], rdV o.d, 3⟩
  | .movs o => ⟨[], rdV o.d, 3⟩
  | .movu o => ⟨rdS o.a, rdV o.d, 0⟩
  | .plop3 o => ⟨rdP o.a ++ rdP o.b ++ rdP o.c, rdP o.d, 2⟩
  | .pmov o => if o.fromv then ⟨rdV o.r, pBlock o.k.toNat, 2⟩ else ⟨pBlock o.k.toNat, rdV o.r, 2⟩
  | .uadd o => Us.u2 o
  | .usub o => Us.u2 o
  | .umul o => Us.u2 o
  | .uand o => Us.u2 o
  | .uor o => Us.u2 o
  | .uxor o => Us.u2 o
  | .ushl o => Us.u2 o
  | .ushr o => Us.u2 o
  | .umov o => ⟨rdS o.a, rdS o.d, 2⟩
  | .umovi o => ⟨[], rdS o.d, 2⟩
  | .usel o => ⟨rdS o.a ++ rdS o.b ++ rdS o.c, rdS o.d, 2⟩
  | .ucmp o => ⟨rdS o.a ++ rdIS o.b, rdS o.d, 2⟩
  | .ufrom o => ⟨rdVw o.w o.a, rdS o.d, 2⟩
  | .ulea o => ⟨rdS o.a ++ rdS o.b, rdS o.d, 2⟩
  | .movc o => { writes := rdS o.d }
  | .movcw o => { reads := rdIS o.x }
  | .clkr o => { writes := rdS o.d }
  | .perfr o => { writes := rdS o.d }
  | .ecall o => { reads := rdS o.a, writes := rdS o.d }
  | .launch o =>
    { reads := rdS o.sarg ++ (if o.rq then [] else rdS o.sgrid) ++ (if o.dep = 0 then [] else rdS o.sdep),
      writes := rdS o.stok }
  | .fadd o => Us.f2 o
  | .fsub o => Us.f2 o
  | .fmul o => Us.f2 o
  | .ffma o => ⟨rdV o.a ++ rdB false o.b ++ rdV o.c, rdV o.d, 4⟩
  | .fmin o => Us.f2 o
  | .fmax o => Us.f2 o
  | .fsetp o => Us.setp o 4
  | .frnd o => ⟨rdV o.a, rdV o.d, 4⟩
  | .fclass o => Us.un o 4
  | .h2add o => Us.h2 o
  | .h2mul o => Us.h2 o
  | .h2fma o => ⟨rdV o.a ++ rdB false o.b ++ rdV o.c, rdV o.d, 4⟩
  | .h2min o => Us.h2 o
  | .h2max o => Us.h2 o
  | .h2setp o => ⟨rdV o.a ++ rdB false o.b, rdP o.d ++ rdP (o.d + 1), 4⟩
  | .frcp o => Us.un o 10
  | .frsq o => Us.un o 10
  | .fsqrt o => Us.un o 10
  | .fexp2 o => Us.un o 10
  | .flog2 o => Us.un o 10
  | .fsin o => Us.un o 10
  | .fcos o => Us.un o 10
  | .ftanh o => Us.un o 10
  | .act o => Us.un o 10
  | .actld o => Us.sd o
  | .actsel _ => {}
  | .cvt o => ⟨rdV o.a ++ (if o.rm = 4 then rdV o.c else []), rdV o.d, 4⟩
  | .cvtq o => ⟨rdV o.d ++ rdV o.a ++ rdB false o.b ++ (if o.sr then rdV o.c else []), rdV o.d, 0⟩
  | .cvtdq o => ⟨rdV o.a ++ rdB false o.b, rdV o.d, 0⟩
  | .mxq o => ⟨rdV o.a ++ (if o.sr then rdV o.c else []), rdVp o.d, 0⟩
  | .mxdq o => ⟨rdV o.a ++ rdB false o.b, rdV o.d, 0⟩
  | .rngs o => ⟨rdV o.a ++ rdB false o.b, rdV o.d, 0⟩
  | .shfl o => ⟨rdV o.a ++ rdB false o.b, rdV o.d ++ (if o.vp then rdP o.c else []), 6⟩
  | .vote o => ⟨rdP o.a, rdS o.d, 0⟩
  | .redl o => ⟨rdV o.a, rdV o.d, 0⟩
  | .scanl o => ⟨rdV o.a, rdV o.d, 0⟩
  | .matchL o => ⟨rdVw o.w o.a, rdV o.d, 0⟩
  | .packl o => ⟨rdV o.a ++ rdP o.p, rdV o.d ++ (if o.c then rdS o.sc else []), 0⟩
  | .ld o => ⟨rdAddr o.a, rdVw o.w o.d, 0⟩
  | .st o => ⟨rdVw o.w o.d ++ rdAddr o.a, [], 0⟩
  | .lds o => ⟨rdV o.a, rdVw o.w o.d, 0⟩
  | .sts o => ⟨rdVw o.w o.d ++ rdV o.a, [], 0⟩
  | .ldc o => ⟨rdV o.a, rdVw o.w o.d, 0⟩
  | .uld o => ⟨rdVp o.a, rdS o.d, 0⟩
  | .atom o => ⟨rdVp o.a ++ rdB (decide (o.ty = 2)) o.b, if o.nr then [] else rdVw (decide (o.ty = 2)) o.d, 0⟩
  | .atoms o => ⟨rdV o.a ++ rdB (decide (o.ty = 2)) o.b, if o.nr then [] else rdVw (decide (o.ty = 2)) o.d, 0⟩
  | .redst o => ⟨rdVp o.a ++ rdB (decide (o.ty = 2)) o.b, [], 0⟩
  | .cas o => ⟨rdVp o.a ++ rdB o.w o.b ++ rdVw o.w o.c, rdVw o.w o.d, 0⟩
  | .sxsect o => ⟨rdVp o.a ++ rdVp o.b ++ rdVp o.c, rdV o.d, 0⟩
  | .cctl o => { reads := rdVp o.a }
  | .prefd o => { reads := rdVp o.a }
  | .tcfg o => { reads := rdS o.a }
  | .tzero _ => {}
  | .tld o => { reads := rdS o.a }
  | .tst o => { reads := rdS o.a }
  | .ttrn _ => {}
  | .mma o => Us.mma o false
  | .mmas o => Us.mma o true
  | .accz o => { writes := rdS o.d }
  | .acccvt o => { reads := if o.asp then rdS o.aop else [], writes := rdS o.tok }
  | .accrd o => ⟨rdB false o.b, rdV o.d, 0⟩
  | .accwr o => { reads := rdV o.a ++ rdB false o.b }
  | .accst o => ⟨rdS o.b ++ rdS o.c, rdS o.d, 0⟩
  | .cpy o => Us.cpy o (decide (o.dir ≠ 6)) false
  | .cpyg o => Us.cpy o true true
  | .cpyx o => Us.cpy o (decide (o.dir ≠ 6)) false
  | .cpyc o => Us.cpy o (decide (o.dir ≠ 6)) false
  | .cpyf o => Us.cpy o (decide (o.dir ≠ 1)) true
  | .hbind o => { reads := rdS o.a }
  | .hset _ => {}
  | .hwait _ => {}
  | .hrel _ => {}
  | .coll o => { reads := rdS o.scrd, writes := rdS o.tok }
  | .objq o => { reads := if o.mode = 1 then rdS o.sa else [], writes := rdS o.d }
  | .rqadmit o => Us.sd o
  | .rqstep o => { writes := rdS o.d }
  | .rqretire o => Us.sd o
  | .rqrd o => ⟨rdS o.a, rdS o.d, 0⟩
  | .rqwr o => { reads := rdS o.a ++ rdS o.b }
  | .rqwrEmit o => { reads := rdS o.a ++ rdS o.b }
  | .rqbind o => { reads := if o.unb then [] else rdV o.a }
  | .rqflagCancel o => { reads := rdS o.a }
  | .rqflagFault o => { reads := rdS o.a }
  | .rqevict o => { reads := rdS o.a }
  | .kvapnd o => { reads := rdS o.sq ++ rdS o.sa, writes := rdS o.tok }
  | .kvseal o => Us.sd o
  | .kvsel o => { reads := rdS o.sq ++ rdS o.sa ++ rdS o.sb, writes := rdS o.tok }
  | .kvpf o => { reads := rdS o.sq ++ rdS o.sb, writes := rdS o.tok }
  | .attn o => Us.attn o
  | .attnv o => Us.attn o
  | .attnf o => { reads := rdS o.b ++ rdS o.c, writes := rdS o.d }
  | .kvwashReq o => Us.sd o
  | .kvwashPage o => Us.sd o
  | .kvtierHbm o => Us.sd o
  | .kvtierLp o => Us.sd o
  | .kvmap o => ⟨rdS o.a ++ rdS o.b, rdS o.d, 0⟩
  | .kvrebld o => Us.sd o
  | .kvfree o => Us.sd o
  | .pWord a b =>
    ⟨Us.halfReads a ++ Us.halfReads b, rdV a.d ++ rdV b.d, max (Us.hopLat a.hop) (Us.hopLat b.hop)⟩
  | .loadDataArrival _ _ => {}
  | .splitDataArrival _ _ => {}
  | .commandCompletion _ => {}
  | .matrixCommandStart _ => {}
  | .attnArrayStart _ => {}
  | .filingRetry _ _ => {}
  | .binAgeExpiry _ _ => {}
  | .binLaunch _ _ => {}
  | .groupEnd _ => {}
  | .eventTimerExpiry _ _ => {}
  | .waitanyTimeout _ => {}
  | .swEventDelivery _ => {}
  | .mailboxDelivery _ => {}
  | .icacheFill _ _ => {}
  | .sauApply _ => {}
  | .pageWalk _ _ _ => {}
  | .lineWriteBack _ _ _ _ _ => {}
  | .hotLineIdle _ _ => {}
  | .wheelTurn _ _ => {}
  | .teamPlacement => {}
  | .starvationLimit _ _ => {}
  | .depWordPoll _ _ => {}
  | .autoPreempt => {}
  | .drainDeadline _ => {}
  | .flushRestart _ => {}
  | .teamSave _ => {}
  | .teamResume _ => {}
  | .chainFill _ _ => {}
  | .pageAllocation _ => {}
  | .washEvaluation _ _ => {}
  | .washDemotion _ _ => {}
  | .coldMove _ _ => {}
  | .evictionMove _ _ => {}
  | .parityContribution _ _ => {}
  | .parityXorOut _ _ => {}
  | .parityAck _ _ _ _ _ => {}
  | .parityBlockRequest _ _ _ _ => {}
  | .pageRebuild _ _ _ _ => {}
  | .collNotice _ _ => {}
  | .collPull _ _ _ _ => {}
  | .collTimeout _ => {}
  | .fabricRequest _ => {}
  | .fabricResponse _ _ => {}
  | .fabricTimeout _ => {}
  | .pauseFlit _ _ => {}
  | .resumeFlit _ _ => {}
  | .linkDown _ => {}
  | .linkUp _ => {}
  | .pcieLinkDown _ => {}
  | .throttleChange _ => {}
  | .powerGate _ => {}
  | .powerOn => {}
  | .bootPhaseComplete _ => {}
  | .attestationReportReady => {}
  | .watchdogNotice _ => {}
  | .faultRecordWrite _ => {}
  | .takeoverTimeout _ => {}
  | .create _ _ => {}
  | .destroy _ => {}
  | .hold _ => {}
  | .resume _ => {}
  | .inval _ => {}
  | .takeover _ => {}
  | .deny _ => {}
  | .lose _ => {}
  | .reseal _ => {}
  | .launchWindowGo _ _ => {}
  | .hmqRead _ => {}
  | .ecallReply _ _ => {}
  | .hostMailboxWrite _ _ _ _ => {}
  | .fqackReplay _ => {}
  | .fqackSkip _ => {}
  | .fqackExit _ => {}
  | .fqackEndteam _ => {}
  | .fqackEndgrid _ => {}
  | .fqackContinue _ => {}
  | .attcmdGo => {}
  | .thrcapWrite _ => {}
  | .bwAllotmentWrite _ _ => {}
  | .w2Read _ _ => {}
  | .w2Write _ _ _ => {}
  | .registerWrite _ _ _ _ => {}
  | .ctxcmdCompletion _ => {}
  | .tailReturnMove _ _ => {}

/-- A header with no guard and no stall. -/
def Hdr.plain : Hdr := ⟨0, false, 127⟩

/-- STALL, PN and PREG of an instruction; a P word has no guard and the larger of two STALL fields (R192). -/
def hdrOf : Instr → Hdr
  | .nop o => o.h
  | .bra o => o.h
  | .brx o => o.h
  | .bru o => o.h
  | .call o => o.h
  | .ret o => o.h
  | .exit o => o.h
  | .reform o => o.h
  | .spawn o => o.h
  | .join o => o.h
  | .elect o => o.h
  | .yield o => o.h
  | .cvset o => o.h
  | .cvsign o => o.h
  | .prefi o => o.h
  | .idempBegin o => o.h
  | .idempEnd o => o.h
  | .trap o => o.h
  | .trapfence o => o.h
  | .bkpt o => o.h
  | .evbind o => o.h
  | .evmask o => o.h
  | .waitany o => o.h
  | .evclr o => o.h
  | .evpoll o => o.h
  | .evraise o => o.h
  | .mbsend o => o.h
  | .mbrecv o => o.h
  | .bararv o => o.h
  | .barwt o => o.h
  | .barsync o => o.h
  | .diebar o => o.h
  | .gridbar o => o.h
  | .waitc o => o.h
  | .fence o => o.h
  | .iadd o => o.h
  | .isub o => o.h
  | .iadd3 o => o.h
  | .imul o => o.h
  | .imulh o => o.h
  | .imad o => o.h
  | .imadw o => o.h
  | .idiv o => o.h
  | .irem o => o.h
  | .imin o => o.h
  | .imax o => o.h
  | .iabs o => o.h
  | .ineg o => o.h
  | .idp4 o => o.h
  | .and o => o.h
  | .or o => o.h
  | .xor o => o.h
  | .andn o => o.h
  | .not o => o.h
  | .shl o => o.h
  | .shr o => o.h
  | .sar o => o.h
  | .rotl o => o.h
  | .bfe o => o.h
  | .bfi o => o.h
  | .popc o => o.h
  | .clz o => o.h
  | .ctz o => o.h
  | .brev o => o.h
  | .prmt o => o.h
  | .isetp o => o.h
  | .isel o => o.h
  | .lea o => o.h
  | .iadd64 o => o.h
  | .mov o => o.h
  | .movi o => o.h
  | .movs o => o.h
  | .movu o => o.h
  | .plop3 o => o.h
  | .pmov o => o.h
  | .uadd o => o.h
  | .usub o => o.h
  | .umul o => o.h
  | .uand o => o.h
  | .uor o => o.h
  | .uxor o => o.h
  | .ushl o => o.h
  | .ushr o => o.h
  | .umov o => o.h
  | .umovi o => o.h
  | .usel o => o.h
  | .ucmp o => o.h
  | .ufrom o => o.h
  | .ulea o => o.h
  | .movc o => o.h
  | .movcw o => o.h
  | .clkr o => o.h
  | .perfr o => o.h
  | .ecall o => o.h
  | .launch o => o.h
  | .fadd o => o.h
  | .fsub o => o.h
  | .fmul o => o.h
  | .ffma o => o.h
  | .fmin o => o.h
  | .fmax o => o.h
  | .fsetp o => o.h
  | .frnd o => o.h
  | .fclass o => o.h
  | .h2add o => o.h
  | .h2mul o => o.h
  | .h2fma o => o.h
  | .h2min o => o.h
  | .h2max o => o.h
  | .h2setp o => o.h
  | .frcp o => o.h
  | .frsq o => o.h
  | .fsqrt o => o.h
  | .fexp2 o => o.h
  | .flog2 o => o.h
  | .fsin o => o.h
  | .fcos o => o.h
  | .ftanh o => o.h
  | .act o => o.h
  | .actld o => o.h
  | .actsel o => o.h
  | .cvt o => o.h
  | .cvtq o => o.h
  | .cvtdq o => o.h
  | .mxq o => o.h
  | .mxdq o => o.h
  | .rngs o => o.h
  | .shfl o => o.h
  | .vote o => o.h
  | .redl o => o.h
  | .scanl o => o.h
  | .matchL o => o.h
  | .packl o => o.h
  | .ld o => o.h
  | .st o => o.h
  | .lds o => o.h
  | .sts o => o.h
  | .ldc o => o.h
  | .uld o => o.h
  | .atom o => o.h
  | .atoms o => o.h
  | .redst o => o.h
  | .cas o => o.h
  | .sxsect o => o.h
  | .cctl o => o.h
  | .prefd o => o.h
  | .tcfg o => o.h
  | .tzero o => o.h
  | .tld o => o.h
  | .tst o => o.h
  | .ttrn o => o.h
  | .mma o => o.h
  | .mmas o => o.h
  | .accz o => o.h
  | .acccvt o => o.h
  | .accrd o => o.h
  | .accwr o => o.h
  | .accst o => o.h
  | .cpy o => o.h
  | .cpyg o => o.h
  | .cpyx o => o.h
  | .cpyc o => o.h
  | .cpyf o => o.h
  | .hbind o => o.h
  | .hset o => o.h
  | .hwait o => o.h
  | .hrel o => o.h
  | .coll o => o.h
  | .objq o => o.h
  | .rqadmit o => o.h
  | .rqstep o => o.h
  | .rqretire o => o.h
  | .rqrd o => o.h
  | .rqwr o => o.h
  | .rqwrEmit o => o.h
  | .rqbind o => o.h
  | .rqflagCancel o => o.h
  | .rqflagFault o => o.h
  | .rqevict o => o.h
  | .kvapnd o => o.h
  | .kvseal o => o.h
  | .kvsel o => o.h
  | .kvpf o => o.h
  | .attn o => o.h
  | .attnv o => o.h
  | .attnf o => o.h
  | .kvwashReq o => o.h
  | .kvwashPage o => o.h
  | .kvtierHbm o => o.h
  | .kvtierLp o => o.h
  | .kvmap o => o.h
  | .kvrebld o => o.h
  | .kvfree o => o.h
  | .pWord a b => { Hdr.plain with stall := BitVec.ofNat 4 (max a.stall.toNat b.stall.toNat) }
  | .loadDataArrival _ _ => Hdr.plain
  | .splitDataArrival _ _ => Hdr.plain
  | .commandCompletion _ => Hdr.plain
  | .matrixCommandStart _ => Hdr.plain
  | .attnArrayStart _ => Hdr.plain
  | .filingRetry _ _ => Hdr.plain
  | .binAgeExpiry _ _ => Hdr.plain
  | .binLaunch _ _ => Hdr.plain
  | .groupEnd _ => Hdr.plain
  | .eventTimerExpiry _ _ => Hdr.plain
  | .waitanyTimeout _ => Hdr.plain
  | .swEventDelivery _ => Hdr.plain
  | .mailboxDelivery _ => Hdr.plain
  | .icacheFill _ _ => Hdr.plain
  | .sauApply _ => Hdr.plain
  | .pageWalk _ _ _ => Hdr.plain
  | .lineWriteBack _ _ _ _ _ => Hdr.plain
  | .hotLineIdle _ _ => Hdr.plain
  | .wheelTurn _ _ => Hdr.plain
  | .teamPlacement => Hdr.plain
  | .starvationLimit _ _ => Hdr.plain
  | .depWordPoll _ _ => Hdr.plain
  | .autoPreempt => Hdr.plain
  | .drainDeadline _ => Hdr.plain
  | .flushRestart _ => Hdr.plain
  | .teamSave _ => Hdr.plain
  | .teamResume _ => Hdr.plain
  | .chainFill _ _ => Hdr.plain
  | .pageAllocation _ => Hdr.plain
  | .washEvaluation _ _ => Hdr.plain
  | .washDemotion _ _ => Hdr.plain
  | .coldMove _ _ => Hdr.plain
  | .evictionMove _ _ => Hdr.plain
  | .parityContribution _ _ => Hdr.plain
  | .parityXorOut _ _ => Hdr.plain
  | .parityAck _ _ _ _ _ => Hdr.plain
  | .parityBlockRequest _ _ _ _ => Hdr.plain
  | .pageRebuild _ _ _ _ => Hdr.plain
  | .collNotice _ _ => Hdr.plain
  | .collPull _ _ _ _ => Hdr.plain
  | .collTimeout _ => Hdr.plain
  | .fabricRequest _ => Hdr.plain
  | .fabricResponse _ _ => Hdr.plain
  | .fabricTimeout _ => Hdr.plain
  | .pauseFlit _ _ => Hdr.plain
  | .resumeFlit _ _ => Hdr.plain
  | .linkDown _ => Hdr.plain
  | .linkUp _ => Hdr.plain
  | .pcieLinkDown _ => Hdr.plain
  | .throttleChange _ => Hdr.plain
  | .powerGate _ => Hdr.plain
  | .powerOn => Hdr.plain
  | .bootPhaseComplete _ => Hdr.plain
  | .attestationReportReady => Hdr.plain
  | .watchdogNotice _ => Hdr.plain
  | .faultRecordWrite _ => Hdr.plain
  | .takeoverTimeout _ => Hdr.plain
  | .create _ _ => Hdr.plain
  | .destroy _ => Hdr.plain
  | .hold _ => Hdr.plain
  | .resume _ => Hdr.plain
  | .inval _ => Hdr.plain
  | .takeover _ => Hdr.plain
  | .deny _ => Hdr.plain
  | .lose _ => Hdr.plain
  | .reseal _ => Hdr.plain
  | .launchWindowGo _ _ => Hdr.plain
  | .hmqRead _ => Hdr.plain
  | .ecallReply _ _ => Hdr.plain
  | .hostMailboxWrite _ _ _ _ => Hdr.plain
  | .fqackReplay _ => Hdr.plain
  | .fqackSkip _ => Hdr.plain
  | .fqackExit _ => Hdr.plain
  | .fqackEndteam _ => Hdr.plain
  | .fqackEndgrid _ => Hdr.plain
  | .fqackContinue _ => Hdr.plain
  | .attcmdGo => Hdr.plain
  | .thrcapWrite _ => Hdr.plain
  | .bwAllotmentWrite _ _ => Hdr.plain
  | .w2Read _ _ => Hdr.plain
  | .w2Write _ _ _ => Hdr.plain
  | .registerWrite _ _ _ _ => Hdr.plain
  | .ctxcmdCompletion _ => Hdr.plain
  | .tailReturnMove _ _ => Hdr.plain

/-- Bytes of an instruction (R177). -/
def instrLen : Instr → Nat
  | .waitany _ | .umovi _ | .launch _ | .mma _ | .mmas _ | .acccvt _ | .cpy _ | .cpyg _ | .cpyx _ | .cpyc _
  | .cpyf _ | .coll _ | .kvapnd _ | .kvsel _ | .kvpf _ | .attn _ | .attnv _ => 16
  | _ => 8

/-- The instructions that set a team's non-idempotent bit (R344). -/
def nonIdempotent : Instr → Bool
  | .atom _ | .cas _ | .redst _ | .mbsend _ | .evraise _ | .launch _ | .ecall _ | .coll _ | .rqadmit _ | .rqstep _
  | .rqretire _ | .rqwr _ | .rqwrEmit _ | .rqflagCancel _ | .rqflagFault _ | .rqevict _ | .kvmap _ | .kvapnd _
  | .kvseal _ | .kvfree _ | .kvtierHbm _ | .kvtierLp _ | .kvwashReq _ | .kvwashPage _ | .kvrebld _ | .attnf _ => true
  | _ => false

end Sys2Proof.Machine
end

