-- ==== Sys2Proof/Config.lean ====
section
/-! DEFINITION. What an implementation fixes, and the free values: opaque constants, of which nothing can be
proved. Each is named in the assumption log. -/

namespace Sys2Proof.Config

/-- A value that the manual leaves open, by the state's counter of free values (log entry 3). -/
opaque freeWord : Nat → BitVec 64

/-- The result of FEXP2, FLOG2, FSIN, FCOS and FTANH (numbered 0 to 4) on an operand that is no special case: the
GS9 returns a fixed function of the operand within a stated bound (R247, log entry 4). -/
opaque special : Nat → BitVec 32 → BitVec 32

/-- The virtual address of every die-shared window (R51, log entry 5). -/
opaque winBase : BitVec 64

/-- A window base is a local address aligned to 16 MiB. -/
def winVa : Nat := (winBase.toNat % 2 ^ 55) / 2 ^ 24 * 2 ^ 24

/-- CAPHEAD of a context: where the host driver mapped the capability list (R342, log entry 6). -/
opaque capHead : Nat → BitVec 64

/-- The hash of source, destination and class that chooses among the ports of a set (R367, log entry 69). -/
opaque fabHash : Nat → Nat → Nat → Nat

/-- PKGID, the fused serial number (R357, log entry 7). -/
opaque pkgId : BitVec 64

/-- SHA-384 (R370, R371, log entry 7). -/
opaque sha384 : List (BitVec 8) → BitVec 384

/-- The fused minimum of an image's security version (R370, log entry 7). -/
opaque svnMin : BitVec 32

/-- The signatures and public keys that end an attestation report over the given bytes (R372, log entry 7). -/
opaque reportTail : List (BitVec 8) → List (BitVec 8)

end Sys2Proof.Config
end

