-- ==== Sys2Proof/Machine/Codec.lean ====
section
/-! DEFINITION. The line codec (R93 to R96). A line is 64 little-endian words; a stream is a sequence of tokens. The
decoder accepts every well-formed stream; the compressor uses zero runs, repeated words and literals (R95 leaves the
choice of tokens to it). -/

namespace Sys2Proof.Machine

/-- Words from a list of bytes, `n` of them. -/
def codecWords : List Byte → Nat → List Nat
  | _, 0 => []
  | bs, n + 1 => leNat (bs.take 4) :: codecWords (bs.drop 4) n

/-- `n` deltas of `w` bytes each, added to a base. -/
def codecDeltas (w base : Nat) : List Byte → Nat → List Nat
  | _, 0 => []
  | bs, n + 1 =>
    let d := leNat (bs.take w)
    let x := if 2 * d < 256 ^ w then base + d else base + 2 ^ 32 + d - 256 ^ w
    (x % 2 ^ 32) :: codecDeltas w base (bs.drop w) n

/-- Copies `n` words one at a time from `dist` positions earlier. -/
def codecBack (dist : Nat) : List Nat → Nat → List Nat
  | out, 0 => out
  | out, n + 1 => codecBack dist (out ++ [out.getD (out.length - dist) 0]) n

/-- Decodes tokens until 64 words are produced; none for a malformed stream (R94). -/
def codecDecode : Nat → List Byte → List Nat → Option (List Nat)
  | 0, _, out => if out.length = 64 then some out else none
  | f + 1, bs, out =>
    if out.length = 64 then some out
    else
      match bs with
      | [] => none
      | h :: rest =>
        let x := h.toNat
        let n := if x < 128 then x % 64 + 1 else x % 32 + 1
        let need :=
          if x < 64 then 0 else if x < 128 then 4 else if x < 160 then 4 + n else if x < 192 then 4 + 2 * n
          else if x < 224 then 4 * n else 1
        if out.length + n > 64 ∨ rest.length < need then none
        else if x < 64 then codecDecode f rest (out ++ List.replicate n 0)
        else if x < 128 then codecDecode f (rest.drop 4) (out ++ List.replicate n (leNat (rest.take 4)))
        else if x < 160 then
          codecDecode f (rest.drop need) (out ++ codecDeltas 1 (leNat (rest.take 4)) (rest.drop 4) n)
        else if x < 192 then
          codecDecode f (rest.drop need) (out ++ codecDeltas 2 (leNat (rest.take 4)) (rest.drop 4) n)
        else if x < 224 then codecDecode f (rest.drop need) (out ++ codecWords rest n)
        else
          let d := (rest.headD 0).toNat
          if d ≥ 64 ∨ d + 1 > out.length then none
          else codecDecode f (rest.drop 1) (codecBack (d + 1) out n)

/-- The line that a stream describes, as 256 bytes. -/
def codecLine (stream : List Byte) : Option (List Byte) :=
  (codecDecode 65 stream []).map (fun ws => ws.flatMap (fun w => leBytes w 4))

/-- How many leading words equal `w`. -/
def runLen (w : Nat) : List Nat → Nat
  | [] => 0
  | x :: xs => if x = w then runLen w xs + 1 else 0

/-- The compressor's tokens: runs of equal words, other words as literals of one word. -/
def codecEncode : Nat → List Nat → List Byte
  | 0, _ => []
  | _ + 1, [] => []
  | f + 1, w :: ws =>
    let n := runLen w ws
    if w = 0 then BitVec.ofNat 8 n :: codecEncode f (ws.drop n)
    else if n = 0 then 0xC0#8 :: (leBytes w 4 ++ codecEncode f ws)
    else BitVec.ofNat 8 (64 + n) :: (leBytes w 4 ++ codecEncode f (ws.drop n))

/-- Every second element, from the first or from the second. -/
def everyOther : Bool → List Byte → List Byte
  | _, [] => []
  | keep, b :: bs => if keep then b :: everyOther false bs else everyOther true bs

/-- The exponent-plane split (R96): high bytes, then low bytes. -/
def planeSplit (line : List Byte) : List Byte := everyOther false line ++ everyOther true line

/-- Reverses the split. -/
def planeJoin (line : List Byte) : List Byte :=
  ((line.drop 128).zip (line.take 128)).flatMap (fun p => [p.1, p.2])

/-- What memory stores for a 256-byte line under XFORM: the metadata code and the stored bytes (R93). -/
def codecStore (xform : Nat) (line : List Byte) : Nat × List Byte :=
  if line.all (fun b => b == 0) then (1, [])
  else
    let src := if xform = 2 then planeSplit line else line
    let st := codecEncode 64 (codecWords src 64)
    if st.length > 256 then (0, line)
    else
      let k := (st.length + 63) / 64
      ((if xform = 2 then 11 else 3) + k, st ++ List.replicate (64 * k - st.length) 0)

/-- The line from its metadata code and the stored 256 bytes; none for a malformed stream. -/
def codecLoad (code : Nat) (raw : List Byte) : Option (List Byte) :=
  if code = 0 then some raw
  else if code = 1 then some (List.replicate 256 0)
  else if code < 8 then codecLine (raw.take (64 * (code - 3)))
  else (codecLine (raw.take (64 * (code - 11)))).map planeJoin

end Sys2Proof.Machine
end

