-- ==== Sys2Proof/Machine/Mem.lean ====
section
/-! DEFINITION. Memory as programs see it: home memory with its metadata and poison (R93, R418), translation and
rights (R79 to R84, R411), the L1, the L2 and their dirty FIFOs (R88 to R91), the release and acquire parts of fences
(R115), the sites of atomics (R98), and the accesses of engines (R119). -/

namespace Sys2Proof.Machine

/-! ## Failures (R409, R410) -/

def cPGNP : Nat := 0x08
def cPGPROT : Nat := 0x09
def cADDRCANON : Nat := 0x0A
def cALIGN : Nat := 0x0B
def cECCU : Nat := 0x10
def cCMETA : Nat := 0x11
def cCMALF : Nat := 0x12

/-- Access kinds of R410 and R83. -/
inductive Acc where
  | read
  | write
  | atom
  | fetch
  deriving DecidableEq, Repr

def Acc.code : Acc → Nat
  | .read => 0
  | .write => 1
  | .atom => 2
  | .fetch => 3

/-- INFO of a memory record (R410). -/
def MErr.info (e : MErr) (a : Acc) (fab eng : Bool) : Nat :=
  e.level + 8 * a.code + 32 * b2n fab + 64 * b2n eng + 128 * b2n e.mal + 256 * e.site

/-! ## Home memory -/

/-- Where die-shared windows lie in `mem` (log entry 5). -/
def winRegion : Nat := 2 ^ 48

def isHbm (pa : Nat) : Bool := decide (pa / 2 ^ 37 < 8)
def lineOf (pa : Nat) : Nat := pa / 256
def memByte (s : State) (pa : Nat) : Byte := Map.get Memory.zero s.mem pa
def memBytes (s : State) (pa n : Nat) : List Byte := Map.getN Memory.zero s.mem pa n
def metaOf (s : State) (line : Nat) : Nat := (Map.get (0 : BitVec 4) s.lmeta line).toNat

def State.setMem (s : State) (pa : Nat) (bs : List Byte) : State := { s with mem := Map.setN Memory.zero s.mem pa bs }
def State.setMeta (s : State) (line code : Nat) : State :=
  { s with lmeta := Map.set (0 : BitVec 4) s.lmeta line (BitVec.ofNat 4 code) }

/-- Marks the line of a malformed stream (R420). -/
def State.markErr (s : State) (e : MErr) : State :=
  match e.line with
  | some l => s.setMeta l 3
  | none => s

/-- Marks the lines of malformed streams that the lanes of an instruction met (R420). -/
def State.markLines (s : State) (ls : List Nat) : State := ls.foldl (fun t l => t.setMeta l 3) s

/-- Marks a line whose write-back was withheld: metadata code 0x2 on HBM4E, its sectors on LPDDR-6 (R418). -/
def State.markLost (s : State) (line : Nat) : State :=
  if line * 256 / 2 ^ 37 < 8 then s.setMeta line 2
  else { s with poison := ([line * 4, line * 4 + 1, line * 4 + 2, line * 4 + 3] ++ s.poison).eraseDups }

def eccSite (pa : Nat) : Nat := if isHbm pa then 5 else 6

/-- Is a sector of `n` bytes from `pa`, at least one, poisoned (R418)? -/
def poisoned (s : State) (pa n : Nat) : Bool :=
  s.poison.any (fun q => decide (pa / 64 ≤ q) && decide (q ≤ (pa + n - 1) / 64))

/-- The expanded bytes of a line as memory holds them, sector poison aside. -/
def expandLine (s : State) (line : Nat) : Except MErr (List Byte) :=
  let c := if isHbm (line * 256) then metaOf s line else 0
  if c = 3 then .error { code := cCMALF, site := 3 }
  else if c = 2 ∨ (8 ≤ c ∧ c ≤ 11) then .error { code := cCMETA, site := 8 }
  else
    match codecLoad c (memBytes s (line * 256) 256) with
    | some bs => .ok bs
    | none => .error { code := cCMALF, site := 3, line := some line }

/-- Sectors of a coded line that a read takes (R93). -/
def codeSectors (c : Nat) : Nat := if 4 ≤ c ∧ c ≤ 7 then c - 3 else if 12 ≤ c then c - 11 else 0

/-- Is a sector that a read of `n` bytes takes poisoned: one of those it asks for, or of the stream of a coded line (R93, R418)? -/
def readPoisoned (s : State) (pa n c : Nat) : Bool :=
  if c = 0 then poisoned s pa n
  else s.poison.any (fun q => decide (lineOf pa * 4 ≤ q) && decide (q < lineOf pa * 4 + codeSectors c))

/-- `n` bytes within one line, read at their home (R93, R418). -/
def homeRead (s : State) (pa n : Nat) : Except MErr (List Byte) :=
  if winRegion ≤ pa then .ok (memBytes s pa n)
  else
    let c := if isHbm pa then metaOf s (lineOf pa) else 0
    if readPoisoned s pa n c then .error { code := cECCU, site := eccSite pa }
    else if c = 0 then .ok (memBytes s pa n)
    else
      match expandLine s (lineOf pa) with
      | .ok bs => .ok ((bs.drop (pa % 256)).take n)
      | .error e => .error e

/-- Is any part of the line poisoned (R418)? -/
def linePoisoned (s : State) (line : Nat) : Option MErr :=
  let c := if isHbm (line * 256) then metaOf s line else 0
  if c = 3 then some { code := cCMALF, site := 3 }
  else if c = 2 ∨ (8 ≤ c ∧ c ≤ 11) then some { code := cCMETA, site := 8 }
  else if poisoned s (line * 256) 256 then some { code := cECCU, site := eccSite (line * 256) }
  else none

/-- Masked bytes of a line to its home, stored raw. A partial write to a poisoned line is discarded (R418). -/
def homeWrite (s : State) (line : Nat) (bs : List (Nat × Byte)) : State × Option MErr :=
  let put := fun (t : State) => bs.foldl (fun u p => u.setMem p.1 [p.2]) t
  if winRegion ≤ line * 256 then (put s, none)
  else
    match linePoisoned s line with
    | some e => (s, some e)
    | none =>
      let c := if isHbm (line * 256) then metaOf s line else 0
      if c = 0 then (put s, none)
      else
        match expandLine s line with
        | .error e => (s.markErr e, some e)
        | .ok raw => (put ((s.setMem (line * 256) raw).setMeta line 0), none)

/-- A write of all 256 bytes in one operation: stored raw, poison cleared (R418). -/
def homeWriteLine (s : State) (line : Nat) (bs : List Byte) : State :=
  let t := (s.setMem (line * 256) bs).setMeta line 0
  { t with poison := t.poison.filter (fun q => decide (q / 4 ≠ line)) }

/-- A whole line on its way out of an L2 slice, compressed unless hot (R90, R92, R97). -/
def homeWriteCoded (s : State) (line xform : Nat) (hot : Bool) (bs : List Byte) : State × Option MErr :=
  match linePoisoned s line with
  | some e => (s, some e)
  | none =>
    if hot then ((s.setMem (line * 256) bs).setMeta line 0, none)
    else
      let c := codecStore xform bs
      ((s.setMem (line * 256) c.2).setMeta line c.1, none)

/-! ## Translation (R81, R82, R411) -/

def pteBase (pte : Nat) : Nat := (bitsN pte 13 11 + if bitN pte 14 then 8 else 0) * 2 ^ 37 + bitsN pte 44 16 * 256
def pteCp (pte : Nat) : Nat := bitsN pte 6 5
def pteShx (pte : Nat) : Bool := bitN pte 7
/-- XFORM, which LP = 1 makes 0 (R93). -/
def pteXform (pte : Nat) : Nat := if bitN pte 14 then 0 else bitsN pte 9 8
def pteAtm (pte : Nat) : Bool := bitN pte 10

/-- The lowest address bit below a page mapped at a level (R81). -/
def lvlShift (lvl : Nat) : Nat := if lvl = 2 then 29 else if lvl = 3 then 21 else 16

/-- The levels of the tree: number, lowest indexed bit, index width (R81). -/
def ptLevels : List (Nat × Nat × Nat) := [(0, 47, 8), (1, 38, 9), (2, 29, 9), (3, 21, 8), (4, 16, 5)]

/-- The form of a leaf entry (R82, R411). -/
def leafBad (pte lvl : Nat) : Bool :=
  decide (pteCp pte = 3) || decide (bitsN pte 9 8 = 3) || bitN pte 15 ||
  decide (bitsN pte 44 16 % 2 ^ (lvlShift lvl - 8) ≠ 0) || (!bitN pte 14 && bitN pte 44) || (bitN pte 10 && bitN pte 14)

/-- The walk from a table. -/
def walk (s : State) (va : Nat) : List (Nat × Nat × Nat) → Nat → Except MErr (Nat × Nat)
  | [], _ => .error { code := cPGPROT, mal := true, site := 9 }
  | (l, sh, w) :: rest, tab =>
    match homeRead s (tab + 8 * ((va / 2 ^ sh) % 2 ^ w)) 8 with
    | .error e => .error { e with site := 9, level := l }
    | .ok bs =>
      let e := leNat bs
      if !bitN e 0 then .error { code := cPGNP, level := l, site := 9 }
      else if bitN e 1 then
        if l < 2 ∨ leafBad e l then .error { code := cPGPROT, level := l, site := 9, mal := true } else .ok (e, l)
      else if l = 4 ∨ (!bitN e 14 && bitN e 44) then .error { code := cPGPROT, level := l, site := 9, mal := true }
      else walk s va rest (pteBase e)

/-- Who makes an access: core, die, context, the window of its grid (R51), and the group for which an engine works. -/
structure Who where
  core : Nat
  die  : Nat
  ctx  : Nat
  win  : Option (Nat × Nat) := none
  own  : Option GRef := none
  deriving DecidableEq, Repr

def State.ctx (s : State) (c : Nat) : Ctx := Map.get {} s.ctxs c
def State.core (s : State) (c : Nat) : Core := Map.get {} s.cores c
def State.die (s : State) (d : Nat) : Die := Map.get {} s.dies d
def State.updCtx (s : State) (c : Nat) (f : Ctx → Ctx) : State := { s with ctxs := Map.upd {} s.ctxs c f }
def State.updCore (s : State) (c : Nat) (f : Core → Core) : State := { s with cores := Map.upd {} s.cores c f }
def State.updDie (s : State) (d : Nat) (f : Die → Die) : State := { s with dies := Map.upd {} s.dies d f }

/-- A TLB's entry for an address (R84). -/
def tlbFind (l : List TlbE) (ctx va : Nat) : Option TlbE :=
  l.find? (fun e => decide (e.ctx = ctx) && decide (e.vpn = va / 2 ^ lvlShift e.lvl))

/-- Adds an entry to a TLB of `sets` sets of `ways` entries; the oldest of a full set goes (log entry 68). -/
def tlbAdd (sets ways : Nat) (l : List TlbE) (e : TlbE) : List TlbE :=
  if e ∈ l then l
  else
    let set := l.filter (fun x => decide (x.vpn % sets = e.vpn % sets))
    (match set with
      | old :: _ => if set.length < ways then l else l.erase old
      | [] => l) ++ [e]

/-- Both TLBs take an entry: the core's of 256 entries is fully associative, the die's of 32,768 has 8 ways (R84). -/
def tlbFill (s : State) (w : Who) (e : TlbE) : State :=
  (s.updCore w.core (fun c => { c with tlb := tlbAdd 1 256 c.tlb e })).updDie w.die
    (fun d => { d with tlb := tlbAdd 4096 8 d.tlb e })

/-- The leaf entry that a walk found; both TLBs take it (R84). -/
def leafTake (s : State) (w : Who) (va : Nat) : Except MErr (Nat × Nat) → Except MErr (Nat × Nat × State)
  | .error e => .error e
  | .ok (pte, lvl) => .ok (pte, lvl, tlbFill s w ⟨w.ctx, va / 2 ^ lvlShift lvl, lvl, BitVec.ofNat 64 pte⟩)

/-- The leaf entry of a local address, through the core's TLB, the die's, or a walk (R84). -/
def leafOf (s : State) (w : Who) (va : Nat) : Except MErr (Nat × Nat × State) :=
  match tlbFind (s.core w.core).tlb w.ctx va with
  | some e => .ok (e.pte.toNat, e.lvl, s)
  | none =>
    match tlbFind (s.die w.die).tlb w.ctx va with
    | some e => .ok (e.pte.toNat, e.lvl, tlbFill s w e)
    | none => leafTake s w va (walk s va ptLevels (pteBase (s.ctx w.ctx).regs.ptroot.toNat))

/-- The rights of R83; `pkg`: the access needs ATM (R101). -/
def rightsOk (pte : Nat) (a : Acc) (pkg : Bool) : Bool :=
  (match a with
    | .read => bitN pte 2
    | .write => bitN pte 3
    | .atom => bitN pte 2 && bitN pte 3
    | .fetch => bitN pte 4) && (!pkg || (pteAtm pte && !bitN pte 14))

/-- The metadata region of a stack (R93). -/
def inMetaRegion (pa : Nat) : Bool := isHbm pa && decide (2 ^ 36 - 2 ^ 27 ≤ pa % 2 ^ 37)

/-! ### The capability list (R342) -/

/-- The capability records of the GS9: ID and PARAM. -/
def capRecords : List (Nat × Nat) :=
  [(0x0001, 64 + 64 * 2 ^ 8), (0x0002, 0), (0x0003, 0), (0x0004, 0), (0x0005, 1024 + 8192 * 2 ^ 16), (0x0006, 0), (0x0007, 2), (0x0008, 0)]

/-- The list that CAPHEAD points to, each record of version 1.0. -/
def capListBytes : List Byte :=
  capRecords.zipIdx.flatMap (fun p =>
    leBytes (p.1.1 + 2 ^ 16) 4 ++ leBytes (if p.2 + 1 < capRecords.length then 16 * (p.2 + 1) else 0) 4 ++ leBytes p.1.2 8)

/-- Where the list lies in `mem`, beyond every window (log entry 6). -/
def capRegion : Nat := 2 ^ 66

/-- The place of an address of the read-only region that holds the list, mapped into every context. -/
def capPa (s : State) (c va : Nat) : Option Nat :=
  match (s.ctx c).capHead with
  | none => none
  | some h => if h.toNat ≤ va ∧ va < h.toNat + 128 then some (capRegion + (va - h.toNat)) else none

/-- Translates a local virtual address (R79, R82, R83, R411). A window's lines act as WB pages with R and W. No local
table maps a fabric global address (R80); an agent that sends no fabric requests fails on one (log entry 9). -/
def xlate (s : State) (w : Who) (va : Nat) (a : Acc) (pkg : Bool) : Except MErr (Leaf × State) :=
  if 2 ^ 56 ≤ va then .error { code := cADDRCANON, site := 14 }
  else if bitN va 55 then .error { code := cPGPROT, site := 9 }
  else
    let inWin : Option Nat :=
      match w.win with
      | none => none
      | some (base, size) => if Config.winVa ≤ va ∧ va < Config.winVa + size then some (base + (va - Config.winVa)) else none
    match inWin with
    | some pa =>
      if pkg ∨ a = .fetch then .error { code := cPGPROT, level := 4, site := 9 }
      else .ok ({ pa := pa, pte := 0xF, lvl := 4, win := true }, s)
    | none =>
    match capPa s w.ctx va with
    | some pa =>
      if a = .read then .ok ({ pa := pa, pte := 5, lvl := 4, win := true }, s)
      else .error { code := cPGPROT, level := 4, site := 9 }
    | none =>
      match leafOf s w va with
      | .error e => .error e
      | .ok (pte, lvl, t) =>
        let pa := pteBase pte + va % 2 ^ lvlShift lvl
        if inMetaRegion pa then .error { code := cPGPROT, level := lvl, site := 9, mal := true }
        else if rightsOk pte a pkg then
          .ok ({ pa := pa, pte := pte, lvl := lvl },
            { t with lattr := Map.put t.lattr (lineOf pa) ⟨pte % 2 ^ 15, w.ctx⟩ })
        else .error { code := cPGPROT, level := lvl, site := 9 }

/-! ## The caches -/

/-- Adds clean copies of bytes that are not valid yet (R89, R90). -/
def fillUnder (m : Map CByte) (base : Nat) : List Byte → Map CByte
  | [] => m
  | b :: bs =>
    fillUnder (match Map.find m base with | some _ => m | none => Map.put m base ⟨b, false⟩) (base + 1) bs

def allValid (m : Map CByte) (base : Nat) : Nat → Bool
  | 0 => true
  | n + 1 => (Map.find m base).isSome && allValid m (base + 1) n

/-- Cached bytes; zero where not valid. -/
def cacheBytes (m : Map CByte) (base n : Nat) : List Byte := (Map.getN (⟨0, false⟩ : CByte) m base n).map (·.val)

/-- Stores dirty bytes. -/
def putDirty (m : Map CByte) (base : Nat) : List Byte → Map CByte
  | [] => m
  | b :: bs => putDirty (Map.put m base ⟨b, true⟩) (base + 1) bs

def dirtyIn (m : Map CByte) (lo hi : Nat) : List (Nat × Byte) :=
  (m.filter (fun e => decide (lo ≤ e.1) && decide (e.1 < hi) && e.2.dirty)).map (fun e => (e.1, e.2.val))

def cleanIn (m : Map CByte) (lo hi : Nat) : Map CByte :=
  m.map (fun e => if lo ≤ e.1 ∧ e.1 < hi then (e.1, { e.2 with dirty := false }) else e)

def attrOf (s : State) (pa : Nat) : LineAttr := Map.get ⟨0, 0⟩ s.lattr (lineOf pa)

/-- Makes `n` bytes within one sector valid in a line that a die's L2 has allocated (R90). -/
def l2Fill (s : State) (die pa n : Nat) : Except MErr State :=
  if winRegion ≤ pa then .ok s
  else
    let d := s.die die
    if allValid d.l2 pa n then .ok s
    else
      let whole := decide (pteXform (attrOf s pa).pte ≠ 0)
      let base := if whole then pa / 256 * 256 else pa / 64 * 64
      match homeRead s base (if whole then 256 else 64) with
      | .error e => .error e
      | .ok bs => .ok (s.updDie die (fun d => { d with l2 := fillUnder d.l2 base bs }))

/-- Bytes as the L2 serves them, after a fetch. -/
def l2Bytes (s : State) (die pa n : Nat) : List Byte :=
  if winRegion ≤ pa then memBytes s pa n else cacheBytes (s.die die).l2 pa n

/-- A 256-byte line leaves an L1, or an L2, without being written back. -/
def Core.dropLine (c : Core) (line : Nat) : Core :=
  { c with
    l1 := Map.clear c.l1 (line * 256) (line * 256 + 256),
    ways := c.ways.filter (fun l => decide (l / 4 ≠ line)),
    fifo := c.fifo.filter (fun l => decide (l / 4 ≠ line)) }

def Die.dropLine (d : Die) (line : Nat) : Die :=
  { d with
    l2 := Map.clear d.l2 (line * 256) (line * 256 + 256),
    ways := d.ways.filter (· ≠ line),
    shx := d.shx.filter (· ≠ line) }

/-- Invalidates a line in a die's L2 and its L1s without writing back. -/
def dropLine (s : State) (die line : Nat) : State :=
  let t := s.updDie die (fun d => d.dropLine line)
  { t with cores := t.cores.map (fun c => if c.1 / 16 = die then (c.1, c.2.dropLine line) else c) }

/-- Invalidates a line in every L1 and every L2 without writing back. -/
def dropLineAll (s : State) (line : Nat) : State :=
  { s with
    dies := s.dies.map (fun d => (d.1, d.2.dropLine line)),
    cores := s.cores.map (fun c => (c.1, c.2.dropLine line)) }

/-- A failure of a write-back (R417 to R419): its context and the record's contents. -/
abbrev WbErr := Nat × Defer

def deferOf (e : MErr) (a : Acc) (line : Nat) (sys : Bool) : Defer :=
  { code := BitVec.ofNat 8 e.code, info := BitVec.ofNat 16 (e.info a false false), addr := BitVec.ofNat 64 (line * 256), sys := sys }

/-- Dirty bytes of a line in other dies that are lost with it: failures of those dies and of their cores (R418, R419). -/
def lostElsewhere (s : State) (die line : Nat) (x : WbErr) : List LateFail :=
  let dirty := fun (m : Map CByte) => !(dirtyIn m (line * 256) (line * 256 + 256)).isEmpty
  ((s.dies.filter (fun d => decide (d.1 ≠ die) && dirty d.2.l2)).map (fun d => ⟨true, d.1, x.1, x.2⟩)) ++
    (s.cores.filter (fun c => decide (c.1 / 16 ≠ die) && dirty c.2.l1)).map (fun c => ⟨false, c.1, x.1, x.2⟩)

/-- Withholds a write-back: the line is invalidated everywhere and marked (R418). -/
def withhold (s : State) (die line : Nat) (e : MErr) : State × List WbErr :=
  let x : WbErr := ((attrOf s (line * 256)).ctx, deferOf e .write line false)
  let t := dropLineAll { s with late := s.late ++ lostElsewhere s die line x } line
  (if e.code = cECCU ∧ (e.site = 8 ∨ e.site = 2 ∨ e.site = 3) then t.markLost line else t.markErr e, [x])

/-- Writes a dirty L2 line to its home and leaves it clean (R90, R97). `fail` is a soft error met on the way. -/
def l2WriteBack (s : State) (die line : Nat) (fail : LineFail) : State × List WbErr :=
  let lo := line * 256
  let ds := dirtyIn (s.die die).l2 lo (lo + 256)
  let clean := fun (t : State) =>
    t.updDie die (fun d => { d with l2 := cleanIn d.l2 lo (lo + 256), shx := d.shx.filter (· ≠ line) })
  if ds.isEmpty then (clean s, [])
  else
    match fail with
    | .data => withhold s die line { code := cECCU, site := 3 }
    | .metadata => withhold s die line { code := cECCU, site := 8 }
    | .none =>
      let a := attrOf s lo
      let x := pteXform a.pte
      let done := fun (r : State × Option MErr) =>
        match r.2 with
        | none => (clean r.1, ([] : List WbErr))
        | some e => withhold r.1 die line e
      if x = 0 then done (homeWrite s line ds)
      else
        let full : Except MErr State :=
          if allValid (s.die die).l2 lo 256 then .ok s
          else (homeRead s lo 256).map (fun bs => s.updDie die (fun d => { d with l2 := fillUnder d.l2 lo bs }))
        match full with
        | .error e => withhold s die line e
        | .ok t =>
          done (homeWriteCoded t line x ((Map.find (t.die die).hot line).isSome) (l2Bytes t die lo 256))

/-- The home slice of a line (R90); the hash is the model's (log entry 68). -/
def sliceOf (line : Nat) : Nat := line % 16

/-- Dirty bytes of one line that an L2 has allocated, with the SHX dirty FIFO of the slice (R90). -/
def l2Merge (s : State) (die : Nat) (bs : List (Nat × Byte)) : State × List WbErr :=
  match bs with
  | [] => (s, [])
  | (p, _) :: _ =>
    let line := lineOf p
    if winRegion ≤ p then (bs.foldl (fun u q => u.setMem q.1 [q.2]) s, [])
    else
      let a := attrOf s p
      let absent := (Map.slice (s.die die).l2 (line * 256) (line * 256 + 256)).isEmpty
      let first := match (if pteXform a.pte ≠ 0 ∧ absent then l2Fill s die (line * 256) 64 else .ok s) with
        | .error e => Sum.inl (withhold s die line e)
        | .ok t => Sum.inr t
      match first with
      | .inl r => r
      | .inr t =>
        let wasDirty := !(dirtyIn (t.die die).l2 (line * 256) (line * 256 + 256)).isEmpty
        let put := fun (u : State) =>
          u.updDie die (fun d => { d with l2 := bs.foldl (fun m q => Map.put m q.1 ⟨q.2, true⟩) d.l2 })
        if pteShx a.pte ∧ !wasDirty then
          let slice := (t.die die).shx.filter (fun l => decide (sliceOf l = sliceOf line))
          let r := if slice.length < 2048 then (t, []) else l2WriteBack t die (slice.headD 0) .none
          ((put r.1).updDie die (fun d => { d with shx := d.shx ++ [line] }), r.2)
        else (put t, [])

/-- Writes back the dirty bytes of an L1 line of 64 bytes; it stays valid and clean (R89). -/
def l1WriteBack (s : State) (core l : Nat) (fail : LineFail) : State × List WbErr :=
  let lo := l * 64
  let ds := dirtyIn (s.core core).l1 lo (lo + 64)
  let t := s.updCore core (fun c => { c with l1 := cleanIn c.l1 lo (lo + 64), fifo := c.fifo.filter (· ≠ l) })
  if ds.isEmpty then (t, [])
  else
    match fail with
    | .none => l2Merge t (core / 16) ds
    | .data => withhold s (core / 16) (lineOf lo) { code := cECCU, site := 2 }
    | .metadata => withhold s (core / 16) (lineOf lo) { code := cECCU, site := 8 }

/-- Charges write-back failures that no drain holds to the core or the die (R419). -/
def State.lateAt (s : State) (l2 : Bool) (unit : Nat) (es : List WbErr) : State :=
  { s with late := s.late ++ es.map (fun e => ⟨l2, unit, e.1, e.2⟩) }

/-! ## Sets and ways (R89, R90)

A full set gives up its oldest line; a line's number modulo the number of sets chooses the set (log entry 68). -/

/-- Drops the bytes of an L1 line. -/
def l1Drop (s : State) (core l : Nat) : State :=
  s.updCore core (fun c =>
    { c with l1 := Map.clear c.l1 (l * 64) (l * 64 + 64), ways := c.ways.filter (· ≠ l), fifo := c.fifo.filter (· ≠ l) })

/-- Writes back and drops one L1 line beside what came of the ones before. -/
def purgeStep (core : Nat) (r : State × List WbErr) (l : Nat) : State × List WbErr :=
  let q := l1WriteBack r.1 core l .none
  (l1Drop q.1 core l, r.2 ++ q.2)

/-- The four L1 lines of a 256-byte line. -/
def l1Lines (line : Nat) : List Nat := [line * 4, line * 4 + 1, line * 4 + 2, line * 4 + 3]

/-- Writes back and invalidates a line in every L1 of a list. -/
def purgeL1s (s : State) (line : Nat) : List Nat → State × List WbErr
  | [] => (s, [])
  | c :: cs =>
    let r := (l1Lines line).foldl (purgeStep c) (s, [])
    let q := purgeL1s r.1 line cs
    (q.1, r.2 ++ q.2)

/-- The cores of a die that have state. -/
def coresOf (s : State) (die : Nat) : List Nat := (s.cores.map (·.1)).filter (fun c => decide (c / 16 = die))

/-- A line leaves an L2: its copies in the L1s of the die first, its dirty bytes home, then the line (R90). -/
def l2Evict (s : State) (die line : Nat) (fail : LineFail) : State × List WbErr :=
  let p := purgeL1s s line (coresOf s die)
  let r := l2WriteBack p.1 die line fail
  (dropLine r.1 die line, p.2 ++ r.2)

/-- The oldest line of a full set. -/
def fullSet (ways : List Nat) (sets n l : Nat) : Option Nat :=
  let set := ways.filter (fun x => decide (x % sets = l % sets))
  if set.length < n then none else set.head?

/-- Lines of a die's L2 that the windows of running grids hold: 1,024 for each 256 KiB (R51, R52). -/
def winLines (s : State) (die : Nat) : Nat :=
  s.ctxs.foldl (fun n c => c.2.grids.foldl (fun n g =>
    if g.2.started && !g.2.finished && g.2.dieMask.getLsbD die then n + g.2.decl.win * 1024 else n) n) 0

/-- The ways of a line's set that its die's windows leave: their lines are spread evenly over the 16,384 sets (R51, R90, log entry 83). -/
def l2Ways (s : State) (die line : Nat) : Nat := 16 - (winLines s die + 16383 - line % 16384) / 16384

/-- Allocates a line in a die's L2: 16 slices of 1,024 sets of 16 ways, less what the windows hold (R51, R90). -/
def l2Room (s : State) (die line : Nat) : State × List WbErr :=
  if winRegion ≤ line * 256 ∨ line ∈ (s.die die).ways then (s, [])
  else
    let r := match fullSet (s.die die).ways 16384 (l2Ways s die line) line with
      | none => (s, [])
      | some old => l2Evict s die old .none
    (r.1.updDie die (fun d => { d with ways := d.ways ++ [line] }), r.2)

/-- Lines leave a die's L2, oldest first, until every set has room for its share of the windows (R51). -/
def l2Trim (s : State) (die : Nat) : State :=
  (s.die die).ways.foldl (fun u l =>
    if l2Ways u die l < ((u.die die).ways.filter (fun x => decide (x % 16384 = l % 16384))).length then
      let r := l2Evict u die l .none
      r.1.lateAt true die r.2
    else u) s

/-- Makes `n` bytes within one sector valid in a die's L2 (R90). -/
def l2Fetch (s : State) (die pa n : Nat) : Except MErr State :=
  let r := l2Room s die (lineOf pa)
  l2Fill (r.1.lateAt true die r.2) die pa n

/-- Dirty bytes of one line into a die's L2 (R90); which SHX queue they count in follows `sliceOf` (log entry 68). -/
def l2Put (s : State) (die : Nat) (bs : List (Nat × Byte)) : State × List WbErr :=
  match bs with
  | [] => (s, [])
  | (p, _) :: _ =>
    let r := l2Room s die (lineOf p)
    let q := l2Merge r.1 die bs
    (q.1, r.2 ++ q.2)

/-- Allocates a line in an L1: 512 sets of 8 ways; the L2 includes it (R89, R90). -/
def l1Room (s : State) (core l : Nat) : State :=
  if l ∈ (s.core core).ways then s
  else
    let r := l2Room s (core / 16) (l / 4)
    let t := r.1.lateAt true (core / 16) r.2
    let u := match fullSet (t.core core).ways 512 8 l with
      | none => t
      | some old =>
        let q := l1WriteBack t core old .none
        (l1Drop q.1 core old).lateAt false core q.2
    u.updCore core (fun c => { c with ways := c.ways ++ [l] })

/-- A WB store of bytes within one 64-byte line (R89). -/
def l1Put (s0 : State) (core pa : Nat) (bs : List Byte) : State :=
  let l := pa / 64
  let s := l1Room s0 core l
  let c := s.core core
  let wasDirty := !(dirtyIn c.l1 (l * 64) (l * 64 + 64)).isEmpty
  let put := fun (u : State) (add : List Nat) =>
    u.updCore core (fun c => { c with l1 := putDirty c.l1 pa bs, fifo := c.fifo ++ add })
  if wasDirty then put s []
  else if c.fifo.length < 512 then put s [l]
  else
    let r := l1WriteBack s core (c.fifo.headD 0) .none
    put (r.1.lateAt false core r.2) [l]

/-- `n` bytes within one sector as a core reads them (R88, R89). -/
def coreRead (s : State) (w : Who) (lf : Leaf) (n : Nat) : Except MErr (List Byte × State) :=
  let pa := lf.pa
  if pteCp lf.pte = 2 then
    match homeRead s pa n with
    | .error e => .error e
    | .ok bs => .ok (bs, s)
  else if pteCp lf.pte = 1 then
    match l2Fetch s w.die pa n with
    | .error e => .error e
    | .ok t => .ok (l2Bytes t w.die pa n, t)
  else if allValid (s.core w.core).l1 pa n then .ok (cacheBytes (s.core w.core).l1 pa n, s)
  else
    let base := pa / 64 * 64
    match l2Fetch s w.die base 64 with
    | .error e => .error e
    | .ok t =>
      let u := (l1Room t w.core (pa / 64)).updCore w.core (fun c => { c with l1 := fillUnder c.l1 base (l2Bytes t w.die base 64) })
      .ok (cacheBytes (u.core w.core).l1 pa n, u)

/-- A thread's store of bytes within one sector (R88, R89). A failed write is reported later (R418, R419). -/
def coreWrite (s : State) (w : Who) (lf : Leaf) (bs : List Byte) : State × List WbErr :=
  let cells := (bs.zipIdx).map (fun p => (lf.pa + p.2, p.1))
  if pteCp lf.pte = 2 then
    let r := homeWrite s (lineOf lf.pa) cells
    (r.1, match r.2 with | none => [] | some e => [(w.ctx, deferOf e .write (lineOf lf.pa) false)])
  else if pteCp lf.pte = 1 then l2Put s w.die cells
  else (l1Put s w.core lf.pa bs, [])

/-! ## Releases and acquires (R115) -/

/-- Writes back L1 lines in the order given. -/
def drainL1 (s : State) (core : Nat) : List Nat → State × List WbErr
  | [] => (s, [])
  | l :: ls =>
    let r := l1WriteBack s core l .none
    let q := drainL1 r.1 core ls
    (q.1, r.2 ++ q.2)

/-- Writes back L2 lines in the order given. -/
def drainL2 (s : State) (die : Nat) : List Nat → State × List WbErr
  | [] => (s, [])
  | l :: ls =>
    let r := l2WriteBack s die l .none
    let q := drainL2 r.1 die ls
    (q.1, r.2 ++ q.2)

/-- Scope codes of R231: 0 grp, 1 team, 2 die, 3 pkg, 4 sys. A pair team's `.team` meets at the L2 (R111). -/
def effScope (pair : Bool) (scope : Nat) : Nat := if scope = 1 ∧ pair then 2 else scope

/-- The release part of a fence: the dirty L1 lines, then the dirty SHX lines of the L2 (R115). -/
def fenceRel (s : State) (w : Who) (scope : Nat) : State × List WbErr :=
  if scope < 2 then (s, [])
  else
    let r := drainL1 s w.core (s.core w.core).fifo
    if scope < 3 then r
    else
      let q := drainL2 r.1 w.die (r.1.die w.die).shx
      (q.1, r.2 ++ q.2)

/-- The acquire part of a fence: clean bytes of the L1, then of SHX lines of the L2, are no longer valid (R115). -/
def fenceAcq (s : State) (w : Who) (scope : Nat) : State :=
  if scope < 2 then s
  else
    let t := s.updCore w.core (fun c => { c with l1 := c.l1.filter (fun e => e.2.dirty) })
    if scope < 3 then t
    else t.updDie w.die (fun d => { d with l2 := d.l2.filter (fun e => e.2.dirty || !pteShx (attrOf t e.1).pte) })

/-! ## Atomics at their sites (R98) -/

/-- `n` bytes at home of a line that is to be written after: any poison in it is met (R418, R421). -/
def homeReadLine (s : State) (pa n : Nat) : Except MErr (List Byte) :=
  match linePoisoned s (lineOf pa) with
  | some e => .error e
  | none => homeRead s pa n

/-- Reads `n` bytes at the home L2 slice, the issuing core's L1 line written back and dropped first. -/
def l2Site (s : State) (w : Who) (lf : Leaf) (n : Nat) : Except MErr (List Byte × State × List WbErr) :=
  let r := l1WriteBack s w.core (lf.pa / 64) .none
  let t := l1Drop r.1 w.core (lf.pa / 64)
  if pteCp lf.pte = 2 then
    match homeReadLine t lf.pa n with
    | .error e => .error e
    | .ok bs => .ok (bs, t, r.2)
  else
    match l2Fetch t w.die lf.pa n with
    | .error e => .error e
    | .ok u => .ok (l2Bytes u w.die lf.pa n, u, r.2)

/-- An atomic at an L2 slice sets the hot bit of its line, whether it writes or not (R97). -/
def markHot (s : State) (w : Who) (lf : Leaf) : State :=
  if lf.win ∨ pteCp lf.pte = 2 then s else s.updDie w.die (fun d => { d with hot := Map.put d.hot (lineOf lf.pa) s.now })

/-- Writes the result at the slice (R98); the read before it has met a failure of the line's home. -/
def l2SiteWrite (s : State) (w : Who) (lf : Leaf) (bs : List Byte) : State × List WbErr :=
  let cells := (bs.zipIdx).map (fun p => (lf.pa + p.2, p.1))
  if pteCp lf.pte = 2 then
    let r := homeWrite s (lineOf lf.pa) cells
    (r.1, match r.2 with | none => [] | some e => [(w.ctx, deferOf e .atom (lineOf lf.pa) false)])
  else l2Put s w.die cells

/-- Writes back and invalidates a line in every L2. -/
def purgeL2s (s : State) (line : Nat) : List Nat → State × List WbErr
  | [] => (s, [])
  | d :: ds =>
    let r := l2WriteBack s d line .none
    let q := purgeL2s (dropLine r.1 d line) line ds
    (q.1, r.2 ++ q.2)

/-- Every cached copy of a line written back and invalidated (R98). -/
def purgeLine (s : State) (line : Nat) : State × List WbErr :=
  let r := purgeL1s s line (s.cores.map (·.1))
  let q := purgeL2s r.1 line (r.1.dies.map (·.1))
  (q.1, r.2 ++ q.2)

/-- Every L1 and L2 written back and invalidated: the actions of a kernel boundary on caches (R123). Failures are kept
as those of the core or die (R419). -/
def purgeAll (s : State) : State :=
  let a := s.cores.foldl (fun (u : State) c =>
    let q := drainL1 u c.1 (u.core c.1).fifo
    q.1.lateAt false c.1 q.2) s
  let b := a.dies.foldl (fun (u : State) d =>
    let lines := ((u.die d.1).l2.filter (fun e => e.2.dirty)).map (fun e => lineOf e.1)
    let q := drainL2 u d.1 lines.eraseDups
    q.1.lateAt true d.1 q.2) a
  { b with
    cores := b.cores.map (fun c => (c.1, { c.2 with l1 := [], ways := [], fifo := [] })),
    dies := b.dies.map (fun d => (d.1, { d.2 with l2 := [], ways := [], shx := [], ic := [] })) }

/-- Every clean byte leaves every L1 and L2; no dirty byte is touched. -/
def dropClean (s : State) : State :=
  { s with
    cores := s.cores.map (fun c => (c.1, { c.2 with l1 := c.2.l1.filter (fun e => e.2.dirty) })),
    dies := s.dies.map (fun d => (d.1, { d.2 with l2 := d.2.l2.filter (fun e => e.2.dirty) })) }

/-! ## Engines (R119) -/

/-- Bytes as an engine of the issuing core reads them: dirty bytes of its L1, otherwise the L2, otherwise home. -/
def engRead (s : State) (w : Who) (lf : Leaf) (n : Nat) : Except MErr (List Byte × State) :=
  let l1 := (s.core w.core).l1
  let lay := fun (bs : List Byte) =>
    (bs.zipIdx).map (fun p => match Map.find l1 (lf.pa + p.2) with
      | some c => if c.dirty then c.val else p.1
      | none => p.1)
  if pteCp lf.pte = 2 then
    match homeRead s lf.pa n with
    | .error e => .error e
    | .ok bs => .ok (lay bs, s)
  else
    match l2Fetch s w.die lf.pa n with
    | .error e => .error e
    | .ok t => .ok (lay (l2Bytes t w.die lf.pa n), t)

/-- Drops the L1 copies of bytes. -/
def l1DropBytes (s : State) (core pa n : Nat) : State :=
  s.updCore core (fun c =>
    let m := Map.clear c.l1 pa (pa + n)
    { c with l1 := m, fifo := c.fifo.filter (fun l => m.any (fun e => decide (e.1 / 64 = l) && e.2.dirty)) })

/-- Drops the copies of bytes in one L1 and one L2. -/
def dropBytes (s : State) (core die pa n : Nat) : State :=
  (l1DropBytes s core pa n).updDie die (fun d =>
    let m := Map.clear d.l2 pa (pa + n)
    { d with l2 := m, shx := d.shx.filter (fun l => m.any (fun e => decide (lineOf e.1 = l) && e.2.dirty)) })

/-- An engine's write within one line, at the issuing die's L2 (R119). A write of a whole line clears its poison. -/
def engWrite (s : State) (w : Who) (lf : Leaf) (bs : List Byte) : State × List WbErr :=
  let line := lineOf lf.pa
  let t := l1DropBytes s w.core lf.pa bs.length
  let cells := (bs.zipIdx).map (fun p => (lf.pa + p.2, p.1))
  if bs.length = 256 ∧ (linePoisoned s line).isSome ∧ !lf.win then
    (homeWriteLine (dropLineAll t line) line bs, [])
  else if pteCp lf.pte = 2 then
    let r := homeWrite t line cells
    (r.1, match r.2 with | none => [] | some e => [(w.ctx, deferOf e .write line false)])
  else l2Put t w.die cells

/-- A write of the KV and request engines, performed at home, past the issuing die's caches (R119). -/
def homeEngWrite (s : State) (w : Who) (lf : Leaf) (bs : List Byte) : State × Option MErr :=
  let line := lineOf lf.pa
  let t := dropBytes s w.core w.die lf.pa bs.length
  if bs.length = 256 then (homeWriteLine t line bs, none)
  else homeWrite t line ((bs.zipIdx).map (fun p => (lf.pa + p.2, p.1)))

/-! ## Accesses by virtual address -/

/-- Cuts a range into pieces within aligned blocks of `blk` bytes. -/
def pieces (blk : Nat) : Nat → Nat → Nat → List (Nat × Nat)
  | 0, _, _ => []
  | f + 1, a, n =>
    if n = 0 then []
    else
      let k := min n (blk - a % blk)
      (a, k) :: pieces blk f (a + k) (n - k)

def pieceList (blk a n : Nat) : List (Nat × Nat) := pieces blk (n / blk + 2) a n

/-- An engine's read of a virtual range. -/
def vaRead (s : State) (w : Who) (va n : Nat) : Except (MErr × Nat) (List Byte × State) :=
  (pieceList 64 va n).foldl (fun acc p =>
    match acc with
    | .error e => .error e
    | .ok (bs, t) =>
      match xlate t w p.1 .read false with
      | .error e => .error (e, p.1)
      | .ok (lf, u) =>
        match engRead u w lf p.2 with
        | .error e => .error (e, p.1)
        | .ok (xs, v) => .ok (bs ++ xs, v)) (.ok ([], s))

/-- Bytes at their home, beneath those that are dirty in the issuing core's L1 or its die's L2 (R119, R121). -/
def homeReadUnder (s : State) (w : Who) (pa n : Nat) : Except MErr (List Byte) :=
  let lay := fun (m : Map CByte) (bs : List Byte) =>
    (bs.zipIdx).map (fun p => match Map.find m (pa + p.2) with
      | some c => if c.dirty then c.val else p.1
      | none => p.1)
  (homeRead s pa n).map (fun bs => lay (s.core w.core).l1 (lay (s.die w.die).l2 bs))

/-- An engine's read of a virtual range at its home memory die, past clean copies in the caches. -/
def vaReadHome (s : State) (w : Who) (va n : Nat) : Except (MErr × Nat) (List Byte × State) :=
  (pieceList 64 va n).foldl (fun acc p =>
    match acc with
    | .error e => .error e
    | .ok (bs, t) =>
      match xlate t w p.1 .read false with
      | .error e => .error (e, p.1)
      | .ok (lf, u) =>
        match homeReadUnder u w lf.pa p.2 with
        | .error e => .error (e, p.1)
        | .ok xs => .ok (bs ++ xs, u)) (.ok ([], s))

/-- An engine's write of a virtual range. On a failure the writes made so far stay made; the number of bytes written
is reported (R413, R415). -/
def vaWriteFrom (home : Bool) (w : Who) : List (Nat × Nat) → List Byte → Nat → State → State × Option (MErr × Nat) × Nat
  | [], _, done, s => (s, none, done)
  | (a, k) :: ps, bs, done, s =>
    match xlate s w a .write false with
    | .error e => (s, some (e, a), done)
    | .ok (lf, t) =>
      if home then
        let r := homeEngWrite t w lf (bs.take k)
        match r.2 with
        | some e => (r.1, some (e, a), done)
        | none => vaWriteFrom home w ps (bs.drop k) (done + k) r.1
      else
        let r := engWrite t w lf (bs.take k)
        vaWriteFrom home w ps (bs.drop k) (done + k) (r.1.lateAt true w.die r.2)

def vaWrite (s : State) (w : Who) (va : Nat) (bs : List Byte) : State × Option (MErr × Nat) × Nat :=
  vaWriteFrom false w (pieceList 256 va bs.length) bs 0 s

def vaWriteHome (s : State) (w : Who) (va : Nat) (bs : List Byte) : State × Option (MErr × Nat) :=
  let r := vaWriteFrom true w (pieceList 256 va bs.length) bs 0 s
  (r.1, r.2.1)

/-- A thread's view used by checks that touch no cache: is a range translatable for an access? -/
def vaCheck (s : State) (w : Who) (va n : Nat) (a : Acc) : Except (MErr × Nat) State :=
  (pieceList 65536 va n).foldl (fun acc p =>
    match acc with
    | .error e => .error e
    | .ok t =>
      match xlate t w p.1 a false with
      | .error e => .error (e, p.1)
      | .ok (_, u) => .ok u) (.ok s)

end Sys2Proof.Machine
end

