-- ==== Sys2Proof/Machine/Rq.lean ====
section
/-! DEFINITION. Request records (R56, R57) as numbers of 1,024 bits, their place in memory, writes of the batch
former at home (R65), and the charge of a fault to a request (R416). -/

namespace Sys2Proof.Machine

/-- A field of a record: byte offset, high and low bit as R57 writes them. -/
def recGet (r off hi lo : Nat) : Nat := bitsN r (8 * off + hi) (8 * off + lo)

/-- A record with a field replaced; `v` beyond the field's width is cut off. -/
def recSet (r off hi lo v : Nat) : Nat :=
  let w := hi + 1 - lo
  let k := 8 * off + lo
  r - bitsN r (k + w - 1) k * 2 ^ k + (v % 2 ^ w) * 2 ^ k

/-- Bits [hi:lo] at a byte offset, as a mask on a record. -/
def fieldMask (f : Nat × Nat × Nat) : Nat := (2 ^ (f.2.1 + 1 - f.2.2) - 1) * 2 ^ (8 * f.1 + f.2.2)
def masks (l : List (Nat × Nat × Nat)) : Nat := l.foldl (fun a f => a ||| fieldMask f) 0

/-- States of R57. -/
def rqFREE : Nat := 0
def rqPENDING : Nat := 1
def rqACTIVE : Nat := 2
def rqEVICTED : Nat := 3
def rqSTOPPED : Nat := 4
def rqFAULTED : Nat := 5

def Rq.state (r : Nat) : Nat := recGet r 0 18 16
def Rq.setState (r v : Nat) : Nat := recSet r 0 18 16 v
def Rq.prio (r : Nat) : Nat := recGet r 0 21 20
def Rq.washpol (r : Nat) : Nat := recGet r 0 26 24
def Rq.cancel (r : Nat) : Bool := recGet r 0 27 27 == 1
def Rq.stopn (r : Nat) : Nat := min 8 (recGet r 0 31 28)
def Rq.slot (r : Nat) : Nat := recGet r 4 15 0
def Rq.setSlot (r v : Nat) : Nat := recSet r 4 15 0 v
def Rq.admseq (r : Nat) : Nat := recGet r 8 63 0
def Rq.pos (r : Nat) : Nat := recGet r 0x10 31 0
def Rq.maxpos (r : Nat) : Nat := recGet r 0x14 31 0
def Rq.maxnew (r : Nat) : Nat := recGet r 0x18 31 0
def Rq.emitted (r : Nat) : Nat := recGet r 0x1C 31 0
def Rq.stop (r i : Nat) : Nat := recGet r (0x20 + 4 * i) 31 0
def Rq.last (r : Nat) : Nat := recGet r 0x40 31 0
def Rq.pref (r : Nat) : Nat := recGet r 0x44 31 0
def Rq.kvroot (r : Nat) : Nat := recGet r 0x48 63 0
def Rq.sels (r : Nat) : Nat := recGet r 0x50 15 0
def Rq.selw (r : Nat) : Nat := recGet r 0x50 31 16
def Rq.topk (r : Nat) : Nat := recGet r 0x54 15 0
def Rq.nlg (r : Nat) : Nat := recGet r 0x54 31 16
def Rq.srseed (r : Nat) : Nat := recGet r 0x58 63 0
def Rq.pages (r : Nat) : Nat := recGet r 0x68 31 0
def Rq.lpages (r : Nat) : Nat := recGet r 0x6C 31 0
def Rq.setPages (r v : Nat) : Nat := recSet r 0x68 31 0 v
def Rq.setLpages (r v : Nat) : Nat := recSet r 0x6C 31 0 v

/-- The agent of a context that belongs to no core (MODEL): it has no L1 and no L2, and its TLB entries stand under
core 64 and die 4. -/
def bgWho (ctx : Nat) : Who := { core := 64, die := 4, ctx := ctx }

/-- Drops every cached copy of bytes in every L1 and L2 (R65). -/
def dropEverywhere (s : State) (pa n : Nat) : State :=
  let t := s.cores.foldl (fun u c => l1DropBytes u c.1 pa n) s
  t.dies.foldl (fun u d => u.updDie d.1 (fun x =>
    let m := Map.clear x.l2 pa (pa + n)
    { x with l2 := m, shx := x.shx.filter (fun l => m.any (fun e => decide (lineOf e.1 = l) && e.2.dirty)) })) t

/-- Writes of the former and of the KV engines at home, every cached copy dropped; a whole line in one operation, which clears its poison
(R418). The first failure is reported and does not stop the remaining writes (R414). -/
def formerWritePieces (w : Who) : List (Nat × Nat) → List Byte → State → State × Option (MErr × Nat)
  | [], _, s => (s, none)
  | (a, k) :: ps, bs, s =>
    match xlate s w a .write false with
    | .error e =>
      let q := formerWritePieces w ps (bs.drop k) s
      (q.1, some (e, a))
    | .ok (lf, t) =>
      let u := dropEverywhere t lf.pa k
      let r := if k = 256 then (homeWriteLine u (lineOf lf.pa) (bs.take k), none)
        else homeWrite u (lineOf lf.pa) (((bs.take k).zipIdx).map (fun p => (lf.pa + p.2, p.1)))
      let q := formerWritePieces w ps (bs.drop k) r.1
      (q.1, match r.2 with | some e => some (e, a) | none => q.2)

def formerWrite (s : State) (ctx va : Nat) (bs : List Byte) : State × Option (MErr × Nat) :=
  formerWritePieces (bgWho ctx) (pieceList 256 va bs.length) bs s

/-- The address of a record. -/
def rqAddr (s : State) (ctx idx : Nat) : Nat := (s.ctx ctx).regs.rqtab.toNat + 128 * idx

/-- A record read at its home. -/
def rqRead (s : State) (ctx idx : Nat) : Except (MErr × Nat) (Nat × State) :=
  match vaReadHome s (bgWho ctx) (rqAddr s ctx idx) 128 with
  | .error e => .error e
  | .ok (bs, t) => .ok (leNat bs, t)

def rqWrite (s : State) (ctx idx r : Nat) : State × Option (MErr × Nat) :=
  formerWrite s ctx (rqAddr s ctx idx) (leBytes r 128)

/-- Charges a fault to a request: an ACTIVE request becomes FAULTED with its first code (R416). -/
def chargeRq (s : State) (ctx idx code : Nat) : State :=
  match rqRead s ctx idx with
  | .error _ => s
  | .ok (r, t) =>
    if Rq.state r = rqACTIVE then (rqWrite t ctx idx (recSet (Rq.setState r rqFAULTED) 4 23 16 code)).1 else t

end Sys2Proof.Machine
end

