-- ==== Sys2Proof/Machine/Ops.lean ====
section
/-! DEFINITION. The named operations over threads, groups and teams; the issue of an instruction, which every
instruction of the stream goes through (R33, R182, R196 to R199); and the taking of a fault with its record
(R386, R390, R416) beside the returns from it, which are the dispositions of R389. -/

namespace Sys2Proof.Machine

/-! ## Access to the records of State -/

def State.team (s : State) (k : Nat) : Team := Map.get {} s.teams k
def State.updTeam (s : State) (k : Nat) (f : Team → Team) : State := { s with teams := Map.upd {} s.teams k f }
def State.group (s : State) (g : GRef) : Group := Map.get {} (s.team g.team).groups g.gid
def State.updGroup (s : State) (g : GRef) (f : Group → Group) : State :=
  s.updTeam g.team (fun t => { t with groups := Map.upd {} t.groups g.gid f })
def State.grid (s : State) (ctx lid : Nat) : Grid := Map.get {} (s.ctx ctx).grids lid
def State.updGrid (s : State) (ctx lid : Nat) (f : Grid → Grid) : State :=
  s.updCtx ctx (fun c => { c with grids := Map.upd {} c.grids lid f })
def State.gridOf (s : State) (t : Team) : Grid := s.grid t.ctx t.lid.toNat

def Group.lane (g : Group) (l : Nat) : Thread := Map.get {} g.lanes l
def Group.updLane (g : Group) (l : Nat) (f : Thread → Thread) : Group := { g with lanes := Map.upd {} g.lanes l f }

/-- Applies `f` to the lanes of a list. -/
def Group.mapLanes (g : Group) (ls : List Nat) (f : Nat → Thread → Thread) : Group :=
  { g with lanes := g.lanes.map (fun e => if e.1 ∈ ls then (e.1, f e.1 e.2) else e) }

/-- The lanes as the bits of a record's LANES field (R386). -/
def maskOf (ls : List Nat) : BitVec 64 := BitVec.ofNat 64 (ls.foldl (fun a l => a ||| 2 ^ l) 0)
def lanesOf (m : BitVec 64) : List Nat := (List.range 64).filter (fun l => m.getLsbD l)

/-- Do byte ranges overlap? -/
def overlap (a n b m : Nat) : Bool := decide (a < b + m) && decide (b < a + n)

/-- Outstanding reads of `n` bytes at some places are not performed anew (R107). -/
def Group.fixReads (g : Group) (n : Nat) (pas : List Nat) : Group :=
  { g with loads := g.loads.map (fun ld => { ld with
      again := ld.again.filter (fun p => !pas.any (fun a => overlap p.2.pa ld.n a n)) }) }

/-- No outstanding read is performed anew. -/
def Group.fixAll (g : Group) : Group := { g with loads := g.loads.map (fun ld => { ld with again := [] }) }

/-- The upper core of a pair runs groups 32 and above (R26). -/
def isUpper (t : Team) (gid : Nat) : Bool := t.decl.pair && decide (32 ≤ gid)
def coreOf (t : Team) (gid : Nat) : Nat := t.core + b2n (isUpper t gid)

/-- The bytes of a grid's window on a die (R51). -/
def winSpan (t : Team) : Option (Nat × Nat) :=
  if t.decl.win = 0 then none
  else some (winRegion + ((t.ctx * 2 ^ 32 + t.lid.toNat) * 4 + t.die) * 2 ^ 24, t.decl.win * 2 ^ 18)

/-- The group as an accessor of memory. -/
def State.who (s : State) (g : GRef) : Who :=
  let t := s.team g.team
  { core := coreOf t g.gid, die := t.die, ctx := t.ctx, win := winSpan t }

/-- The virtual core that names a physical core of a context (R351). -/
def vcoreOf (s : State) (ctx core : Nat) : Nat :=
  match (s.ctx ctx).vmap.find? (fun e => decide (e.2 = core)) with
  | some e => e.1
  | none => 0

/-- A free value (log entry 3), and the state with its counter advanced. -/
def State.freeVal (s : State) : Word64 × State := (Config.freeWord s.free, { s with free := s.free + 1 })

/-! ## Registers of a thread -/

def Thread.rv (t : Thread) (r : Nat) : Word32 := Map.get 0 t.v r
def Thread.rvp (t : Thread) (r : Nat) : Word64 := t.rv (r + 1) ++ t.rv r
/-- p127 reads true (R181). -/
def Thread.rp (t : Thread) (r : Nat) : Bool := decide (r = 127) || t.p.getLsbD r

def pendDrop (cls : RegCls) (r : Nat) (l : List PendW) : List PendW :=
  l.filter (fun e => !(decide (e.cls = cls) && decide (e.reg = r)))

/-- A v-register takes a value; the loss of its old contents ends (R417). -/
def Thread.putV (t : Thread) (r : Nat) (x : Word32) : Thread :=
  { t with v := Map.set 0 t.v r x, bad := t.bad.filter (· ≠ r) }

/-- A predicate takes a value; p127 ignores writes (R181). -/
def Thread.putP (t : Thread) (r : Nat) (b : Bool) : Thread :=
  if r = 127 then t
  else { t with badP := t.badP.filter (· ≠ r), p := if b then t.p ||| (1#128 <<< r) else t.p &&& ~~~(1#128 <<< r) }

/-- A variable-latency result: written in issue order after every earlier write (R197). -/
def Thread.setV (t : Thread) (r : Nat) (x : Word32) : Thread := { t.putV r x with pend := pendDrop .v r t.pend }
def Thread.setVp (t : Thread) (r : Nat) (x : Word64) : Thread :=
  (t.setV r (x.setWidth 32)).setV (r + 1) ((x >>> 32).setWidth 32)
def Thread.setP (t : Thread) (r : Nat) (b : Bool) : Thread := { t.putP r b with pend := pendDrop .p r t.pend }

/-- A fixed-latency result, readable at spacing count `due` (R196, R197). -/
def Thread.pendV (t : Thread) (due r : Nat) (x : Word32) : Thread :=
  { t with pend := t.pend ++ [⟨.v, r, due, x.setWidth 64⟩] }
def Thread.pendVp (t : Thread) (due r : Nat) (x : Word64) : Thread :=
  (t.pendV due r (x.setWidth 32)).pendV due (r + 1) ((x >>> 32).setWidth 32)
def Thread.pendP (t : Thread) (due r : Nat) (b : Bool) : Thread :=
  { t with pend := t.pend ++ [⟨.p, r, due, if b then 1 else 0⟩] }

def Thread.apply (t : Thread) (e : PendW) : Thread :=
  match e.cls with
  | .v => t.putV e.reg (e.val.setWidth 32)
  | .p => t.putP e.reg (e.val != 0)
  | .s => t

/-- Writes, in issue order, the pending results for which `ok` holds; each replaces the older ones of its register,
which then complete before it (R197). -/
def Thread.commitIf (t : Thread) (ok : PendW → Bool) : Thread :=
  if t.pend.isEmpty then t
  else
    t.pend.foldl (fun u e =>
      if ok e then { u.apply e with pend := pendDrop e.cls e.reg u.pend } else { u with pend := u.pend ++ [e] })
      { t with pend := [] }

/-- The thread at a spacing count: results at adequate distance are readable (R196). -/
def Thread.commit (t : Thread) (sp : Nat) : Thread := t.commitIf (fun e => decide (e.due ≤ sp))
/-- Every register write completed (R43). -/
def Thread.commitAll (t : Thread) : Thread := t.commitIf (fun _ => true)

/-! ## s-registers of a group -/

/-- Pending writes of the group are all of s-registers. -/
def spendDrop (r : Nat) (l : List PendW) : List PendW := l.filter (fun e => decide (e.reg ≠ r))

def Group.rs (g : Group) (r : Nat) : Word64 := Map.get 0 g.sr r
def Group.putS (g : Group) (r : Nat) (x : Word64) : Group :=
  { g with sr := Map.set 0 g.sr r x, badS := g.badS.filter (· ≠ r), tokNew := g.tokNew.filter (· ≠ r) }
def Group.setS (g : Group) (r : Nat) (x : Word64) : Group := { g.putS r x with spend := spendDrop r g.spend }
def Group.pendS (g : Group) (due r : Nat) (x : Word64) : Group := { g with spend := g.spend ++ [⟨.s, r, due, x⟩] }

def Group.commitS (g : Group) (ok : PendW → Bool) : Group :=
  if g.spend.isEmpty then g
  else
    g.spend.foldl (fun u e =>
      if ok e then { u.putS e.reg e.val with spend := spendDrop e.reg u.spend } else { u with spend := u.spend ++ [e] })
      { g with spend := [] }

/-! ## Eligible lanes and the issue set (R32, R33, R35) -/

def liveLanes (g : Group) : List Nat := (g.lanes.filter (fun e => decide (e.2.st = .live))).map (·.1)

/-- The lanes of a mask, if there is one. -/
def maskedBy (ls : List Nat) : Option (BitVec 64) → List Nat
  | some m => ls.filter (fun l => m.getLsbD l)
  | none => []

/-- The eligible lanes. While the group waits, its issue set alone (R33); a replay issues for its lanes alone (R389); a yield
mask outside which no lane is eligible is cleared at once (R35). -/
def eligLanes (g : Group) : List Nat :=
  let ls := liveLanes g
  let held := maskedBy ls g.hold
  let again := maskedBy ls g.replay
  let out := ls.filter (fun l => !g.yieldMask.getLsbD l)
  if !held.isEmpty then held else if !again.isEmpty then again else if out.isEmpty then ls else out

def minPc (g : Group) : List Nat → Nat
  | [] => 0
  | [l] => (g.lane l).pc.toNat
  | l :: ls => min (g.lane l).pc.toNat (minPc g ls)

/-- The issue set: the eligible lanes at the lowest PC (R33). -/
def issueSet (g : Group) : List Nat :=
  let ls := eligLanes g
  ls.filter (fun l => decide ((g.lane l).pc.toNat = minPc g ls))

def issuePc (g : Group) : Nat := minPc g (eligLanes g)

/-- Lanes that have neither exited nor left (R217). -/
def Group.hasLive (g : Group) : Bool := g.lanes.any (fun e => decide (e.2.st ≠ .exited) && decide (e.2.st ≠ .left))

/-- The register limits of a group's team at decode (R181). -/
def limitsOf (d : Decl) : Limits := { regs := d.regs, tiles := d.tiles, accs := d.accs, cvregs := d.cvregs, nbar := d.nbar }

/-- A team issues while resident, and while it drains (R346). -/
def TeamSt.runs : TeamSt → Bool
  | .resident => true
  | .draining _ => true
  | _ => false

/-! ## Faults (R386 to R393, R416) -/

/-- What an instruction reports when it fails a check. -/
structure FInfo where
  code   : Nat
  info   : Nat := 0
  lanes  : List Nat := []
  addr   : Nat := 0
  replay : Bool := false
  /-- The addresses of lanes, where they have addresses of their own. -/
  addrs  : List (Nat × Nat) := []
  /-- Lines of malformed streams that were met (R420). -/
  marks  : List Nat := []
  deriving DecidableEq, Repr

/-- ADDR of a record: the address of the lowest lane in LANES (R410). -/
def FInfo.addrOf (f : FInfo) : Nat :=
  match f.addrs.find? (fun p => decide (p.1 ∈ f.lanes)) with
  | some p => p.2
  | none => f.addr

/-- Codes charged to requests (R416). -/
def chargeable (code : Nat) : Bool :=
  (decide (9 ≤ code) && decide (code ≤ 11)) || (decide (16 ≤ code) && decide (code ≤ 18)) || decide (code = 24)

/-- A record without its lanes (R386). -/
def mkRec (s : State) (g : GRef) (pc : Nat) (f : FInfo) : FRec :=
  let t := s.team g.team
  { code := BitVec.ofNat 8 f.code, replay := f.replay, vcore := BitVec.ofNat 6 (vcoreOf s t.ctx (coreOf t g.gid)),
    gid := BitVec.ofNat 6 g.gid, tslot := BitVec.ofNat 4 t.tslot, info := BitVec.ofNat 16 f.info,
    pc := BitVec.ofNat 64 pc, lanes := maskOf f.lanes, addr := BitVec.ofNat 64 f.addrOf }

/-- A record joins the queue of its context (R387). -/
def State.report (s : State) (ctx : Nat) (x : FqItem) : State := s.updCtx ctx (fun c => { c with fqWait := c.fqWait ++ [x] })

/-- A lane's exit: its frame returns to the reserve and its binding ends (R217). -/
def Thread.exit (t : Thread) : Thread := { t with st := .exited, bind := none }

def State.exitLanes (s : State) (g : GRef) (ls : List Nat) : State :=
  s.updGroup g (fun x => x.mapLanes ls (fun _ t => t.exit))

/-- The request a lane is bound to, in a `.rqscope` kernel. -/
def boundRq (d : Decl) (t : Thread) : Option Nat := if d.rqsc then t.bind.map (·.2) else none

/-- One record per request bound to a failing lane; the request becomes FAULTED and the lanes exit (R416). -/
def chargeAll (s : State) (g : GRef) (pc : Nat) (f : FInfo) : List Nat → State
  | [] => s
  | rq :: rqs =>
    let t := s.team g.team
    let ls := f.lanes.filter (fun l => boundRq t.decl ((s.group g).lane l) == some rq)
    let r := { mkRec s g pc { f with lanes := ls } with rqf := true, rqidx := BitVec.ofNat 13 rq }
    let u := ((chargeRq s t.ctx rq f.code).report t.ctx (.loose r)).exitLanes g ls
    chargeAll u g pc f rqs

/-- The watchdog of parked lanes goes on; that of a wait at issue ends (R403). -/
def parkedWaits (ws : List Wait) : List Wait := ws.filter (fun x => !x.atIssue)

/-- The issue set of a group, held while the group waits to issue it (R33). -/
def Group.holdSet (g : Group) : Group := { g with hold := some (maskOf (issueSet g)) }

/-- Lanes leave a group's replay; once none is left it is over, and with it the replay after STALLCHK (R389, R394). -/
def Group.replayLess (g : Group) (ls : List Nat) : Group :=
  match g.replay.map (fun m => m &&& ~~~(maskOf ls)) with
  | none => { g with unchecked := false }
  | some m => if m = 0 then { g with replay := none, unchecked := false } else { g with replay := some m }

/-- Takes a fault at an instruction: bound lanes are charged where R416 says so; for the rest the group parks and
holds the record (R387, R390). -/
def takeFault (s0 : State) (g : GRef) (pc : Nat) (f : FInfo) : State :=
  let s := s0.markLines f.marks
  let t := s.team g.team
  let gp := s.group g
  let bound := if chargeable f.code then f.lanes.filter (fun l => (boundRq t.decl (gp.lane l)).isSome) else []
  let rest := f.lanes.filter (fun l => l ∉ bound)
  let rqs := (bound.filterMap (fun l => boundRq t.decl (gp.lane l))).eraseDups
  let u := chargeAll s g pc { f with lanes := bound } rqs
  if rest.isEmpty ∧ !bound.isEmpty then
    u.updGroup g (fun x => { x.replayLess bound with hold := none, waits := parkedWaits x.waits })
  else
    let r := mkRec u g pc { f with lanes := rest }
    (u.updGroup g (fun x => { x with fault := some { frec := r }, hold := none, waits := parkedWaits x.waits })).report t.ctx
      (.group g)

/-- Parks a group after a release that reports a deferred failure (R419). -/
def takeDeferred (s : State) (g : GRef) (pc : Nat) (lanes : List Nat) (d : Defer) : State :=
  let r := { mkRec s g pc { code := d.code.toNat, info := d.info.toNat, lanes := lanes, addr := d.addr.toNat } with
             defer := true }
  (s.updGroup g (fun x => { x with fault := some { frec := r }, hold := none })).report (s.team g.team).ctx (.group g)

/-- PGNP and FABTIMEOUT replay (R409). -/
def codeReplay (code : Nat) : Bool := decide (code = 8) || decide (code = 25)

/-- A failed memory access as a fault of lanes; bit 55 of the address says whether it is a fabric global one (R79, R410). -/
def memFault (e : MErr) (a : Acc) (eng : Bool) (lanes : List Nat) (addr : Nat) : FInfo :=
  { code := e.code, info := e.info a (bitN addr 55) eng, lanes := lanes, addr := addr, replay := codeReplay e.code,
    marks := e.line.toList }

/-! ## Issue -/

/-- An instruction being issued: `s0` is the state before it, `s` that state with the PCs of the issue set advanced. -/
structure Iss where
  s0  : State
  s   : State
  ref : GRef
  i   : Instr
  set : List Nat
  en  : List Nat
  pc  : Nat
  deriving DecidableEq, Repr

def Iss.gp (I : Iss) : Group := I.s.group I.ref
def Iss.tm (I : Iss) : Team := I.s.team I.ref.team
def Iss.th (I : Iss) (l : Nat) : Thread := I.gp.lane l
def Iss.who (I : Iss) : Who := I.s.who I.ref
/-- The lowest enabled lane (R182). -/
def Iss.low (I : Iss) : Nat := I.en.headD 0
def Iss.rs (I : Iss) (r : SReg) : Word64 := I.gp.rs r.toNat

/-- What the body of an instruction comes to: it takes effect; it waits at issue (R403 kind, 0 where no watchdog
runs), the state kept as given; or it fails a check, the state before it kept but for the effects its rule keeps. -/
inductive Eff where
  | ok (s : State)
  | wait (kind : Nat) (s : State)
  | fault (f : FInfo) (s : State)
  deriving DecidableEq, Repr

/-- STATUS or INFO values that run-time checks use: ILLENC and ILLREG (R391). -/
def cILLENC : Nat := 2
def cILLREG : Nat := 3
def cSTALLCHK : Nat := 5

def Iss.fail (I : Iss) (code info : Nat) (lanes : List Nat) : Eff := .fault { code := code, info := info, lanes := lanes } I.s0
def Iss.failMem (I : Iss) (e : MErr) (a : Acc) (lanes : List Nat) (addr : Nat) : Eff :=
  .fault (memFault e a false lanes addr) I.s0

/-- Is a register of an instruction awaited: a busy result, or a token with a command outstanding (R197, R120)? -/
def regBusy (g : Group) (ls : List Nat) (r : RegRef) : Bool :=
  g.busy.any (fun b => decide (b.cls = r.1) && decide (b.reg = r.2) &&
    (decide (r.1 = .s) || ls.any (fun l => b.lanes.getLsbD l))) ||
  (decide (r.1 = .s) && g.toks.any (fun t => decide (t.1 = r.2)))

/-- The guard predicate as a read (R196). -/
def guardRef (h : Hdr) : List RegRef := rdP h.preg

/-- Does the guard enable a lane (R182)? -/
def guardOn (h : Hdr) (t : Thread) : Bool := xor h.pn (t.rp h.preg.toNat)

/-- Does the instruction wait on the scoreboard (R34, R197)? -/
def sbBlocked (g : Group) (set : List Nat) (i : Instr) : Bool :=
  let h := hdrOf i
  (guardRef h).any (regBusy g set) ||
  (let en := set.filter (fun l => guardOn h ((g.lane l).commit g.spacing))
   if en.isEmpty then false else ((uses i).reads ++ (uses i).writes).any (regBusy g en))

/-- Shortfall of a register in the given lanes (R394): by how much a pending result is not yet at its distance. -/
def shortOf (g : Group) (ls : List Nat) (r : RegRef) : Nat :=
  let hit := fun (e : PendW) => decide (e.cls = r.1) && decide (e.reg = r.2)
  let ps := if r.1 = .s then g.spend.filter hit else (ls.map (fun l => (g.lane l).pend.filter hit)).flatten
  ps.foldl (fun a e => max a (e.due - g.spacing)) 0

/-- The register with the largest shortfall, the first of equal ones. -/
def worst (g : Group) (ls : List Nat) : List RegRef → Option (RegRef × Nat)
  | [] => none
  | r :: rs =>
    match shortOf g ls r, worst g ls rs with
    | 0, w => w
    | k + 1, some (q, j) => if k + 1 < j then some (q, j) else some (r, k + 1)
    | k + 1, none => some (r, k + 1)

def clsCode : RegCls → Nat
  | .v => 0
  | .p => 1
  | .s => 2

/-- The checking scoreboard (R198, R394). -/
def stallChk (g : Group) (set en : List Nat) (i : Instr) : Option FInfo :=
  if bitN g.chkctl.toNat 0 = false ∨ g.unchecked then none
  else
    let gr := guardRef (hdrOf i)
    let short := gr.any (fun r => decide (0 < shortOf g set r))
    let ls := if short then set else en
    match worst g ls (gr ++ (if en.isEmpty ∧ !short then [] else (uses i).reads)) with
    | none => none
    | some (r, k) => some { code := cSTALLCHK, info := r.2 + 256 * clsCode r.1 + 1024 * k, lanes := ls, replay := true }

/-- Extra cycles for v-sources in one bank, for F words (R199): they pass before the instruction's own issue. -/
def bankDelay (i : Instr) : Nat :=
  match i with
  | .pWord _ _ => 0
  | _ =>
    if instrLen i = 16 then 0
    else
      let vs := ((uses i).reads.filter (fun r => decide (r.1 = .v))).map (·.2)
      [0, 1, 2, 3].foldl (fun a b => a + ((vs.filter (fun r => decide (r % 4 = b))).length - 1)) 0

/-- Are the contents of a register that a lane reads lost (R417)? -/
def regLost (g : Group) (l : Nat) (r : RegRef) : Bool :=
  match r.1 with
  | .s => decide (r.2 ∈ g.badS)
  | .v => decide (r.2 ∈ (g.lane l).bad)
  | .p => decide (r.2 ∈ (g.lane l).badP)

/-- Lanes that read a register whose contents are lost: of the issue set as its guard, of the enabled lanes otherwise. -/
def badLanes (g : Group) (set en : List Nat) (i : Instr) : List Nat :=
  set.filter (fun l => (guardRef (hdrOf i)).any (regLost g l) || (decide (l ∈ en) && (uses i).reads.any (regLost g l)))

/-- Does an instruction access memory otherwise than by lane addresses, a release or an acquire? It comes after the group's earlier
accesses (R107, R110). -/
def comesAfter : Instr → Bool
  | .cctl _ | .objq _ | .rqadmit _ | .rqretire _ | .rqrd _ | .rqwr _ | .rqwrEmit _ | .rqbind _ | .rqflagCancel _ | .rqflagFault _
  | .rqevict _ => true
  | _ => false

/-! ### Operations in flight -/

/-- Is an operation in flight one of a group's: issued by it, or by a thread that is now one of its lanes, which R43 lets see its own
stores from whatever group it stands in? -/
def ofGroup (s : State) (g own : GRef) (tids : List (BitVec 32)) : Bool :=
  decide (own = g) || (decide (own.team = g.team) &&
    (s.group g).lanes.any (fun e => decide (e.2.st ≠ .exited) && decide (e.2.st ≠ .left) && decide (e.2.tid ∈ tids)))

/-- Do stores of a group's threads that satisfy `p` wait to be performed (R110)? -/
def storeHeld (s : State) (g : GRef) (p : HeldSt → Bool) : Bool :=
  (s.team g.team).groups.any (fun e => e.2.stq.any (fun h => ofGroup s g ⟨g.team, e.1⟩ h.tids && p h))

/-- Does a half of a packed atomic of a group's threads that satisfies `p` still have to be made at its site (R265)? -/
def halfLeft (s : State) (g : GRef) (p : SauOp → Bool) : Bool :=
  s.sauQ.any (fun q => q.atom && q.ans.isNone && ofGroup s g q.own (q.tids ++ q.heirs) && p q)

/-- The threads of lanes. -/
def tidsOf (g : Group) (ls : List Nat) : List (BitVec 32) := ls.map (fun l => (g.lane l).tid)

/-! ### Acquires -/

/-- Every outstanding read has been performed (R112, R113). -/
def readsFirst (s : State) (g : GRef) : State :=
  if (s.group g).loads.isEmpty then s else s.updGroup g Group.fixAll

/-- The acquire part at a scope (R115). -/
def acqState (s : State) (g : GRef) (scope : Nat) : State :=
  readsFirst (fenceAcq s (s.who g) (effScope (s.team g.team).decl.pair scope)) g

/-- The group with every due result readable; after STALLCHK a replay reads the latest writes of its registers (R394). Before the accesses
of an instruction that comes after the group's reads these are performed. -/
def commitGroup (g : Group) (set : List Nat) (i : Instr) : Group :=
  let rs := guardRef (hdrOf i) ++ (uses i).reads
  let ok := fun (e : PendW) => decide (e.due ≤ g.spacing) || (g.unchecked && decide ((e.cls, e.reg) ∈ rs))
  let y := (g.mapLanes set (fun _ t => t.commitIf ok)).commitS ok
  if comesAfter i && set.any (fun l => guardOn (hdrOf i) (y.lane l)) then y.fixAll else y

/-- The accounting of an issue: spacing, counters, yield mask, RETIRED, the non-idempotent bit (R196, R239, R344). When the
group must wait on the stall count, the next issue set is selected now (R33). -/
def retire (I : Iss) (s : State) : State :=
  let h := hdrOf I.i
  let sp := 1 + h.stall.toNat
  let t0 := I.tm
  let live := !I.en.isEmpty
  let u := s.updTeam I.ref.team (fun t =>
    { t with
      retired := if live then t.retired + 1 else t.retired,
      nonIdem := t.nonIdem || (live && nonIdempotent I.i && !I.gp.idempf) })
  let v := u.updGroup I.ref (fun g =>
    let y := { g with
      spacing := g.spacing + sp,
      nextIssue := max g.nextIssue (u.now + sp),
      issueCnt := g.issueCnt + 1,
      lastIssue := u.now,
      waited := 0,
      hold := none,
      replay := none,
      unchecked := false,
      waits := parkedWaits g.waits }
    if h.stall = 0 then y else y.holdSet)
  v.updCore (coreOf t0 I.ref.gid) (fun c =>
    { c with seqs := Map.upd {} c.seqs I.gp.seq (fun q => { q with lastAt := some u.now }) })

/-- The watchdog of a wait at issue begins, or goes on (R403). -/
def waitAtIssue (ws : List Wait) (kind : Nat) (lanes : List Nat) (pc now : Nat) : List Wait :=
  if kind = 0 then parkedWaits ws
  else if ws.any (fun w => w.atIssue && decide (w.kind = kind) && decide (w.pc = pc)) then ws
  else parkedWaits ws ++ [{ kind := kind, lanes := lanes, pc := pc, born := now, until_ := now + 2 ^ 28, atIssue := true }]

/-- Has an instruction that waits at issue begun its effect: a request of its own is out, a half of its atomic under way, its
eviction action or its first message made? -/
def begun (I : Iss) (s : State) : Bool :=
  s.fabQ.any (fun r => decide (r.own = I.ref) && decide (r.kind = .sync) && decide (r.pc = BitVec.ofNat 64 I.pc)) ||
    s.sauQ.any (fun q => q.keep && decide (q.own = I.ref)) || (s.group I.ref).ecallHalf.isSome ||
    (s.ctx I.tm.ctx).former.stage.any (fun x => decide (x.own = I.ref))

/-- A wait at issue: the group keeps its issue set and tries again in the next cycle (R33, R403). An instruction that R344 names sets the
team's bit once its effect has begun. -/
def keepWaiting (I : Iss) (kind : Nat) (s : State) : State :=
  (s.updTeam I.ref.team (fun t =>
    { t with nonIdem := t.nonIdem || (nonIdempotent I.i && !I.gp.idempf && begun I s) })).updGroup I.ref (fun g =>
    { g with
      nextIssue := s.now + 1,
      hold := some (maskOf I.set),
      waits := waitAtIssue g.waits kind I.set I.pc s.now })

/-- The instruction at its issue: the lanes, their operands at adequate distance, and the PCs advanced (R33, R182, R196). -/
def enter (i : Instr) (s : State) (ref : GRef) : Iss :=
  let g0 := s.group ref
  let set := issueSet g0
  let g1 := commitGroup g0 set i
  let pc := issuePc g0
  let s0 := s.updGroup ref (fun _ => g1)
  let next : Word64 := BitVec.ofNat 64 (pc + instrLen i)
  { s0 := s0,
    s := s0.updGroup ref (fun g => { g.mapLanes set (fun _ t => { t with pc := next }) with yieldMask := 0 }),
    ref := ref, i := i, set := set, en := set.filter (fun l => guardOn (hdrOf i) (g1.lane l)), pc := pc }

/-- Does an instruction that is made read a token for the first time (R120, R122)? -/
def firstRead (i : Instr) (s : State) (ref : GRef) : Bool :=
  !(s.group ref).tokNew.isEmpty && !(enter i s ref).en.isEmpty &&
    (uses i).reads.any (fun r => decide (r.1 = .s) && decide (r.2 ∈ (s.group ref).tokNew))

/-- The first read of a token is an acquire at `.team` (R120, R122): it is made before the instruction's own accesses. -/
def tokAcq (i : Instr) (s : State) (ref : GRef) : State :=
  if firstRead i s ref then
    acqState (s.updGroup ref (fun g => { g with
      tokNew := g.tokNew.filter (fun k => !(uses i).reads.any (fun r => decide (r.1 = .s) && decide (r.2 = k))) })) ref 1
  else s

/-- An instruction with its registers at hand: what its body comes to, if a lane is enabled and nothing that it comes after waits. -/
def attempt (i : Instr) (s : State) (ref : GRef) (body : Iss → Eff) : Iss × Eff :=
  let J := enter i (tokAcq i s ref) ref
  (J, if J.en.isEmpty then .ok J.s
    else if comesAfter i && (storeHeld J.s0 ref (fun _ => true) || halfLeft J.s0 ref (fun _ => true)) then .wait 0 J.s0
    else body J)

/-! ### Lost registers (R393, R417) -/

/-- A code that the memory checks give; they come after the run-time checks of an instruction's own rule (R393). -/
def memCode (code : Nat) : Bool := chargeable code || codeReplay code

/-- The group with free values, from the counter `k` on, in its lost registers (log entry 84). -/
def Group.blur (g : Group) (k : Nat) : Group :=
  { g with
    sr := g.badS.foldl (fun m r => Map.set 0 m r (Config.freeWord (k + r))) g.sr,
    badS := [],
    lanes := g.lanes.map (fun e => (e.1, { e.2 with
      v := e.2.bad.foldl (fun m r => Map.set 0 m r ((Config.freeWord (k + 512 * e.1 + 64 + r)).setWidth 32)) e.2.v,
      p := e.2.badP.foldl (fun m r => if (Config.freeWord (k + 512 * e.1 + 320 + r)).getLsbD 0 then m ||| (1#128 <<< r)
        else m &&& ~~~(1#128 <<< r)) e.2.p,
      bad := [], badP := [] })) }

/-- The state in which they are read. -/
def sound (s : State) (ref : GRef) : State := s.updGroup ref (fun g => g.blur s.free)

/-- A run-time check that the instruction fails although it reads a lost register. -/
def checkFirst (i : Instr) (s : State) (ref : GRef) (body : Iss → Eff) : Option FInfo :=
  match (attempt i (sound s ref) ref body).2 with
  | .fault f _ => if memCode f.code then none else some f
  | _ => none

/-- What an instruction's body comes to for the machine. -/
def Iss.finish (I : Iss) : Eff → State
  | .ok t => retire I t
  | .wait k t => keepWaiting I k t
  | .fault f t => takeFault t I.ref I.pc f

/-- The operation that issues an instruction for the group selected (R33, R182, R196 to R198, R390, R393). Operands stand
in `I.gp`; the body is made only when a lane is enabled. -/
def issue (i : Instr) (s : State) (body : Iss → Eff) : Host.Outcome State Fault Refusal :=
  match s.cur with
  | none => .fault .noIssuingGroup
  | some ref =>
    let I := enter i s ref
    if I.set.isEmpty then .fault .noIssuingGroup
    else if sbBlocked (s.group ref) I.set i then
      .next (s.updGroup ref (fun g => { g with sbwait := g.sbwait + 1, nextIssue := s.now + 1, hold := some (maskOf I.set) }))
    else
      let g1 := I.s0.group ref
      match stallChk g1 I.set I.en i with
      | some f => .next ((takeFault I.s0 ref I.pc f).updGroup ref (fun g => { g with nextIssue := s.now + 16 }))
      | none =>
        let bad := badLanes g1 I.set I.en i
        if !bad.isEmpty then
          .next (takeFault { I.s0 with free := s.free + 32768 } ref I.pc
            ((checkFirst i s ref body).getD { code := cECCU, info := 7, lanes := bad }))
        else
          let a := attempt i s ref body
          .next (a.1.finish a.2)

/-! ## Results -/

/-- Applies `f` to the enabled lanes. -/
def Iss.lanewise (I : Iss) (f : Nat → Thread → Thread) : State := I.s.updGroup I.ref (fun g => g.mapLanes I.en f)

/-- The spacing count at which a result of the instruction's latency is readable (R196). -/
def Iss.due (I : Iss) : Nat := I.gp.spacing + (uses I.i).lat

/-- A fixed-latency v result in every enabled lane. -/
def Iss.outV (I : Iss) (d : VReg) (f : Thread → Word32) : State := I.lanewise (fun _ t => t.pendV I.due d.toNat (f t))
def Iss.outVp (I : Iss) (d : VReg) (f : Thread → Word64) : State := I.lanewise (fun _ t => t.pendVp I.due d.toNat (f t))
def Iss.outP (I : Iss) (d : PReg) (f : Thread → Bool) : State := I.lanewise (fun _ t => t.pendP I.due d.toNat (f t))
/-- A variable-latency v result in every enabled lane. -/
def Iss.setV (I : Iss) (d : VReg) (f : Nat → Thread → Word32) : State := I.lanewise (fun l t => t.setV d.toNat (f l t))
/-- s results. -/
def Iss.outS (I : Iss) (d : SReg) (x : Word64) : State := I.s.updGroup I.ref (fun g => g.pendS I.due d.toNat x)
def Iss.setS (I : Iss) (d : SReg) (x : Word64) : State := I.s.updGroup I.ref (fun g => g.setS d.toNat x)

/-! ## Operands (R180) -/

def Thread.r (t : Thread) (r : VReg) : Word32 := t.rv r.toNat
def Thread.rw (t : Thread) (r : VReg) : Word64 := t.rvp r.toNat

/-- The second source as an integer operand: register, broadcast or widened immediate (R180). -/
def srcI (g : Group) (n : Bool) (t : Thread) : SrcB → Word32
  | .v r => t.r r
  | .s r => (g.rs r.toNat).setWidth 32
  | .imm i => if n then i.setWidth 32 else i.signExtend 32

/-- The second source as a 64-bit operand. -/
def srcW (g : Group) (n : Bool) (t : Thread) : SrcB → Word64
  | .v r => t.rw r
  | .s r => g.rs r.toNat
  | .imm i => if n then i.setWidth 64 else i.signExtend 64

/-- The second source as an FP32 operand: an immediate is a BF16 code. -/
def srcF (g : Group) (t : Thread) : SrcB → Word32
  | .v r => t.r r
  | .s r => (g.rs r.toNat).setWidth 32
  | .imm i => i.setWidth 32 <<< 16

/-- The second source as a packed operand: an immediate stands in both halves. -/
def srcH (g : Group) (t : Thread) : SrcB → Word32
  | .v r => t.r r
  | .s r => (g.rs r.toNat).setWidth 32
  | .imm i => i ++ i

/-- A uniform second source (R236). -/
def srcU (g : Group) (n : Bool) : ImmS → Word64
  | .imm i => if n then i.setWidth 64 else i.signExtend 64
  | .s r => g.rs r.toNat

/-- A 16-bit immediate zero-extended, or an s-register. -/
def srcX (g : Group) : ImmS → Word64
  | .imm i => i.setWidth 64
  | .s r => g.rs r.toNat

/-- A relative target (R213). -/
def relTarget (pc : Nat) (imm : Imm16) : Word64 := BitVec.ofNat 64 pc + 8 + (imm.signExtend 64 <<< 3)

/-- The check of a transfer's target (R213): INFO has LEVEL 7 and SITE 14 (R410). -/
def targetErr (x : Word64) : Option MErr :=
  if 2 ^ 56 ≤ x.toNat then some { code := cADDRCANON, site := 14 }
  else if x.toNat % 8 ≠ 0 then some { code := cALIGN, site := 14 }
  else none

end Sys2Proof.Machine
end

