-- ==== Sys2Proof/Machine/Fetch.lean ====
section
/-! DEFINITION. Instruction fetch (R87, R177, R339, R413), the decode faults of R205, and the readiness of groups for
issue (R34). -/

namespace Sys2Proof.Machine

/-- Codes that mark a line whose contents are lost, or are never written (R418). -/
def lostCode (c : BitVec 4) : Bool := decide (c = 2) || decide (c = 3) || (decide (8 ≤ c) && decide (c ≤ 11))

/-- Home memory as instruction fetch and LDC see it: the lines as they stood at the kernel boundary before the grid, with the poison
of today (R87, R93, R124, R418; log entry 29). -/
def atBoundary (s : State) (gr : Grid) : State :=
  { s with
    mem := gr.snap,
    lmeta := (s.lmeta.filter (fun e => lostCode e.2)).foldl (fun m e => Map.put m e.1 e.2) gr.snapMeta }

/-- What a fetch comes to: bytes, a line to be fetched into the shared instruction cache, or a failure. -/
inductive Fetched where
  | bytes (bs : List Byte) (s : State)
  | miss (line : Nat) (s : State)
  | bad (e : MErr) (va : Nat)
  deriving DecidableEq, Repr

/-- Eight bytes of the instruction stream. -/
def fetch8 (s : State) (g : GRef) (va : Nat) : Fetched :=
  let t := s.team g.team
  match xlate s (s.who g) va .fetch false with
  | .error e => .bad e va
  | .ok (lf, u) =>
    if lf.pa / 64 ∈ (u.die t.die).ic then
      match homeRead (atBoundary u (s.gridOf t)) lf.pa 8 with
      | .error e => .bad e va
      | .ok bs => .bytes bs u
    else
      match homeRead (atBoundary u (s.gridOf t)) (lf.pa / 64 * 64) 64 with
      | .error e => .bad e va
      | .ok _ => .miss (lf.pa / 64) u

/-- The bytes of the instruction at an address, 8 or 16 by its first word (R177). -/
def fetchInstr (s : State) (g : GRef) (va : Nat) : Fetched :=
  match fetch8 s g va with
  | .bytes bs t =>
    if lengthOf (leNat bs) = 16 then
      match fetch8 t g (va + 8) with
      | .bytes cs u => .bytes (bs ++ cs) u
      | .miss l u => .miss l u
      | .bad e a => .bad e a
    else .bytes bs t
  | r => r

/-- Code and INFO of a decode fault (R205, R392). -/
def decodeFault : DErr → Nat × Nat
  | .illenc n => (cILLENC, n)
  | .illop => (1, 2)
  | .illreg => (cILLREG, 7)
  | .pairbank => (4, 8)
  | .truncated => (cILLENC, 4)

/-- What the group would issue next. -/
inductive Ready where
  | instr (i : Instr) (s : State)
  | fault (f : FInfo)
  | miss (line : Nat) (s : State)
  deriving DecidableEq, Repr

def nextInstr (s : State) (g : GRef) : Ready :=
  let gp := s.group g
  let set := issueSet gp
  match fetchInstr s g (issuePc gp) with
  | .miss l t => .miss l t
  | .bad e va => .fault (memFault e .fetch false set va)
  | .bytes bs t =>
    match decodeBytes (limitsOf (s.team g.team).decl) bs with
    | .ok i => .instr i t
    | .error d =>
      let c := decodeFault d
      .fault { code := c.1, info := c.2, lanes := set }

/-- May the group be considered at an issue opportunity, its scoreboard aside (R34)? -/
def canIssue (s : State) (g : GRef) : Bool :=
  let t := s.team g.team
  let gp := s.group g
  let seq := Map.get {} (s.core (coreOf t g.gid)).seqs gp.seq
  gp.live && t.st.runs &&
    gp.fault.isNone && !(liveLanes gp).isEmpty && decide (gp.nextIssue ≤ s.now) && seq.frozen.isNone &&
    decide (seq.lastAt ≠ some s.now)

/-- Fills a line into a die's shared instruction cache: 2,048 sets of 16 ways, the oldest way of a full set going (R339,
log entry 8). -/
def icFill (s : State) (die line : Nat) : State :=
  s.updDie die (fun d =>
    if line ∈ d.ic then d
    else
      let set := d.ic.filter (fun l => decide (l % 2048 = line % 2048))
      let base := if set.length < 16 then d.ic else d.ic.erase (set.headD 0)
      { d with ic := base ++ [line] })

/-- A fetch that misses freezes the sequencer and counts one schedule slip of the context's virtual sequencer (R239, R339). -/
def freezeSeq (s : State) (g : GRef) (line : Nat) : State :=
  let t := s.team g.team
  let core := coreOf t g.gid
  let seq := (s.group g).seq
  let u := s.updCore core (fun c =>
    { c with seqs := Map.upd {} c.seqs seq (fun q => { q with frozen := some line, frozenAt := s.now }) })
  u.updCtx t.ctx (fun c => { c with slips := Map.upd 0 c.slips (4 * vcoreOf s t.ctx core + seq) (· + 1) })

end Sys2Proof.Machine
end

