-- ==== Sys2Proof/Machine/Num.lean ====
section
/-! DEFINITION. Number formats, exact values and the rounding functions (R126 to R142), the FP32 and packed
operations (R244 to R247) and the sums of R149. Values are exact: a sign, a natural significand and a power of two. -/

namespace Sys2Proof.Machine

/-! ## Exact values -/

/-- An exact value: NaN, an infinity, or (−1)^s × m × 2^e, where m = 0 is a signed zero. -/
inductive Ev where
  | nan
  | inf (s : Bool)
  | num (s : Bool) (m : Nat) (e : Int)
  deriving DecidableEq, Repr

def Ev.isNan : Ev → Bool
  | .nan => true
  | .inf _ => false
  | .num _ _ _ => false

def Ev.isInf : Ev → Bool
  | .inf _ => true
  | .nan => false
  | .num _ _ _ => false

def Ev.isZero : Ev → Bool
  | .num _ m _ => m == 0
  | .nan => false
  | .inf _ => false

def Ev.sign : Ev → Bool
  | .nan => false
  | .inf s => s
  | .num s _ _ => s

def Ev.neg : Ev → Ev
  | .nan => .nan
  | .inf s => .inf (!s)
  | .num s m e => .num (!s) m e

def Ev.abs : Ev → Ev
  | .nan => .nan
  | .inf _ => .inf false
  | .num _ m e => .num false m e

def Ev.ofInt (n : Int) : Ev := .num (decide (n < 0)) n.natAbs 0
def Ev.zero : Ev := .num false 0 0
def Ev.one : Ev := .num false 1 0

/-- m × 2^(e − q) for q ≤ e, signed. -/
def signedAt (s : Bool) (m : Nat) (e q : Int) : Int :=
  let n : Int := (m * 2 ^ (e - q).toNat : Nat)
  if s then -n else n

/-- The exact sum; `rd` gives the sign of a cancelling sum under round_rd (R135). -/
def Ev.add (rd : Bool) (a b : Ev) : Ev :=
  match a, b with
  | .nan, _ => .nan
  | _, .nan => .nan
  | .inf s, .inf t => if s == t then .inf s else .nan
  | .inf s, .num _ _ _ => .inf s
  | .num _ _ _, .inf t => .inf t
  | .num s m e, .num t n f =>
    if m = 0 ∧ n = 0 then .num (if s == t then s else rd) 0 0
    else if m = 0 then .num t n f
    else if n = 0 then .num s m e
    else
      let q := min e f
      let x := signedAt s m e q + signedAt t n f q
      if x = 0 then .num rd 0 0 else .num (decide (x < 0)) x.natAbs q

/-- The exact product; 0 × ∞ is NaN. -/
def Ev.mul (a b : Ev) : Ev :=
  match a, b with
  | .nan, _ => .nan
  | _, .nan => .nan
  | .inf s, .inf t => .inf (s != t)
  | .inf s, .num t n _ => if n = 0 then .nan else .inf (s != t)
  | .num s m _, .inf t => if m = 0 then .nan else .inf (s != t)
  | .num s m e, .num t n f => .num (s != t) (m * n) (e + f)

/-- The order of two values, none if either is NaN; zeros of both signs are equal (R9). -/
def Ev.cmp (a b : Ev) : Option Ordering :=
  match a, b with
  | .nan, _ => none
  | _, .nan => none
  | .inf s, .inf t => some (if s == t then .eq else if s then .lt else .gt)
  | .inf s, .num _ _ _ => some (if s then .lt else .gt)
  | .num _ _ _, .inf t => some (if t then .gt else .lt)
  | .num s m e, .num t n f =>
    let q := min e f
    some (compare (signedAt s m e q) (signedAt t n f q))

def Ev.lt (a b : Ev) : Bool := Ev.cmp a b == some .lt
def Ev.eqv (a b : Ev) : Bool := Ev.cmp a b == some .eq

/-- floor(log2 of m × 2^e) for m ≠ 0. -/
def floorLog (m : Nat) (e : Int) : Int := (Nat.log2 m : Int) + e

/-! ## Flags (R139) -/

def fNV : Nat := 1
def fDZ : Nat := 2
def fOF : Nat := 4
def fUF : Nat := 8
def fNX : Nat := 16
def fSAT : Nat := 32

/-- ORs two flag sets. -/
def flagOr (a b : Nat) : Nat := a ||| b

/-! ## Formats (R126, R127) -/

inductive Specials where
  /-- Infinity and NaN at the all-ones exponent. -/
  | ieee
  /-- NaN at the all-ones code only. -/
  | e4m3
  | none
  deriving DecidableEq, Repr

/-- A floating-point format: exponent and significand widths, bias, special codes, canonical NaN. -/
structure Fmt where
  eb   : Nat
  mb   : Nat
  bias : Nat
  sp   : Specials
  cnan : Nat
  deriving DecidableEq, Repr

def FP32 : Fmt := ⟨8, 23, 127, .ieee, 0x7FC00000⟩
def FP16 : Fmt := ⟨5, 10, 15, .ieee, 0x7E00⟩
def BF16 : Fmt := ⟨8, 7, 127, .ieee, 0x7FC0⟩
def E4M3 : Fmt := ⟨4, 3, 7, .e4m3, 0x7F⟩
def E5M2 : Fmt := ⟨5, 2, 15, .ieee, 0x7E⟩
def E3M2 : Fmt := ⟨3, 2, 3, .none, 0⟩
def E2M3 : Fmt := ⟨2, 3, 1, .none, 0⟩
def E2M1 : Fmt := ⟨2, 1, 1, .none, 0⟩

def Fmt.bits (f : Fmt) : Nat := 1 + f.eb + f.mb
/-- The code of the largest finite magnitude, sign clear. -/
def Fmt.maxCode (f : Fmt) : Nat :=
  match f.sp with
  | .ieee => (2 ^ f.eb - 1) * 2 ^ f.mb - 1
  | .e4m3 => 2 ^ (f.eb + f.mb) - 2
  | .none => 2 ^ (f.eb + f.mb) - 1
def Fmt.infCode (f : Fmt) : Nat := (2 ^ f.eb - 1) * 2 ^ f.mb
def Fmt.signBit (f : Fmt) (s : Bool) : Nat := if s then 2 ^ (f.eb + f.mb) else 0

/-- The value of a code (R126, R127). -/
def Fmt.val (f : Fmt) (code : Nat) : Ev :=
  let s := bitN code (f.eb + f.mb)
  let e := (code / 2 ^ f.mb) % 2 ^ f.eb
  let m := code % 2 ^ f.mb
  let top := e == 2 ^ f.eb - 1
  if f.sp = .ieee ∧ top then (if m = 0 then .inf s else .nan)
  else if f.sp = .e4m3 ∧ top ∧ m = 2 ^ f.mb - 1 then .nan
  else if e = 0 then .num s m (1 - (f.bias : Int) - f.mb)
  else .num s (2 ^ f.mb + m) ((e : Int) - f.bias - f.mb)

/-- The rounding functions (R135, R136); the stochastic one holds its word. -/
inductive Rnd where
  | rne
  | rz
  | rd
  | ru
  | sr (w : Nat)
  deriving DecidableEq, Repr

/-- Modifier code of a rounding (R244, R250). -/
def Rnd.ofCode (c w : Nat) : Rnd :=
  match c with
  | 0 => .rne
  | 1 => .rz
  | 2 => .rd
  | 3 => .ru
  | _ => .sr w

/-- Rounds m × 2^e of sign s to a multiple of 2^q: the multiple, and whether it is inexact. `sticky` says that the
true magnitude lies strictly between m and m + 1. -/
def roundAt (r : Rnd) (s : Bool) (m : Nat) (e q : Int) (sticky : Bool) : Nat × Bool :=
  if q ≤ e then
    let n := m * 2 ^ (e - q).toNat
    if sticky then
      (match r with
        | .rne => n
        | .rz => n
        | .rd => if s then n + 1 else n
        | .ru => if s then n else n + 1
        | .sr _ => n, true)
    else (n, false)
  else
    let d := 2 ^ (q - e).toNat
    let n := m / d
    let rem := m % d
    if rem = 0 ∧ !sticky then (n, false)
    else
      let up := match r with
        | .rne => decide (2 * rem > d) || (decide (2 * rem = d) && (sticky || n % 2 == 1))
        | .rz => false
        | .rd => s
        | .ru => !s
        | .sr w => decide (w % 2 ^ 32 < rem * 2 ^ 32 / d)
      (if up then n + 1 else n, true)

/-- The code of the grid value n × 2^q, whose magnitude does not exceed the format's largest. -/
def Fmt.pack (f : Fmt) (s : Bool) (n : Nat) (q : Int) : Nat :=
  let emin : Int := 1 - f.bias
  if n = 0 then f.signBit s
  else
    let top := floorLog n q
    if top < emin then f.signBit s + n * 2 ^ (q - (emin - f.mb)).toNat
    else
      let d := q - (top - f.mb)
      let sig := if 0 ≤ d then n * 2 ^ d.toNat else n / 2 ^ (-d).toNat
      f.signBit s + (top + f.bias).toNat * 2 ^ f.mb + (sig - 2 ^ f.mb)

/-- Converts an exact value to a format (R135, R137, R141): the code and the flags of R139. `sat` selects sat_to where
the format has infinities; a format without them always saturates. -/
def Fmt.enc (f : Fmt) (r : Rnd) (sat sticky : Bool) (x : Ev) : Nat × Nat :=
  let satur := sat || f.sp != .ieee
  match x with
  | .nan => (f.cnan, 0)
  | .inf s => if satur then (f.signBit s + f.maxCode, fSAT + fNX) else (f.signBit s + f.infCode, 0)
  | .num s m e =>
    if m = 0 ∧ !sticky then (f.signBit s, 0)
    else
      let emin : Int := 1 - f.bias
      let top := floorLog m e
      let q := max top emin - f.mb
      let g := roundAt r s m e q sticky
      let maxn := f.maxCode % 2 ^ f.mb + 2 ^ f.mb
      let maxq : Int := (f.maxCode / 2 ^ f.mb : Nat) - f.bias - f.mb
      let beyond := Ev.lt (.num false maxn maxq) (.num false g.1 q)
      if beyond then
        if satur then (f.signBit s + f.maxCode, fOF + fNX + fSAT)
        else
          let toInf := match r with
            | .rne => true
            | .rz => false
            | .rd => s
            | .ru => !s
            | .sr _ => g.2 && Ev.lt (.num false m e) (.num false g.1 q)
          (f.signBit s + (if toInf then f.infCode else f.maxCode), fOF + fNX)
      else (f.pack s g.1 q, if g.2 then (if top < emin then fUF + fNX else fNX) else 0)

/-- The plain conversion: no saturation, no sticky tail. -/
def Fmt.round (f : Fmt) (r : Rnd) (x : Ev) : Nat × Nat := f.enc r false false x

/-! ## Integers (R132, R137) -/

/-- An integer format: bits, least and greatest values. -/
structure IFmt where
  bits : Nat
  lo   : Int
  hi   : Int
  deriving DecidableEq, Repr

def I64 : IFmt := ⟨64, -2 ^ 63, 2 ^ 63 - 1⟩
def I32 : IFmt := ⟨32, -2 ^ 31, 2 ^ 31 - 1⟩
def N32 : IFmt := ⟨32, 0, 2 ^ 32 - 1⟩
def I16 : IFmt := ⟨16, -2 ^ 15, 2 ^ 15 - 1⟩
def I8 : IFmt := ⟨8, -128, 127⟩
def N8 : IFmt := ⟨8, 0, 255⟩
def I4 : IFmt := ⟨4, -8, 7⟩

/-- Two's complement of a value at a width. -/
def intBits (w : Nat) (x : Int) : Nat := (x % (2 ^ w : Nat)).toNat

/-- The signed value of the low `w` bits. -/
def sext (w : Nat) (x : Nat) : Int :=
  let y := x % 2 ^ w
  if 2 * y < 2 ^ w then (y : Int) else (y : Int) - (2 ^ w : Nat)

def IFmt.val (f : IFmt) (x : Nat) : Int := if f.lo < 0 then sext f.bits x else (x % 2 ^ f.bits : Nat)

/-- sat_to an integer format: the value, and SAT where it changed (R137, R232). -/
def IFmt.sat (f : IFmt) (x : Int) : Int × Nat :=
  if x < f.lo then (f.lo, fSAT) else if f.hi < x then (f.hi, fSAT) else (x, 0)

/-- Converts an exact value to an integer format (R141): a clamp sets SAT and, as the result differs from the exact
value, NX (R139). -/
def IFmt.enc (f : IFmt) (r : Rnd) (x : Ev) : Int × Nat :=
  match x with
  | .nan => (0, fNV)
  | .inf s => (if s then f.lo else f.hi, fSAT + fNX)
  | .num s m e =>
    let g := roundAt r s m e 0 false
    let n : Int := if s then -(g.1 : Int) else g.1
    let c := f.sat n
    (c.1, c.2 + (if g.2 || c.2 != 0 then fNX else 0))

/-! ## Stochastic words (R138) -/

def mask64 (x : Nat) : Nat := x % 2 ^ 64

/-- srh(seed, stream, index). -/
def srh (seed stream index : Nat) : Nat :=
  let x0 := mask64 seed ^^^ ((stream % 2 ^ 32) * 2 ^ 32 + index % 2 ^ 32)
  let x1 := mask64 ((x0 ^^^ (x0 / 2 ^ 31)) * 0x9E6C63D0676A9A99)
  let x2 := mask64 ((x1 ^^^ (x1 / 2 ^ 27)) * 0xD4A2E83B1C5F7269)
  let x3 := x2 ^^^ (x2 / 2 ^ 33)
  x3 / 2 ^ 32

/-! ## FP32 operations (R139, R244, R245) -/

/-- Is the FP32 code a subnormal? -/
def subnormal32 (a : Nat) : Bool := decide ((a / 2 ^ 23) % 256 = 0) && decide (a % 2 ^ 23 ≠ 0)

/-- Flushes an operand under FPCTL.FTZ. -/
def ftzIn (ftz : Bool) (a : Nat) : Nat := if ftz && subnormal32 a then (a / 2 ^ 31) * 2 ^ 31 else a

/-- Flushes a result under FPCTL.FTZ: UF and NX are set (R139). -/
def ftzOut (ftz : Bool) (r : Nat × Nat) : Nat × Nat :=
  if ftz && subnormal32 r.1 then ((r.1 / 2 ^ 31) * 2 ^ 31, flagOr r.2 (fUF + fNX)) else r

/-- NV where a NaN comes from operands that are not NaN (R139). -/
def nvOf (ops : List Ev) (x : Ev) : Nat := if x.isNan && ops.all (fun o => !o.isNan) then fNV else 0

def isRd (r : Rnd) : Bool := decide (r = .rd)

/-- One rounded operation in a format from exact operands. -/
def Fmt.op (f : Fmt) (r : Rnd) (ops : List Ev) (x : Ev) : Nat × Nat :=
  let y := f.round r x
  (y.1, flagOr y.2 (nvOf ops x))

def Fmt.addOp (f : Fmt) (r : Rnd) (a b : Nat) : Nat × Nat :=
  f.op r [f.val a, f.val b] (Ev.add (isRd r) (f.val a) (f.val b))

def Fmt.subOp (f : Fmt) (r : Rnd) (a b : Nat) : Nat × Nat :=
  f.op r [f.val a, f.val b] (Ev.add (isRd r) (f.val a) (f.val b).neg)

def Fmt.mulOp (f : Fmt) (r : Rnd) (a b : Nat) : Nat × Nat :=
  f.op r [f.val a, f.val b] (Ev.mul (f.val a) (f.val b))

def Fmt.fmaOp (f : Fmt) (r : Rnd) (a b c : Nat) : Nat × Nat :=
  f.op r [f.val a, f.val b, f.val c] (Ev.add (isRd r) (Ev.mul (f.val a) (f.val b)) (f.val c))

/-- Orders −0 below +0 (R245). -/
def Ev.ltz (a b : Ev) : Bool :=
  if a.isZero && b.isZero then a.sign && !b.sign else Ev.lt a b

/-- FMIN and FMAX on codes of a format (R245): the one that is not NaN, the canonical NaN for two. -/
def Fmt.minmax (f : Fmt) (mx : Bool) (a b : Nat) : Nat :=
  let x := f.val a
  let y := f.val b
  if x.isNan && y.isNan then f.cnan
  else if x.isNan then b
  else if y.isNan then a
  else if mx then (if Ev.ltz x y then b else a) else if Ev.ltz y x then b else a

/-- COND of ISETP and FSETP on an order (R235, R245): none is the unordered outcome. -/
def condOf (c : Nat) (o : Option Ordering) : Bool :=
  match c with
  | 0 => o == some .eq
  | 1 => o != some .eq
  | 2 => o == some .lt
  | 3 => o == some .lt || o == some .eq
  | 4 => o == some .gt
  | 5 => o == some .gt || o == some .eq
  | 6 => o.isSome
  | _ => o.isNone

/-- FRND (R245). -/
def frnd (r : Rnd) (a : Nat) : Nat :=
  match FP32.val a with
  | .nan => FP32.cnan
  | .inf _ => a
  | .num s m e =>
    if 0 ≤ e then a
    else
      let g := roundAt r s m e 0 false
      FP32.pack s g.1 0

/-- FCLASS (R245). -/
def fclass (a : Nat) : Nat :=
  let s := bitN a 31
  let e := (a / 2 ^ 23) % 256
  let m := a % 2 ^ 23
  if e = 255 then
    if m = 0 then (if s then 1 else 128) else if bitN a 22 then 512 else 256
  else if e = 0 then
    if m = 0 then (if s then 8 else 16) else if s then 4 else 32
  else if s then 2 else 64

/-! ## Correctly rounded special functions (R247) -/

/-- Integer square root, one bit per step from bit `k`. -/
def isqrtFrom : Nat → Nat → Nat → Nat
  | 0, n, r => if (r + 1) * (r + 1) ≤ n then r + 1 else r
  | k + 1, n, r =>
    let c := r + 2 ^ (k + 1)
    isqrtFrom k n (if c * c ≤ n then c else r)

def isqrt (n : Nat) : Nat := isqrtFrom (Nat.log2 n / 2 + 1) n 0

def frcp (a : Nat) : Nat × Nat :=
  match FP32.val a with
  | .nan => (FP32.cnan, 0)
  | .inf s => (FP32.signBit s, 0)
  | .num s m e =>
    if m = 0 then (FP32.signBit s + FP32.infCode, fDZ)
    else
      let q := 2 ^ 80 / m
      FP32.enc .rne false (decide (2 ^ 80 % m ≠ 0)) (.num s q (-e - 80))

def fsqrt (a : Nat) : Nat × Nat :=
  match FP32.val a with
  | .nan => (FP32.cnan, 0)
  | .inf s => if s then (FP32.cnan, fNV) else (a, 0)
  | .num s m e =>
    if m = 0 then (a, 0)
    else if s then (FP32.cnan, fNV)
    else
      let odd := e % 2 ≠ 0
      let m' := (if odd then 2 * m else m) * 2 ^ 60
      let e' := (if odd then e - 1 else e) - 60
      let r := isqrt m'
      FP32.enc .rne false (decide (r * r ≠ m')) (.num false r (e' / 2))

def frsq (a : Nat) : Nat × Nat :=
  match FP32.val a with
  | .nan => (FP32.cnan, 0)
  | .inf s => if s then (FP32.cnan, fNV) else (0, 0)
  | .num s m e =>
    if m = 0 then (FP32.signBit s + FP32.infCode, fDZ)
    else if s then (FP32.cnan, fNV)
    else
      let odd := e % 2 ≠ 0
      let m' := if odd then 2 * m else m
      let e' := if odd then e - 1 else e
      -- 1/√(m'·2^e') = √(2^160/m') · 2^(−80 − e'/2)
      let n := 2 ^ 160 / m'
      let r := isqrt n
      FP32.enc .rne false (decide (r * r ≠ n) || decide (2 ^ 160 % m' ≠ 0)) (.num false r (-80 - e' / 2))

/-! ## Element formats (R130, R188) -/

/-- The FP4 extra value in force: none where disabled (R133). -/
abbrev Extra := Option Nat

/-- The value of an element code: R188's 4-bit format codes, INT8 scaled by 2^−6 for MXINT8 (R130). -/
def elemVal (fmt : Nat) (xv : Extra) (code : Nat) : Ev :=
  match fmt with
  | 0 => BF16.val code
  | 1 => FP16.val code
  | 2 => E4M3.val code
  | 3 => E5M2.val code
  | 4 => E4M3.val code
  | 5 => E5M2.val code
  | 6 => let x := sext 8 code; .num (decide (x < 0)) x.natAbs (-6)
  | 7 => E2M3.val code
  | 8 => E3M2.val code
  | 9 =>
    match xv with
    | some x => if code % 16 = 8 then E4M3.val x else E2M1.val code
    | none => E2M1.val code
  | 10 => Ev.ofInt (sext 8 code)
  | 11 => Ev.ofInt (sext 4 code)
  | 12 => FP32.val code
  | _ => Ev.ofInt (sext 32 code)

/-- Bits of an element (R188). -/
def elemBits (fmt : Nat) : Nat :=
  match fmt with
  | 0 | 1 => 16
  | 2 | 3 | 4 | 5 | 6 | 10 => 8
  | 7 | 8 => 6
  | 9 | 11 => 4
  | _ => 32

def isMx (fmt : Nat) : Bool := decide (4 ≤ fmt) && decide (fmt ≤ 9)

/-- emax of an MX element type (R130). -/
def mxEmax (fmt : Nat) : Int :=
  match fmt with
  | 4 => 8
  | 5 => 15
  | 6 => 0
  | 7 => 2
  | 8 => 4
  | _ => 2

/-- MXINT8: an integer multiple of 2^−6 (R130, R141). A clamp sets OF, SAT and NX as for the other element types. -/
def encMxInt (r : Rnd) (x : Ev) : Nat × Nat :=
  match x with
  | .nan => (0, 0)
  | .inf s => (intBits 8 (if s then -128 else 127), fSAT + fNX)
  | .num s m e =>
    let g := roundAt r s m e (-6) false
    let n : Int := if s then -(g.1 : Int) else g.1
    let c := I8.sat n
    (intBits 8 c.1, if c.2 ≠ 0 then fOF + fSAT + fNX else if g.2 then fNX else 0)

/-- E2M1 under the extra value (R134). A −0 takes the code of +0 where 0b1000 is the extra value, under round_sr too (log entry
71). An element that takes the extra value sets NX, and UF by R139, but neither OF nor SAT, although its magnitude be above 6 (log entry
97). -/
def encE2M1 (r : Rnd) (xv : Extra) (x : Ev) : Nat × Nat :=
  let c := E2M1.enc r true false x
  match xv with
  | none => c
  | some v =>
    let ev := E4M3.val v
    let dist := fun (y : Ev) => (Ev.add false x y.neg).abs
    if r = .rne ∧ !ev.isNan ∧ !x.isNan ∧ !x.isInf ∧ Ev.lt (dist ev) (dist (E2M1.val c.1)) then
      (8, if (dist ev).isZero then 0 else fNX + (if !x.isZero && Ev.lt x.abs Ev.one then fUF else 0))
    else (if c.1 = 8 then 0 else c.1, c.2)

/-- Adds an exact term to an FP32 sum: one rounding, and the flags of the addition (R139, R149). -/
def accum (a : Nat) (x : Ev) : Nat × Nat :=
  let y := Ev.add false (FP32.val a) x
  let r := FP32.round .rne y
  (r.1, r.2 ||| (if y.isNan && !(FP32.val a).isNan && !x.isNan then fNV else 0))

/-- Encodes a value already divided by its block scale to an MX element type (R141, R142). -/
def encMx (fmt : Nat) (r : Rnd) (xv : Extra) (x : Ev) : Nat × Nat :=
  match fmt with
  | 4 => E4M3.enc r true false x
  | 5 => E5M2.enc r true false x
  | 6 => encMxInt r x
  | 7 => E2M3.enc r true false x
  | 8 => E3M2.enc r true false x
  | _ => encE2M1 r xv x

/-- The value of an E8M0 code (R129). -/
def e8m0 (c : Nat) : Ev := if c % 256 = 255 then .nan else .num false 1 ((c % 256 : Nat) - 127)

/-- Divides an exact value by 2^x. -/
def Ev.shr (v : Ev) (x : Int) : Ev :=
  match v with
  | .nan => .nan
  | .inf s => .inf s
  | .num s m e => .num s m (e - x)

/-- floor(log2 amax) over the non-zero values, none where all are zero. -/
def maxLog : List Ev → Option Int
  | [] => none
  | v :: vs =>
    match v, maxLog vs with
    | .num _ m e, o =>
      if m = 0 then o else match o with
        | some k => some (max k (floorLog m e))
        | none => some (floorLog m e)
    | .nan, o => o
    | .inf _, o => o

/-- The scale exponent of a block of finite values (R142). -/
def mxScale (fmt : Nat) (vs : List Ev) : Int :=
  match maxLog vs with
  | none => -127
  | some k => min (max (k - mxEmax fmt) (-127)) 127

/-- Encodes a block (R142): the scale code, the element codes, the flags. The rounding of element i is `r i`. -/
def mxBlock (fmt : Nat) (r : Nat → Rnd) (xv : Extra) (vs : List Ev) : Nat × List Nat × Nat :=
  if vs.any (fun v => v.isNan || v.isInf) then
    (255, vs.map (fun _ => 0), if vs.any Ev.isNan then 0 else fNV)
  else
    let x := mxScale fmt vs
    let cs := (vs.zipIdx).map (fun p => encMx fmt (r p.2) xv (p.1.shr x))
    ((x + 127).toNat, cs.map (·.1), cs.foldl (fun f c => flagOr f c.2) 0)

/-- Encodes a value to an unblocked element format without `.sat` (R141, R284): E4M3 saturates. -/
def encElem (fmt : Nat) (r : Rnd) (x : Ev) : Nat × Nat :=
  match fmt with
  | 0 => BF16.enc r false false x
  | 1 => FP16.enc r false false x
  | 2 => E4M3.enc r true false x
  | 3 => E5M2.enc r false false x
  | 12 => FP32.enc r false false x
  | 10 => let y := I8.enc r x; (intBits 8 y.1, y.2)
  | 11 => let y := I4.enc r x; (intBits 4 y.1, y.2)
  | _ => let y := I32.enc r x; (intBits 32 y.1, y.2)

/-- The canonical NaN of an element format that has one. -/
def elemNan (fmt : Nat) : Nat :=
  match fmt with
  | 0 => BF16.cnan
  | 1 => FP16.cnan
  | 2 => E4M3.cnan
  | 3 => E5M2.cnan
  | 12 => FP32.cnan
  | _ => 0

/-! ## Sums in FP32 (R149) -/

/-- acc ← round_rne(acc + x, FP32) on codes, x exact. -/
def f32Acc (acc : Nat) (x : Ev) : Nat := (FP32.round .rne (Ev.add false (FP32.val acc) x)).1

def f32Add (a b : Nat) : Nat := (FP32.addOp .rne a b).1

end Sys2Proof.Machine
end

