-- ==== Sys2Proof/Machine/Flags.lean ====
section
/-! DEFINITION. FPFLAGS (R139, R140): how an instruction's flags are computed and set, and the results of the integer
operations with the SAT flag (R232 to R234). -/

namespace Sys2Proof.Machine

/-- A 32-bit result and the flags it sets. -/
abbrev Res := Word32 × Nat

/-- ORs flags into a group's FPFLAGS (R140). -/
def State.orFlags (s : State) (g : GRef) (f : Nat) : State :=
  if f = 0 then s else s.updGroup g (fun x => { x with fpflags := x.fpflags ||| BitVec.ofNat 64 f })

/-- The flags of every enabled lane (R140). -/
def Iss.flagsOf (I : Iss) (f : Thread → Res) : Nat := I.en.foldl (fun a l => a ||| (f (I.th l)).2) 0

/-- A fixed-latency result with flags. -/
def Iss.outVF (I : Iss) (d : VReg) (f : Thread → Res) : State :=
  (I.outV d (fun t => (f t).1)).orFlags I.ref (I.flagsOf f)

/-- FPCTL.FTZ of the group. -/
def Group.ftz (g : Group) : Bool := g.fpctl.getLsbD 0

/-- The value of a register under the type that N selects (R232). -/
def typed (n : Bool) (x : Word32) : Int := if n then (x.toNat : Int) else x.toInt

/-- An exact integer result: modulo 2^32, or clamped with FPFLAGS.SAT (R232). -/
def narrow (n sat : Bool) (x : Int) : Res :=
  if sat then
    let r := (if n then N32 else I32).sat x
    (BitVec.ofInt 32 r.1, r.2)
  else (BitVec.ofInt 32 x, 0)

def iaddR (n sat : Bool) (a b : Word32) : Res := narrow n sat (typed n a + typed n b)
def isubR (n sat : Bool) (a b : Word32) : Res := narrow n sat (typed n a - typed n b)
def imulR (n sat : Bool) (a b : Word32) : Res := narrow n sat (typed n a * typed n b)
def iadd3R (n sat : Bool) (a b c : Word32) : Res := narrow n sat (typed n a + typed n b + typed n c)
def imadR (n sat : Bool) (a b c : Word32) : Res := narrow n sat (typed n a * typed n b + typed n c)
def iabsR (sat : Bool) (a : Word32) : Res := narrow false sat (a.toInt.natAbs : Int)
def inegR (sat : Bool) (a : Word32) : Res := narrow false sat (-a.toInt)

def imulhR (n : Bool) (a b : Word32) : Word32 := BitVec.ofInt 32 ((typed n a * typed n b) / 2 ^ 32)
def imadwR (n : Bool) (a b : Word32) (c : Word64) : Word64 := BitVec.ofInt 64 (typed n a * typed n b) + c
def iminR (n : Bool) (a b : Word32) : Word32 := if typed n a ≤ typed n b then a else b
def imaxR (n : Bool) (a b : Word32) : Word32 := if typed n b ≤ typed n a then a else b

/-- R234. -/
def idivR (n : Bool) (a b : Word32) : Word32 :=
  if b = 0 then 0xFFFFFFFF else BitVec.ofInt 32 (Int.tdiv (typed n a) (typed n b))
def iremR (n : Bool) (a b : Word32) : Word32 :=
  if b = 0 then a else BitVec.ofInt 32 (Int.tmod (typed n a) (typed n b))

/-- Byte `k` of a register. -/
def byteN (x : Word32) (k : Nat) : Word32 := (x >>> (8 * k)) &&& 0xFF

/-- R233: the four-byte dot product. -/
def idp4R (ua sat ub : Bool) (a b c : Word32) : Res :=
  let ext := fun (u : Bool) (x : Word32) => if u then (x.toNat : Int) else sext 8 x.toNat
  let n := ua && ub
  let t := (List.range 4).foldl (fun t k => t + ext ua (byteN a k) * ext ub (byteN b k)) (typed n c)
  narrow n sat t

/-! ## Shifts and fields (R233) -/

def shlR (a b : Word32) : Word32 := if 32 ≤ b.toNat then 0 else a <<< b.toNat
def shrR (a b : Word32) : Word32 := if 32 ≤ b.toNat then 0 else a >>> b.toNat
def sarR (a b : Word32) : Word32 := a.sshiftRight (min b.toNat 31)
def rotlR (a b : Word32) : Word32 := a.rotateLeft (b.toNat % 32)

/-- Field bounds of BFE and BFI: position, and width after the cut at bit 32; none when the field is empty. -/
def fieldOf (b : Word32) : Option (Nat × Nat) :=
  let pos := b.toNat % 256
  let len := b.toNat / 256 % 256
  if len = 0 ∨ 32 ≤ pos then none else some (pos, min (pos + len) 32 - pos)

def bfeR (n : Bool) (a b : Word32) : Word32 :=
  match fieldOf b with
  | none => 0
  | some (pos, w) =>
    let x := (a.toNat / 2 ^ pos) % 2 ^ w
    if n then BitVec.ofNat 32 x else BitVec.ofInt 32 (sext w x)

def bfiR (a b c : Word32) : Word32 :=
  match fieldOf b with
  | none => c
  | some (pos, w) =>
    let m : Word32 := BitVec.ofNat 32 ((2 ^ w - 1) * 2 ^ pos)
    (c &&& ~~~m) ||| ((a <<< pos) &&& m)

def prmtR (a b c : Word32) : Word32 :=
  (List.range 4).foldl (fun d k =>
    let n := bitsN c.toNat (3 * k + 2) (3 * k)
    let x := if bitN c.toNat (12 + k) then 0 else if n < 4 then byteN a n else byteN b (n - 4)
    d ||| (x <<< (8 * k))) 0

def popcN (n : Nat) : Nat → Nat
  | 0 => 0
  | k + 1 => b2n (bitN n k) + popcN n k

def popcR (a : Word32) : Word32 := BitVec.ofNat 32 (popcN a.toNat 32)
def clzR (a : Word32) : Word32 := if a = 0 then 32 else BitVec.ofNat 32 (31 - Nat.log2 a.toNat)
/-- The trailing zeros of x are the leading zeros below the lowest set bit, x AND −x. -/
def ctzR (a : Word32) : Word32 := if a = 0 then 32 else BitVec.ofNat 32 (Nat.log2 (a &&& (-a)).toNat)
def brevR (a : Word32) : Word32 := a.reverse

def leaR (n : Bool) (a : Word32) (b : Word64) (sh : Nat) : Word64 :=
  b + ((if n then a.setWidth 64 else a.signExtend 64) <<< sh)

/-- The order of two integers under the type (R235). -/
def icmp (n : Bool) (a b : Word32) : Option Ordering := some (compare (typed n a) (typed n b))

/-- How a comparison enters a predicate destination (R235). -/
def accP (acc : BitVec 2) (old cmp : Bool) : Bool :=
  match acc.toNat with
  | 0 => cmp
  | 1 => old && cmp
  | 2 => old || cmp
  | _ => xor old cmp

/-- PLOP3's functions (R235). -/
def plop3R (neg fn : BitVec 3) (a b c : Bool) : Bool :=
  let a := xor a (neg.getLsbD 0)
  let b := xor b (neg.getLsbD 1)
  let c := xor c (neg.getLsbD 2)
  match fn.toNat with
  | 0 => a && b && c
  | 1 => a || b || c
  | 2 => xor (xor a b) c
  | 3 => (a && b) || (a && c) || (b && c)
  | 4 => if a then b else c
  | 5 => (a && b) || c
  | _ => (a || b) && c

end Sys2Proof.Machine
end

