-- ==== Sys2Proof/Machine/Access.lean ====
section
/-! DEFINITION. What lane accesses to memory share: addresses (R207, R258), the checks of R260 and R411 in their order
(R393), fabric global accesses (R80, R432), the scratchpad (R31, R85), and the memory formats (R259). -/

namespace Sys2Proof.Machine

/-- The address that a lane's operand names (R207, R260). -/
def laneAddr (g : Group) (t : Thread) : GAddr → Nat
  | .off p imm => (t.rw p + imm.signExtend 64).toNat
  | .idx b v k imm => (g.rs b.toNat + ((t.r v).setWidth 64 <<< k.toNat) + imm.signExtend 64).toNat
  | .plain p => (t.rw p).toNat
  | .split p _ => (t.rw p).toNat

/-- Bit 55 selects the fabric form (R79). -/
def isFabric (va : Nat) : Bool := bitN va 55
/-- Is a canonical address a fabric global one? -/
def farVa (va : Nat) : Bool := isFabric va && decide (va < 2 ^ 56)
def fabChip (va : Nat) : Nat := bitsN va 54 45
def fabOff (va : Nat) : Nat := bitsN va 44 0

/-- A failed check of one lane. -/
structure LaneErr where
  lane : Nat
  va   : Nat
  err  : MErr
  deriving DecidableEq, Repr

/-- The order in which the checks of one access are made: walk levels from the root, at each level its read, V, the
entry's form, the rights; then the metadata, the sector and the stream (R393, R411). -/
def errRank (e : MErr) : Nat :=
  if e.site = 14 then (if e.code = cADDRCANON then 0 else 1)
  else if e.site = 9 then
    10 + 4 * e.level + (if e.code = cPGNP then 1 else if e.code ≠ cPGPROT then 0 else if e.mal then 2 else 3)
  else if e.code = cCMETA then 40 else if e.code = cECCU then 41 else 42

/-- The least rank among failures. -/
def leastRank : List LaneErr → Nat
  | [] => 0
  | [e] => errRank e.err
  | e :: es => min (errRank e.err) (leastRank es)

/-- The first failing check: the lanes that fail it and the address of the lowest of them (R386, R393, R410). -/
def firstFailure (es : List LaneErr) (a : Acc) : Option (FInfo × MErr) :=
  let k := leastRank es
  let hit := es.filter (fun e => decide (errRank e.err = k))
  match hit with
  | [] => none
  | e :: _ =>
    some ({ memFault e.err a false (hit.map (·.lane)) e.va with
      addrs := hit.map (fun x => (x.lane, x.va)), marks := es.filterMap (·.err.line) }, e.err)

/-- Checks a list of lane addresses for ADDRCANON, then ALIGN, then translation and rights. Fabric addresses are not
translated here (R80). -/
def checkLanes (s : State) (w : Who) (n : Nat) (a : Acc) (pkg : Bool) (as : List (Nat × Nat)) :
    Except (FInfo × MErr) (List (Nat × Nat × Leaf) × State) :=
  let canon := as.filter (fun p => decide (2 ^ 56 ≤ p.2))
  let mis := as.filter (fun p => decide (p.2 % n ≠ 0))
  let early := fun (l : List (Nat × Nat)) (c : Nat) => l.map (fun p => (⟨p.1, p.2, { code := c, site := 14 }⟩ : LaneErr))
  match firstFailure (if canon.isEmpty then early mis cALIGN else early canon cADDRCANON) a with
  | some f => .error f
  | none =>
    let r := (as.filter (fun p => !isFabric p.2)).foldl (fun (acc : List (Nat × Nat × Leaf) × List LaneErr × State) p =>
      match xlate acc.2.2 w p.2 a pkg with
      | .error e => (acc.1, acc.2.1 ++ [⟨p.1, p.2, e⟩], acc.2.2)
      | .ok (lf, t) => (acc.1 ++ [(p.1, p.2, lf)], acc.2.1, t)) ([], [], s)
    match firstFailure r.2.1 a with
    | some f => .error f
    | none => .ok (r.1, r.2.2)

/-! ## Fabric global accesses -/

def cFABNACK : Nat := 0x18
def cFABTIMEOUT : Nat := 0x19

/-- Code and INFO of a refused request (R410, R432). A load or atomic is never answered `full`: that answer records
its timeout. -/
def nackCode : FabAns → Nat × Nat
  | .ok _ => (0, 0)
  | .nack r => (cFABNACK, r.toNat)
  | .full => (0x1A, 256)

/-! The way out (R367, R368, R433): classes are 0 request, 1 response, 2 notice, 3 pull. -/

/-- The ports of a die's set for a chip that are up. -/
def fabPorts (s : State) (die chip : Nat) : List Nat :=
  let set := Map.get 0 (s.die die).route chip
  (List.range 48).filter (fun p => set.getLsbD p && (Map.get {} s.fports p).up)

/-- The port of a flow: all packets of one source, destination and class take one path. -/
def fabPick (s : State) (die chip cls : Nat) : Option Nat :=
  match fabPorts s die chip with
  | [] => none
  | [p] => some p
  | ps => ps[Config.fabHash s.pkg.fabid.toNat chip cls % ps.length]?

/-- May a packet leave: its port's class is not paused, and for a request or a pull the own buffer of the reply is not past its high
watermark (log entry 69)? -/
def portOpen (q : FabPort) (cls : Nat) : Bool :=
  !q.paused.getLsbD cls && !(decide (cls = 0) && q.full.getLsbD 1) && !(decide (cls = 3) && q.full.getLsbD 3)

/-- The port by which a packet of a class can leave now. -/
def fabGo (s : State) (die chip cls : Nat) : Option Nat :=
  (fabPick s die chip cls).filter (fun p => portOpen (Map.get {} s.fports p) cls)

/-- A request leaves behind those of its flow that are ahead of it. -/
def reqLeave (s : State) (ahead : List FabReq) (r : FabReq) : FabReq :=
  if r.port.isSome ∨ ahead.any (fun x => x.port.isNone && decide (x.die = r.die) && decide (x.chip = r.chip)) then r
  else { r with port := fabGo s r.die r.chip 0 }

/-- An answer leaves behind those of its flow that are ahead of it. -/
def outLeave (s : State) (ahead : List FabOut) (r : FabOut) : FabOut :=
  if r.port.isSome ∨ ahead.any (fun x => x.port.isNone && decide (x.die = r.die) && decide (x.chip = r.chip)) then r
  else { r with port := fabGo s r.die r.chip 1 }

/-- Every packet that can leave does so, in order (R367). -/
def fabFlush (s : State) : State :=
  { s with
    fabQ := s.fabQ.foldl (fun l r => l ++ [reqLeave s l r]) [],
    fabOut := s.fabOut.foldl (fun l r => l ++ [outLeave s l r]) [] }

/-- The outstanding request of a lane at this instruction. -/
def fabFind (s : State) (g : GRef) (pc lane : Nat) : Option FabReq :=
  s.fabQ.find? (fun r => decide (r.own = g) && decide (r.kind = .sync) && decide (r.pc = BitVec.ofNat 64 pc) && decide (r.lane = lane))

/-- Sends a request of lanes to the fabric, in the name of one of them. -/
def fabSendFor (s : State) (g : GRef) (lane : Nat) (ls : List Nat) (k : FabKind) (va : Nat) (op : FabOp) (tok : Option Nat) (pc : Nat) :
    State :=
  let r : FabReq :=
    { id := s.fresh, own := g, tids := tidsOf (s.group g) ls, ctx := (s.team g.team).ctx, die := (s.team g.team).die, lane := lane, kind := k, chip := fabChip va,
      addr := BitVec.ofNat 64 va, op := op, tok := tok, pc := BitVec.ofNat 64 pc, sentAt := s.time }
  fabFlush { s with fabQ := s.fabQ ++ [r], fresh := s.fresh + 1 }

/-- Sends a request of one lane. -/
def fabSend (s : State) (g : GRef) (lane : Nat) (k : FabKind) (va : Nat) (op : FabOp) (tok : Option Nat) (pc : Nat) : State :=
  fabSendFor s g lane [lane] k va op tok pc

def fabDrop (s : State) (ids : List Nat) : State := { s with fabQ := s.fabQ.filter (fun r => r.id ∉ ids) }

/-- The exact fault of lanes whose request was refused or timed out (R410, R432). -/
def fabFault (a : FabAns) (lanes : List Nat) (va : Nat) : FInfo :=
  let c := nackCode a
  let c := if c.1 = 0x1A then (cFABTIMEOUT, 0) else c
  { code := c.1, info := c.2, lanes := lanes, addr := va,
    replay := decide (c.1 = cFABTIMEOUT) || decide (c.1 = cFABNACK ∧ c.2 = cPGNP) }

/-- The fabric lanes of a load or an atomic; `share` gives the lanes that a request stands for. The instruction sends its requests and
waits for every answer; refused or timed-out lanes fault exactly (R432); answers that came stay for the replay. Gives the data of
each request. -/
def fabStage (I : Iss) (s : State) (fl : List (Nat × Nat)) (share : Nat → List Nat) (mk : Nat → Nat → FabOp) :
    Eff ⊕ (List (Nat × Nat) × State) :=
  let find := fun (p : Nat × Nat) => fabFind I.s0 I.ref I.pc p.1
  let absent := fl.filter (fun p => (find p).isNone)
  if fl.isEmpty then .inr ([], s)
  else if !absent.isEmpty then
    .inl (.wait 0 (absent.foldl (fun t p => fabSend t I.ref p.1 .sync p.2 (mk p.1 p.2) none I.pc) I.s0))
  else
    let rs := fl.filterMap find
    if rs.any (fun r => r.ans.isNone) then .inl (.wait 0 I.s0)
    else
      let bad := rs.filter (fun r => match r.ans with | some (.ok _) => false | _ => true)
      match bad with
      | [] =>
        .inr (rs.map (fun r => (r.lane, match r.ans with | some (.ok d) => leNat d | _ => 0)), fabDrop s (rs.map (·.id)))
      | b :: _ =>
        let same := bad.filter (fun r => decide (r.ans = b.ans))
        .inl (.fault (fabFault (b.ans.getD .full) (same.flatMap (fun r => share r.lane)) b.addr.toNat) (fabDrop I.s0 (same.map (·.id))))

/-- What a group instruction's own read of global memory comes to. -/
inductive Got where
  | ok (bs : List Byte) (s : State)
  | bad (code : Nat) (s : State)
  | wait (s : State)
  deriving DecidableEq, Repr

/-- The request of an instruction for a piece of memory of another chip. -/
def farFind (s : State) (g : GRef) (pc : Nat) (p : Nat × Nat) : Option FabReq :=
  s.fabQ.find? (fun r => decide (r.own = g) && decide (r.kind = .sync) && decide (r.pc = BitVec.ofNat 64 pc) &&
    decide (r.addr.toNat = p.1) && decide (r.op = .read (fabOff p.1) p.2))

/-- Reads bytes of another chip in pieces of up to 256 bytes (R366), or waits for them. -/
def farRead (I : Iss) (s : State) (va n : Nat) : Got :=
  let ps := pieceList 256 va n
  let absent := ps.filter (fun p => (farFind I.s0 I.ref I.pc p).isNone)
  if !absent.isEmpty then
    .wait (absent.foldl (fun t p => fabSend t I.ref I.low .sync p.1 (.read (fabOff p.1) p.2) none I.pc) I.s0)
  else
    let as := ps.map (fun p => (farFind I.s0 I.ref I.pc p).bind (·.ans))
    if as.any (·.isNone) then .wait I.s0
    else
      match as.find? (fun a => match a with | some (.ok _) => false | _ => true) with
      | some (some (.nack _)) => .bad cFABNACK s
      | some _ => .bad cFABTIMEOUT s
      | none => .ok (as.flatMap (fun a => match a with | some (.ok d) => d | _ => [])) s

/-- Reads global memory, local or of another chip, as an engine does. -/
def issueRead (I : Iss) (s : State) (va n : Nat) : Got :=
  if farVa va then farRead I s va n
  else
    match vaRead s I.who va n with
    | .error (e, _) => .bad e.code (s.markErr e)
    | .ok (bs, t) => .ok bs t

/-- The requests of an instruction go with it. -/
def farDrop (s : State) (I : Iss) : State :=
  { s with fabQ := s.fabQ.filter (fun r => !(decide (r.own = I.ref) && decide (r.kind = .sync) && decide (r.pc = BitVec.ofNat 64 I.pc))) }

/-! ## The scratchpad (R31, R85, R86) -/

def MiB3 : Nat := 3 * 2 ^ 20

/-- Is an access of `n` bytes at a window offset inside the allocation? A pair team that declares all 3 MiB has both halves as one range. -/
def scrIn (d : Decl) (x n : Nat) : Bool :=
  decide (x + n ≤ d.scratch) || (d.pair && decide (MiB3 ≤ x) && decide (x + n ≤ MiB3 + d.scratch)) ||
    (d.pair && decide (MiB3 ≤ d.scratch) && decide (x + n ≤ 2 * MiB3))

/-- The team's key of a window offset as a core of the team names it. -/
def scrKey (upper : Bool) (x : Nat) : Nat := if upper then (if x < MiB3 then MiB3 + x else x - MiB3) else x

/-- Does a range go from the own half into the partner's, as the upper core names them? -/
def scrCross (upper : Bool) (x n : Nat) : Bool := upper && decide (x < MiB3) && decide (MiB3 < x + n)

def scrRead (t : Team) (upper : Bool) (x n : Nat) : List Byte :=
  if scrCross upper x n then Map.getN 0 t.scratch (MiB3 + x) (MiB3 - x) ++ Map.getN 0 t.scratch 0 (x + n - MiB3)
  else Map.getN 0 t.scratch (scrKey upper x) n

/-- Is a word among `n` bytes from a key? -/
def wordIn (k n w : Nat) : Bool := decide (k / 4 ≤ w) && decide (w ≤ (k + n - 1) / 4)

/-- Are the bytes lost to an uncorrectable error (R417)? -/
def scrBad (t : Team) (upper : Bool) (x n : Nat) : Bool :=
  t.badScr.any (fun w =>
    if scrCross upper x n then wordIn (MiB3 + x) (MiB3 - x) w || wordIn 0 (x + n - MiB3) w else wordIn (scrKey upper x) n w)

/-- Writes bytes from a key; a 4-byte word written whole is sound again. -/
def Team.scrPut (t : Team) (k : Nat) (bs : List Byte) : Team :=
  { t with
    scratch := Map.setN 0 t.scratch k bs,
    badScr := t.badScr.filter (fun w => !(decide (k ≤ 4 * w) && decide (4 * w + 4 ≤ k + bs.length))) }

/-- Writes bytes of the scratchpad. -/
def Team.scrWrite (t : Team) (upper : Bool) (x : Nat) (bs : List Byte) : Team :=
  if scrCross upper x bs.length then (t.scrPut (MiB3 + x) (bs.take (MiB3 - x))).scrPut 0 (bs.drop (MiB3 - x))
  else t.scrPut (scrKey upper x) bs

/-- The check of lane offsets: ALIGN, then the allocation, then soft errors (R261, R410, R417). For an offset that is both misaligned and
outside, the spec gives no order; ALIGN comes first (DESIGN CHOICE, log entry 85). -/
def checkScr (t : Team) (upper : Bool) (n : Nat) (a : Acc) (as : List (Nat × Nat)) : Option FInfo :=
  let mk := fun (l : List (Nat × Nat)) (e : MErr) => { memFault e a false (l.map (·.1)) (match l with | p :: _ => p.2 | [] => 0) with addrs := l }
  let mis := as.filter (fun p => decide (p.2 % n ≠ 0))
  let out := as.filter (fun p => !scrIn t.decl p.2 n)
  let bad := if a = .write then [] else as.filter (fun p => scrBad t upper p.2 n)
  if !mis.isEmpty then some (mk mis { code := cALIGN, site := 14 })
  else if !out.isEmpty then some (mk out { code := cPGPROT, site := 1 })
  else if !bad.isEmpty then some (mk bad { code := cECCU, site := 1 })
  else none

/-! ## Memory formats (R258, R259) -/

def mfmtSize (mfmt : Nat) (w : Bool) : Nat :=
  match mfmt with
  | 0 => if w then 8 else 4
  | 1 | 2 | 7 => 2
  | _ => 1

/-- The register value of loaded bits. -/
def ldConv (mfmt x : Nat) : Word64 :=
  match mfmt with
  | 0 => BitVec.ofNat 64 x
  | 1 => BitVec.ofNat 64 (FP32.round .rne (FP16.val x)).1
  | 2 => BitVec.ofNat 64 (FP32.round .rne (BF16.val x)).1
  | 3 => BitVec.ofNat 64 (FP32.round .rne (E4M3.val x)).1
  | 4 => BitVec.ofNat 64 (FP32.round .rne (E5M2.val x)).1
  | 5 => BitVec.ofNat 64 (intBits 32 (sext 8 x))
  | 6 => BitVec.ofNat 64 (x % 256)
  | _ => BitVec.ofNat 64 (intBits 32 (sext 16 x))

/-- The stored bits of a register value, and the flags. -/
def stConv (mfmt : Nat) (x : Word64) : Nat × Nat :=
  let f := FP32.val (x.toNat % 2 ^ 32)
  let i := (x.setWidth 32).toInt
  match mfmt with
  | 0 => (x.toNat, 0)
  | 1 => FP16.enc .rne false false f
  | 2 => BF16.enc .rne false false f
  | 3 => E4M3.enc .rne true false f
  | 4 => E5M2.enc .rne false false f
  | 5 => let y := I8.sat i; (intBits 8 y.1, y.2)
  | 6 => let y := N8.sat i; (intBits 8 y.1, y.2)
  | _ => let y := I16.sat i; (intBits 16 y.1, y.2)

/-- The register or pair that a store sends. -/
def stData (t : Thread) (d : VReg) (w : Bool) : Word64 := if w then t.rw d else (t.r d).setWidth 64

/-- Writes a loaded value. -/
def Thread.putLoaded (t : Thread) (d : Nat) (w : Bool) (x : Word64) : Thread :=
  if w then t.setVp d x else t.setV d (x.setWidth 32)

end Sys2Proof.Machine
end

