-- ==== Sys2Proof/Machine/Order.lean ====
section
/-! DEFINITION. Releases and acquires as the instructions make them (R111 to R115, R122), and the deferred failures that
a release reports (R419). -/

namespace Sys2Proof.Machine

/-- A deferred failure waits in its team, or, once that has ended, in its grid's STATUS (R419). -/
def deferTo (s : State) (g : GRef) (d : Defer) : State :=
  let t := s.team g.team
  if t.st ≠ .ended then s.updTeam g.team (fun x => { x with defer := x.defer ++ [d] })
  else if (Map.find (s.ctx t.ctx).grids t.lid.toNat).isSome then
    s.updGrid t.ctx t.lid.toNat (fun x => if x.status = 0 then { x with status := d.code } else x)
  else s

/-- What a release of a group must still wait for: stores of its threads that wait (R110), their reduce stores, and at `.sys` their fabric
stores and their remote and host sends (R43, R115, R117). -/
def relPending (s : State) (g : GRef) (scope : Nat) : Bool :=
  storeHeld s g (fun _ => true) ||
  s.sauQ.any (fun q => q.ans.isNone && ofGroup s g q.own (q.tids ++ q.heirs)) ||
  s.fabQ.any (fun r => ofGroup s g r.own r.tids &&
    (decide (r.kind = .redst) || (decide (4 ≤ scope) && (decide (r.kind = .store) || decide (r.kind = .send))))) ||
  (decide (4 ≤ scope) && s.sends.any (fun m => m.own.any (fun o => ofGroup s g o m.tids) &&
    (bitN m.name.toNat 14 || bitN m.name.toNat 15)))

/-- Does an atomic of the group's threads still have to read and write its second half at its site (R265)? -/
def atomPending (s : State) (g : GRef) : Bool := halfLeft s g (fun _ => true)

/-- Does one of them, or a store of the group's threads that waits, lie among the bytes that lanes access? The access waits for it (R43,
R107, R110). -/
def sauHolds (s : State) (g : GRef) (n : Nat) (ls : List (Nat × Nat × Leaf)) : Bool :=
  halfLeft s g (fun q => ls.any (fun p => overlap q.pa 2 p.2.2.pa n)) ||
  storeHeld s g (fun h => ls.any (fun p => overlap h.leaf.pa h.n p.2.2.pa n))

/-- Outstanding reads of the bytes that lanes access are performed before the access (R107, R110). -/
def readFirst (s : State) (g : GRef) (n : Nat) (ls : List (Nat × Nat × Leaf)) : State :=
  if (s.group g).loads.isEmpty then s else s.updGroup g (fun x => x.fixReads n (ls.map (fun p => p.2.2.pa)))

/-- Lanes parked for a reason become eligible. -/
def Group.wake (g : Group) (p : Park → Bool) : Group :=
  { g with lanes := g.lanes.map (fun e => match e.2.st with
      | .parked w => if p w then (e.1, { e.2 with st := .live }) else e
      | _ => e) }

def Group.anyParked (g : Group) (p : Park → Bool) : Bool :=
  g.lanes.any (fun e => match e.2.st with
    | .parked w => p w
    | _ => false)

def parkLanes (s : State) (g : GRef) (ls : List Nat) (w : Park) : State :=
  s.updGroup g (fun x => x.mapLanes ls (fun _ t => { t with st := .parked w }))

/-- Does a pending failure of a core or die fall to a release of this group (R419)? -/
def lateMine (w : Who) (f : LateFail) : Bool := decide (f.ctx = w.ctx) && decide (f.unit = if f.l2 then w.die else w.core)

/-- The release part at a scope (R115): dirty lines drain; the failures met, and at `.die` and wider those pending on
the core and the die, fall to the group. -/
def relState (s : State) (g : GRef) (scope : Nat) : State :=
  let w := s.who g
  let sc := effScope (s.team g.team).decl.pair scope
  let r := fenceRel s w sc
  let mine := if 2 ≤ sc then r.1.late.filter (lateMine w) else []
  let ds := (r.2.map (·.2) ++ mine.map (·.d)).map (fun d => ({ d with gid := g.gid } : Defer))
  let t := if 2 ≤ sc then { r.1 with late := r.1.late.filter (fun f => !lateMine w f) } else r.1
  readsFirst (if ds.isEmpty then t else t.updTeam g.team (fun x => { x with defer := x.defer ++ ds })) g

/-- Does a deferred failure fall to a release by these threads of a group: one of them issued what failed, or a drain of the group's met
it (R419)? A fabric store's failure is charged at `.sys` only. -/
def Defer.fallsTo (d : Defer) (gid scope : Nat) (tids : List (BitVec 32)) : Bool :=
  (!d.sys || decide (4 ≤ scope)) && (if d.tids.isEmpty then decide (d.gid = gid) else tids.any (fun t => decide (t ∈ d.tids)))

/-- After a release completes, its group parks on the first failure charged to it; the others wait for later releases (R419). -/
def parkDefers (I : Iss) (scope : Nat) (t : State) : State :=
  let ds := (t.team I.ref.team).defer
  match ds.find? (fun d => d.fallsTo I.ref.gid scope (tidsOf (t.group I.ref) I.en)) with
  | none => t
  | some d => takeDeferred (t.updTeam I.ref.team (fun x => { x with defer := ds.erase d })) I.ref I.pc I.en d

/-- The issue with the release at a scope made before its effects: both its states have drained. -/
def Iss.released (I : Iss) (scope : Nat) : Iss :=
  { I with s0 := relState I.s0 I.ref scope, s := relState I.s I.ref scope }

end Sys2Proof.Machine
end

