-- ==== Sys2Proof/Machine/LoadStore.lean ====
section
/-! DEFINITION. Loads, stores, cache control and prefetch (R258 to R262, R270), and the arrival of load data (R36,
R37, R197, R260). -/

namespace Sys2Proof.Machine

/-- Is the form `.split`? -/
def isSplit : GAddr → Bool
  | .split _ _ => true
  | .off _ _ => false
  | .idx _ _ _ _ => false
  | .plain _ => false

/-- JOIN PC of a `.split` form (R258). -/
def joinPc (pc : Nat) : GAddr → Word64
  | .split _ off => BitVec.ofNat 64 (pc + 8 * off.toNat)
  | .off _ _ => 0
  | .idx _ _ _ _ => 0
  | .plain _ => 0

/-- Opens the split record for the enabled lanes, which wait for their data (R36, R37). -/
def openSplit (I : Iss) (s : State) (j : Word64) : State :=
  s.updGroup I.ref (fun g =>
    { g.mapLanes I.en (fun _ t => { t with st := .splitWait }) with split := some ⟨maskOf I.en, j⟩ })

/-- Does this access open the split record? -/
def opensSplit (I : Iss) (a : GAddr) : Bool := isSplit a && I.gp.split.isNone

/-- A load in flight: its values are read, its registers awaited unless its lanes are in split-wait; `again`: reads that may still be
performed later (R110); `far`: lanes whose data another chip sends. -/
def startLoad (I : Iss) (s : State) (d : Nat) (w split store : Bool) (vals : List (Nat × Word64)) (mfmt : Nat)
    (again : List (Nat × Leaf)) (far : List Nat) : State :=
  let id := s.fresh
  let regs := if w then [d, d + 1] else [d]
  let out : OutLoad :=
    { id := id, dst := d, wide := w, store := store, split := split, vals := vals, mfmt := mfmt, n := mfmtSize mfmt w, again := again,
      far := far, pc := I.pc }
  let t := s.updGroup I.ref (fun g =>
    { g with
      loads := g.loads ++ [out],
      busy := if split then g.busy else g.busy ++ regs.map (fun r => ⟨id, maskOf I.en, .v, r⟩) })
  { t with fresh := s.fresh + 1 }

/-- Reads of checked lanes in turn; the failures are collected. -/
def readLanes (s : State) (w : Who) (n : Nat) (ls : List (Nat × Nat × Leaf)) : List (Nat × Nat) × List LaneErr × State :=
  ls.foldl (fun acc p =>
    match coreRead acc.2.2 w p.2.2 n with
    | .error e => (acc.1, acc.2.1 ++ [⟨p.1, p.2.1, e⟩], acc.2.2)
    | .ok (bs, t) => (acc.1 ++ [(p.1, leNat bs)], acc.2.1, t)) ([], [], s)

/-- LD once the data of its lanes, those of `fv` from other chips, are at hand; the lanes of `far` wait for theirs in split-wait, and
their requests go out (R37, R80). -/
def ldReads (I : Iss) (o : OpMem) (ls : List (Nat × Nat × Leaf)) (fv far : List (Nat × Nat)) (u : State) : Eff :=
  let n := mfmtSize o.mfmt.toNat o.w
  if sauHolds u I.ref n ls then .wait 0 I.s0
  else
    let r := readLanes u I.who n ls
    match firstFailure r.2.1 .read with
    | some f => .fault f.1 I.s0
    | none =>
      let raw := r.1 ++ fv
      let vals := (I.en.filterMap (fun l => (Map.find raw l).map (fun x => (l, ldConv o.mfmt.toNat x))))
      let sp := opensSplit I o.a
      let v := startLoad I (readFirst r.2.2 I.ref n ls) o.d.toNat o.w sp false vals o.mfmt.toNat (ls.map (fun p => (p.1, p.2.2)))
        (far.map (·.1))
      .ok (if sp then openSplit I (far.foldl (fun t p => fabSend t I.ref p.1 .sync p.2 (.read (fabOff p.2) n) none I.pc) v) (joinPc I.pc o.a)
        else v)

def execLd (o : OpMem) (s : State) : Host.Outcome State Fault Refusal :=
  issue (.ld o) s (fun I =>
    let n := mfmtSize o.mfmt.toNat o.w
    let as := I.en.map (fun l => (l, laneAddr I.gp (I.th l) o.a))
    match checkLanes I.s I.who n .read false as with
    | .error f => .fault f.1 I.s0
    | .ok (ls, t) =>
      let far := as.filter (fun p => isFabric p.2)
      if opensSplit I o.a then ldReads I o ls [] far t
      else
        match fabStage I t far (fun l => [l]) (fun _ va => .read (fabOff va) n) with
        | .inl e => e
        | .inr (fv, u) => ldReads I o ls fv [] u)

/-- Stores of checked lanes, in ascending lane order (R107). -/
def writeLanes (s : State) (w : Who) (n : Nat) (ls : List (Nat × Nat × Leaf)) (x : Nat → Nat) : State :=
  ls.foldl (fun t p =>
    let r := coreWrite t w p.2.2 (leBytes (x p.1) n)
    r.1.lateAt (decide (pteCp p.2.2.pte = 1)) (if pteCp p.2.2.pte = 1 then w.die else w.core) r.2) s

/-- The places of checked lanes, each with its lanes in ascending order. -/
def byPlace (ls : List (Nat × Nat × Leaf)) : List (Leaf × List Nat) :=
  ls.foldl (fun acc p =>
    if acc.any (fun e => decide (e.1.pa = p.2.2.pa)) then acc.map (fun e => if e.1.pa = p.2.2.pa then (e.1, e.2 ++ [p.1]) else e)
    else acc ++ [(p.2.2, [p.1])]) []

/-- Stores of checked lanes wait to be performed, each place by itself (R107, R110). -/
def holdStores (s : State) (g : GRef) (n : Nat) (ls : List (Nat × Nat × Leaf)) (x : Nat → Nat) : State :=
  (byPlace ls).foldl (fun t e =>
    let h : HeldSt :=
      { id := t.fresh, leaf := e.1, n := n, ys := e.2.map (fun l => (l, BitVec.ofNat 64 (x l))), tids := tidsOf (t.group g) e.2 }
    { t.updGroup g (fun y => { y with stq := y.stq ++ [h] }) with fresh := t.fresh + 1 }) s

/-- A store that waited is performed. -/
def storeEnter (s : State) (g : GRef) (id : Nat) : State :=
  match (s.group g).stq.find? (fun h => decide (h.id = id)) with
  | none => s
  | some h =>
    writeLanes (s.updGroup g (fun y => { y with stq := y.stq.filter (fun k => decide (k.id ≠ id)) })) (s.who g) h.n
      (h.ys.map (fun p => (p.1, 0, h.leaf))) (fun l => (Map.get 0 h.ys l).toNat)

/-- An outstanding read of a lane is performed anew; one that meets an error leaves what was read (R110). -/
def readAgain (s : State) (g : GRef) (id lane : Nat) : State :=
  match (s.group g).loads.find? (fun ld => decide (ld.id = id)) with
  | none => s
  | some ld =>
    match Map.find ld.again lane with
    | none => s
    | some lf =>
      if !(s.team g.team).st.runs then s
      else
        match coreRead s (s.who g) lf ld.n with
        | .error _ => s
        | .ok (bs, t) =>
          t.updGroup g (fun x => { x with loads := x.loads.map (fun k =>
            if k.id = id then { k with vals := k.vals.map (fun p => if p.1 = lane then (lane, ldConv ld.mfmt (leNat bs)) else p) } else k) })

/-- ST: performed at issue, or, where the outside has the core's stores wait, later (R110). -/
def execSt (o : OpMem) (s : State) : Host.Outcome State Fault Refusal :=
  issue (.st o) s (fun I =>
    let n := mfmtSize o.mfmt.toNat o.w
    let as := I.en.map (fun l => (l, laneAddr I.gp (I.th l) o.a))
    match checkLanes I.s I.who n .write false as with
    | .error f => .fault f.1 I.s0
    | .ok (ls, t) =>
      if sauHolds t I.ref n ls then .wait 0 I.s0
      else
      let x := fun l => stConv o.mfmt.toNat (stData (I.th l) o.d o.w)
      let y := fun (l : Nat) => (x l).1
      let u := readFirst (if (I.s.core I.who.core).slow then holdStores t I.ref n ls y else writeLanes t I.who n ls y) I.ref n ls
      let v := (as.filter (fun p => isFabric p.2)).foldl (fun v p =>
        fabSend v I.ref p.1 .store p.2 (.write (fabOff p.2) (leBytes (x p.1).1 n)) none I.pc) u
      let f := v.orFlags I.ref (I.en.foldl (fun a l => a ||| (x l).2) 0)
      .ok (if opensSplit I o.a then
        openSplit I (startLoad I f o.d.toNat o.w true true (I.en.map (fun l => (l, 0))) 0 [] []) (joinPc I.pc o.a)
      else f))

/-- Scratchpad offset of a lane: a + imm, imm zero-extended (R261); the sum is one of 32 bits (log entry 77). -/
def scrAddr (t : Thread) (a : VReg) (imm : Imm16) : Nat := ((t.r a) + imm.setWidth 32).toNat

def execLds (o : OpLds) (s : State) : Host.Outcome State Fault Refusal :=
  issue (.lds o) s (fun I =>
    let n := mfmtSize o.mfmt.toNat o.w
    let up := isUpper I.tm I.ref.gid
    match checkScr I.tm up n .read (I.en.map (fun l => (l, scrAddr (I.th l) o.a o.imm))) with
    | some f => .fault f I.s0
    | none =>
      let tm := I.tm
      .ok (I.lanewise (fun _ t =>
        t.putLoaded o.d.toNat o.w (ldConv o.mfmt.toNat (leNat (scrRead tm up (scrAddr t o.a o.imm) n))))))

def execSts (o : OpLds) (s : State) : Host.Outcome State Fault Refusal :=
  issue (.sts o) s (fun I =>
    let n := mfmtSize o.mfmt.toNat o.w
    let up := isUpper I.tm I.ref.gid
    match checkScr I.tm up n .write (I.en.map (fun l => (l, scrAddr (I.th l) o.a o.imm))) with
    | some f => .fault f I.s0
    | none =>
      let x := fun l => stConv o.mfmt.toNat (stData (I.th l) o.d o.w)
      let t := I.s.updTeam I.ref.team (fun tm => I.en.foldl (fun u l =>
        u.scrWrite up (scrAddr (I.th l) o.a o.imm) (leBytes (x l).1 n)) tm)
      .ok (t.orFlags I.ref (I.en.foldl (fun a l => a ||| (x l).2) 0)))

/-- The address of a bank's byte: constant images are found through CADDR and CSIZE alone (R87, R211); none at or beyond the
size. -/
def ldcVa (t : Team) (bank off : Nat) : Option Nat :=
  if t.decl.csize.getD bank 0 ≤ off then none else some (((t.decl.caddr.getD bank 0).toNat + off) % 2 ^ 64)

/-- Bytes of a constant bank at an offset, as of the kernel boundary; zero at or beyond its size (R87). A bank at a fabric global
address gives what its line held at first use. -/
def ldcRead (s : State) (g : GRef) (bank off n : Nat) : Except (MErr × Nat) (Nat × State) :=
  let t := s.team g.team
  let size := t.decl.csize.getD bank 0
  match ldcVa t bank off with
  | none => .ok (0, s)
  | some va =>
    if farVa va then .ok (leNat ((((Map.get [] (s.gridOf t).constFab (va / 64)).drop (va % 64)).take n).take (size - off)), s)
    else
      match xlate s (s.who g) va .read false with
      | .error e => .error (e, va)
      | .ok (lf, u) =>
        match homeRead (atBoundary u (s.gridOf t)) lf.pa n with
        | .error e => .error ({ e with site := if e.code = cECCU then e.site else 10 }, va)
        | .ok bs => .ok (leNat (bs.take (size - off)), u)

/-- Lines of a bank at a fabric global address that lanes need and the core has not read yet: a lane and the line's address. -/
def ldcAbsent (s : State) (g : GRef) (bank : Nat) (offs : List (Nat × Nat)) : List (Nat × Nat) :=
  let t := s.team g.team
  offs.foldl (fun acc p =>
    match ldcVa t bank p.2 with
    | none => acc
    | some va =>
      if farVa va ∧ (Map.find (s.gridOf t).constFab (va / 64)).isNone ∧ !acc.any (fun q => decide (q.2 = va / 64 * 64)) then
        acc ++ [(p.1, va / 64 * 64)]
      else acc) []

/-- A lane's LDC offset (R207, R262). -/
def ldcOff (t : Thread) (o : OpLdc) : Nat := ((t.r o.a).toNat + o.imm.toNat) % 65536

/-- The lanes' reads of a bank in turn; the failures are collected. -/
def ldcReads (I : Iss) (o : OpLdc) (s : State) : List (Nat × Nat) × List LaneErr × State :=
  I.en.foldl (fun (acc : List (Nat × Nat) × List LaneErr × State) l =>
    match ldcRead acc.2.2 I.ref o.bank.toNat (ldcOff (I.th l) o) (if o.w then 8 else 4) with
    | .error e => (acc.1, acc.2.1 ++ [⟨l, e.2, e.1⟩], acc.2.2)
    | .ok (x, t) => (acc.1 ++ [(l, x)], acc.2.1, t)) ([], [], s)

/-- LDC once its lines have been read. -/
def ldcLanes (I : Iss) (o : OpLdc) (s : State) : Eff :=
  let r := ldcReads I o s
  match firstFailure r.2.1 .read with
  | some f => .fault f.1 I.s0
  | none =>
    .ok (r.2.2.updGroup I.ref (fun g => g.mapLanes I.en (fun l t =>
      t.putLoaded o.d.toNat o.w (BitVec.ofNat 64 (Map.get 0 r.1 l)))))

def execLdc (o : OpLdc) (s : State) : Host.Outcome State Fault Refusal :=
  issue (.ldc o) s (fun I =>
    let n := if o.w then 8 else 4
    let offs := I.en.map (fun l => (l, ldcOff (I.th l) o))
    let mis := offs.filter (fun p => decide (p.2 % n ≠ 0))
    match mis with
    | p :: _ => .fault { memFault { code := cALIGN, site := 14 } .read false (mis.map (·.1)) p.2 with addrs := mis } I.s0
    | [] =>
      let far := ldcAbsent I.s I.ref o.bank.toNat offs
      let line := fun (l : Nat) => (ldcVa I.tm o.bank.toNat (ldcOff (I.th l) o)).map (· / 64)
      if far.isEmpty then ldcLanes I o I.s
      else
      match fabStage I I.s far (fun l => I.en.filter (fun k => decide (line k = line l))) (fun _ va => .read (fabOff va) 64) with
      | .inl e => e
      | .inr (fv, t) =>
        ldcLanes I o (t.updGrid I.tm.ctx I.tm.lid.toNat (fun x => { x with
          constFab := far.foldl (fun m p => Map.put m (p.2 / 64) (leBytes (Map.get 0 fv p.1) 64)) x.constFab })))

def execUld (o : OpUld) (s : State) : Host.Outcome State Fault Refusal :=
  issue (.uld o) s (fun I =>
    let n := if o.w then 8 else 4
    let va := ((I.th I.low).rw o.a + o.imm.signExtend 64).toNat
    let wide := fun (f : FInfo) => { f with lanes := I.en }
    let out := fun (x : Word64) (t : State) => t.updGroup I.ref (fun g => g.setS o.d.toNat x)
    match checkLanes I.s I.who n .read false [(I.low, va)] with
    | .error f => .fault (wide f.1) I.s0
    | .ok (ls, t) =>
      match fabStage I t (if isFabric va then [(I.low, va)] else []) (fun l => [l]) (fun _ a => .read (fabOff a) n) with
      | .inl (.fault f u) => .fault (wide f) u
      | .inl e => e
      | .inr (fv, u) =>
        if sauHolds t I.ref n ls then .wait 0 I.s0
        else
        let r := readLanes u I.who n ls
        match firstFailure r.2.1 .read with
        | some f => .fault (wide f.1) I.s0
        | none =>
          match r.1, fv with
          | p :: _, _ => .ok (out (BitVec.ofNat 64 p.2) (readFirst r.2.2 I.ref n ls))
          | [], q :: _ => .ok (out (BitVec.ofNat 64 (q.2 % 2 ^ (8 * n))) r.2.2)
          | [], [] => .ok r.2.2)

/-! ## Cache control (R270) -/

/-- INV of an L1 line: bytes that are not dirty are no longer valid. -/
def l1Inv (s : State) (core l : Nat) : State :=
  s.updCore core (fun c =>
    { c with l1 := c.l1.filter (fun e => decide (e.1 / 64 ≠ l) || e.2.dirty) })

/-- One lane's CCTL. -/
def cctlLine (s : State) (w : Who) (op : Nat) (l2 : Bool) (lf : Leaf) : State :=
  let l := lf.pa / 64
  let line := lineOf lf.pa
  let wb := fun (t : State) =>
    let r := l1WriteBack t w.core l .none
    let u := r.1.lateAt false w.core r.2
    if l2 then
      let q := l2WriteBack u w.die line .none
      q.1.lateAt true w.die q.2
    else u
  let inv := fun (t : State) =>
    let u := l1Inv t w.core l
    if l2 ∧ !lf.win then
      let q := l2Evict u w.die line .none
      q.1.lateAt true w.die q.2
    else u
  match op with
  | 0 => wb s
  | 1 => inv s
  | _ => inv (wb s)

def execCctl (o : OpCctl) (s : State) : Host.Outcome State Fault Refusal :=
  issue (.cctl o) s (fun I =>
    let as := I.en.map (fun l => (l, ((I.th l).rw o.a).toNat))
    match checkLanes I.s I.who 1 .read false as with
    | .error f => .fault f.1 I.s0
    | .ok (ls, t) => .ok (ls.foldl (fun u p => cctlLine u I.who o.op.toNat o.l2 p.2.2) t))

/-- PREFD's hint for one address: a fill, or nothing. -/
def prefetch (s : State) (w : Who) (lvl va : Nat) : State :=
  if isFabric va ∨ 2 ^ 56 ≤ va then s
  else
    match xlate s w (va / 64 * 64) .read false with
    | .error _ => s
    | .ok (lf, t) =>
      match lvl with
      | 0 => if pteCp lf.pte = 0 then
          (match coreRead t w lf 64 with
            | .ok (_, u) => u
            | .error _ => s)
        else s
      | 1 => if pteCp lf.pte = 2 then s else
          (match l2Fetch t w.die lf.pa 64 with
            | .ok u => u
            | .error _ => s)
      | _ => t

def execPrefd (o : OpPrefd) (s : State) : Host.Outcome State Fault Refusal :=
  issue (.prefd o) s (fun I =>
    .ok (I.en.foldl (fun t l => prefetch t I.who o.lvl.toNat ((I.th l).rw o.a).toNat) I.s))

/-! ## Arrivals -/

/-- A load's data is written, and its registers are no longer awaited (R197, R260). -/
def execLoadDataArrival (g : GRef) (id : Nat) (s : State) : Host.Outcome State Fault Refusal :=
  match (s.group g).loads.find? (fun l => decide (l.id = id) && !l.split) with
  | none => .next s
  | some ld =>
    .next (s.updGroup g (fun x =>
      let y := { x with
        loads := x.loads.filter (fun (l : OutLoad) => decide (l.id ≠ id)),
        busy := x.busy.filter (fun (b : Busy) => decide (b.id ≠ id)) }
      y.mapLanes (ld.vals.map (·.1)) (fun l t => t.putLoaded ld.dst ld.wide (Map.get 0 ld.vals l))))

/-- Lanes of a split access that have what they waited for; the access ends with the last one. -/
def Group.splitLess (g : Group) (id : Nat) (ls : List Nat) : Group :=
  { g with loads := g.loads.filterMap (fun k =>
      if k.id ≠ id then some k
      else
        let m := { k with vals := k.vals.filter (fun p => p.1 ∉ ls), far := k.far.filter (· ∉ ls) }
        if m.vals.isEmpty ∧ m.far.isEmpty then none else some m) }

/-- A lane's data arrives: it leaves split-wait with the value of a load. -/
def splitArrive (s : State) (g : GRef) (ld : OutLoad) (lane : Nat) (x : Word64) : State :=
  s.updGroup g (fun y => (y.splitLess ld.id [lane]).updLane lane (fun t =>
    let u := if t.st = .splitWait then { t with st := .live } else t
    if ld.store then u else u.putLoaded ld.dst ld.wide x))

/-- Lanes of a split load whose requests were refused or timed out fault at the load (R432). -/
def splitFault (s : State) (g : GRef) (ld : OutLoad) (a : FabAns) : State :=
  let bad := ld.far.filterMap (fun l => (fabFind s g ld.pc l).filter (fun r => decide (r.ans = some a)))
  let ls := bad.map (·.lane)
  let t := (fabDrop s (bad.map (·.id))).updGroup g (fun y => (y.splitLess ld.id ls).mapLanes ls (fun _ t =>
    { t with st := .live, pc := BitVec.ofNat 64 ld.pc }))
  takeFault t g ld.pc (fabFault a ls (match bad with | r :: _ => r.addr.toNat | [] => 0))

/-- The lanes with a store of the group that waits to be performed: L1 or L2 has not accepted it yet (R260). -/
def unaccepted (g : Group) : List Nat := g.stq.flatMap (fun h => h.ys.map (·.1))

/-- One lane's data of a split access arrives, and the lane leaves split-wait (R37). A store's arrives with its acceptance (R260); data of
another chip with the answer, a failure of which the lanes take when the group holds no other fault. -/
def execSplitDataArrival (g : GRef) (lane : Nat) (s : State) : Host.Outcome State Fault Refusal :=
  match (s.group g).loads.find? (fun l => l.split && ((Map.find l.vals lane).isSome || decide (lane ∈ l.far))) with
  | none => .next s
  | some ld =>
    match Map.find ld.vals lane with
    | some x => if ld.store ∧ lane ∈ unaccepted (s.group g) then .next s else .next (splitArrive s g ld lane x)
    | none =>
      match fabFind s g ld.pc lane with
      | none => .next s
      | some r =>
        match r.ans with
        | none => .next s
        | some (.ok d) => .next (splitArrive (fabDrop s [r.id]) g ld lane (ldConv ld.mfmt (leNat d)))
        | some a => if (s.group g).fault.isSome ∨ !(s.team g.team).st.runs then .next s else .next (splitFault s g ld a)

end Sys2Proof.Machine
end

