-- ==== Sys2Proof/Machine/Atomics.lean ====
section
/-! DEFINITION. Atomics, compare-and-swap and remote reduce stores (R97 to R101, R116, R117, R263 to R268), and the SAU's
application of what is under way (R98, R422). -/

namespace Sys2Proof.Machine

/-- Operation on a 16-bit half (R264): types 4 bf16 and 5 f16. -/
def atomHalf (op ty x y : Nat) : Nat :=
  let f := if ty = 4 then BF16 else FP16
  match op with
  | 0 => (f.addOp .rne x y).1
  | 1 => f.minmax false x y
  | _ => f.minmax true x y

/-- Operation on an element of 32 or 64 bits (R264). -/
def atomElem (op ty x y : Nat) : Nat :=
  let w := if ty = 2 then 64 else 32
  let v := fun (a : Nat) => if ty = 1 then (a : Int) else sext w a
  match op with
  | 0 => if ty = 3 then (FP32.addOp .rne x y).1 else (x + y) % 2 ^ w
  | 1 => if ty = 3 then FP32.minmax false x y else if v y < v x then y else x
  | 2 => if ty = 3 then FP32.minmax true x y else if v x < v y then y else x
  | 3 => x &&& y
  | 4 => x ||| y
  | 5 => x ^^^ y
  | 6 => y
  | _ => if y ≤ x then 0 else x + 1

/-- The steps of one merged operation, in ascending lane order: the new value, and each lane's old one (R265). -/
def mergeRun (f : Nat → Nat → Nat) : Nat → List (Nat × Nat) → Nat × List (Nat × Nat)
  | x, [] => (x, [])
  | x, (l, y) :: ys =>
    let r := mergeRun f (f x y) ys
    (r.1, (l, x) :: r.2)

/-- CAS's steps (R267): lanes with compare and swap values. The last component says whether a compare succeeded. -/
def casRun : Nat → List (Nat × Nat × Nat) → Nat × List (Nat × Nat) × Bool
  | x, [] => (x, [], false)
  | x, (l, b, c) :: ys =>
    let r := casRun (if x = b then c else x) ys
    (r.1, (l, x) :: r.2.1, decide (x = b) || r.2.2)

/-- Does a scope execute at the SAU (R98)? -/
def atSau (scope : Nat) : Bool := decide (3 ≤ scope)

/-- `n` bytes read at an atomic's site, every cached copy being written back first as R98 says. At a slice the line becomes hot,
whether or not the atomic writes (R97). -/
def siteRead (s : State) (w : Who) (lf : Leaf) (sau : Bool) (n : Nat) : Except MErr (Nat × State) :=
  if sau then
    let r := purgeLine s (lineOf lf.pa)
    let t := r.1.lateAt true w.die r.2
    match homeReadLine t lf.pa n with
    | .error e => .error (if e.code = cECCU then { e with site := 7 } else e)
    | .ok bs => .ok (leNat bs, t)
  else
    match l2Site s w lf n with
    | .error e => .error e
    | .ok (bs, t, es) => .ok (leNat bs, markHot (t.lateAt false w.core es) w lf)

/-- The new value at the site; the read before it has met a failure of the line. -/
def siteWrite (s : State) (w : Who) (lf : Leaf) (sau : Bool) (n x : Nat) : State :=
  let bs := leBytes x n
  if sau then (homeWrite s (lineOf lf.pa) ((bs.zipIdx).map (fun p => (lf.pa + p.2, p.1)))).1
  else
    let r := l2SiteWrite s w lf bs
    r.1.lateAt true w.die r.2

/-- Lanes by location, each location once with the address of its lowest lane, lanes ascending (R107, R265). -/
def byAddr (ls : List (Nat × Nat × Leaf)) : List (Nat × Leaf × List Nat) :=
  ls.foldl (fun acc p =>
    if acc.any (fun e => decide (e.2.1.pa = p.2.2.pa)) then
      acc.map (fun e => if e.2.1.pa = p.2.2.pa then (e.1, e.2.1, e.2.2 ++ [p.1]) else e)
    else acc ++ [(p.2.1, p.2.2, [p.1])]) []

/-- Failures with each lane's own address. -/
def ownVa (as : List (Nat × Nat)) (es : List LaneErr) : List LaneErr := es.map (fun e => { e with va := Map.get e.va as e.lane })

/-- Code of an access of kind atomic, whatever rights it was checked for (R410). -/
def asAtomic (f : FInfo) : FInfo :=
  if (f.info / 8) % 4 = 1 then { f with info := f.info + 8 } else f

/-- What a run over the addresses collects: lane results, failures, queued halves, the state. -/
structure AtAcc where
  olds : List (Nat × Nat) := []
  errs : List LaneErr := []
  s    : State
  deriving DecidableEq, Repr

/-- ORDER codes of R263. -/
def ordRel (o : BitVec 2) : Bool := decide (2 ≤ o.toNat)
def ordAcq (o : BitVec 2) : Bool := decide (o = 1) || decide (o = 3)

/-- A half that goes second joins the others of its kind, before the operations that have not begun (R98). -/
def sauJoin (l : List SauOp) (q : SauOp) : List SauOp := l.filter (fun p => p.high) ++ q :: l.filter (fun p => !p.high)

/-- Does an ATOM wait for its second halves: they fault exactly where it returns their old values (R422), and its acquire comes after
its last read (R116)? -/
def atomKeeps (o : OpAtom) : Bool := decide (4 ≤ o.ty.toNat) && (!o.nr || ordAcq o.ord)

/-- The second halves of a packed atomic set out. -/
def sauHalf (I : Iss) (s : State) (o : OpAtom) (sau : Bool) (pa va : Nat) (ys olds : List (Nat × Nat)) : State :=
  let q : SauOp :=
    { id := s.fresh, own := I.ref, tids := tidsOf I.gp (ys.map (·.1)), atom := true, keep := atomKeeps o,
      l2 := if sau then none else some I.who.die, pa := pa,
      va := BitVec.ofNat 64 va, op := o.op, ty := o.ty, high := true, ys := ys.map (fun p => (p.1, BitVec.ofNat 64 p.2)),
      olds := olds.map (fun p => (p.1, BitVec.ofNat 64 p.2)), pc := BitVec.ofNat 64 I.pc }
  { s with sauQ := sauJoin s.sauQ q, fresh := s.fresh + 1 }

/-- A reduce store sets out. -/
def sauPush (I : Iss) (s : State) (o : OpRedst) (pa va : Nat) (ys : List (Nat × Nat)) : State :=
  let q : SauOp :=
    { id := s.fresh, own := I.ref, tids := tidsOf I.gp (ys.map (·.1)), atom := false, l2 := none, pa := pa, va := BitVec.ofNat 64 va,
      op := o.op, ty := o.ty, high := false, ys := ys.map (fun p => (p.1, BitVec.ofNat 64 p.2)), olds := [], pc := BitVec.ofNat 64 I.pc }
  { s with sauQ := s.sauQ ++ [q], fresh := s.fresh + 1 }

/-- One address of an ATOM. A packed type makes its low half now and queues its high half (R265). -/
def atomAddr (I : Iss) (o : OpAtom) (y : Nat → Nat) (acc : AtAcc) (e : Nat × Leaf × List Nat) : AtAcc :=
  let op := o.op.toNat
  let ty := o.ty.toNat
  let sau := atSau o.scope.toNat
  let n := if ty = 2 then 8 else if 4 ≤ ty then 2 else 4
  match siteRead acc.s I.who e.2.1 sau n with
  | .error er => { acc with errs := acc.errs ++ e.2.2.map (fun l => ⟨l, e.1, er⟩) }
  | .ok (x, t) =>
    let ys := e.2.2.map (fun l => (l, y l))
    if 4 ≤ ty then
      let r := mergeRun (atomHalf op ty) x (ys.map (fun p => (p.1, p.2 % 65536)))
      let u := siteWrite t I.who e.2.1 sau 2 r.1
      { acc with s := sauHalf I u o sau (e.2.1.pa + 2) e.1 (ys.map (fun p => (p.1, p.2 / 65536))) r.2 }
    else
      let r := mergeRun (atomElem op ty) x ys
      { acc with olds := acc.olds ++ r.2, s := siteWrite t I.who e.2.1 sau n r.1 }

/-- The deferred failure of a reduce store or an atomic without return at an SAU: that of the threads that made it (R419, R422). -/
def sauDefer (s : State) (g : GRef) (tids : List (BitVec 32)) (e : MErr) (va : Nat) : State :=
  deferTo s g
    { code := BitVec.ofNat 8 e.code, info := BitVec.ofNat 16 (e.info .atom false false), addr := BitVec.ofNat 64 va, sys := false,
      tids := tids }

/-- What follows the effects of an atomic: its acquire, and the deferred failure that its release reports (R116, R419). -/
def orderEnd (I : Iss) (ord : BitVec 2) (scope : Nat) (t : State) : State :=
  let u := if ordAcq ord then acqState t I.ref scope else t
  if ordRel ord then parkDefers I scope u else u

/-- The release before and the acquire after an atomic's effects (R116). -/
def withOrder (I : Iss) (ord : BitVec 2) (scope : Nat) (body : Iss → Eff) : Eff :=
  if ordRel ord ∧ relPending I.s0 I.ref scope then .wait 0 I.s0
  else
    match body (if ordRel ord then I.released scope else I) with
    | .ok t => .ok (orderEnd I ord scope t)
    | e => e

/-- The participants of each address, lowest lane first (R265). -/
def byOff (as : List (Nat × Nat)) : List (Nat × List Nat) :=
  as.foldl (fun acc p =>
    if acc.any (fun e => decide (e.1 = p.2)) then acc.map (fun e => if e.1 = p.2 then (e.1, e.2 ++ [p.1]) else e)
    else acc ++ [(p.2, [p.1])]) []

/-- The fabric lanes merged by address: the lane that stands for the others, the address, the lanes (R265, R268). -/
def fabLanes (as : List (Nat × Nat)) : List (Nat × Nat × List Nat) :=
  (byOff (as.filter (fun p => isFabric p.2))).map (fun e => (e.2.headD 0, e.1, e.2))

/-- The lanes that a merged request stands for. -/
def fabShare (m : List (Nat × Nat × List Nat)) (l : Nat) : List Nat :=
  match m.find? (fun e => decide (e.1 = l)) with
  | some e => e.2.2
  | none => [l]

/-- The new value of an element, packed types half by half (R264, R265). -/
def fabElem (op ty x y : Nat) : Nat :=
  if 4 ≤ ty then atomHalf op ty (x % 65536) (y % 65536) + 65536 * atomHalf op ty (x / 65536) (y / 65536) else atomElem op ty x y

/-- Writes returned old values (R265). -/
def putOlds (s : State) (g : GRef) (en : List Nat) (d : Nat) (w : Bool) (olds : List (Nat × Nat)) : State :=
  s.updGroup g (fun x => x.mapLanes en (fun l t =>
    match Map.find olds l with
    | some v => t.putLoaded d w (BitVec.ofNat 64 v)
    | none => t))

/-- The word that a lane of an ATOM brings. -/
def atomY (I : Iss) (o : OpAtom) (l : Nat) : Nat :=
  if o.ty = 2 then (srcW I.gp false (I.th l) o.b).toNat else (srcH I.gp (I.th l) o.b).toNat

def atomAs (I : Iss) (o : OpAtom) : List (Nat × Nat) := I.en.map (fun l => (l, ((I.th l).rw o.a).toNat))

/-- The requests of an ATOM's fabric lanes. -/
def atomFar (I : Iss) (o : OpAtom) (s : State) : Eff ⊕ (List (Nat × Nat) × State) :=
  let fl := fabLanes (atomAs I o)
  fabStage I s (fl.map (fun e => (e.1, e.2.1))) (fabShare fl)
    (fun l va => .atom (fabOff va) o.op o.ty ((fabShare fl l).map (fun k => BitVec.ofNat 64 (atomY I o k))))

/-- What each fabric lane's own step found. -/
def atomFarOlds (I : Iss) (o : OpAtom) (fv : List (Nat × Nat)) : List (Nat × Nat) :=
  fv.flatMap (fun p => (mergeRun (fabElem o.op.toNat o.ty.toNat) p.2
    ((fabShare (fabLanes (atomAs I o)) p.1).map (fun l => (l, atomY I o l)))).2)

/-- The accesses of an ATOM, a packed type's second halves under way: what the lanes' steps found, and the state. -/
def atomMake (I : Iss) (o : OpAtom) : Eff ⊕ (List (Nat × Nat) × State) :=
  let n := if o.ty = 2 then 8 else 4
  match checkLanes I.s I.who n .atom (atSau o.scope.toNat) (atomAs I o) with
  | .error f => .inl (.fault f.1 I.s0)
  | .ok (ls, t) =>
    match atomFar I o t with
    | .inl e => .inl e
    | .inr (fv, u) =>
      if sauHolds t I.ref n ls then .inl (.wait 0 I.s0)
      else
        let acc := (byAddr ls).foldl (atomAddr I o (atomY I o)) { s := u }
        let w := readFirst acc.s I.ref n ls
        let es := ownVa (atomAs I o) acc.errs
        match firstFailure es .atom with
        | some f =>
          if o.nr ∧ atSau o.scope.toNat then
            .inr ([], es.foldl (fun t (e : LaneErr) => (sauDefer t I.ref (tidsOf I.gp [e.lane]) e.err e.va).markErr e.err) w)
          else .inl (.fault f.1 I.s0)
        | none => .inr (acc.olds ++ atomFarOlds I o fv, w)

/-- An ATOM that ends as soon as its accesses are made. -/
def atomOnce (I : Iss) (o : OpAtom) : Eff :=
  match atomMake I o with
  | .inl e => e
  | .inr (olds, w) => .ok (if o.nr then w else putOlds w I.ref I.en o.d.toNat (decide (o.ty = 2)) olds)

/-- The second halves that an instruction waits for. -/
def atomParts (I : Iss) (s : State) : List SauOp :=
  s.sauQ.filter (fun q => q.keep && decide (q.own = I.ref) && decide (q.pc = BitVec.ofNat 64 I.pc))

/-- The issue with its effects made while the lanes stand at the instruction. -/
def Iss.back (I : Iss) : Iss := { I with s := I.s0 }

/-- The first part of an ATOM that waits for its second halves: its first halves, its fabric requests staying open. -/
def atomBegin (I : Iss) (o : OpAtom) : Eff :=
  match atomMake I.back o with
  | .inl e => e
  | .inr (_, w) =>
    if (atomParts I w).isEmpty then
      (match atomOnce I o with
        | .ok t => .ok (orderEnd I o.ord o.scope.toNat t)
        | e => e)
    else .wait 0 { w with fabQ := I.s0.fabQ }

/-- The old words of lanes from both halves. -/
def partOlds (q : SauOp) : List (Nat × Nat) :=
  match q.ans with
  | some (.olds hs) => q.ys.map (fun p => (p.1, (Map.get 0 q.olds p.1).toNat % 65536 + 65536 * Map.get 0 hs p.1))
  | _ => []

/-- The failures of second halves. -/
def partErrs (q : SauOp) : List LaneErr :=
  match q.ans with
  | some (.failed e) => q.ys.map (fun p => ⟨p.1, q.va.toNat, e⟩)
  | _ => []

/-- The last part of an ATOM that has waited: it ends, or the lanes whose second half has failed fault exactly and the others go on
(R218, R422). -/
def atomLast (I : Iss) (o : OpAtom) : Eff :=
  let ps := atomParts I I.s0
  if ps.any (fun q => q.ans.isNone) then .wait 0 I.s0
  else
    match atomFar I o { I.s with sauQ := I.s.sauQ.filter (fun q => q.id ∉ ps.map (·.id)) } with
    | .inl e => e
    | .inr (fv, u) =>
      let t := if o.nr then u else putOlds u I.ref I.en o.d.toNat false (ps.flatMap partOlds ++ atomFarOlds I o fv)
      let es := ownVa (atomAs I o) (ps.flatMap partErrs)
      match firstFailure es .atom with
      | none => .ok (orderEnd I o.ord o.scope.toNat t)
      | some f =>
        let a := if ordAcq o.ord then acqState t I.ref o.scope.toNat else t
        .fault f.1 (a.updGroup I.ref (fun g =>
          ({ g with yieldMask := (I.s0.group I.ref).yieldMask }).mapLanes (es.map (fun (e : LaneErr) => e.lane)) (fun _ x => { x with pc := BitVec.ofNat 64 I.pc })))

/-- ATOM (R265). One that must wait for its packed second halves makes the first ones, waits at issue, and then ends (log entry 37). -/
def execAtom (o : OpAtom) (s : State) : Host.Outcome State Fault Refusal :=
  issue (.atom o) s (fun I =>
    if !atomKeeps o then withOrder I o.ord o.scope.toNat (fun J => atomOnce J o)
    else if !(atomParts I I.s0).isEmpty then atomLast I o
    else if ordRel o.ord ∧ relPending I.s0 I.ref o.scope.toNat then .wait 0 I.s0
    else atomBegin (if ordRel o.ord then I.released o.scope.toNat else I) o)

/-- One offset of an ATOMS: every half at once. -/
def atomsAddr (upper : Bool) (op ty : Nat) (y : Nat → Nat) (acc : Team × List (Nat × Nat)) (e : Nat × List Nat) :
    Team × List (Nat × Nat) :=
  let n := if ty = 2 then 8 else 4
  let x := leNat (scrRead acc.1 upper e.1 n)
  let ys := e.2.map (fun l => (l, y l))
  let r :=
    if 4 ≤ ty then
      mergeRun (fun a b => atomHalf op ty (a % 65536) (b % 65536) + 65536 * atomHalf op ty (a / 65536) (b / 65536)) x ys
    else mergeRun (atomElem op ty) x ys
  (acc.1.scrWrite upper e.1 (leBytes r.1 n), acc.2 ++ r.2)

def execAtoms (o : OpAtom) (s : State) : Host.Outcome State Fault Refusal :=
  issue (.atoms o) s (fun I0 => withOrder I0 o.ord o.scope.toNat (fun I =>
    let wide := decide (o.ty = 2)
    let up := isUpper I.tm I.ref.gid
    let as := I.en.map (fun l => (l, ((I.th l).r o.a).toNat))
    let y := fun l => if wide then (srcW I.gp false (I.th l) o.b).toNat else (srcH I.gp (I.th l) o.b).toNat
    match checkScr I.tm up (if wide then 8 else 4) .atom as with
    | some f => .fault f I.s0
    | none =>
      let r := (byOff as).foldl (atomsAddr up o.op.toNat o.ty.toNat y) (I.tm, [])
      let t := I.s.updTeam I.ref.team (fun _ => r.1)
      .ok (if o.nr then t else putOlds t I.ref I.en o.d.toNat wide r.2)))

/-- One address of a CAS. The slice's line becomes hot whatever the compares say (R97). -/
def casAddr (I : Iss) (sau : Bool) (n : Nat) (b c : Nat → Nat) (acc : AtAcc) (e : Nat × Leaf × List Nat) : AtAcc :=
  match siteRead acc.s I.who e.2.1 sau n with
  | .error er => { acc with errs := acc.errs ++ e.2.2.map (fun l => ⟨l, e.1, er⟩) }
  | .ok (x, t) =>
    let r := casRun x (e.2.2.map (fun l => (l, b l, c l)))
    { acc with olds := acc.olds ++ r.2.1, s := if r.2.2 then siteWrite t I.who e.2.1 sau n r.1 else t }

def execCas (o : OpCas) (s : State) : Host.Outcome State Fault Refusal :=
  issue (.cas o) s (fun I0 => withOrder I0 o.ord o.scope.toNat (fun I =>
    let n := if o.w then 8 else 4
    let as := I.en.map (fun l => (l, ((I.th l).rw o.a).toNat))
    let b := fun l => if o.w then (srcW I.gp false (I.th l) o.b).toNat else (srcH I.gp (I.th l) o.b).toNat
    let c := fun l => (stData (I.th l) o.c o.w).toNat
    match checkLanes I.s I.who n .atom (atSau o.scope.toNat) as with
    | .error f => .fault f.1 I.s0
    | .ok (ls, t) =>
      let fl := fabLanes as
      match fabStage I t (fl.map (fun e => (e.1, e.2.1))) (fabShare fl)
          (fun l va => .cas (fabOff va) o.w ((fabShare fl l).map (fun k => (BitVec.ofNat 64 (b k), BitVec.ofNat 64 (c k))))) with
      | .inl e => e
      | .inr (fv, u) =>
        if sauHolds t I.ref n ls then .wait 0 I.s0
        else
        let acc := (byAddr ls).foldl (casAddr I (atSau o.scope.toNat) n b c) { s := u }
        match firstFailure (ownVa as acc.errs) .atom with
        | some f => .fault f.1 I.s0
        | none =>
          let far := fv.flatMap (fun p => (casRun p.2 ((fabShare fl p.1).map (fun l => (l, b l, c l)))).2.1)
          .ok (putOlds (readFirst acc.s I.ref n ls) I.ref I.en o.d.toNat o.w (acc.olds ++ far))))

def execRedst (o : OpRedst) (s : State) : Host.Outcome State Fault Refusal :=
  issue (.redst o) s (fun I =>
    let wide := decide (o.ty = 2)
    let as := I.en.map (fun l => (l, ((I.th l).rw o.a).toNat))
    let y := fun l => if wide then (srcW I.gp false (I.th l) o.b).toNat else (srcH I.gp (I.th l) o.b).toNat
    match checkLanes I.s I.who (if wide then 8 else 4) .write true as with
    | .error f => .fault (asAtomic f.1) I.s0
    | .ok (ls, t) =>
      let v := (byAddr ls).foldl (fun t e =>
        sauPush I t o e.2.1.pa e.1 (e.2.2.map (fun l => (l, y l)))) t
      let u := readFirst v I.ref (if wide then 8 else 4) ls
      .ok ((fabLanes as).foldl (fun v e =>
        fabSendFor v I.ref e.1 e.2.2 .redst e.2.1 (.redst (fabOff e.2.1) o.op o.ty (e.2.2.map (fun l => BitVec.ofNat 64 (y l)))) none I.pc) u))

/-! ## SAU_APPLY -/

/-- The site of a queued operation. -/
def sauLeaf (q : SauOp) (s : State) : Leaf := { pa := q.pa, pte := (attrOf s q.pa).pte, lvl := 4, win := decide (winRegion ≤ q.pa) }

/-- Bytes of a queued operation. -/
def sauWidth (q : SauOp) : Nat := if q.ty = 2 then 8 else if q.high then 2 else 4

/-- Must another operation on its bytes be applied first: one of the same group or thread before it (R117), or a half whose first half
was applied at the site before (R98)? -/
def sauBehind (s : State) (q : SauOp) : Bool :=
  (s.sauQ.takeWhile (fun p => decide (p.id ≠ q.id))).any (fun p => p.ans.isNone &&
    (decide (p.own = q.own) || p.tids.any (fun t => decide (t ∈ q.tids)) || (p.high && decide (p.l2 = q.l2))) &&
    overlap p.pa (sauWidth p) q.pa (sauWidth q))

/-- Ends a queued operation. -/
def sauDone (s : State) (id : Nat) : State := { s with sauQ := s.sauQ.filter (fun p => decide (p.id ≠ id)) }

/-- An operation has its answer: its instruction takes it; without one that waits, it ends. -/
def sauAnswer (s : State) (q : SauOp) (a : SauAns) : State :=
  if q.keep ∧ (Map.find (s.team q.own.team).groups q.own.gid).isSome then
    { s with sauQ := s.sauQ.map (fun p => if p.id = q.id then { p with ans := some a } else p) }
  else sauDone s q.id

/-- The second half of a reduce store takes the place of the first (R265). -/
def sauNext (s : State) (q : SauOp) : State :=
  let n : SauOp := { q with high := true, pa := q.pa + 2, ys := q.ys.map (fun (p : Nat × Word64) => (p.1, p.2 >>> (16 : Nat))) }
  { s with sauQ := sauJoin (s.sauQ.filter (fun p => decide (p.id ≠ q.id))) n }

/-- The failure of an operation: its instruction faults exactly, or it is deferred (R421, R422). -/
def sauFail (s : State) (q : SauOp) (e : MErr) : State :=
  let t := s.markErr e
  if q.keep then sauAnswer t q (.failed e) else sauDefer (sauDone t q.id) q.own q.tids e q.va.toNat

def execSauApply (id : Nat) (s : State) : Host.Outcome State Fault Refusal :=
  match s.sauQ.find? (fun q => decide (q.id = id)) with
  | none => .next s
  | some q =>
    if sauBehind s q ∨ q.ans.isSome then .next s
    else
      let w := s.who q.own
      let lf := sauLeaf q s
      let sau := q.l2.isNone
      let ty := q.ty.toNat
      let op := q.op.toNat
      let n := if ty = 2 then 8 else if 4 ≤ ty then 2 else 4
      let ys := q.ys.map (fun p => (p.1, p.2.toNat))
      match siteRead s w lf sau n with
      | .error e => .next (sauFail s q e)
      | .ok (x, t) =>
        if 4 ≤ ty then
          let half := if q.high then ys else ys.map (fun p => (p.1, p.2 % 65536))
          let r := mergeRun (atomHalf op ty) x half
          let u := siteWrite t w lf sau 2 r.1
          .next (if q.high then sauAnswer u q (.olds r.2) else sauNext u q)
        else .next (sauDone (siteWrite t w lf sau n (mergeRun (atomElem op ty) x ys).1) id)

end Sys2Proof.Machine
end

