-- ==== Sys2Proof/Machine/Team.lean ====
section
/-! DEFINITION. What groups, teams and grids do together: mailboxes and interrupts (R75, R365), handles (R298), event
slots and WAITANY resumption (R68 to R73), barrier phases (R229, R230), and the ends of groups, teams and grids (R41,
R217, R337, R123, R242). -/

namespace Sys2Proof.Machine

/-! ## Names -/

/-- The virtual core of a group (R351). -/
def State.vcoreRef (s : State) (g : GRef) : Nat :=
  let t := s.team g.team
  vcoreOf s t.ctx (coreOf t g.gid)

def mbKey (v m : Nat) : Nat := 32 * v + m
def hKey (v h : Nat) : Nat := 64 * v + h
def Ctx.box (c : Ctx) (v m : Nat) : List Msg := Map.get [] c.mbox (mbKey v m)
def Ctx.handle (c : Ctx) (v h : Nat) : Handle := Map.get {} c.handles (hKey v h)
def State.updHandle (s : State) (ctx v h : Nat) (f : Handle → Handle) : State :=
  s.updCtx ctx (fun c => { c with handles := Map.upd {} c.handles (hKey v h) f })

/-- The teams of a grid by their keys. -/
def gridTeams (s : State) (ctx lid : Nat) : List Nat :=
  (s.teams.filter (fun e => decide (e.2.ctx = ctx) && decide (e.2.lid.toNat = lid))).map (·.1)

/-- A team that has not completed. -/
def Team.alive (t : Team) : Bool := decide (t.st ≠ .ended)
/-- A team that occupies its cores. -/
def Team.onCore (t : Team) : Bool := decide (t.st ≠ .ended) && decide (t.st ≠ .saved)

/-- The physical cores of a team. -/
def Team.cores (t : Team) : List Nat := if t.decl.pair then [t.core, t.core + 1] else [t.core]

/-! ## Interrupts (R365) -/

/-- The contexts that have a place in a function of a port, in ascending number: its own, and those that it has lost, which keep their
places there until contexts are assigned anew (R356, R364). -/
def fnCtxs (s : State) (port fn : Nat) : List Nat :=
  (List.range 64).filter (fun c => decide ((s.ctx c).fn = fn) && (decide (b2n (s.ctx c).owner = port) || (s.ctx c).lostTo))

/-- Which of its function's contexts a context is (R356). -/
def ctxK (s : State) (c : Nat) : Nat :=
  let x := s.ctx c
  ((fnCtxs s (b2n x.owner) x.fn).filter (fun j => decide (j < c))).length

/-- Sends an interrupt; to a port whose link is down none is sent (R435). -/
def State.irq (s : State) (port : Bool) (fn vector : Nat) : State :=
  if s.pcieUp.getLsbD (b2n port) then { s with irqs := s.irqs ++ [⟨port, fn, vector⟩] } else s

/-- Vector 1 + 2k (host mailbox queue) or 2 + 2k (fault queue) of a context's function. -/
def State.ctxIrq (s : State) (c : Nat) (fq : Bool) : State :=
  let x := s.ctx c
  s.irq x.owner x.fn (1 + b2n fq + 2 * ctxK s c)

/-- Vector 0 of the PF of both ports: package events. -/
def State.pkgIrq (s : State) : State := (s.irq false 0 0).irq true 0 0

/-- An uncorrectable soft error is counted, which interrupts the PF (R408, R417). -/
def State.countUe (s : State) : State := { s with pkg := { s.pkg with eccue := s.pkg.eccue + 1 } }.pkgIrq

/-- A message enters the host mailbox queue (R75). -/
def State.hmqPut (s : State) (c : Nat) (x : Word64) : State :=
  let t := s.updCtx c (fun y => { y with hmq := y.hmq ++ [x] })
  if (s.ctx c).hmq.isEmpty then t.ctxIrq c false else t

/-- A device record (R442). -/
def State.devRecord (s : State) (ctx code info addr : Nat) : State :=
  s.report ctx (.loose { code := BitVec.ofNat 8 code, info := BitVec.ofNat 16 info, addr := BitVec.ofNat 64 addr })

/-- INFO of a device record for a failed write to memory. -/
def devInfo (e : MErr) : Nat := { e with site := 15 : MErr }.info .write false true

/-! ## Event slots -/

/-- The condition of a level slot (R68). -/
def slotHolds (s : State) (g : GRef) (e : EvSlot) : Bool :=
  let t := s.team g.team
  let c := s.ctx t.ctx
  let o := e.obj.toNat
  match e.kind with
  | .bar => decide (Map.get 0 t.bar o ≠ e.ref.setWidth 16)
  | .dbar => decide (Map.get 0 (s.gridOf t).dieBar (t.die * 4 + o) ≠ e.ref.setWidth 16)
  | .tok => !(s.group g).toks.any (fun p => decide (p.1 = o))
  | .hnd => decide ((c.handle (s.vcoreRef g) o).st = e.ref.setWidth 2)
  | .mbx => !(c.box (s.vcoreRef g) o).isEmpty
  | .step => decide (c.former.step ≠ e.ref)
  | .none => false
  | .sw => false
  | .timer => false

/-- Sets pending bits (R69). -/
def Group.pendEv (g : Group) (is : List Nat) : Group :=
  { g with evPend := is.foldl (fun m i => m ||| (1#16 <<< i)) g.evPend }

/-- Every armed level slot whose condition holds latches (R69). -/
def latchLevels (s : State) (g : GRef) : State :=
  let is := ((s.group g).ev.filter (fun e => e.2.armed && slotHolds s g e.2)).map (·.1)
  if is.isEmpty then s else s.updGroup g (fun x => x.pendEv is)

/-- The payload of a slot at resumption (R70); for a barrier, the phase that completed is the slot's φ. -/
def evPayload (s : State) (g : GRef) (e : EvSlot) : Word64 :=
  let t := s.team g.team
  let c := s.ctx t.ctx
  let o := e.obj.toNat
  match e.kind with
  | .bar => BitVec.ofNat 64 (o % 16) ||| ((e.ref.setWidth 64 &&& 0xFFFF) <<< 16)
  | .dbar => BitVec.ofNat 64 (o % 16) ||| ((e.ref.setWidth 64 &&& 0xFFFF) <<< 16)
  | .tok => (s.group g).rs o
  | .hnd => BitVec.ofNat 64 (o % 64) ||| ((c.handle (s.vcoreRef g) o).st.setWidth 64 <<< 8)
  | .mbx => BitVec.ofNat 64 (o % 32 + 256 * (c.box (s.vcoreRef g) o).length)
  | .step => c.former.step.setWidth 64
  | .sw => e.word
  | .timer => e.ref.setWidth 64
  | .none => 0

/-- The effect of consumption on the slot (R68). -/
def evConsume (s : State) (g : GRef) (e : EvSlot) : EvSlot :=
  let t := s.team g.team
  match e.kind with
  | .bar => { e with ref := (Map.get 0 t.bar e.obj.toNat).setWidth 32 }
  | .dbar => { e with ref := (Map.get 0 (s.gridOf t).dieBar (t.die * 4 + e.obj.toNat)).setWidth 32 }
  | .tok => { e with armed := false }
  | .step => { e with ref := (s.ctx t.ctx).former.step }
  | .timer => { e with armed := false }
  | .none => e
  | .hnd => e
  | .mbx => e
  | .sw => e

/-- The scope of the acquire that a resumption makes (R122). -/
def evAcquire (e : EvSlot) : Option Nat :=
  match e.kind with
  | .bar => some 1
  | .dbar => some 2
  | .tok => some 1
  | .hnd => if e.ref = 2 then some 1 else none
  | .step => some 3
  | .sw => some e.scope
  | .mbx => none
  | .timer => none
  | .none => none

/-- Resumes lanes from WAITANY through slot `i` (R72). -/
def resumeAny (s : State) (g : GRef) (lanes : List Nat) (i : Nat) : State :=
  let e := Map.get {} (s.group g).ev i
  let t := s.updGroup g (fun x =>
    let y := ((x.setS 63 (BitVec.ofNat 64 i)).setS 62 (evPayload s g e))
    let z := { y with
      evPend := y.evPend &&& ~~~(1#16 <<< i),
      ev := Map.put y.ev i (evConsume s g e),
      resumed := some s.now }
    z.mapLanes lanes (fun _ t => { t with pc := e.handler, st := .live }))
  match evAcquire e with
  | some sc => acqState t g sc
  | none => t

/-- Resumes lanes whose timeout has expired (R72). -/
def resumeTimeout (s : State) (g : GRef) (lanes : List Nat) : State :=
  s.updGroup g (fun x =>
    let y := { (x.setS 63 0xFF).setS 62 0 with resumed := some s.now }
    y.mapLanes lanes (fun _ t => { t with st := .live }))

def lowestBit (m : BitVec 16) : Option Nat := (List.range 16).find? (fun i => m.getLsbD i)

/-- The slots of a list that are ready (R72). -/
def Group.readyEv (g : Group) (l : BitVec 16) : BitVec 16 := l &&& g.evPend &&& ~~~g.evMask

/-- Lanes parked in WAITANY with their list and deadline. -/
def parkedAny (g : Group) : List (Nat × BitVec 16 × Option Nat) :=
  g.lanes.filterMap (fun e => match e.2.st with
    | .parked (.waitAny l d) => some (e.1, l, d)
    | _ => none)

/-- Re-evaluates the ready set of lanes parked in WAITANY (R72). A parked fault holds them (R390), and a team that is not
running leaves them parked (R347). -/
def wakeAny (s : State) (g : GRef) : State :=
  let gp := s.group g
  match parkedAny gp with
  | [] => s
  | (l, lst, _) :: rest =>
    if gp.fault.isSome ∨ !(s.team g.team).st.runs then s
    else
      match lowestBit (gp.readyEv lst) with
      | some i => resumeAny s g (l :: rest.map (·.1)) i
      | none => s

/-- Has the count of an armed TIMER slot run out, an occurrence that has not come yet (R68, R69)? -/
def timerDue (now : Nat) (e : EvSlot) : Bool := decide (e.kind = .timer) && e.armed && !e.fired && decide (e.deadline ≤ now)

/-- A TIMER slot's occurrence: it latches once (R69). -/
def Group.expire (g : Group) (i : Nat) : Group :=
  let x := g.pendEv [i]
  { x with ev := Map.upd {} x.ev i (fun e => { e with fired := true }) }

/-- Every TIMER slot whose count has run out latches. -/
def latchTimers (s : State) (g : GRef) : State :=
  let is := ((s.group g).ev.filter (fun e => timerDue s.now e.2)).map (·.1)
  if is.isEmpty then s else s.updGroup g (fun x => is.foldl Group.expire x)

/-- The lanes whose WAITANY timeout has expired resume, unless a latch of this cycle has woken them (R72). -/
def timeOutAny (s : State) (g : GRef) : State :=
  match parkedAny (s.group g) with
  | (l, _, some n) :: rest =>
    if (s.group g).fault.isSome ∨ s.now < n then s else resumeTimeout s g (l :: rest.map (·.1))
  | _ => s

/-- Latches the level slots of a group, and wakes its lanes. -/
def evSettle (s : State) (g : GRef) : State := wakeAny (latchLevels s g) g

/-! ## Barriers -/

def liveGroups (t : Team) : List (Nat × Group) := t.groups.filter (fun e => e.2.live)

/-- Wakes lanes of the groups of a running team; each group woken acquires at `scope`. -/
def wakeTeam (s : State) (k : Nat) (p : Park → Bool) (scope : Nat) : State :=
  if !(s.team k).st.runs then s
  else (liveGroups (s.team k)).foldl (fun u e =>
    if e.2.anyParked p then acqState (u.updGroup ⟨k, e.1⟩ (fun g => g.wake p)) ⟨k, e.1⟩ scope else u) s

/-- Completes the phase of a team barrier if every live group has arrived (R229). -/
def completeBar (s : State) (k b : Nat) : State :=
  let t := s.team k
  let ph := Map.get 0 t.bar b
  let gs := liveGroups t
  if !gs.isEmpty && gs.all (fun e => decide (Map.find e.2.barA b = some ph)) then
    wakeTeam (s.updTeam k (fun t => { t with bar := Map.set 0 t.bar b (ph + 1) })) k
      (fun w => match w with
        | .bar c q => decide (c = b) && decide (q = ph)
        | _ => false) 1
  else s

def completeBars (s : State) (k : Nat) : State := (List.range (s.team k).decl.nbar).foldl (fun u b => completeBar u k b) s

/-- The live groups of the teams of a grid that have not completed, on one die or on all. -/
def spanGroups (s : State) (ctx lid : Nat) (die : Option Nat) : List Group :=
  ((gridTeams s ctx lid).filter (fun k => (s.team k).alive && (die.isNone || decide (die = some (s.team k).die)))).flatMap
    (fun k => (liveGroups (s.team k)).map (·.2))

def completeDieBar (s : State) (ctx lid die b : Nat) : State :=
  let key := die * 4 + b
  let ph := Map.get 0 (s.grid ctx lid).dieBar key
  let gs := spanGroups s ctx lid (some die)
  if !gs.isEmpty && gs.all (fun g => decide (Map.find g.dieA b = some ph)) then
    let t := s.updGrid ctx lid (fun g => { g with dieBar := Map.set 0 g.dieBar key (ph + 1) })
    ((gridTeams s ctx lid).filter (fun k => decide ((s.team k).die = die))).foldl (fun u k => wakeTeam u k (fun w => match w with
      | .dieBar c q => decide (c = b) && decide (q = ph)
      | _ => false) 2) t
  else s

def completeGridBar (s : State) (ctx lid : Nat) : State :=
  let ph := (s.grid ctx lid).gridBar
  let gs := spanGroups s ctx lid none
  if !gs.isEmpty && gs.all (fun g => decide (g.gridA = some ph)) then
    (gridTeams s ctx lid).foldl (fun u k => wakeTeam u k (fun w => match w with
      | .gridBar q => decide (q = ph)
      | _ => false) 3) (s.updGrid ctx lid (fun g => { g with gridBar := ph + 1 }))
  else s

/-- Every phase that the end of a group or team may complete (R229, R230). -/
def completeAll (s : State) (k : Nat) : State :=
  let t := s.team k
  let u := completeBars s k
  if t.decl.coop then
    completeGridBar ([0, 1, 2, 3].foldl (fun v b => completeDieBar v t.ctx t.lid.toNat t.die b) u) t.ctx t.lid.toNat
  else u

/-! ## Completion of launches (R241, R242, R442) -/

/-- The completion word. -/
def completionWord (lid : Nat) (status : BitVec 8) : Word64 := BitVec.ofNat 64 (lid * 2 ^ 32) ||| status.setWidth 64

/-- A launch counts as completed; its grid's record goes. -/
def launchDone (s : State) (ctx lid : Nat) : State :=
  s.updCtx ctx (fun c => { c with
    grids := Map.erase c.grids lid,
    doneLids := (BitVec.ofNat 32 lid :: c.doneLids).take 65536 })

/-- Each grid completion has the DEP = 1 words of the context read again (R333). -/
def pollAll (s : State) (ctx : Nat) : State :=
  s.updCtx ctx (fun c => { c with grids := c.grids.map (fun e => if e.2.dep = 1 then (e.1, { e.2 with pollAt := s.now }) else e) })

/-- Makes the completion actions: the word, then the post, which goes by way of the mailboxes or the fabric (R241). -/
def completeLaunch (s : State) (ctx lid : Nat) (status : BitVec 8) : State :=
  let g := s.grid ctx lid
  let x := completionWord lid status
  let t :=
    if g.cmpl.getLsbD 0 then
      let r := formerWrite s ctx g.arg.toNat (leBytes x.toNat 8)
      match r.2 with
      | some (e, a) => r.1.devRecord ctx e.code (devInfo e) a
      | none => r.1
    else s
  let u := (pollAll t ctx).updGrid ctx lid (fun g => { g with finished := true, status := status })
  if g.cmpl.getLsbD 1 then
    if g.mbox.getLsbD 15 then
      let r : FabReq :=
        { id := u.fresh, own := ⟨0, 0⟩, ctx := ctx, die := ((List.range 4).find? (fun d => g.dieMask.getLsbD d)).getD 0, lane := 0, kind := .post, chip := bitsN g.mbox.toNat 25 16, addr := 0,
          op := .mbsend g.mbox x, tok := none, pc := 0, sentAt := u.time }
      fabFlush { u with fabQ := u.fabQ ++ [r], fresh := u.fresh + 1 }
    else
      let m : Send :=
        { id := u.fresh, own := none, post := some lid, tok := none, ctx := ctx, name := g.mbox, msg := x, scope := 4 }
      { u with sends := u.sends ++ [m], fresh := u.fresh + 1 }
  else launchDone u ctx lid

/-- The launch leaves its queue (R334). -/
def dequeue (s : State) (ctx lid : Nat) : State :=
  s.updCtx ctx (fun c => { c with queues := c.queues.map (fun q => (q.1, q.2.filter (fun (x : BitVec 32) => decide (x.toNat ≠ lid)))) })

/-- The next team index of a grid: one returned by FLUSH-RESTART, else the next in order. -/
def nextIndex (g : Grid) : Option Nat :=
  match g.back with
  | i :: is => some (is.foldl min i)
  | [] => if g.placed < g.teams then some g.placed else none

/-- A launch leaves its queue once its last team is placed, and no team of it is saved (R334, R343). -/
def leaveQueue (s : State) (ctx lid : Nat) : State :=
  if (nextIndex (s.grid ctx lid)).isNone ∧ (gridTeams s ctx lid).all (fun k => decide ((s.team k).st ≠ .saved)) then dequeue s ctx lid
  else s

/-- Does a store of the team's groups wait (R110)? -/
def storesWait (t : Team) : Bool := t.groups.any (fun g => !g.2.stq.isEmpty)

/-- Is a write of one of these teams still on its way: at an SAU, or to another chip? The completion word is a release at
`.sys` (R123, R241). -/
def writesLeft (s : State) (ts : List Nat) : Bool :=
  ts.any (fun k => storesWait (s.team k)) || s.sauQ.any (fun q => q.ans.isNone && decide (q.own.team ∈ ts)) ||
  s.fabQ.any (fun q => decide (q.kind ∈ [FabKind.redst, .store, .send]) && decide (q.own.team ∈ ts))

/-- A grid whose last team has completed completes: the actions of a kernel boundary, then its completion actions (R123,
R337). Failures of write-backs that no release has reported give its STATUS (R419). -/
def completeGrid (s : State) (ctx lid : Nat) : State :=
  let ts := gridTeams s ctx lid
  let g := s.grid ctx lid
  if g.started ∧ !g.finished ∧ g.placed = g.teams ∧ g.back.isEmpty ∧ ts.all (fun k => !(s.team k).alive) ∧
      !writesLeft s ts then
    let a := purgeAll s
    let mine := a.late.filter (fun f => decide (f.ctx = ctx))
    let late : BitVec 8 := if g.status ≠ 0 then g.status else match mine with | f :: _ => f.d.code | [] => 0
    let st := g.ended.getD late
    let win := winRegion + (ctx * 2 ^ 32 + lid) * 4 * 2 ^ 24
    let b := { a with
      late := a.late.filter (fun f => decide (f.ctx ≠ ctx)),
      mem := Map.clear a.mem win (win + 4 * 2 ^ 24),
      teams := a.teams.filter (fun e => !decide (e.1 ∈ ts)) }
    completeLaunch b ctx lid st
  else s

/-! ## Ends (R41, R217, R351) -/

/-- A core that holds no team of its context any more is unmapped (R351), and its idle time begins (R374). -/
def leaveCore (s : State) (core : Nat) : State :=
  if s.teams.any (fun e => e.2.onCore && decide (core ∈ e.2.cores)) then s
  else
    match (s.core core).ctx with
    | some c =>
      (s.updCtx c (fun x => { x with vmap := x.vmap.filter (fun e => decide (e.2 ≠ core)) })).updCore core
        (fun x => { x with ctx := none, idleAt := s.now })
    | none => s

/-- Answers of atomics that no instruction will take any more go with their team. -/
def dropAnswers (s : State) (k : Nat) : State := { s with sauQ := s.sauQ.filter (fun q => !(q.ans.isSome && decide (q.own.team = k))) }

/-- Drops the bins of a team. -/
def dropBins (s : State) (k : Nat) : State :=
  (s.team k).cores.foldl (fun u c => u.updCore c (fun x => { x with bins := x.bins.filter (fun b => decide (b.2.team ≠ k)) })) s

/-- A team's resources are freed: its record keeps only what names it. -/
def freeTeam (s : State) (k : Nat) (st : TeamSt) : State :=
  let t := s.team k
  let u := (dropBins (dropAnswers s k) k).updTeam k (fun _ =>
    { ctx := t.ctx, lid := t.lid, index := t.index, die := t.die, core := t.core, vcore := t.vcore, vcore2 := t.vcore2,
      decl := t.decl, st := st, retired := t.retired, age := t.age })
  t.cores.foldl leaveCore u

/-- Deferred failures that no release will report give the grid's STATUS (R419). -/
def deferStatus (s : State) (t : Team) (ds : List Defer) : State :=
  match ds with
  | [] => s
  | d :: _ => s.updGrid t.ctx t.lid.toNat (fun x => if x.status = 0 then { x with status := d.code } else x)

/-- A team completes (R217); its RETIRED joins the history of its kernel object (R345). -/
def teamEnd (s : State) (k : Nat) : State :=
  let t := s.team k
  let u := freeTeam (deferStatus s t t.defer) k .ended
  let v := (leaveQueue u t.ctx t.lid.toNat).updCtx t.ctx (fun c => { c with history := Map.upd [] c.history t.decl.kobj (fun l => (t.retired :: l).take 16) })
  let w := v.updGrid t.ctx t.lid.toNat (fun g => { g with done := g.done + 1 })
  let x := if t.decl.coop then
      completeGridBar ([0, 1, 2, 3].foldl (fun v b => completeDieBar v t.ctx t.lid.toNat t.die b) w) t.ctx t.lid.toNat
    else w
  completeGrid x t.ctx t.lid.toNat

/-- Threads of the team in bins. -/
def binsOf (s : State) (k : Nat) : List (Nat × Nat × Bin) :=
  (s.team k).cores.flatMap (fun c => ((s.core c).bins.filter (fun b => decide (b.2.team = k))).map (fun b => (c, b.1, b.2)))

/-- A team completes once it has no group and no thread in a bin. -/
def checkTeam (s : State) (k : Nat) : State :=
  if (s.team k).groups.isEmpty ∧ (binsOf s k).isEmpty then teamEnd s k else completeAll s k

/-- A group ends: its slot returns to the team, and its event state goes (R41). A failure that fell to the group and that it has not
reported gives the grid's STATUS (R419). -/
def endGroup (s : State) (g : GRef) : State :=
  let t := s.team g.team
  let mine := fun (d : Defer) => d.tids.isEmpty && decide (d.gid = g.gid)
  let u := deferStatus s t (t.defer.filter mine)
  checkTeam (u.updTeam g.team (fun x => { x with groups := Map.erase x.groups g.gid, defer := x.defer.filter (fun d => !mine d) })) g.team

def Group.idle (g : Group) : Bool :=
  decide (g.cCopy = 0) && decide (g.cMatrix = 0) && decide (g.cGather = 0) && decide (g.cColl = 0)

/-- May the group end: its last thread has exited, its counters are zero and its tokens written (R217), or it has left by
REFORM (R41)? Its stores have been performed (R110). -/
def canEnd (g : Group) : Bool :=
  g.live && !g.hasLive && g.idle && (g.gone || g.toks.isEmpty) && g.fault.isNone && g.stq.isEmpty

end Sys2Proof.Machine
end

