-- ==== Sys2Proof/Machine/Cmds.lean ====
section
/-! DEFINITION. Asynchronous commands (R119, R120, R227, R271): their issue and release, the convergence registers that
hold them (R47 to R50), their completion, retirement and suspension (R415), and the waits of tile and accumulator
instructions (R276, R285). -/

namespace Sys2Proof.Machine

def cOBJBOUNDS : Nat := 0x0C
def cOBJRIGHTS : Nat := 0x0D
def cSTALEHANDLE : Nat := 0x0E
def cKVINTEG : Nat := 0x14
def cKVLOST : Nat := 0x15
def cKVSTALE : Nat := 0x16
def cMBFULL : Nat := 0x1A
def cDROPPED : Nat := 0x1B
def cARITH : Nat := 0x20
def cSWTRAP : Nat := 0x21
def cBKPT : Nat := 0x22
def cEVSTATE : Nat := 0x24
def cCVMISMATCH : Nat := 0x25
def cBARMISUSE : Nat := 0x26
def cRQSTATE : Nat := 0x28
def cACTBANK : Nat := 0x29

/-! ## Counters -/

def Group.counter (g : Group) : CmdCls → Nat
  | .copy => g.cCopy
  | .matrix => g.cMatrix
  | .gather => g.cGather
  | .coll => g.cColl
  | .none => 0

def Group.setCounter (g : Group) (c : CmdCls) (n : Nat) : Group :=
  match c with
  | .copy => { g with cCopy := n }
  | .matrix => { g with cMatrix := n }
  | .gather => { g with cGather := n }
  | .coll => { g with cColl := n }
  | .none => g

def State.cmd (s : State) (id : Nat) : Option Cmd := s.cmds.find? (fun c => decide (c.id = id))
def State.updCmd (s : State) (id : Nat) (f : Cmd → Cmd) : State :=
  { s with cmds := s.cmds.map (fun c => if c.id = id then f c else c) }

/-- The value that an s-register held when the command was executed. -/
def Cmd.s (c : Cmd) (r : SReg) : Word64 := Map.get 0 c.sv r.toNat

/-! ## Releases of instructions -/

/-- An instruction that is a release at a scope: it waits for what a release waits for, drains, and takes effect; a
deferred failure parks the group after it (R115, R117, R122, R419). -/
def withRelease (I : Iss) (scope : Nat) (body : Iss → Eff) : Eff :=
  if relPending I.s0 I.ref scope then .wait 0 I.s0
  else
    match body (I.released scope) with
    | .ok t => .ok (parkDefers I scope t)
    | e => e

/-! ## Starting -/

/-- Where a command goes once it issues: MMA, MMAS, ACCCVT, ACCZ, ACCST and ATTNF queue at the array (R282, R306), ATTN and ATTNV wait
for their handles (R319), every other one is at its engine; the time of a COLL begins (R304). -/
def startCmd (s : State) (id : Nat) : State :=
  match s.cmd id with
  | none => s
  | some c =>
    let q := fun (_ : Unit) =>
      (s.updCmd id (fun c => { c with st := .queued })).updCore (coreOf (s.team c.own.team) c.own.gid)
        (fun x => { x with matrix := x.matrix ++ [id] })
    match c.instr with
    | .mma _ => q ()
    | .mmas _ => q ()
    | .acccvt _ => q ()
    | .accz _ => q ()
    | .accst _ => q ()
    | .attnf _ => q ()
    | .coll _ => s.updCmd id (fun c => { c with st := .running, coll := { c.coll with lastAt := s.time } })
    | .attn _ => s.updCmd id (fun c => { c with st := .waiting })
    | .attnv _ => s.updCmd id (fun c => { c with st := .waiting })
    | _ => s.updCmd id (fun c => { c with st := .running })

/-- Adds a command in state `held`: its counter rises, its token is outstanding (R119, R227). -/
def newCmd (I : Iss) (s : State) (cls : CmdCls) (tok : Option SReg) (cv : Option Nat) (cap : List Word64) : Nat × State :=
  let id := s.fresh
  let g := I.gp
  let regs := ((uses I.i).reads.filter (fun r => decide (r.1 = .s))).map (·.2)
  let c : Cmd :=
    { id := id, ctx := I.tm.ctx, own := I.ref, instr := I.i, cls := cls, tok := tok.map (·.toNat), lane := I.low,
      lanes := maskOf I.en, pc := BitVec.ofNat 64 I.pc, cv := cv, st := .held,
      sv := regs.foldl (fun m r => Map.put m r (g.rs r)) [], cap := cap, fp4x := g.fp4x, srseed := g.srseed }
  let t := s.updGroup I.ref (fun g =>
    { g.setCounter cls (g.counter cls + 1) with
      toks := match tok with
        | some r => g.toks ++ [(r.toNat, id)]
        | none => g.toks })
  (id, { t with cmds := t.cmds ++ [c], fresh := id + 1 })

/-! ## Convergence registers (R47 to R49) -/

/-- Counts a signature, and completes the phase when it is the last: a held command issues. -/
def cvSigned (s : State) (k cv : Nat) (tid : BitVec 32) (cmd : Option Nat) : State :=
  let r := Map.get {} (s.team k).cv cv
  let signed := r.signed ++ [tid]
  let held := match cmd with
    | some c => some c
    | none => r.cmd
  if signed.length < r.count then
    s.updTeam k (fun t => { t with cv := Map.put t.cv cv { r with signed := signed, cmd := held } })
  else
    let u := s.updTeam k (fun t => { t with cv := Map.put t.cv cv { r with signed := [], cmd := none, phase := r.phase + 1 } })
    match held with
    | some c => startCmd u c
    | none => u

/-- The reason for which a signature is refused: 3 before 1 before 2 (R392). -/
def cvRefused (r : Machine.CvReg) (tid : BitVec 32) (cmd : Bool) : Option Nat :=
  if r.count = 0 then some 3
  else if tid ∈ r.signed then some 1
  else if cmd && r.cmd.isSome then some 2
  else none

def cvFault (cv reason : Nat) (lanes : List Nat) : FInfo := { code := cCVMISMATCH, info := cv + 16 * reason, lanes := lanes }

/-- The refusal of a command's signature, if there is one (R48, R392). -/
def cvRefusal (I : Iss) (s : State) (cv : Option (BitVec 4)) : Option FInfo :=
  match cv with
  | none => none
  | some c => (cvRefused (Map.get {} (s.team I.ref.team).cv c.toNat) (I.th I.low).tid true).map (fun why => cvFault c.toNat why I.en)

/-- The command of an elected lane, once its checks have passed: through its convergence register, or at once. -/
def commitCmd (I : Iss) (s : State) (cls : CmdCls) (tok : Option SReg) (cv : Option (BitVec 4)) (cap : List Word64) : Eff :=
  match cv with
  | none =>
    let n := newCmd I s cls tok none cap
    .ok (startCmd n.2 n.1)
  | some c =>
    match cvRefusal I s cv with
    | some f => .fault f I.s0
    | none =>
      let n := newCmd I s cls tok (some c.toNat) cap
      .ok (cvSigned n.2 I.ref.team c.toNat (I.th I.low).tid (some n.1))

/-- Issue of a command: the wait of a full counter, the release at team scope, the checks, the command (R119, R271). The convergence
register's refusal comes before the memory checks (R393). -/
def issueCmd (I : Iss) (cls : CmdCls) (tok : Option SReg) (cv : Option (BitVec 4))
    (check : Iss → Except FInfo (State × List Word64)) : Eff :=
  if I.gp.counter cls = 255 then .wait 0 I.s0
  else withRelease I 1 (fun J =>
    match check J with
    | .error f => .fault (if memCode f.code then (cvRefusal J J.s cv).getD f else f) J.s0
    | .ok (t, cap) => commitCmd J t cls tok cv cap)

/-- A command with no run-time check. -/
def plainCmd (I : Iss) (cls : CmdCls) (tok : Option SReg) : Eff :=
  issueCmd I cls tok none (fun J => .ok (J.s, []))

/-! ## Completion and retirement (R119, R120) -/

/-- Commands retire in issue order within their class and group; each retirement decrements the counter. -/
def retireCmds (s : State) (own : GRef) (cls : CmdCls) : State :=
  let mine := s.cmds.filter (fun c => decide (c.own = own) && decide (c.cls = cls))
  let done := mine.takeWhile (fun c => decide (c.st = .done))
  if done.isEmpty then s
  else
    let ids := done.map (·.id)
    let t := { s with cmds := s.cmds.filter (fun c => !decide (c.id ∈ ids)) }
    if (Map.find (t.team own.team).groups own.gid).isSome then
      t.updGroup own (fun g => g.setCounter cls (g.counter cls - done.length))
    else t

/-- A token stands in its register, not read yet; the tokens that are still outstanding are those of `keep`. -/
def Group.freshTok (g : Group) (r : Nat) (keep : Nat × Nat → Bool) : Group := { g with toks := g.toks.filter keep, tokNew := g.tokNew ++ [r] }

/-- Writes a command's token, if its group still awaits it (R120). -/
def tokenWrite (s : State) (own : GRef) (id : Nat) (x : Word64) : State :=
  match (s.group own).toks.find? (fun p => decide (p.2 = id)) with
  | none => s
  | some (r, _) =>
    s.updGroup own (fun g => (g.setS r x).freshTok r (fun p => decide (p.2 ≠ id)))

/-- Completes a command: flags, token, retirement (R119, R140). -/
def finishCmd (s : State) (id : Nat) (status : Word64) (flags : Nat) : State :=
  match s.cmd id with
  | none => s
  | some c =>
    let f := if (Map.find (s.team c.own.team).groups c.own.gid).isSome ∧ flags ≠ 0 then s.orFlags c.own flags else s
    let t := tokenWrite f c.own id status
    retireCmds (t.updCmd id (fun c => { c with st := .done, status := status, held := none })) c.own c.cls

/-- A status word: STATUS and the upper half (R227). -/
def statusWord (code : Nat) (hi : Nat) : Word64 := BitVec.ofNat 64 (code + hi * 2 ^ 32)

/-- Has an access failed in translation, a walk's uncorrectable error included (R411, R415)? -/
def MErr.walk (e : MErr) : Bool := decide (e.code ≤ cADDRCANON) || (decide (e.code = cECCU) && decide (e.site = 9))

/-- A copy-family command or ACTLD suspends at a translation fault, its record held (R415). -/
def suspendCmd (s : State) (id : Nat) (e : MErr) (a : Acc) (va prog : Nat) : State :=
  match s.cmd id with
  | none => s
  | some c =>
    let r := mkRec s c.own c.pc.toNat
      { code := e.code, info := e.info a (bitN va 55) true, lanes := [c.lane], addr := va, replay := codeReplay e.code }
    (s.updCmd id (fun c => { c with st := .suspended, prog := prog, held := some { frec := r } })).report c.ctx (.cmd id)

/-! ## What a command names (R276, R285) -/

/-- The operand handles of ATTN and ATTNV, in ascending order (R319). -/
def handleList (m : Word64) : List Nat := (List.range 64).filter (fun i => m.getLsbD i)

def tileOf (c : Cmd) (r : SReg) : Nat := (c.s r).toNat % 8

/-- Tiles that a command reads or writes. -/
def cmdTiles (c : Cmd) : List Nat :=
  let mm := fun (o : OpMma) => (if o.asp then [] else [o.aop.toNat]) ++ (if o.bsp then [] else [o.bop.toNat])
  let cp := fun (o : OpCpy) (l : List Nat) => if o.dir.toNat ∈ l then [tileOf c o.sloc] else []
  match c.instr with
  | .mma o => mm o
  | .mmas o => mm o
  | .acccvt o => if o.asp then [] else [o.aop.toNat]
  | .cpy o => cp o [2, 3, 4, 5]
  | .cpyg o => cp o [2]
  | .cpyx o => cp o [2]
  | .cpyc o => cp o [3]
  | .cpyf o => cp o [2]
  | .attn o => [o.tq.toNat]
  | .attnv o => [o.tq.toNat]
  | .attnf o => [o.t.toNat]
  | _ => []

/-- Accumulators that a MATRIX command names; ATTN's scores span as many as its operands need (R319). -/
def cmdAccs (c : Cmd) : List Nat :=
  match c.instr with
  | .mma o => [o.acc.toNat]
  | .mmas o => [o.acc.toNat]
  | .acccvt o => [o.acc.toNat]
  | .accz o => [o.a.toNat]
  | .accst o => [o.a.toNat]
  | .attn o => (List.range ((64 * (handleList (c.s o.shm)).length + 383) / 384)).map (fun i => o.acc.toNat + i)
  | .attnv o => [o.acc.toNat]
  | _ => []

/-- The commands outstanding of a team's half. -/
def teamCmds (s : State) (g : GRef) : List Cmd :=
  let t := s.team g.team
  s.cmds.filter (fun c => decide (c.own.team = g.team) && decide (c.st ≠ .done) && decide (isUpper t c.own.gid = isUpper t g.gid))

def tilesBusy (s : State) (g : GRef) (ts : List Nat) : Bool := (teamCmds s g).any (fun c => (cmdTiles c).any (fun t => t ∈ ts))
def accBusy (s : State) (g : GRef) (a : Nat) : Bool := (teamCmds s g).any (fun c => decide (a ∈ cmdAccs c))

/-- Handles that an engine command reads: the operands of ATTN and ATTNV, and the ring of KVPF while it fills them. -/
def cmdReadsHandle (c : Cmd) (h : Nat) : Bool :=
  match c.instr with
  | .attn o => decide (h ∈ handleList (c.s o.shm))
  | .attnv o => decide (h ∈ handleList (c.s o.shm))
  | _ => false

/-! ## Access of engines to scratchpad and tiles -/

def upperOf (s : State) (g : GRef) : Bool := isUpper (s.team g.team) g.gid
def tileKey (up : Bool) (t : Nat) : Nat := b2n up * 8 + t
def accKey (up : Bool) (a : Nat) : Nat := b2n up * 4 + a
def tileBytes (t : Team) (up : Bool) (i off n : Nat) : List Byte := Map.getN 0 t.tiles (tileKey up i * 65536 + off) n
def Team.tileWrite (t : Team) (up : Bool) (i off : Nat) (bs : List Byte) : Team :=
  { t with tiles := Map.setN 0 t.tiles (tileKey up i * 65536 + off) bs }
def tileShape (t : Team) (up : Bool) (i : Nat) : Word64 := Map.get 0 t.tc (tileKey up i)
def tileBad (t : Team) (up : Bool) (i : Nat) : Bool := decide (tileKey up i ∈ t.badTile)
def accGet (t : Team) (up : Bool) (a m n : Nat) : Word32 := Map.get 0 t.acc (accKey up a * 98304 + m * 384 + n)
def Team.accPut (t : Team) (up : Bool) (a m n : Nat) (x : Word32) : Team :=
  { t with acc := Map.set 0 t.acc (accKey up a * 98304 + m * 384 + n) x }
def accBad (t : Team) (up : Bool) (a : Nat) : Bool := decide (accKey up a ∈ t.badAcc)

/-! ## The engine's accesses to global memory -/

/-- What part of an engine's work comes to: a value; a failed access; requests that the fabric must answer first, with
none left to send when the answers are awaited. -/
inductive Cp (α : Type) where
  | ok (a : α) (s : State)
  | fault (e : MErr) (a : Acc) (va : Nat) (s : State)
  | ask (l : List (Nat × FabOp)) (s : State)

/-- The request of a command for an address. -/
def cpFind (s : State) (c : Cmd) (va : Nat) (op : FabOp) : Option FabReq :=
  s.fabQ.find? (fun r => decide (r.own = c.own) && decide (r.lane = 64 + c.id) && decide (r.addr.toNat = va) && decide (r.op = op))

/-- Asks the fabric for each request, or gives the answers in order. -/
def cpFab (s : State) (c : Cmd) (a : Acc) (l : List (Nat × FabOp)) : Cp (List (List Byte)) :=
  let rs := l.map (fun p => (p, cpFind s c p.1 p.2))
  let miss := (rs.filter (fun x => x.2.isNone)).map (·.1)
  if !miss.isEmpty then .ask miss s
  else
    let got : List (Nat × Option FabAns) := rs.filterMap (fun x => x.2.map (fun r => (x.1.1, r.ans)))
    if got.any (fun x => x.2.isNone) then .ask [] s
    else
      match got.find? (fun x => match x.2 with | some (FabAns.ok _) => false | _ => true) with
      | some (va, some (FabAns.nack r)) => .fault { code := cFABNACK, level := r.toNat } a va s
      | some (va, _) => .fault { code := cFABTIMEOUT } a va s
      | none => .ok (got.map (fun x => match x.2 with | some (FabAns.ok d) => d | _ => [])) s

/-- Local bytes that a command reads; on a failure those before the failed access stay read (R415). `base`: the bytes that the reads before
this one have given. -/
def gLocal (s : State) (c : Cmd) (base va n : Nat) : Cp (List Byte) :=
  let got := (c.had.drop base).take n
  let va1 := va + got.length
  match vaRead s (s.who c.own) va1 (n - got.length) with
  | .ok (bs, t) => .ok (got ++ bs) t
  | .error (e, a) =>
    let more := match vaRead s (s.who c.own) va1 (a - va1) with
      | .ok (bs, _) => bs
      | .error _ => []
    .fault e .read a (s.updCmd c.id (fun x => { x with had := c.had.take base ++ got ++ more }))

/-- A read of global memory, local or of another chip, for a command. -/
def gRead (s : State) (c : Cmd) (base va n : Nat) : Cp (List Byte) :=
  if farVa va then
    match cpFab s c .read ((pieceList 256 va n).map (fun p => (p.1, .read (fabOff p.1) p.2))) with
    | .ok bs t => .ok (bs.flatMap id) t
    | .fault e a v t => .fault e a v t
    | .ask l t => .ask l t
  else gLocal s c base va n

/-- The requests of a write to another chip. -/
def farWrites (va : Nat) (bs : List Byte) : List (Nat × FabOp) :=
  (pieceList 256 va bs.length).map (fun p => (p.1, FabOp.write (fabOff p.1) ((bs.drop (p.1 - va)).take p.2)))

/-- Writes of global memory for a command, in order. On a failure the command keeps those still to make (R415). -/
def gWrites (s : State) (c : Cmd) : List (Nat × List Byte) → Cp Unit
  | [] => .ok () s
  | (va, bs) :: ws =>
    let keep := fun (t : State) (l : List (Nat × List Byte)) => t.updCmd c.id (fun x => { x with left := l })
    if farVa va then
      match cpFab s c .write (farWrites va bs) with
      | .ok _ t => gWrites t c ws
      | .fault e a v t => .fault e a v (keep t ((va, bs) :: ws))
      | .ask l t => .ask l (keep t ((va, bs) :: ws))
    else
      let r := vaWrite s (s.who c.own) va bs
      match r.2.1 with
      | some (e, a) => .fault e .write a (keep r.1 ((va + r.2.2, bs.drop r.2.2) :: ws))
      | none => gWrites r.1 c ws

/-- The fabric requests of a command go when it ends. -/
def cpDrop (s : State) (c : Cmd) : State :=
  { s with fabQ := s.fabQ.filter (fun r => !(decide (r.own = c.own) && decide (r.lane = 64 + c.id))) }

/-- Sends the requests of a command to the fabric. -/
def cpAsk (s : State) (c : Cmd) (l : List (Nat × FabOp)) : State :=
  l.foldl (fun t p => fabSend t c.own (64 + c.id) .sync p.1 p.2 none c.pc.toNat) s

end Sys2Proof.Machine
end

