-- ==== Sys2Proof/Machine/Kv.lean ====
section
/-! DEFINITION. What the key-value engines share: their accesses at home, descriptors, map entries and geometry (R152 to
R157), allocation (R151), opening and sealing (R159 to R162), snapshots, swaps and frees (R163 to R166), and losses and
charges (R416, R424). An engine's work is a computation that may end in a stop; after `wait` and `park` the state is as
it was before the work, and the work is done again later. -/

namespace Sys2Proof.Machine

/-- How an engine's work stops early: an access fails; it ends with a STATUS and a count; it waits for a slot or for a
retired entry (R151, R164); it waits for a parity block to be XORed out (R176). -/
inductive KStop where
  | mem (e : MErr) (a : Acc) (va : Nat)
  | code (c hi : Nat)
  | wait
  | park (block : Nat)
  deriving DecidableEq, Repr

/-- Work of an engine, and for whom it reads: bytes dirty in the caches of the issuing core and die come first (R119,
R121). -/
abbrev K := ReaderT Who (ExceptT KStop (StateM State))

def kRun {α : Type} (w : Who) (m : K α) (s : State) : Except KStop α × State := Id.run ((ExceptT.run (m.run w)).run s)

/-- Reads for the core of a group; no engine of these has a window (R51). -/
def State.engWho (s : State) (g : GRef) : Who := { s.who g with win := none, own := some g }

def kEnd {α : Type} (c : Nat) : K α := throw (KStop.code c 0)

/-- Work that counts: where it fails, its count is what `f` answers. -/
def kCounting {α : Type} (f : K Nat) (m : K α) : K α :=
  tryCatch m (fun e => match e with
    | .mem x _ _ => do
      let n ← f
      throw (KStop.code x.code n)
    | .code c _ => do
      let n ← f
      throw (KStop.code c n)
    | .wait => throw KStop.wait
    | .park b => throw (KStop.park b))

/-- The same where the work is a command's; an instruction's own failure keeps what it says of the access (R310). -/
def kCountIf {α : Type} (b : Bool) (n : Nat) (m : K α) : K α := if b then kCounting (pure n) m else m

/-- Work whose failure ends nothing else: none after one, and what was done before it stays done (R413). -/
def kTry {α : Type} (m : K α) : K (Option α) :=
  tryCatch (do
      let x ← m
      pure (some x))
    (fun e => match e with
      | .mem _ _ _ => pure none
      | .code _ _ => pure none
      | .wait => throw KStop.wait
      | .park b => throw (KStop.park b))

def kCtx (c : Nat) : K Ctx := do
  let s ← get
  pure (s.ctx c)
def kUpdCtx (c : Nat) (f : Ctx → Ctx) : K Unit := modify (fun s => s.updCtx c f)

/-! ## Accesses -/

def kRead (c va n : Nat) : K (List Byte) := do
  let s ← get
  let w ← read
  match vaReadHome s { w with ctx := c } va n with
  | .error (e, a) =>
    set (s.markErr e)
    throw (KStop.mem e .read a)
  | .ok (bs, t) =>
    set t
    pure bs

def kNat (c va n : Nat) : K Nat := do
  let bs ← kRead c va n
  pure (leNat bs)

/-- The parity block of a polyptych member that a virtual address lies in (R175). -/
def parBlock (s : State) (c va : Nat) : Option Nat :=
  let r := (s.ctx c).regs
  let lo := r.kvhpool.toNat
  if r.kvpolyPos.toNat ≤ 7 ∧ lo ≤ va ∧ va < lo + r.kvhn.toNat * r.kvslot.toNat then some ((va - lo) / 2 ^ 18) else none

/-- A write within one aligned block of 256 bytes, at home, every cached copy dropped. A sealed parity block is XORed
out first; one whose contribution is under way is waited for (R176). -/
def kPiece (c va : Nat) (bs : List Byte) : K Unit := do
  let s0 ← get
  match parBlock s0 c va with
  | some b =>
    if b ∈ (s0.ctx c).parSealed then throw (KStop.park b)
    else if b ∈ (s0.ctx c).parIn then throw KStop.wait
    else kUpdCtx c (fun x => { x with parOut := x.parOut.filter (· ≠ b) })
  | none => pure ()
  let s ← get
  match xlate s (bgWho c) va .write false with
  | .error e => throw (KStop.mem e .write va)
  | .ok (lf, t) =>
    let u := dropEverywhere t lf.pa bs.length
    if bs.length = 256 then set (homeWriteLine u (lineOf lf.pa) bs)
    else
      let r := homeWrite u (lineOf lf.pa) ((bs.zipIdx).map (fun p => (lf.pa + p.2, p.1)))
      set r.1
      match r.2 with
      | some e => throw (KStop.mem e .write va)
      | none => pure ()

def kPieces (c : Nat) : List (Nat × Nat) → List Byte → K Unit
  | [], _ => pure ()
  | (a, k) :: ps, bs => do
    kPiece c a (bs.take k)
    kPieces c ps (bs.drop k)

def kWrite (c va : Nat) (bs : List Byte) : K Unit := kPieces c (pieceList 256 va bs.length) bs
def kPutNat (c va n x : Nat) : K Unit := kWrite c va (leBytes x n)

/-- The SAU's failure: an uncorrectable error is met there (R422). -/
def sauErr (e : MErr) : MErr := { e with site := if e.code = cECCU then 7 else e.site }

/-- A read of a line that only package-scope atomics update: ATM is needed (R157). -/
def kAtom (c va : Nat) : K Unit := do
  let s ← get
  match xlate s (bgWho c) va .atom true with
  | .error e => throw (KStop.mem e .atom va)
  | .ok (lf, t) =>
    match homeRead t lf.pa 1 with
    | .error e => throw (KStop.mem (sauErr e) .atom va)
    | .ok _ => set t

/-! ## Charges (R416) -/

/-- Charges a failure to a request; `own` is the group whose command found it. -/
def kCharge (c rq code info h : Nat) (own : Option GRef) : K Unit :=
  modify (fun s =>
    let base : FRec := match own with
      | some g => mkRec s g 0 { code := code }
      | none => { code := BitVec.ofNat 8 code }
    (chargeRq s c rq code).report c (.loose { base with
      rqf := true, rqidx := BitVec.ofNat 13 rq, info := BitVec.ofNat 16 info, addr := BitVec.ofNat 64 h }))

/-! ## Descriptors (R157) -/

def dAddr (d : Nat) : Nat := recGet d 0 63 0
def dFmt (d : Nat) : Nat := recGet d 8 2 0
def dTier (d : Nat) : Nat := recGet d 8 4 3
def dSealed (d : Nat) : Bool := recGet d 8 5 5 == 1
def dLive (d : Nat) : Bool := recGet d 8 6 6 == 1
def dNtok (d : Nat) : Nat := recGet d 8 14 8
def dGen (d : Nat) : Nat := recGet d 8 31 16
def dScale (d : Nat) : Nat := recGet d 0xC 31 0
def dMass (d : Nat) : Nat := recGet d 0x10 31 0
def dStamp (d : Nat) : Nat := recGet d 0x14 31 0
def dSealstep (d : Nat) : Nat := recGet d 0x18 31 0
def dOrd (d : Nat) : Nat := recGet d 0x1C 31 0
def dSkaddr (d : Nat) : Nat := recGet d 0x20 63 0
def dLg (d : Nat) : Nat := recGet d 0x28 15 0
def dRq (d : Nat) : Nat := recGet d 0x28 28 16
def dReaders (d : Nat) : Nat := recGet d 0x2C 15 0
def dPblk (d : Nat) : Nat := recGet d 0x30 31 0

def noPage : Nat := 0xFFFFFFFF

def kDescVa (c h : Nat) : K Nat := do
  let x ← kCtx c
  pure (x.regs.kvpt.toNat + 64 * h)

def kDesc (c h : Nat) : K Nat := do
  let va ← kDescVa c h
  kAtom c va
  kNat c va 64

/-- An update has met an uncorrectable error in a descriptor's line. If the descriptor can still be read, its page is lost and the
request that it names is charged (R422, R424; log entry 90). -/
def kDescLost (c h pa : Nat) : K Unit := do
  let s ← get
  let w ← read
  match homeRead s pa 64 with
  | .error _ => pure ()
  | .ok bs =>
    let d := leNat bs
    if dLive d then
      set (s.setMem pa (leBytes (recSet d 8 4 3 2) 64))
      kCharge c (dRq d) cKVINTEG 0 h w.own

/-- One update of a descriptor at its SAU, which works on the whole line (R157, R422). -/
def kDescPut (c h d : Nat) : K Unit := do
  let va ← kDescVa c h
  let s ← get
  match xlate s (bgWho c) va .atom true with
  | .error e => throw (KStop.mem e .atom va)
  | .ok (lf, t) =>
    match homeReadLine t lf.pa 64 with
    | .ok _ =>
      set t
      kPutNat c va 64 d
    | .error e =>
      set t
      kDescLost c h lf.pa
      throw (KStop.mem (sauErr e) .atom va)

/-- One atomic on a descriptor. -/
def kDescUpd (c h : Nat) (f : Nat → Nat) : K Unit := do
  let d ← kDesc c h
  kDescPut c h (f d)

/-- Every descriptor of the page table, from handle `i`. -/
def kDescsFrom (c : Nat) : Nat → Nat → K (List (Nat × Nat))
  | 0, _ => pure []
  | f + 1, i => do
    let d ← kDesc c i
    let ds ← kDescsFrom c f (i + 1)
    pure ((i, d) :: ds)

def kDescs (c : Nat) : K (List (Nat × Nat)) := do
  let x ← kCtx c
  kDescsFrom c x.regs.kvptn.toNat 0

/-! ## Map entries and geometry (R152 to R155) -/

def eHead (e : Nat) : Nat := recGet e 0 31 0
def eTail (e : Nat) : Nat := recGet e 4 31 0
def eNpages (e : Nat) : Nat := recGet e 8 31 0
def eTailn (e : Nat) : Nat := recGet e 0xC 6 0

def geoOf (e : Nat) : Geo :=
  { nkvh := recGet e 0xC 15 8, dh := 64 * 2 ^ recGet e 0xC 17 16, nl := recGet e 0xC 19 18 + 1,
    hs := recGet e 0x10 31 0, ts := recGet e 0x14 31 0, ls := recGet e 0x18 31 0 }

/-- The rules of R153 and the ranges of R152. -/
def geoOk (e : Nat) : Bool :=
  let g := geoOf e
  decide (recGet e 0xC 17 16 ≠ 3) && decide (1 ≤ g.nkvh) && decide (g.nkvh ≤ 64) && decide (g.hs % 128 = 0) &&
  decide (g.ts % 128 = 0) && decide (g.ls % 128 = 0) && decide (64 * g.dh ≤ g.hs) && decide (g.nkvh * g.hs ≤ g.ts) &&
  decide (2 * g.ts ≤ g.ls)

def Geo.ne (g : Geo) : Nat := g.nl * g.ls
/-- The element index of R153. -/
def Geo.elem (g : Geo) (l t h j d : Nat) : Nat := l * g.ls + t * g.ts + h * g.hs + j * g.dh + d

/-- Bits of an element of a page format (R154). -/
def kvBits (fmt : Nat) : Nat := if fmt = 0 then 16 else if fmt = 1 then 8 else if fmt = 2 then 6 else 4
def Geo.elemBytes (g : Geo) (fmt : Nat) : Nat := g.ne * kvBits fmt / 8
def Geo.scaleAt (g : Geo) (fmt : Nat) : Nat := 64 + g.elemBytes fmt
def Geo.bodySize (g : Geo) (fmt : Nat) : Nat :=
  (g.scaleAt fmt + (if 2 ≤ fmt then g.ne / 32 else 0) + 255) / 256 * 256
def Geo.sketchSize (g : Geo) : Nat := 4 * g.nl * g.nkvh * g.dh

def kEntVa (c rq lg : Nat) : K Nat := do
  let x ← kCtx c
  let r ← kNat c (x.regs.rqtab.toNat + 128 * rq) 128
  pure (Rq.kvroot r + 64 * lg)

def kGeo (c rq lg : Nat) : K Geo := do
  let va ← kEntVa c rq lg
  let e ← kNat c va 64
  pure (geoOf e)

/-- Leaves a map entry unmapped (R310). -/
def unmapped (e : Nat) : Nat := recSet (recSet (recSet (recSet e 0 31 0 noPage) 4 31 0 noPage) 8 31 0 0) 0xC 6 0 0

/-! ## Requests -/

def kRq (c rq : Nat) : K Nat := do
  let x ← kCtx c
  kNat c (x.regs.rqtab.toNat + 128 * rq) 128

def kRqPut (c rq r : Nat) : K Unit := do
  let x ← kCtx c
  kPutNat c (x.regs.rqtab.toNat + 128 * rq) 128 r

/-- Moves a page's count: PAGES and LPAGES of a request change by the given amounts. -/
def kCount (c rq : Nat) (dp dl : Int) : K Unit := do
  let r ← kRq c rq
  let p := ((Rq.pages r : Int) + dp).toNat
  let l := ((Rq.lpages r : Int) + dl).toNat
  kRqPut c rq (Rq.setLpages (Rq.setPages r p) l)

/-- FREEPG changes (R61). -/
def kFreepg (c : Nat) (k : Int) : K Unit :=
  kUpdCtx c (fun x => { x with former := { x.former with
    freepg := BitVec.ofInt 32 (max 0 ((x.former.freepg.toNat : Int) + k)) } })

/-! ## Allocation (R151) -/

/-- How a slot stands: 0 free; 1 still read by holders of a retired or freed body; 2 taken. -/
def slotUse (s : State) (c : Nat) (ds : List (Nat × Nat)) (a : Nat) : Nat :=
  if ds.any (fun p => dLive p.2 && decide (dAddr p.2 = a)) then 2
  else if ds.any (fun p => decide (dAddr p.2 = a) && decide (dReaders p.2 ≠ 0)) ||
      s.retired.any (fun r => decide (r.ctx = c) && decide (r.addr.toNat = a)) then 1
  else 0

def firstSlot (use : Nat → Nat) : Nat → Nat → Option Nat
  | 0, _ => none
  | f + 1, i => if use i ≠ 2 then some i else firstSlot use f (i + 1)

def countSlots (use : Nat → Nat) : Nat → Nat → Nat
  | 0, _ => 0
  | f + 1, i => (if use i ≠ 2 then 1 else 0) + countSlots use f (i + 1)

/-- The lowest free slot of a pool: its address. Slots of the LPDDR-6 pool that evictions in progress will take are not
offered (log entry 12). -/
def kSlot (c : Nat) (hbm evict : Bool) : K (Option Nat) := do
  let ds ← kDescs c
  let s ← get
  let x := s.ctx c
  let base := if hbm then x.regs.kvhpool.toNat else x.regs.kvlpool.toNat
  let n := if hbm then x.regs.kvhn.toNat else x.regs.kvln.toNat
  let addr := fun (i : Nat) => base + i * x.regs.kvslot.toNat
  let use := fun (i : Nat) => slotUse s c ds (addr i)
  if !hbm && !evict && decide (countSlots use n 0 ≤ x.evicting.length) then pure none
  else
    match firstSlot use n 0 with
    | none => if hbm && !x.evicting.isEmpty then throw KStop.wait else pure none
    | some i => if use i = 1 then throw KStop.wait else pure (some (addr i))

/-- The lowest handle that is not live and has no readers (R151). -/
def kHandle (c : Nat) : K (Option Nat) := do
  let ds ← kDescs c
  pure ((ds.find? (fun p => !dLive p.2 && decide (dReaders p.2 = 0))).map (·.1))

/-- PBLK of a body in HBM (R157). -/
def pblkOf (x : Ctx) (addr : Nat) : Nat :=
  if x.regs.kvpolyPos.toNat ≤ 7 then (addr - x.regs.kvhpool.toNat) / 2 ^ 18 else noPage

/-- FP32 1.0. -/
def one32 : Nat := 0x3F800000

/-- A body's header (R156). -/
def hdrBytes (succ ord fmt ntok gen scale rq lg h crc : Nat) : List Byte :=
  leBytes (succ + ord * 2 ^ 32 + (fmt + 256 * ntok + 65536 * gen) * 2 ^ 64 + scale * 2 ^ 96 + (rq + 65536 * lg) * 2 ^ 128 +
    h * 2 ^ 160 + crc * 2 ^ 480) 64

/-- A descriptor (R157). SEALSTEP of an open page, of which R159 says nothing, is 0 until the seal writes it (log entry 91). -/
def mkDesc (addr fmt tier lv ntok gen scale stamp ord sk lg rq pblk : Nat) : Nat :=
  addr + (fmt + 8 * tier + 64 * lv + 256 * ntok + 65536 * gen) * 2 ^ 64 + scale * 2 ^ 96 + stamp * 2 ^ 160 +
    ord * 2 ^ 224 + sk * 2 ^ 256 + (lg + 65536 * rq) * 2 ^ 320 + pblk * 2 ^ 384

/-- Opens a page (R159) at an allocated handle and slot. -/
def kOpenAt (c rq lg ord h a : Nat) (g : Geo) : K Unit := do
  let x ← kCtx c
  kWrite c a (List.replicate (g.bodySize 0) 0)
  kWrite c a (hdrBytes noPage ord 0 0 0 one32 rq lg h 0)
  kDescPut c h (mkDesc a 0 0 1 0 0 one32 x.former.step.toNat ord (x.regs.kvsk.toNat + x.regs.kvsksz.toNat * h) lg rq
    (pblkOf x a))
  kCount c rq 1 0
  kFreepg c (-1)

/-- Allocates and opens a page: its handle, none where no handle or slot is free (R423). A slot that is still read is waited for before
a missing handle is found (log entry 92). -/
def kOpen (c rq lg ord : Nat) (g : Geo) : K (Option Nat) := do
  let h? ← kHandle c
  let a? ← kSlot c true false
  match h?, a? with
  | some h, some a =>
    kOpenAt c rq lg ord h a g
    pure (some h)
  | _, _ => pure none

/-! ## Losses (R424) -/

/-- The parity blocks that the body of a page overlaps (R429). -/
def bodyBlocks (x : Ctx) (d : Nat) (g : Geo) : List Nat :=
  let last := (dAddr d - x.regs.kvhpool.toNat + g.bodySize (dFmt d) - 1) / 2 ^ 18
  (List.range (last + 1 - dPblk d)).map (fun i => dPblk d + i)

/-- Could a page found lost be rebuilt, as the member knows it: its block at PBLK is in its stripe (R424, R428; log entry 46)? -/
def rebuildable (x : Ctx) (d : Nat) : Bool :=
  decide (x.regs.kvpolyPos.toNat ≤ 7) && decide (dPblk d ≠ noPage) && decide (dPblk d ∈ x.parSealed)

/-- The loss of a page, and the charge where it cannot be rebuilt (R424). -/
def kLoss (c h found : Nat) (crc : Bool) (own : Option GRef) : K Unit := do
  let d ← kDesc c h
  kDescPut c h (recSet d 8 4 3 2)
  let x ← kCtx c
  if rebuildable x d then pure () else kCharge c (dRq d) cKVINTEG (found + 4 * b2n crc) h own

/-- SUCC of a page's header; a soft error there loses the page (R410, R424). `found`: FOUND of the charge (log entry 90). -/
def kSuccOf (c h addr found : Nat) (own : Option GRef) : K Nat := do
  let s ← get
  let w ← read
  match vaReadHome s { w with ctx := c } addr 4 with
  | .ok (bs, t) =>
    set t
    pure (leNat bs)
  | .error (e, a) =>
    set (s.markErr e)
    let d ← kDesc c h
    if cECCU ≤ e.code ∧ dTier d ≠ 2 then kLoss c h found false own
    throw (KStop.mem e .read a)

/-- Reads a body: false if a soft error is met, the CRC not among them. -/
def kBody (c addr n : Nat) : K (Option (List Byte)) := do
  let s ← get
  let w ← read
  match vaReadHome s { w with ctx := c } addr n with
  | .ok (bs, t) =>
    set t
    pure (some bs)
  | .error (e, a) =>
    set (s.markErr e)
    if cECCU ≤ e.code then pure none else throw (KStop.mem e .read a)

/-- Reads a body of a page; a soft error in it loses the page and ends the work (R424). -/
def kBodyOf (c h addr n : Nat) (own : Option GRef) : K (List Byte) := do
  match ← kBody c addr n with
  | some bs => pure bs
  | none =>
    kLoss c h 0 false own
    kEnd cECCU

/-! ## Sealing (R161, R162) -/

/-- One bit and one byte of CRC-32C, the reflected polynomial 0x82F63B78 (R156). -/
def crcStep (x : Nat) : Nat := (x / 2) ^^^ (x % 2 * 0x82F63B78)
def crcByte (x : Nat) (b : Byte) : Nat :=
  crcStep (crcStep (crcStep (crcStep (crcStep (crcStep (crcStep (crcStep (x ^^^ b.toNat))))))))

/-- CRC-32C of bytes (R156). -/
def crc32c (bs : List Byte) : Nat := bs.foldl crcByte 0xFFFFFFFF ^^^ 0xFFFFFFFF

/-- The order of BF16 codes that are no NaN, +0 above −0. -/
def bfKey (x : Nat) : Nat := if 0x8000 ≤ x then 0xFFFF - x else 0x8000 + x
def bfNan (x : Nat) : Bool := decide (0x7F80 < x % 0x8000)

def bfExt (mx : Bool) (xs : List Nat) : Nat :=
  if xs.any bfNan then 0x7FC0
  else
    match xs with
    | [] => 0
    | y :: ys => ys.foldl (fun a b => if (if mx then bfKey a < bfKey b else bfKey b < bfKey a) then b else a) y

/-- An element's code in a body. -/
def codeAt (body : Nat) (fmt e : Nat) : Nat := (body / 2 ^ (512 + kvBits fmt * e)) % 2 ^ kvBits fmt

/-- The sketch of a BF16 body (R162). -/
def sketchOf (g : Geo) (body ntok : Nat) : List Byte :=
  (List.range g.nl).flatMap (fun l => (List.range g.nkvh).flatMap (fun h => [true, false].flatMap (fun mx =>
    (List.range g.dh).flatMap (fun d =>
      leBytes (bfExt mx ((List.range ntok).map (fun j => codeAt body 0 (g.elem l 0 h j d)))) 2))))

/-- Seals the tail of a map entry at `va`: the new tail, none where no page can be opened. A soft error in the body, which is read before
anything is written, loses the page and ends the command (R417, R424). -/
def kSeal (c va : Nat) : K (Option Nat) := do
  let w ← read
  let e ← kNat c va 64
  let g := geoOf e
  let t := eTail e
  let d ← kDesc c t
  let a := dAddr d
  let bs ← kBodyOf c t a (g.bodySize 0) w.own
  let n? ← kOpen c (dRq d) (dLg d) ((dOrd d + 1) % 2 ^ 32) g
  match n? with
  | none => pure none
  | some n =>
    let x ← kCtx c
    kPutNat c a 4 n
    kWrite c (dSkaddr d) (sketchOf g (leNat bs) (eTailn e))
    kPutNat c (a + 9) 1 (eTailn e)
    kPutNat c (a + 0x3C) 4 (crc32c (bs.drop 64))
    kDescUpd c t (fun d => recSet (recSet (recSet d 8 5 5 1) 8 14 8 (eTailn e)) 0x18 31 0 x.former.step.toNat)
    kPutNat c va 64 (recSet (recSet (recSet e 4 31 0 n) 8 31 0 (eNpages e + 1)) 0xC 6 0 0)
    pure (some n)

/-! ## Snapshots, swaps, frees (R163 to R166) -/

def kSnap (c h : Nat) : K Snap := do
  let d ← kDesc c h
  let counted : Bool := decide (dTier d ≠ 2)
  if counted then kDescPut c h (recSet d 0x2C 15 0 (dReaders d + 1))
  pure { page := BitVec.ofNat 32 h, gen := BitVec.ofNat 16 (dGen d), fmt := BitVec.ofNat 3 (dFmt d),
         tier := BitVec.ofNat 2 (dTier d), ntok := BitVec.ofNat 7 (dNtok d), scale := BitVec.ofNat 32 (dScale d),
         ord := BitVec.ofNat 32 (dOrd d), addr := BitVec.ofNat 64 (dAddr d), counted := counted }

/-- The retired entries after one reader of a body has gone: the entry of that body counts one less, and vanishes at 0. -/
def dropReader (c h : Nat) (gen : BitVec 16) (addr : Word64) : List Retired → List Retired
  | [] => []
  | r :: rs =>
    if r.ctx = c ∧ r.handle = h ∧ r.gen = gen ∧ r.addr = addr then
      (if r.count ≤ 1 then rs else { r with count := r.count - 1 } :: rs)
    else r :: dropReader c h gen addr rs

/-- Releases a snapshot (R164). -/
def kRelease (c : Nat) (sn : Snap) : K Unit := do
  if sn.counted then
    let h := sn.page.toNat
    let d ← kDesc c h
    let s ← get
    if dGen d = sn.gen.toNat then kDescPut c h (recSet d 0x2C 15 0 (dReaders d - 1))
    else set { s with retired := dropReader c h sn.gen sn.addr s.retired }

/-- The memory die whose SAU holds the retired entries of a descriptor: that of its line. -/
def descDie (s : State) (c h : Nat) : Nat :=
  match xlate s (bgWho c) ((s.ctx c).regs.kvpt.toNat + 64 * h) .read false with
  | .ok (lf, _) => lf.pa / 2 ^ 37
  | .error _ => 0

/-- The swap (R163): false if GEN has moved on. It waits for a retired entry where the die's 512 are taken (R164); a body
without readers needs none, for its entry would vanish at once (log entry 73). -/
def kSwap (c h gen addr fmt tier scale : Nat) : K Bool := do
  let d ← kDesc c h
  if dGen d ≠ gen then pure false
  else
    let s ← get
    let die := descDie s c h
    if dReaders d ≠ 0 ∧ 512 ≤ (s.retired.filter (fun r => decide (descDie s r.ctx r.handle = die))).length then
      throw KStop.wait
    else
      if dReaders d ≠ 0 then
        let r : Retired :=
          { ctx := c, handle := h, gen := BitVec.ofNat 16 gen, addr := BitVec.ofNat 64 (dAddr d),
            tier := BitVec.ofNat 2 (dTier d), count := dReaders d, seald := dSealed d }
        set { s with retired := s.retired ++ [r] }
      let pb := if tier = 0 then pblkOf (s.ctx c) addr else noPage
      let a := recSet (recSet (recSet (recSet d 0 63 0 addr) 8 2 0 fmt) 8 4 3 tier) 0xC 31 0 scale
      kDescPut c h (recSet (recSet (recSet a 8 31 16 (gen + 1)) 0x2C 15 0 0) 0x30 31 0 pb)
      pure true

/-- Does an address lie in the HBM slot pool? -/
def inHbmPool (x : Ctx) (a : Nat) : Bool :=
  decide (x.regs.kvhpool.toNat ≤ a) && decide (a < x.regs.kvhpool.toNat + x.regs.kvhn.toNat * x.regs.kvslot.toNat)

/-- Frees a page (R166): its successor. A soft error in its header loses it (R424). -/
def kFree (c h : Nat) : K Nat := do
  let w ← read
  let d ← kDesc c h
  let succ ← kSuccOf c h (dAddr d) 0 w.own
  let x ← kCtx c
  let hbm := if dTier d = 2 then inHbmPool x (dAddr d) else dTier d = 0
  kDescPut c h (recSet d 8 6 6 0)
  if hbm then
    kCount c (dRq d) (-1) 0
    kFreepg c 1
  else kCount c (dRq d) 0 (-1)
  kUpdCtx c (fun y => { y with
    evicting := y.evicting.filter (· ≠ h), returning := y.returning.filter (· ≠ h), lostWith := y.lostWith.filter (· ≠ h) })
  pure succ

/-- Frees the chain of a map entry at `va` from its HEAD: how many pages (R310, R315). `cmd`: for a command, whose failure counts them. -/
def kFreeChain (cmd : Bool) (c va : Nat) : Nat → Nat → K Nat
  | 0, n => pure n
  | f + 1, n => do
    let e ← kCountIf cmd n (kNat c va 64)
    if eNpages e = 0 then
      if eHead e = noPage ∧ eTail e = noPage ∧ eTailn e = 0 then pure n
      else
        kCountIf cmd n (kPutNat c va 64 (unmapped e))
        pure n
    else
      let succ ← kCountIf cmd n (kFree c (eHead e))
      let k := eNpages e - 1
      let e' := recSet (recSet e 0 31 0 succ) 8 31 0 k
      kCountIf cmd (n + 1) (kPutNat c va 64 (if k = 0 then unmapped e' else e'))
      kFreeChain cmd c va f (n + 1)

/-- Reads the whole body of a page and checks it where R156 says so; on a failure the page is lost. -/
def kWhole (c h found : Nat) (own : Option GRef) : K (Option (List Byte)) := do
  let d ← kDesc c h
  let g ← kGeo c (dRq d) (dLg d)
  let b? ← kBody c (dAddr d) (g.bodySize (dFmt d))
  match b? with
  | none =>
    kLoss c h found false own
    pure none
  | some bs =>
    if dSealed d ∧ crc32c (bs.drop 64) ≠ leNat ((bs.drop 0x3C).take 4) then
      kLoss c h found true own
      pure none
    else pure (some bs)

/-! ## Running an engine's work -/

/-- Flags of a command that completes (R140). -/
def kFlags (own : GRef) (f : Nat) : K Unit :=
  modify (fun s => if (Map.find (s.team own.team).groups own.gid).isSome then s.orFlags own f else s)

/-- The STATUS of a stop (R413). -/
def KStop.status : KStop → Nat
  | .mem e _ _ => e.code
  | .code c _ => c
  | .wait => 0
  | .park _ => 0

/-- Asks for a block to be XORed out. -/
def askOut (s : State) (c b : Nat) : State :=
  s.updCtx c (fun x => if b ∈ x.parOut then x else { x with parOut := x.parOut ++ [b] })

/-- Runs work in the background: a stop other than a wait leaves what was done; a wait leaves nothing (R413). -/
def kBackground {α : Type} (c : Nat) (m : K α) (s : State) : State :=
  match kRun (bgWho c) m s with
  | (.ok _, t) => t
  | (.error .wait, _) => s
  | (.error (.park b), _) => askOut s c b
  | (.error (.mem _ _ _), t) => t
  | (.error (.code _ _), t) => t

/-- Runs the work of a command, which answers the upper half of its status word. A wait leaves the command running. -/
def kCommand (c : Cmd) (m : K Nat) (s : State) : State :=
  match kRun (s.engWho c.own) m s with
  | (.ok hi, t) => finishCmd t c.id (statusWord 0 hi) 0
  | (.error .wait, _) => s
  | (.error (.park b), _) => askOut s c.ctx b
  | (.error (.mem e _ _), t) => finishCmd t c.id (statusWord e.code 0) 0
  | (.error (.code x hi), t) => finishCmd t c.id (statusWord x hi) 0

end Sys2Proof.Machine
end

