-- ==== Sys2Proof/Machine/Handles.lean ====
section
/-! DEFINITION. Buffer handles (R298 to R300), the object table (R286 to R288) and OBJQ (R301). -/

namespace Sys2Proof.Machine

/-! ## Handles -/

/-- The handle's move to FREE: its snapshot is released, and FAIL clears (R300, R425). -/
def freeHandle (s : State) (ctx v h : Nat) : State :=
  let hd := (s.ctx ctx).handle v h
  let t := match hd.snap with
    | some sn => kBackground ctx (kRelease ctx sn) s
    | none => s
  t.updHandle ctx v h (fun x => { x with st := 0, fail := false, tsel := 0, snap := none })

def Iss.ctx (I : Iss) : Nat := I.tm.ctx
def Iss.handle (I : Iss) (h : HReg) : Handle := (I.s.ctx I.tm.ctx).handle (I.s.vcoreRef I.ref) h.toNat
def Iss.updHandle (I : Iss) (h : HReg) (f : Handle → Handle) : State :=
  I.s.updHandle I.tm.ctx (I.s.vcoreRef I.ref) h.toNat f

/-- Alignment is checked first, then the region (R299). -/
def execHbind (o : OpHb) (s : State) : Host.Outcome State Fault Refusal :=
  issue (.hbind o) s (fun I =>
    let x := (I.rs o.a).toNat
    let off := bitsN x 22 0
    let size := bitsN x 55 32
    if off % 256 ≠ 0 ∨ size % 256 ≠ 0 ∨ size = 0 then I.failMem { code := cALIGN, site := 14 } .read I.en off
    else if !scrIn I.tm.decl off size then I.failMem { code := cPGPROT, site := 1 } .read I.en off
    else if (I.handle o.hd).st ≠ 0 then .wait 6 I.s0
    else .ok (I.updHandle o.hd (fun h => { h with offset := BitVec.ofNat 23 off, size := BitVec.ofNat 24 size, team := I.ref.team })))

/-- The state goes on from its predecessor; to FULL as a release, to FREE with the snapshot released (R299, R300). -/
def execHset (o : OpHs) (s : State) : Host.Outcome State Fault Refusal :=
  issue (.hset o) s (fun I =>
    if (I.handle o.hd).st + 1 ≠ o.st then .wait 6 I.s0
    else if o.st = 0 then .ok (freeHandle I.s I.tm.ctx (I.s.vcoreRef I.ref) o.hd.toNat)
    else if o.st = 2 then withRelease I 1 (fun J => .ok (J.updHandle o.hd (fun h => { h with st := 2 })))
    else .ok (I.updHandle o.hd (fun h => { h with st := o.st })))

/-- Parks until the handle stands as named; FULL is an acquire (R299, R300). -/
def execHwait (o : OpHs) (s : State) : Host.Outcome State Fault Refusal :=
  issue (.hwait o) s (fun I =>
    if (I.handle o.hd).st = o.st then .ok (if o.st = 2 then acqState I.s I.ref 1 else I.s)
    else .ok (I.s.updGroup I.ref (fun g => g.mapLanes I.en (fun _ t => { t with st := .parked (.hwait o.hd.toNat o.st) }))))

/-- Is an engine command that reads a handle outstanding on a virtual core? -/
def handleRead (s : State) (ctx v h : Nat) : Bool :=
  s.cmds.any (fun c => decide (c.ctx = ctx) && decide (c.st ≠ .done) && cmdReadsHandle c h && decide (s.vcoreRef c.own = v))

def execHrel (o : OpHr) (s : State) : Host.Outcome State Fault Refusal :=
  issue (.hrel o) s (fun I =>
    let hd := I.handle o.hd
    let v := I.s.vcoreRef I.ref
    if hd.st = 1 ∨ handleRead I.s I.tm.ctx v o.hd.toNat then .wait 6 I.s0
    else if hd.st = 0 then .ok I.s
    else .ok (freeHandle I.s I.tm.ctx v o.hd.toNat))

/-- The words of a handle's record (R298). -/
def handleWord (h : Handle) (i : Nat) : Nat :=
  match i, h.snap with
  | 0, sn => h.st.toNat + 4 * b2n sn.isSome + 8 * b2n h.fail + h.filled.toNat * 2 ^ 32
  | 1, sn => h.offset.toNat + h.size.toNat * 2 ^ 32 + (if sn.isSome then h.tsel.toNat else 0) * 2 ^ 56
  | 2, some sn =>
    sn.page.toNat + sn.gen.toNat * 2 ^ 32 + sn.fmt.toNat * 2 ^ 48 + sn.tier.toNat * 2 ^ 51 + sn.ntok.toNat * 2 ^ 53
  | 3, some sn => sn.scale.toNat + sn.ord.toNat * 2 ^ 32
  | 4, some sn => sn.addr.toNat
  | _, _ => 0

/-! ## The object table -/

/-- An entry (R287) as a number of 512 bits. -/
def oBase (e : Nat) : Nat := recGet e 0 63 0
def oFmt (e : Nat) : Nat := recGet e 8 3 0
def oNdm1 (e : Nat) : Nat := recGet e 8 7 5
def oRd (e : Nat) : Bool := recGet e 8 16 16 == 1
def oWr (e : Nat) : Bool := recGet e 8 17 17 == 1
def oValid (e : Nat) : Bool := recGet e 8 18 18 == 1
def oGen (e : Nat) : Nat := recGet e 0xC 15 0
/-- Dimensions above NDM1 read as 1. -/
def oDim (e k : Nat) : Nat := if k ≤ oNdm1 e then recGet e (0x10 + 4 * k) 31 0 else 1
def oStr (e k : Nat) : Nat := recGet e (0x28 + 4 * (k - 1)) 31 0
def oSbase (e : Nat) : Nat := recGet e 0x38 63 0

/-- Reads an entry: by index, or by a bindless handle with its generation (R288). `eng`: for a command. -/
def objEntry (I : Iss) (eng bl : Bool) (idx handle : Nat) : Except FInfo (Nat × State) :=
  let r := (I.s.ctx I.tm.ctx).regs
  let i := if bl then bitsN handle 31 12 else idx
  let n := if bl then r.objbln.toNat else r.objn.toNat
  let va := (if bl then r.objbl.toNat else r.objt.toNat) + 64 * i
  if n ≤ i then .error { code := cOBJBOUNDS, lanes := I.en }
  else
    match vaRead I.s I.who va 64 with
    | .error (e, a) => .error (memFault e .read eng I.en a)
    | .ok (bs, t) =>
      let x := leNat bs
      if bl && decide (oGen x % 4096 ≠ bitsN handle 11 0) then .error { code := cSTALEHANDLE, lanes := I.en }
      else .ok (x, t)

/-- An entry as OBJQ shows it: reserved bits read as zero (R6), dimensions above NDM1 as 1 (R287; log entry
78). -/
def objShown (e : Nat) : Nat :=
  let x := e &&& masks [(0, 63, 0), (8, 18, 0), (0xC, 15, 0), (0x10, 159, 0), (0x28, 127, 0), (0x38, 63, 0)]
  [0, 1, 2, 3, 4].foldl (fun a k => recSet a (0x10 + 4 * k) 31 0 (oDim e k)) x

def execObjq (o : OpObjq) (s : State) : Host.Outcome State Fault Refusal :=
  issue (.objq o) s (fun I =>
    let put := fun (t : State) (x : Nat) => t.updGroup I.ref (fun g => g.setS o.d.toNat (BitVec.ofNat 64 x))
    let w := o.word.toNat
    match o.mode with
    | 0 => .ok (put I.s (handleWord ((I.s.ctx I.tm.ctx).handle (I.s.vcoreRef I.ref) o.sa.toNat) w))
    | 1 =>
      let a := (I.gp.rs o.sa.toNat).toNat
      match objEntry I false o.bl (a % 65536) (a % 2 ^ 32) with
      | .error f => .fault f I.s0
      | .ok (e, t) => .ok (put t (objShown e / 2 ^ (64 * w) % 2 ^ 64))
    | _ =>
      let up := isUpper I.tm I.ref.gid
      .ok (put I.s (if w = 0 then (tileShape I.tm up (o.sa.toNat % 8)).toNat else 0)))

end Sys2Proof.Machine
end

