-- ==== Sys2Proof/Machine/Requests.lean ====
section
/-! DEFINITION. The request instructions and the batch former (R56 to R67, R307 to R311, R401, R414). -/

namespace Sys2Proof.Machine

/-! ## Records as instructions reach them -/

/-- The RW fields of R57. -/
def rwMask : Nat :=
  masks [(0, 21, 20), (0, 26, 24), (0, 31, 28), (0x14, 31, 0), (0x18, 31, 0), (0x20, 255, 0), (0x50, 31, 0), (0x54, 15, 0),
    (0x60, 63, 0)]
/-- The RWP fields of R57. -/
def rwpMask : Nat := masks [(0x10, 31, 0), (0x44, 31, 0), (0x48, 63, 0), (0x54, 31, 16), (0x58, 63, 0)]

/-- The RO fields of R57. -/
def roMask : Nat :=
  masks [(0, 12, 0), (0, 18, 16), (0, 27, 27), (4, 15, 0), (4, 23, 16), (8, 63, 0), (0x1C, 31, 0), (0x40, 31, 0), (0x68, 31, 0),
    (0x6C, 31, 0)]
/-- Every field; the reserved bits of a record read as zero (R6). -/
def recMask : Nat := rwMask ||| rwpMask ||| roMask

/-- Replaces the bits of `m` in `r` by those of `x`. -/
def maskPut (r m x : Nat) : Nat := (r - (r &&& m)) + (x &&& m)

/-- A fault of a request instruction: STATE and reason (R392). -/
def rqFault (lanes : List Nat) (st reason : Nat) : FInfo := { code := cRQSTATE, info := st + 8 * reason, lanes := lanes }

/-- An access of the former that fails at an instruction (R310, R413, R414). -/
def rqMem (lanes : List Nat) (e : MErr) (a : Acc) (va : Nat) : FInfo := memFault e a true lanes va

/-- For whom the former of an issue reads: the former has no window (R51). -/
def Iss.kWho (I : Iss) : Who := { I.who with win := none, own := some I.ref }

/-- Runs the former's work for an instruction: its value in the state after it, a wait, or an exact fault; what was done
before a fault stays done. -/
def withK {α : Type} (I : Iss) (m : K α) (f : α → State → Eff) : Eff :=
  match kRun I.kWho m I.s with
  | (.ok x, t) => f x t
  | (.error .wait, _) => .wait 0 I.s0
  | (.error (.park b), _) => .wait 0 (askOut I.s0 I.tm.ctx b)
  | (.error (.mem e a va), _) => .fault (rqMem I.en e a va) (kRun I.kWho m I.s0).2
  | (.error (.code x _), _) => .fault { code := x, lanes := I.en } (kRun I.kWho m I.s0).2

/-- A request instruction takes effect before or after an RQSTEP: it waits while one is in its eviction action (R63, R309). -/
def atFormer (I : Iss) (f : Eff) : Eff := if (I.s.ctx I.tm.ctx).former.stage.isSome then .wait 0 I.s0 else f

/-- A record for an instruction: out of range, or its bytes (R307). -/
def withRec (I : Iss) (i : Nat) (f : Nat → State → Eff) : Eff :=
  if 8192 ≤ i then .fault (rqFault I.en 0 1) I.s0 else atFormer I (withK I (kRq I.tm.ctx i) f)

/-- Writes a record and goes on. -/
def putRec (I : Iss) (i r : Nat) (f : State → Eff) : Eff := withK I (kRqPut I.tm.ctx i r) (fun _ t => f t)

def updFormer (s : State) (ctx : Nat) (f : Former → Former) : State := s.updCtx ctx (fun c => { c with former := f c.former })
def setSIn (s : State) (g : GRef) (d : SReg) (x : Nat) : State := s.updGroup g (fun y => y.setS d.toNat (BitVec.ofNat 64 x))

/-! ## RQADMIT (R308) -/

/-- The lowest index whose record is FREE and not withheld. -/
def kFreeRec (c : Nat) (held : List Nat) : Nat → Nat → K (Option Nat)
  | 0, _ => pure none
  | f + 1, i => do
    let x ← kCtx c
    let w ← kNat c (x.regs.rqtab.toNat + 128 * i) 4
    if Rq.state w = rqFREE ∧ i ∉ held then pure (some i) else kFreeRec c held f (i + 1)

/-- The record of an image (R308). -/
def admitRec (img i seq : Nat) : Nat :=
  let a := img &&& (rwMask ||| rwpMask)
  recSet (recSet (Rq.setSlot (Rq.setState (recSet a 0 12 0 i) rqPENDING) 0xFFFF) 8 63 0 seq) 0x40 31 0 0xFFFFFFFF

def kAdmit (c img : Nat) : K Nat := do
  let x ← kCtx c
  match ← kFreeRec c (x.former.withheld.map (·.1)) 8192 0 with
  | none => pure (2 ^ 64 - 1)
  | some i =>
    kRqPut c i (admitRec img i x.former.nextseq.toNat)
    kUpdCtx c (fun y => { y with former := { y.former with nextseq := y.former.nextseq + 1 } })
    pure i

/-- RQADMIT's result: the index, or, where an access fails, a status word with its code and no record (R413). -/
def admitEff (I : Iss) (d : SReg) : Except KStop Nat × State → Eff
  | (.ok i, t) => .ok (setSIn t I.ref d i)
  | (.error .wait, _) => .wait 0 I.s0
  | (.error (.park b), _) => .wait 0 (askOut I.s0 I.tm.ctx b)
  | (.error (.mem e _ _), t) => .ok (setSIn t I.ref d (statusWord e.code 0).toNat)
  | (.error (.code c _), t) => .ok (setSIn t I.ref d (statusWord c 0).toNat)

def execRqadmit (o : OpSd) (s : State) : Host.Outcome State Fault Refusal :=
  issue (.rqadmit o) s (fun I =>
    let off := (I.rs o.a).toNat
    let up := isUpper I.tm I.ref.gid
    match checkScr I.tm up 128 .read (I.en.map (fun l => (l, off))) with
    | some f => .fault f I.s0
    | none =>
      let img := leNat (scrRead I.tm up off 128)
      if Rq.nlg img = 0 ∨ 4096 < Rq.nlg img ∨ Rq.kvroot img % 64 ≠ 0 ∨ Rq.kvroot img = 0 then .fault (rqFault I.en 0 0) I.s0
      else atFormer I (admitEff I o.d (kRun I.kWho (kAdmit I.tm.ctx img) I.s)))

/-! ## RQRD and RQWR (R309) -/

/-- A register of the former at an offset. -/
def formerReg (f : Former) (off : Nat) : Nat :=
  match off with
  | 0x00 => f.nslot.toNat
  | 0x08 => f.chunk.toNat
  | 0x10 => f.lowwm.toNat
  | 0x18 => f.highwm.toNat
  | 0x20 => f.freepg.toNat
  | 0x28 => f.step.toNat
  | 0x30 => f.nextseq.toNat
  | 0x38 => f.steptab.toNat
  | _ => 0

def execRqrd (o : OpRqrd) (s : State) : Host.Outcome State Fault Refusal :=
  issue (.rqrd o) s (fun I =>
    let i := (I.rs o.a).toNat % 65536
    if i = 0xFFFF then atFormer I (.ok (setSIn I.s I.ref o.d (formerReg (I.s.ctx I.tm.ctx).former o.off.toNat)))
    else withRec I i (fun r t => .ok (setSIn t I.ref o.d (recGet (r &&& recMask) o.off.toNat 63 0))))

/-- A write of the former's RW registers. -/
def formerWr (f : Former) (off : Nat) (w : Bool) (x : Nat) : Former :=
  match off with
  | 0x00 => { f with nslot := BitVec.ofNat 11 x }
  | 0x08 => { f with chunk := BitVec.ofNat 13 x }
  | 0x10 => { f with lowwm := BitVec.ofNat 32 x }
  | 0x18 => { f with highwm := BitVec.ofNat 32 x }
  | 0x38 =>
    { f with steptab := if w then BitVec.ofNat 64 x else BitVec.ofNat 64 (f.steptab.toNat / 2 ^ 32 * 2 ^ 32 + x % 2 ^ 32) }
  | 0x3C => { f with steptab := BitVec.ofNat 64 (f.steptab.toNat % 2 ^ 32 + x % 2 ^ 32 * 2 ^ 32) }
  | _ => f

def execRqwr (o : OpRqwr) (s : State) : Host.Outcome State Fault Refusal :=
  issue (.rqwr o) s (fun I =>
    let i := (I.rs o.a).toNat % 65536
    let x := (I.rs o.b).toNat
    let off := o.off.toNat
    if i = 0xFFFF then atFormer I (.ok (updFormer I.s I.tm.ctx (fun f => formerWr f off o.w x)))
    else withRec I i (fun r _ =>
      if Rq.state r = rqFREE then .fault (rqFault I.en 0 0) I.s0
      else
        let m := (if Rq.state r = rqPENDING then rwMask ||| rwpMask else rwMask) &&& fieldMask (off, if o.w then 63 else 31, 0)
        putRec I i (maskPut r m (x * 2 ^ (8 * off))) .ok))

/-- The emit form (R58). -/
def execRqwrEmit (o : OpSS) (s : State) : Host.Outcome State Fault Refusal :=
  issue (.rqwrEmit o) s (fun I =>
    withRec I ((I.rs o.a).toNat % 65536) (fun r _ =>
      if Rq.state r ≠ rqACTIVE then .fault (rqFault I.en (Rq.state r) 0) I.s0
      else
        let n := min (Rq.emitted r + 1) 0xFFFFFFFF
        putRec I ((I.rs o.a).toNat % 65536) (recSet (recSet r 0x1C 31 0 n) 0x40 31 0 (I.rs o.b).toNat) .ok))

/-! ## RQBIND (R66, R311) -/

def slotRq (f : Former) (slot : Nat) : Option Nat := (f.table.find? (fun e => decide (e.slot = slot))).map (·.rq)

def execRqbind (o : OpRqbind) (s : State) : Host.Outcome State Fault Refusal :=
  issue (.rqbind o) s (fun I =>
    if !I.tm.decl.rqsc then .fault (rqFault I.en 0 3) I.s0
    else
      let f := (I.s.ctx I.tm.ctx).former
      let none_ := fun (t : Thread) => o.unb || decide (t.r o.a = 0xFFFFFFFF)
      let slot := fun (t : Thread) => (t.r o.a).toNat % 65536
      let bad := I.en.filter (fun l => !none_ (I.th l) && (slotRq f (slot (I.th l))).isNone)
      if !bad.isEmpty then .fault (rqFault bad 0 2) I.s0
      else .ok (I.lanewise (fun _ t => { t with
        bind := if none_ t then none else (slotRq f (slot t)).map (fun q => (slot t, q)) })))

/-! ## RQFLAG, RQEVICT, RQRETIRE (R310) -/

def execRqflagCancel (o : OpS) (s : State) : Host.Outcome State Fault Refusal :=
  issue (.rqflagCancel o) s (fun I =>
    let i := (I.rs o.a).toNat % 8192
    withRec I i (fun r _ =>
      if Rq.state r = rqACTIVE ∨ Rq.state r = rqPENDING ∨ Rq.state r = rqEVICTED then putRec I i (recSet r 0 27 27 1) .ok
      else .fault (rqFault I.en (Rq.state r) 0) I.s0))

def execRqflagFault (o : OpSI) (s : State) : Host.Outcome State Fault Refusal :=
  issue (.rqflagFault o) s (fun I =>
    let i := (I.rs o.a).toNat % 8192
    withRec I i (fun r _ =>
      if Rq.state r = rqACTIVE then putRec I i (recSet (Rq.setState r rqFAULTED) 4 23 16 o.imm.toNat) .ok
      else .fault (rqFault I.en (Rq.state r) 0) I.s0))

def execRqevict (o : OpS) (s : State) : Host.Outcome State Fault Refusal :=
  issue (.rqevict o) s (fun I =>
    let i := (I.rs o.a).toNat % 8192
    withRec I i (fun r t =>
      if Rq.state r = rqACTIVE then
        .ok (updFormer t I.tm.ctx (fun f => { f with marks := if i ∈ f.marks then f.marks else f.marks ++ [i] }))
      else .fault (rqFault I.en (Rq.state r) 0) I.s0))

/-- Frees the chains of layer groups from `lg`. -/
def kFreeAll (c root n : Nat) : Nat → Nat → K Unit
  | 0, _ => pure ()
  | f + 1, lg => do
    let _ ← kFreeChain false c (root + 64 * lg) n 0
    kFreeAll c root n f (lg + 1)

/-- Retires a record that is not ACTIVE: its pages, its slot, its fields (R310). -/
def kRetire (c i r : Nat) : K Unit := do
  let x ← kCtx c
  kFreeAll c (Rq.kvroot r) (x.regs.kvptn.toNat + 1) (Rq.nlg r) 0
  if Rq.state r = rqFAULTED ∧ Rq.slot r ≠ 0xFFFF then
    kUpdCtx c (fun y => { y with former := { y.former with withheld := y.former.withheld ++ [(i, Rq.slot r)] } })
  kRqPut c i (recSet (Rq.setSlot i 0xFFFF) 0x40 31 0 0xFFFFFFFF)

def execRqretire (o : OpSd) (s : State) : Host.Outcome State Fault Refusal :=
  issue (.rqretire o) s (fun I =>
    let i := (I.rs o.a).toNat % 8192
    withRec I i (fun r _ =>
      if Rq.state r = rqFREE then .fault (rqFault I.en 0 0) I.s0
      else if Rq.state r = rqACTIVE then putRec I i (recSet r 0 27 27 1) (fun t => .ok (setSIn t I.ref o.d 2))
      else withK I (kRetire I.tm.ctx i r) (fun _ t => .ok (setSIn t I.ref o.d (Rq.state r)))))

/-! ## RQSTEP (R60 to R65, R414) -/

/-- A request as the former works on it. -/
structure RqW where
  idx   : Nat
  r     : Nat
  /-- Partial tail pages of TIER 1. -/
  tails : List Nat := []
  first : Bool := false
  out   : Bool := false
  deriving DecidableEq, Repr

/-- The former's working state through the actions of R62. -/
structure StepW where
  rqs   : List RqW
  rel   : List (Nat × Nat × Nat) := []
  free  : Nat
  back  : List Nat := []
  stop  : Bool := false
  deriving DecidableEq, Repr

def StepW.upd (w : StepW) (i : Nat) (f : RqW → RqW) : StepW :=
  { w with rqs := w.rqs.map (fun q => if q.idx = i then f q else q) }

/-- Insertion in ascending order of a key; equal keys keep their order. -/
def insBy (key : RqW → Nat) (q : RqW) : List RqW → List RqW
  | [] => [q]
  | p :: ps => if key q < key p then q :: p :: ps else p :: insBy key q ps
def sortRq (key : RqW → Nat) (l : List RqW) : List RqW := l.foldl (fun a q => insBy key q a) []

def bySlot (q : RqW) : Nat := Rq.slot q.r
/-- Eviction order: descending class, then descending ADMSEQ. -/
def evictKey (q : RqW) : Nat := (3 - Rq.prio q.r) * 2 ^ 64 + (2 ^ 64 - 1 - Rq.admseq q.r)
/-- Admission order: ascending class, then ascending ADMSEQ. -/
def admitKey (q : RqW) : Nat := Rq.prio q.r * 2 ^ 64 + Rq.admseq q.r
def RqW.is (q : RqW) (st : Nat) : Bool := decide (Rq.state q.r = st)

/-- Action 0. -/
def stepCommit (table : List StepEnt) (w : StepW) : StepW :=
  table.foldl (fun u e => u.upd e.rq (fun q =>
    if q.is rqACTIVE then
      let r1 := recSet q.r 0x10 31 0 (min (Rq.pos q.r + e.ntok) 0xFFFFFFFF)
      let r2 := recSet r1 0x44 31 0 (Rq.pref q.r - min (Rq.pref q.r) e.ntok)
      { q with r := r2 }
    else q)) w

/-- The stop conditions of action 1. -/
def stops (r : Nat) : Bool :=
  Rq.cancel r || (decide (0 < Rq.emitted r) && (List.range (Rq.stopn r)).any (fun k => decide (Rq.stop r k = Rq.last r))) ||
  decide (Rq.maxpos r ≤ Rq.pos r) || decide (Rq.maxnew r ≤ Rq.emitted r)

/-- A request leaves its slot in a new state, with a release entry. -/
def leaveSlot (w : StepW) (q : RqW) (st : Nat) : StepW :=
  { (w.upd q.idx (fun x => { x with r := Rq.setSlot (Rq.setState x.r st) 0xFFFF })) with
    rel := w.rel ++ [(q.idx, st, Rq.slot q.r)] }

def stepStop (w : StepW) : StepW :=
  (sortRq bySlot (w.rqs.filter (fun q => q.is rqACTIVE && stops q.r))).foldl (fun u q => leaveSlot u q rqSTOPPED) w

/-- Action 2, withheld slots included. -/
def stepFault (held : List (Nat × Nat)) (w : StepW) : StepW :=
  let mine := (w.rqs.filter (fun q => q.is rqFAULTED && decide (Rq.slot q.r ≠ 0xFFFF)))
  let ghosts := held.map (fun p => ({ idx := p.1, r := Rq.setSlot 0 p.2 } : RqW))
  (sortRq bySlot (mine ++ ghosts)).foldl (fun u q =>
    { (u.upd q.idx (fun x => if x.is rqFAULTED then { x with r := Rq.setSlot x.r 0xFFFF } else x)) with
      rel := u.rel ++ [(q.idx, rqFAULTED, Rq.slot q.r)] }) w

/-- The order in which action 3 considers the ACTIVE requests: those marked, then the others, each in eviction order. -/
def evictList (marks : List Nat) (rqs : List RqW) : List Nat :=
  let act := (sortRq evictKey (rqs.filter (fun q => q.is rqACTIVE))).map (·.idx)
  act.filter (· ∈ marks) ++ act.filter (· ∉ marks)

def tokens (chunk r : Nat) : Nat := if 0 < Rq.pref r then min (Rq.pref r) chunk else 1

/-- Action 4 for one request: admitted, passed over, or the end of the action. -/
def admitOne (nslot chunk low : Nat) (w : StepW) (q : RqW) : StepW :=
  if w.stop ∨ Rq.cancel q.r ∨ q.out then w
  else
    let need := Rq.nlg q.r * ((tokens chunk q.r + 63) / 64 + 1)
    let taken := w.rqs.map (fun x => Rq.slot x.r)
    match (List.range nslot).find? (fun k => decide (k ∉ taken)) with
    | none => { w with stop := true }
    | some k =>
      if w.free < need + low then { w with stop := true }
      else
        { (w.upd q.idx (fun x => { x with r := Rq.setSlot (Rq.setState x.r rqACTIVE) k, first := true })) with
          free := w.free - need, back := if q.is rqEVICTED then w.back ++ q.tails else w.back }

def stepAdmit (nslot chunk low : Nat) (w : StepW) : StepW :=
  let l := sortRq admitKey (w.rqs.filter (fun q => q.is rqEVICTED)) ++ sortRq admitKey (w.rqs.filter (fun q => q.is rqPENDING))
  l.foldl (admitOne nslot chunk low) { w with stop := false }

/-- The entries of the new table: slot, request, PREFILL, FIRST, POS, NTOK, OFF (R64). -/
def tableEntries (chunk : Nat) : List RqW → Nat → List (List Byte) × List StepEnt × Nat
  | [], off => ([], [], off)
  | q :: qs, off =>
    let n := tokens chunk q.r
    let x := tableEntries chunk qs (off + n)
    let w0 := Rq.slot q.r + q.idx * 2 ^ 16 + b2n (decide (0 < Rq.pref q.r)) * 2 ^ 29 + b2n q.first * 2 ^ 30
    (leBytes (w0 + Rq.pos q.r * 2 ^ 32 + n * 2 ^ 64 + off % 2 ^ 32 * 2 ^ 96) 16 :: x.1, ⟨Rq.slot q.r, q.idx, n⟩ :: x.2.1, x.2.2)

/-- The step table's bytes, and its active entries. -/
def tableBytes (step chunk : Nat) (w : StepW) : List Byte × List StepEnt :=
  let act := sortRq bySlot (w.rqs.filter (fun q => q.is rqACTIVE))
  let e := tableEntries chunk act 0
  let hdr := leBytes (step + act.length * 2 ^ 32 + w.rel.length * 2 ^ 48 + e.2.2 % 2 ^ 32 * 2 ^ 64) 64
  (hdr ++ e.1.flatten ++ w.rel.flatMap (fun p => leBytes (p.1 + p.2.1 * 2 ^ 16 + p.2.2 * 2 ^ 32) 8), e.2.1)

/-- The records that are not FREE; one that cannot be read is passed over. -/
def rqAll (s : State) (ctx : Nat) : List (Nat × Nat) :=
  (List.range 8192).filterMap (fun i =>
    match vaReadHome s (bgWho ctx) (rqAddr s ctx i) 4 with
    | .error _ => none
    | .ok (bs, _) =>
      if Rq.state (leNat bs) = rqFREE then none
      else
        match rqRead s ctx i with
        | .error _ => none
        | .ok (r, _) => some (i, r))

/-- The descriptors that can be read; one that cannot is passed over (R413). -/
def descsOf (s : State) (ctx : Nat) : List (Nat × Nat) :=
  (List.range (s.ctx ctx).regs.kvptn.toNat).filterMap (fun h =>
    match (kRun (bgWho ctx) (kDesc ctx h) s).1 with
    | .ok d => some (h, d)
    | .error _ => none)

/-- The live pages of a request in a tier. -/
def tierPages (ds : List (Nat × Nat)) (i tier : Nat) : List (Nat × Nat) :=
  ds.filter (fun p => dLive p.2 && decide (dRq p.2 = i) && decide (dTier p.2 = tier))

/-- Writes the records that changed; the first failure is kept (R414). -/
def writeRecs (ctx : Nat) (old : List (Nat × Nat)) : List RqW → State × Option (MErr × Nat) → State × Option (MErr × Nat)
  | [], r => r
  | q :: qs, (s, e) =>
    if (q.idx, q.r) ∈ old then writeRecs ctx old qs (s, e)
    else
      let x := rqWrite s ctx q.idx q.r
      writeRecs ctx old qs (x.1, match e with | some y => some y | none => x.2)

/-- The deferred report of a failed write of the former: ADDR is the line (R414). -/
def stepDefer (f : Option (MErr × Nat)) : Option Defer :=
  f.map (fun p =>
    { code := BitVec.ofNat 8 p.1.code, info := BitVec.ofNat 16 ({ p.1 with site := 13 : MErr }.info .write false true),
      addr := BitVec.ofNat 64 (p.2 / 256 * 256), sys := false })

def orDefer (a b : Option Defer) : Option Defer :=
  match a with
  | some d => some d
  | none => b

def updStage (s : State) (ctx : Nat) (f : FStage → FStage) : State :=
  updFormer s ctx (fun y => { y with stage := y.stage.map f })

/-- Actions 0 to 2, and the list for action 3. -/
def stageStart (s : State) (ctx : Nat) (own : GRef) : State :=
  let f := (s.ctx ctx).former
  let rs := rqAll s ctx
  let w := stepFault f.withheld (stepStop (stepCommit f.table
    { rqs := rs.map (fun p => { idx := p.1, r := p.2 }), free := f.freepg.toNat }))
  let a := writeRecs ctx rs w.rqs (s, none)
  updFormer a.1 ctx (fun y => { y with
    marks := [], withheld := [],
    stage := some { own := own, todo := evictList f.marks w.rqs, marked := f.marks, rel := w.rel, fail := stepDefer a.2 } })

/-- LPDDR-6 slots that an eviction may take. -/
def lpRoom (s : State) (ctx : Nat) (ds : List (Nat × Nat)) : Nat :=
  let x := s.ctx ctx
  countSlots (fun i => slotUse s ctx ds (x.regs.kvlpool.toNat + i * x.regs.kvslot.toNat)) x.regs.kvln.toNat 0

/-- Action 3 from the requests left: the next one leaves its slot, and the action goes on once its pages have moved. It
ends at a request for whose pages the LPDDR-6 pool has no room, which is not evicted (R423). -/
def stageEvict (ctx : Nat) : List Nat → State → State
  | [], s => updStage s ctx (fun g => { g with todo := [] })
  | i :: is, s =>
    let f := (s.ctx ctx).former
    match f.stage, rqRead s ctx i with
    | some g, .ok (r, t) =>
      let forced : Bool := decide (i ∈ g.marked)
      let high := max f.lowwm.toNat f.highwm.toNat
      if !forced ∧ (if g.started then high else f.lowwm.toNat) ≤ f.freepg.toNat then updStage s ctx (fun g => { g with todo := [] })
      else if Rq.state r ≠ rqACTIVE then stageEvict ctx is s
      else
        let ds := descsOf t ctx
        let moves := (tierPages ds i 0).map (·.1)
        if lpRoom t ctx ds < moves.length then updStage s ctx (fun g => { g with todo := [] })
        else
          let x := rqWrite t ctx i (Rq.setSlot (Rq.setState r rqEVICTED) 0xFFFF)
          let u := (updStage x.1 ctx (fun g => { g with
            todo := is, rel := g.rel ++ [(i, rqEVICTED, Rq.slot r)], out := g.out ++ [i], started := g.started || !forced,
            fail := orDefer g.fail (stepDefer x.2) })).updCtx ctx (fun c => { c with evicting := moves })
          if moves.isEmpty then stageEvict ctx is u else u
    | _, .error _ => stageEvict ctx is s
    | none, _ => s

def chunkOf (f : Former) : Nat := min (max f.chunk.toNat 1) 4096

/-- Action 4: the records of the requests admitted, and the tail pages that return to HBM. -/
def stageAdmit (s : State) (ctx : Nat) (g : FStage) : State :=
  let f := (s.ctx ctx).former
  let ds := descsOf s ctx
  let rs := rqAll s ctx
  let w := stepAdmit (min f.nslot.toNat 1024) (chunkOf f) f.lowwm.toNat
    { rqs := rs.map (fun p => { idx := p.1, r := p.2, out := decide (p.1 ∈ g.out),
                                tails := ((tierPages ds p.1 1).filter (fun q => !dSealed q.2)).map (·.1) }),
      free := f.freepg.toNat }
  let a := writeRecs ctx rs w.rqs (s, none)
  (updStage a.1 ctx (fun h => { h with
    admitted := some ((w.rqs.filter (·.first)).map (·.idx)), fail := orDefer h.fail (stepDefer a.2) })).updCtx ctx (fun c =>
      { c with returning := c.returning ++ w.back })

/-- Action 5, `first` being the requests admitted: the state, and the failure to report as deferred. -/
def stagePublish (s : State) (ctx : Nat) (g : FStage) (first : List Nat) : State × Option Defer :=
  let f := (s.ctx ctx).former
  let step := f.step + 1
  let tb := tableBytes step.toNat (chunkOf f)
    { rqs := (rqAll s ctx).map (fun p => { idx := p.1, r := p.2, first := decide (p.1 ∈ first) }), rel := g.rel, free := 0 }
  let b := formerWrite s ctx (f.steptab.toNat / 256 * 256) tb.1
  (b.1.updCtx ctx (fun c => { c with former := { c.former with step := step, table := tb.2, stage := none } }),
   orDefer g.fail (stepDefer b.2))

/-- Are pages that an action of the step moves still to be moved? Each action completes before the next begins (R62). -/
def stageMoves (s : State) (ctx : Nat) : Bool := !(s.ctx ctx).evicting.isEmpty || !(s.ctx ctx).returning.isEmpty

/-- The former goes on with a step after its action 4: published, or none while tail pages are still to return. -/
def stageLast (s : State) (ctx : Nat) : State × Option (Option Defer) :=
  match (s.ctx ctx).former.stage with
  | none => (s, none)
  | some g =>
    match g.admitted with
    | none => (s, none)
    | some first =>
      if stageMoves s ctx then (s, none)
      else
        let r := stagePublish s ctx g first
        (r.1, some r.2)

/-- The former goes on with a step: published, or none while pages are still to be moved. -/
def stageNext (s : State) (ctx : Nat) : State × Option (Option Defer) :=
  if stageMoves s ctx then (s, none)
  else
    match (s.ctx ctx).former.stage with
    | none => (s, none)
    | some g =>
      if g.admitted.isSome then stageLast s ctx
      else
        let t := stageEvict ctx g.todo s
        match (t.ctx ctx).former.stage with
        | none => (t, none)
        | some h => if stageMoves t ctx then (t, none) else stageLast (stageAdmit t ctx h) ctx

/-- One attempt at an RQSTEP. Two RQSTEPs are performed one after the other; a step whose group has gone is published
first (R62). -/
def rqStep (s : State) (ctx : Nat) (own : GRef) : State × Option (Option Defer) :=
  match (s.ctx ctx).former.stage with
  | none => stageNext (stageStart s ctx own) ctx
  | some g =>
    if g.own = own then stageNext s ctx
    else if (Map.find (s.team g.own.team).groups g.own.gid).any (·.live) then (s, none)
    else
      let r := stageNext s ctx
      match r.2 with
      | none => (r.1, none)
      | some _ => stageNext (stageStart r.1 ctx own) ctx

/-- The check of R414 before action 0. -/
def rqStepCheck (s : State) (ctx : Nat) : Option (MErr × Nat) :=
  let x := s.ctx ctx
  match vaCheck s (bgWho ctx) (x.former.steptab.toNat / 256 * 256) 24640 .write with
  | .error e => some e
  | .ok _ =>
    match vaCheck s (bgWho ctx) x.regs.rqtab.toNat (8192 * 128) .write with
    | .error e => some e
    | .ok _ => none

/-- RQSTEP (R60 to R65): a release at `.pkg`, which also reports its deferred failure; it waits while pages of the requests
that it evicts are moved, and the tail pages of those that it admits. The check of R414 fails before the former has begun. -/
def execRqstep (o : OpD) (s : State) : Host.Outcome State Fault Refusal :=
  issue (.rqstep o) s (fun I0 => withRelease I0 3 (fun I =>
    let c := I.tm.ctx
    match (if ((I.s.ctx c).former.stage.map (·.own)) = some I.ref then none else rqStepCheck I.s c) with
    | some (e, va) => .fault (rqMem I.en { e with site := if e.code = cADDRCANON then 14 else 13 } .write va) I.s0
    | none =>
      let r := rqStep I.s c I.ref
      match r.2 with
      | none => .wait 0 (rqStep I.s0 c I.ref).1
      | some f =>
        let t := setSIn r.1 I.ref o.d (r.1.ctx c).former.step.toNat
        .ok (t.updTeam I.ref.team (fun x => { x with defer := x.defer ++ f.toList.map (fun d => { d with gid := I.ref.gid }) }))))

end Sys2Proof.Machine
end

