-- ==== Sys2Proof/Machine/Tiles.lean ====
section
/-! DEFINITION. Tile shapes and images (R272, R273), and the tile instructions (R274 to R276). -/

namespace Sys2Proof.Machine

/-! ## Shapes and images -/

def shEfmt (w : Nat) : Nat := bitsN w 3 0
def shRows (w : Nat) : Nat := bitsN w 15 4
def shCols (w : Nat) : Nat := bitsN w 31 16
def mkShape (f r c : Nat) : Nat := f + 16 * r + 65536 * c

def rowBytes (fmt cols : Nat) : Nat := cols * elemBits fmt / 8
def imgSize (fmt rows cols : Nat) : Nat := rows * rowBytes fmt cols + (if isMx fmt then rows * cols / 32 else 0)

/-- A valid shape word (R272). -/
def shapeOk (w : Nat) : Bool :=
  let f := shEfmt w
  decide (f ≤ 13) && decide (1 ≤ shRows w) && decide (1 ≤ shCols w) && (!isMx f || decide (shCols w % 32 = 0)) &&
  (decide (f ≠ 11) || decide (shCols w % 2 = 0)) && decide (imgSize f (shRows w) (shCols w) ≤ 65536)

/-- Element codes from the packed bytes of a run of elements (R130, R132). -/
def unpack (fmt n : Nat) (bs : List Byte) : List Nat :=
  let x := leNat bs
  (List.range n).map (fun i => x / 2 ^ (elemBits fmt * i) % 2 ^ elemBits fmt)

def packCodes (w : Nat) : List Nat → Nat
  | [] => 0
  | x :: xs => x % 2 ^ w + 2 ^ w * packCodes w xs

/-- Values cut into blocks of 32. -/
def cut32 : Nat → List Ev → List (List Ev)
  | 0, _ => []
  | f + 1, l => if l.isEmpty then [] else l.take 32 :: cut32 f (l.drop 32)

def pack (fmt : Nat) (cs : List Nat) : List Byte := leBytes (packCodes (elemBits fmt) cs) (cs.length * elemBits fmt / 8)

/-- The value of element `i` of a row's codes, a block scale applied. -/
def rowVal (fmt : Nat) (xv : Extra) (codes scales : List Nat) (i : Nat) : Ev :=
  let e := elemVal fmt xv (codes.getD i 0)
  if isMx fmt then Ev.mul (e8m0 (scales.getD (i / 32) 0x7F)) e else e

/-- Offset of row `r` of an image, and of its scales. -/
def rowAt (fmt cols r : Nat) : Nat := r * rowBytes fmt cols
def scalesAt (fmt rows cols r : Nat) : Nat := rows * rowBytes fmt cols + r * cols / 32

/-! ## Scratchpad operands of group instructions and commands -/

/-- The check of a scratchpad region named by an s-register: alignment, allocation, soft errors on a read. -/
def scrRegion (I : Iss) (eng : Bool) (a : Acc) (algn off n : Nat) : Option FInfo :=
  let up := isUpper I.tm I.ref.gid
  if off % algn ≠ 0 then some (memFault { code := cALIGN, site := 14 } a eng I.en off)
  else if !scrIn I.tm.decl off n then some (memFault { code := cPGPROT, site := 1 } a eng I.en off)
  else if a = .read ∧ scrBad I.tm up off n ∧ n ≠ 0 then some (memFault { code := cECCU, site := 1 } a eng I.en off)
  else none

def eccTile (I : Iss) : FInfo := memFault { code := cECCU, site := 11 } .read false I.en 0

def Iss.up (I : Iss) : Bool := isUpper I.tm I.ref.gid
def Iss.shape (I : Iss) (t : Nat) : Nat := (tileShape I.tm I.up t).toNat
def Iss.updTeam (I : Iss) (f : Team → Team) : State := I.s.updTeam I.ref.team f
def clearTile (t : Team) (up : Bool) (i : Nat) : Team := { t with badTile := t.badTile.filter (· ≠ tileKey up i) }

/-- The wait of R276. -/
def tileWait (I : Iss) (ts : List Nat) (body : Unit → Eff) : Eff := if tilesBusy I.s I.ref ts then .wait 0 I.s0 else body ()

/-! ## Instructions -/

def execTcfg (o : OpTcfg) (s : State) : Host.Outcome State Fault Refusal :=
  issue (.tcfg o) s (fun I => tileWait I [o.tc.toNat] (fun _ =>
    let w := (I.rs o.a).toNat % 2 ^ 32
    if w = 0 ∨ shapeOk w then
      .ok (I.updTeam (fun t => { t with tc := Map.set 0 t.tc (tileKey I.up o.tc.toNat) (BitVec.ofNat 64 w) }))
    else I.fail cILLENC 0 I.en))

def execTzero (o : OpTz) (s : State) : Host.Outcome State Fault Refusal :=
  issue (.tzero o) s (fun I => tileWait I [o.t.toNat] (fun _ =>
    .ok (I.updTeam (fun t => clearTile { t with
      tiles := Map.clear t.tiles (tileKey I.up o.t.toNat * 65536) (tileKey I.up o.t.toNat * 65536 + 65536) } I.up o.t.toNat))))

def execTld (o : OpTl) (s : State) : Host.Outcome State Fault Refusal :=
  issue (.tld o) s (fun I => tileWait I [o.t.toNat] (fun _ =>
    let w := I.shape o.t.toNat
    let n := imgSize (shEfmt w) (shRows w) (shCols w)
    let off := (I.rs o.a).toNat
    if shRows w = 0 then I.fail cILLENC 0 I.en
    else
      match scrRegion I false .read 64 off n with
      | some f => .fault f I.s0
      | none => .ok (I.updTeam (fun t => clearTile (t.tileWrite I.up o.t.toNat 0 (scrRead I.tm I.up off n)) I.up o.t.toNat))))

def execTst (o : OpTl) (s : State) : Host.Outcome State Fault Refusal :=
  issue (.tst o) s (fun I => tileWait I [o.t.toNat] (fun _ =>
    let w := I.shape o.t.toNat
    let n := imgSize (shEfmt w) (shRows w) (shCols w)
    let off := (I.rs o.a).toNat
    if shRows w = 0 then I.fail cILLENC 0 I.en
    else
      match scrRegion I false .write 64 off n with
      | some f => .fault f I.s0
      | none =>
        if tileBad I.tm I.up o.t.toNat then .fault (eccTile I) I.s0
        else .ok (I.updTeam (fun t => t.scrWrite I.up off (tileBytes I.tm I.up o.t.toNat 0 n)))))

/-- Formats that TTRN and the sparse copies accept (R275, R294). -/
def plainFmt (f : Nat) : Bool := decide (f ≤ 3) || decide (f = 10) || decide (f = 12) || decide (f = 13)

/-- The transpose of an image of a plain format. -/
def transpose (fmt rows cols : Nat) (bs : List Byte) : List Byte :=
  let w := elemBits fmt / 8
  (List.range cols).flatMap (fun c => (List.range rows).flatMap (fun r => (bs.drop ((r * cols + c) * w)).take w))

def execTtrn (o : OpTt) (s : State) : Host.Outcome State Fault Refusal :=
  issue (.ttrn o) s (fun I => tileWait I [o.d.toNat, o.a.toNat] (fun _ =>
    let w := I.shape o.a.toNat
    let f := shEfmt w
    if o.d = o.a ∨ shRows w = 0 ∨ !plainFmt f ∨ 4095 < shCols w then I.fail cILLENC 0 I.en
    else if tileBad I.tm I.up o.a.toNat then .fault (eccTile I) I.s0
    else
      let bs := transpose f (shRows w) (shCols w) (tileBytes I.tm I.up o.a.toNat 0 (imgSize f (shRows w) (shCols w)))
      .ok (I.updTeam (fun t =>
        let u := clearTile (t.tileWrite I.up o.d.toNat 0 bs) I.up o.d.toNat
        { u with tc := Map.set 0 u.tc (tileKey I.up o.d.toNat) (BitVec.ofNat 64 (mkShape f (shCols w) (shRows w))) }))))

end Sys2Proof.Machine
end

