-- ==== Sys2Proof/Machine/Wash.lean ====
section
/-! DEFINITION. Pages that change their form or place: mass and wash policy (R170 to R172), the rewriting of a body
(R173), demotions and moves between the tiers (R62, R172, R324, R325), parity (R175, R176, R428) and rebuilds (R429). -/

namespace Sys2Proof.Machine

/-! ## Wash policy and mass -/

/-- The wash policy record of a request's record (R171). -/
def kPolicy (c r : Nat) : K Nat := do
  let x ← kCtx c
  kNat c (x.regs.kvwpol.toNat + 64 * Rq.washpol r) 64

def wEn (w : Nat) : Bool := recGet w 0 0 0 == 1
def wStoch (w lvl : Nat) : Bool := bitN (recGet w 0 3 1) lvl
def wDecay (w : Nat) : Nat := recGet w 0 8 4
def wAge (w i : Nat) : Nat := recGet w (4 + 4 * i) 31 0
def wThresh (w i : Nat) : Nat := recGet w (0x14 + 4 * i) 31 0

/-- The update of R170 on a descriptor. -/
def massUpd (step decay delta d : Nat) : Nat :=
  let n := ((step + 2 ^ 32 - dStamp d) % 2 ^ 32) / 2 ^ decay
  let m := if 32 ≤ n then 0 else dMass d / 2 ^ n
  recSet (recSet d 0x10 31 0 (min (m + delta) 0xFFFFFFFF)) 0x14 31 0 ((dStamp d + n * 2 ^ decay) % 2 ^ 32)

/-- What an evaluation decides. -/
inductive WashAct where
  | stay
  | demote
  | cold
  deriving DecidableEq, Repr

/-- Evaluates a sealed page of TIER 0: its mass decays, and its age and mass decide (R172). -/
def kEval (c h w : Nat) : K WashAct := do
  let x ← kCtx c
  let step := x.former.step.toNat
  kDescUpd c h (massUpd step (wDecay w) 0)
  let d ← kDesc c h
  let age := (step + 2 ^ 32 - dSealstep d) % 2 ^ 32
  let i := dFmt d
  if wAge w i ≤ age ∧ dMass d < wThresh w i then pure (if i < 3 then .demote else .cold) else pure .stay

/-! ## The new body (R173) -/

/-- The values of a body's elements (R154). -/
def bodyVals (g : Geo) (fmt scale body : Nat) : List Ev :=
  (List.range g.ne).map (fun e =>
    let x := codeAt body fmt e
    if fmt = 0 then Ev.mul (FP32.val scale) (BF16.val x)
    else if fmt = 1 then Ev.mul (FP32.val scale) (E4M3.val x)
    else
      let b := body / 2 ^ (8 * (g.scaleAt fmt + e / 32)) % 256
      Ev.mul (e8m0 b) (if fmt = 2 then E2M3.val x else E2M1.val x))

/-- ceil(log2(amax / 448)) over the finite values; none where amax is 0 or no value is finite. -/
def level0Exp (vs : List Ev) : Option Int :=
  match maxLog vs with
  | none => none
  | some f =>
    let big := vs.any (fun v => match v with
      | .num _ m e => Ev.lt (.num false 7 (f - 2)) (.num false m e)
      | _ => false)
    some (if big then f - 7 else f - 8)

/-- The rounding of element `e` at a level: round_rne, or round_sr with the word w(e). -/
def washRnd (stoch : Bool) (seed lvl lg ord e : Nat) : Rnd :=
  if stoch then .sr (srh seed ((lvl * 2 ^ 28) ||| (lg * 2 ^ 20 % 2 ^ 32) ||| ord) e) else .rne

/-- The element and scale regions one level down, the new SCALE, and the flags that the rounding sets (R140), from every element of the
body, rows beyond NTOK among them (R173, log entry 74). -/
def washRegions (g : Geo) (lvl scale body : Nat) (r : Nat → Rnd) : Nat × List Byte × Nat :=
  let vs := bodyVals g lvl scale body
  if lvl = 0 then
    let k := (level0Exp vs).getD 0
    let cs := (vs.zipIdx).map (fun p => E4M3.enc (r p.2) true false (p.1.shr k))
    ((FP32.round .rne (.num false 1 k)).1, leBytes (packCodes 8 (cs.map (·.1))) g.ne, cs.foldl (fun f c => flagOr f c.2) 0)
  else
    let fmt := if lvl = 1 then 7 else 9
    let bs := ((cut32 (g.ne / 32 + 1) vs).zipIdx).map (fun p => mxBlock fmt (fun i => r (32 * p.2 + i)) none p.1)
    let cs := bs.flatMap (fun b => b.2.1)
    (one32, leBytes (packCodes (kvBits (lvl + 1)) cs) (g.elemBytes (lvl + 1)) ++ bs.map (fun b => BitVec.ofNat 8 b.1),
      bs.foldl (fun f b => flagOr f b.2.2) 0)

def padTo (n : Nat) (bs : List Byte) : List Byte := bs ++ List.replicate (n - bs.length) 0

/-- A header with new copies of FMT, GEN and SCALE, and a new CRC where one is given. -/
def hdrCopies (bs : List Byte) (fmt gen scale : Nat) (crc : Option Nat) : List Byte :=
  let a := recSet (recSet (recSet (leNat (bs.take 64)) 8 2 0 fmt) 8 31 16 gen) 0xC 31 0 scale
  leBytes (match crc with | some x => recSet a 0x3C 31 0 x | none => a) 64

/-- Demotes a page by one level; false where it is lost or no slot is free (R172, R173, R423). -/
def kDemote (c h : Nat) (own : Option GRef) : K Bool := do
  let d ← kDesc c h
  let r ← kRq c (dRq d)
  let w ← kPolicy c r
  let g ← kGeo c (dRq d) (dLg d)
  let lvl := dFmt d
  let b? ← kWhole c h 1 own
  match b? with
  | none => pure false
  | some bs =>
    let a? ← kSlot c true false
    match a? with
    | none => pure false
    | some a =>
      let n := washRegions g lvl (dScale d) (leNat bs)
        (washRnd (wStoch w lvl) (Rq.srseed r) lvl (dLg d) (dOrd d))
      let body := padTo (g.bodySize (lvl + 1) - 64) n.2.1
      own.forM (fun o => kFlags o n.2.2)
      kWrite c a (hdrCopies bs (lvl + 1) (dGen d + 1) n.1 (some (crc32c body)) ++ body)
      kSwap c h (dGen d) a (lvl + 1) 0 n.1

/-- How a move of a page ended. -/
inductive MoveEnd where
  | moved
  | noSlot
  | lost
  deriving DecidableEq, Repr

/-- Moves a page to the other tier, its format and its bytes from 0x40 unchanged (R62, R172, R325). -/
def kMove (c h : Nat) (hbm evict : Bool) (own : Option GRef) : K MoveEnd := do
  let d ← kDesc c h
  let b? ← kWhole c h 1 own
  match b? with
  | none => pure .lost
  | some bs =>
    let a? ← kSlot c hbm evict
    match a? with
    | none => pure .noSlot
    | some a =>
      kWrite c a (hdrCopies bs (dFmt d) (dGen d + 1) (dScale d) none ++ bs.drop 64)
      let _ ← kSwap c h (dGen d) a (dFmt d) (if hbm then 0 else 1) (dScale d)
      let s : Int := if hbm then 1 else -1
      kCount c (dRq d) s (-s)
      kFreepg c (-s)
      pure .moved

/-! ## Pages of a request -/

def insertKey (k h : Nat) : List (Nat × Nat) → List (Nat × Nat)
  | [] => [(k, h)]
  | p :: ps => if k < p.1 then (k, h) :: p :: ps else p :: insertKey k h ps

/-- The live pages of a request, in ascending layer group and ordinal. -/
def kPages (c rq : Nat) : K (List Nat) := do
  let ds ← kDescs c
  let mine := ds.filter (fun p => dLive p.2 && decide (dRq p.2 = rq))
  pure ((mine.foldl (fun l p => insertKey (dLg p.2 * 2 ^ 32 + dOrd p.2) p.1 l) []).map (·.2))

/-- One page of a scan: whether it changed. -/
def kScanPage (c h w : Nat) (own : Option GRef) : K Bool := do
  let d ← kDesc c h
  if dLive d ∧ dSealed d ∧ dTier d = 0 then
    let act ← kEval c h w
    match act with
    | .stay => pure false
    | .demote => kDemote c h own
    | .cold =>
      let e ← kMove c h false false own
      pure (decide (e = .moved))
  else pure false

/-- Scans pages in order: how many changed, of which a failure tells too. -/
def kScan (c w : Nat) (own : Option GRef) : List Nat → Nat → K Nat
  | [], n => pure n
  | h :: hs, n => do
    let b ← kCounting (pure n) (kScanPage c h w own)
    kScan c w own hs (if b then n + 1 else n)

/-- KVWASH `.req` (R324). -/
def kWashReq (c rq : Nat) (own : Option GRef) : K Nat := do
  let r ← kRq c rq
  if Rq.state r ≠ rqACTIVE then kEnd cRQSTATE
  let w ← kPolicy c r
  if wEn w then
    let hs ← kPages c rq
    kScan c w own hs 0
  else pure 0

/-- The check of a page handle (R306). -/
def kValid (c h : Nat) : K Unit := do
  let x ← kCtx c
  if x.regs.kvptn.toNat ≤ h then kEnd cOBJBOUNDS

/-- KVWASH `.page` (R324). -/
def kWashPage (c h : Nat) (own : Option GRef) : K Nat := do
  kValid c h
  let d ← kDesc c h
  if !(dLive d && dSealed d && decide (dTier d = 0)) then kEnd cRQSTATE
  if dFmt d < 3 then
    let b ← kDemote c h own
    pure (b2n b)
  else
    let e ← kMove c h false false own
    pure (b2n (decide (e = .moved)))

/-- KVTIER (R325). -/
def kTier (c h : Nat) (hbm : Bool) (own : Option GRef) : K Nat := do
  kValid c h
  let d ← kDesc c h
  if !(dLive d && dSealed d) then kEnd cRQSTATE
  if dTier d = 2 then kEnd cKVINTEG
  if dTier d = (if hbm then 0 else 1) then pure 0
  else
    let e ← kMove c h hbm false own
    match e with
    | .moved => pure 1
    | .noSlot => kEnd cOBJBOUNDS
    | .lost => kEnd cKVINTEG

/-! ## The background engines -/

/-- The wash policy of a descriptor's page, if its request is ACTIVE and the policy enabled (R172). -/
def kWashPol (c d : Nat) : K (Option Nat) := do
  let r ← kRq c (dRq d)
  if Rq.state r = rqACTIVE then
    let w ← kPolicy c r
    pure (if wEn w then some w else none)
  else pure none

/-- A page's place in the scan: request, layer group, ordinal. -/
def washKey (d : Nat) : Nat := (dRq d * 2 ^ 16 + dLg d) * 2 ^ 32 + dOrd d

/-- The descriptors that can be read, from handle `i`: the scan passes over the others (R413). -/
def kDescsSome (c : Nat) : Nat → Nat → K (List (Nat × Nat))
  | 0, _ => pure []
  | f + 1, i => do
    let d? ← kTry (kDesc c i)
    let ds ← kDescsSome c f (i + 1)
    pure (match d? with
      | some d => (i, d) :: ds
      | none => ds)

/-- The pages that a die's wash engine acts on, by their places. -/
def kWashPages (c die : Nat) : K (List (Nat × Nat)) := do
  let x ← kCtx c
  let ds ← kDescsSome c x.regs.kvptn.toNat 0
  let s ← get
  let mine := ds.filter (fun p => dLive p.2 && dSealed p.2 && decide (dTier p.2 = 0) && decide (descDie s c p.1 = die))
  let on ← mine.filterM (fun p => do
    let w? ← kTry (kWashPol c p.2)
    pure (w?.getD none).isSome)
  pure (on.foldl (fun l p => insertKey (washKey p.2) p.1 l) [])

/-- The first place at or after `from`, or the first of all: the scan goes over and over. -/
def scanNext (at_ : Nat) (l : List (Nat × Nat)) : Option (Nat × Nat) :=
  (l.find? (fun p => decide (at_ ≤ p.1))).or l.head?

/-- The policy of a page, and the die and place of the scan, if the page is the one that its die's wash engine reaches
next (R172). -/
def kWashAt (c h : Nat) : K (Option (Nat × Nat × Nat)) := do
  let s ← get
  let die := descDie s c h
  let l ← kWashPages c die
  match scanNext (Map.get 0 (s.ctx c).washAt die) l with
  | none => pure none
  | some (key, p) =>
    if p ≠ h then pure none
    else
      let d ← kDesc c h
      let w ← kWashPol c d
      pure (w.map (fun w => (w, die, key)))

/-- The scan goes on past a page. -/
def kWashOn (c die key : Nat) : K Unit := kUpdCtx c (fun x => { x with washAt := Map.set 0 x.washAt die (key + 1) })

/-- The scan reaches a page. It goes on unless the page is due; what it meets in a page that it cannot reach passes the page over (R172,
R413). `work`: what is done with the page, none if nothing. -/
def kWashStep (c h : Nat) (work : WashAct → Option (K Unit)) : K Unit := do
  match ← kWashAt c h with
  | none => pure ()
  | some (w, die, key) =>
    match ← kTry (kEval c h w) with
    | none => kWashOn c die key
    | some a =>
      match work a with
      | none => pure ()
      | some m =>
        let _ ← kTry m
        kWashOn c die key

/-- The scan goes on past a page that is not due (R172). -/
def execWashEvaluation (ctx handle : Nat) (s : State) : Host.Outcome State Fault Refusal :=
  .next (kBackground ctx (kWashStep ctx handle (fun a => if a = .stay then some (pure ()) else none)) s)

/-- The page that the scan has reached is evaluated, and demoted if it is due (R172, R174). -/
def execWashDemotion (ctx handle : Nat) (s : State) : Host.Outcome State Fault Refusal :=
  .next (kBackground ctx (kWashStep ctx handle (fun a =>
    if a = .demote then some (do
      let _ ← kDemote ctx handle none
      pure ())
    else none)) s)

/-- The same for a page that is due to move to the LPDDR-6 tier. -/
def execColdMove (ctx handle : Nat) (s : State) : Host.Outcome State Fault Refusal :=
  .next (kBackground ctx (kWashStep ctx handle (fun a =>
    if a = .cold then some (do
      let _ ← kMove ctx handle false false none
      pure ())
    else none)) s)

/-- Moves a page of an evicted request (R62); one that cannot be moved stays where it is (R424). -/
def execEvictionMove (ctx handle : Nat) (s : State) : Host.Outcome State Fault Refusal :=
  if handle ∈ (s.ctx ctx).evicting then
    let gone := fun (t : State) => t.updCtx ctx (fun x => { x with evicting := x.evicting.filter (· ≠ handle) })
    match kRun (bgWho ctx) (do
      let d ← kDesc ctx handle
      if dLive d ∧ dTier d = 0 then
        let _ ← kMove ctx handle false true none
        pure ()) s with
    | (.ok _, t) => .next (gone t)
    | (.error .wait, _) => .next s
    | (.error (.park b), _) => .next (askOut s ctx b)
    | (.error (.mem _ _ _), t) => .next (gone t)
    | (.error (.code _ _), t) => .next (gone t)
  else .next s

/-- Returns the partial tail page of a request admitted again to an HBM slot (R62); it waits while none is free. -/
def execTailReturnMove (ctx handle : Nat) (s : State) : Host.Outcome State Fault Refusal :=
  if handle ∈ (s.ctx ctx).returning then
    .next (kBackground ctx (do
      let _ ← kTry (do
        let d ← kDesc ctx handle
        if dLive d ∧ dTier d = 1 then
          let e ← kMove ctx handle true true none
          if e = .noSlot then throw KStop.wait)
      kUpdCtx ctx (fun x => { x with returning := x.returning.filter (· ≠ handle) })) s)
  else .next s

/-! ## Parity (R175, R176, R428) -/

def blockVa (x : Ctx) (b : Nat) : Nat := x.regs.kvhpool.toNat + b * 2 ^ 18

/-- The bytes of a block that its pool has. -/
def blockLen (x : Ctx) (b : Nat) : Nat := min (2 ^ 18) (x.regs.kvhn.toNat * x.regs.kvslot.toNat - b * 2 ^ 18)
def blockCount (x : Ctx) : Nat := (x.regs.kvhn.toNat * x.regs.kvslot.toNat + 2 ^ 18 - 1) / 2 ^ 18

/-- Does every slot that overlaps a block stand free or hold a sealed body of TIER 0? A body that is only read still, of a
freed page or a retired one, takes its slot (R164, R166). -/
def blockQuiet (s : State) (c b : Nat) (ds : List (Nat × Nat)) : Bool :=
  let x := s.ctx c
  let sz := x.regs.kvslot.toNat
  let hit := fun (a : Nat) => decide (a < blockVa x b + 2 ^ 18) && decide (blockVa x b < a + sz)
  !ds.any (fun p => (dLive p.2 || decide (dReaders p.2 ≠ 0)) && hit (dAddr p.2) && !(dSealed p.2 && decide (dTier p.2 = 0))) &&
  !s.retired.any (fun r => decide (r.ctx = c) && hit r.addr.toNat && !(r.seald && decide (r.tier = 0)))

/-- Packets join those handed to the fabric. -/
def kParSend (c : Nat) (ps : List ParPkt) : K Unit := kUpdCtx c (fun y => { y with parPkts := y.parPkts ++ ps })

/-- A member sends the predella a block's contents: its contribution, its XOR-out, or what the predella pulls. -/
def kSendBlock (c b : Nat) (kind : ParKind) : K Unit := do
  let x ← kCtx c
  let bs ← kRead c (blockVa x b) (blockLen x b)
  kParSend c [{ chip := x.regs.kvpolyPred.toNat, block := b, kind := kind, data := bs }]

/-- A quiet block that is not sealed is sent, one that was XORed out for a write which has not come among them (R175, R176). -/
def execParityContribution (ctx block : Nat) (s : State) : Host.Outcome State Fault Refusal :=
  let x := s.ctx ctx
  if x.regs.kvpolyPos.toNat ≤ 7 ∧ block < blockCount x ∧ !(block ∈ x.parSealed ∨ block ∈ x.parIn) then
    .next (kBackground ctx (do
      let ds ← kDescs ctx
      let t ← get
      if blockQuiet t ctx block ds then
        kSendBlock ctx block .seal
        kUpdCtx ctx (fun y => { y with parIn := y.parIn ++ [block], parOut := y.parOut.filter (· ≠ block) })) s)
  else .next s

def execParityXorOut (ctx block : Nat) (s : State) : Host.Outcome State Fault Refusal :=
  let x := s.ctx ctx
  if block ∈ x.parOut ∧ block ∈ x.parSealed ∧ !(block ∈ x.parSent) then
    .next (kBackground ctx (do
      kSendBlock ctx block .unseal
      kUpdCtx ctx (fun y => { y with parSent := y.parSent ++ [block] })) s)
  else .next s

def xorBytes : List Byte → List Byte → List Byte
  | [], ys => ys
  | xs, [] => xs
  | x :: xs, y :: ys => (x ^^^ y) :: xorBytes xs ys

def stripeVa (x : Ctx) (b : Nat) : Nat := x.regs.kvpar.toNat + b * 2 ^ 18
def maskVa (x : Ctx) (b : Nat) : Nat := x.regs.kvparm.toNat + b

/-- The predella's part of an acknowledgement: the XOR into the stripe, and the member's bit of its mask (R176, R428). An
SAU that cannot read the stripe makes it unusable (R422). -/
def kParityXor (c member block : Nat) (out : Bool) (data : List Byte) : K Unit := do
  let x ← kCtx c
  if block ∈ x.parBad then pure ()
  else
    let n := min data.length (2 ^ 18)
    match ← kBody c (stripeVa x block) n with
    | none =>
      kPutNat c (maskVa x block) 1 0
      kUpdCtx c (fun y => { y with parBad := y.parBad ++ [block] })
    | some old =>
      kWrite c (stripeVa x block) (xorBytes old (data.take n))
      let m ← kNat c (maskVa x block) 1
      let bit := 2 ^ member
      let m' := if out then (if bitN m member then m - bit else m) else (if bitN m member then m else m + bit)
      kPutNat c (maskVa x block) 1 m'

/-- A contribution or an XOR-out reaches the predella, or its acknowledgement the member. On the predella one waits while a rebuild of its
stripe is under way (R429). -/
def execParityAck (ctx member block : Nat) (out : Bool) (data : List Byte) (s : State) : Host.Outcome State Fault Refusal :=
  let x := s.ctx ctx
  if x.regs.kvpolyPos = 8 ∧ member ≤ 7 then
    .next (if block ∈ x.parServe.map (·.2) then s else kBackground ctx (kParityXor ctx member block out data) s)
  else if x.regs.kvpolyPos.toNat ≤ 7 ∧ member = x.regs.kvpolyPos.toNat then
    if out ∧ block ∈ x.parSent then
      .next (s.updCtx ctx (fun y => { y with
        parSent := y.parSent.filter (· ≠ block), parSealed := y.parSealed.filter (· ≠ block) }))
    else if !out ∧ block ∈ x.parIn then
      .next (s.updCtx ctx (fun y => { y with
        parIn := y.parIn.filter (· ≠ block), parSealed := y.parSealed ++ [block] }))
    else .next s
  else .next s

/-- The members whose blocks a rebuild of one member's block pulls: none where the block is not in a usable stripe (R428). -/
def kParOthers (c member block : Nat) : K (Option (List Nat)) := do
  let x ← kCtx c
  let m ← kNat c (maskVa x block) 1
  pure (if bitN m member ∧ block ∉ x.parBad then some ((List.range 8).filter (fun j => bitN m j && decide (j ≠ member))) else none)

/-- The predella's part of a rebuild (R428, R429): it pulls the block from every other member of the mask; with all of them (`blocks`) it
returns the stripe XOR those, and where the block is not rebuildable it says so. -/
def kParServe (c member block : Nat) (blocks : List (Nat × List Byte)) : K Unit := do
  let x ← kCtx c
  let back := fun (kind : ParKind) (bs : List Byte) => kParSend c [{ chip := member, block := block, kind := kind, data := bs }]
  let ends := kUpdCtx c (fun y => { y with parServe := y.parServe.filter (· ≠ (member, block)) })
  match ← kParOthers c member block with
  | none =>
    ends
    back .lost []
  | some others =>
    if !others.isEmpty ∧ (member, block) ∉ x.parServe then
      kParSend c (others.map (fun j => { chip := j, block := block, kind := .pull }))
      kUpdCtx c (fun y => { y with parServe := y.parServe ++ [(member, block)] })
    else
      ends
      if blocks.map (·.1) = others then
        let st ← kRead c (stripeVa x block) (2 ^ 18)
        back .rebuilt (blocks.foldl (fun a b => xorBytes a b.2) st)
      else back .lost []

/-- A member's request for a block reaches the predella, and the survivors' blocks that it pulls for it; on a member, the predella's pull is
served (R429; log entry 93). -/
def execParityBlockRequest (ctx member block : Nat) (blocks : List (Nat × List Byte)) (s : State) :
    Host.Outcome State Fault Refusal :=
  let x := s.ctx ctx
  if x.regs.kvpolyPos = 8 ∧ member ≤ 7 then .next (kBackground ctx (kParServe ctx member block blocks) s)
  else if x.regs.kvpolyPos.toNat ≤ 7 ∧ member = x.regs.kvpolyPos.toNat ∧ block ∈ x.parSealed then
    .next (kBackground ctx (kSendBlock ctx block .give) s)
  else .next s

/-! ## Rebuilds (R425, R428, R429) -/

/-- The pages of TIER 2 that KVREBLD has not tried, in ascending layer group and ordinal (R326). -/
def kLostPages (c rq : Nat) (tried : List Word64) : K (List Nat) := do
  let hs ← kPages c rq
  let ds ← kDescs c
  pure (hs.filter (fun h => ds.any (fun p => decide (p.1 = h) && decide (dTier p.2 = 2)) && !(BitVec.ofNat 64 h ∈ tried)))

/-- Is a page the next that a KVREBLD tries? -/
def rebldNext (s : State) (c h : Nat) (k : Cmd) : Bool :=
  match k.instr with
  | .kvrebld o =>
    decide (k.ctx = c) && decide (k.st = .running) &&
    (match (kRun (bgWho c) (kLostPages c ((k.s o.a).toNat % 8192) k.cap) s).1 with
      | .ok l => decide (l.head? = some h)
      | .error _ => false)
  | _ => false

/-- The commands that have come to a page with KVREBLD. -/
def rebldsAt (s : State) (c h : Nat) : List Nat := (s.cmds.filter (rebldNext s c h)).map (·.id)

/-- Does some command wait for the rebuild of a page? -/
def rebuildWanted (s : State) (c h : Nat) : Bool :=
  s.cmds.any (fun k => rebldNext s c h k || (decide (k.ctx = c) && decide (k.st = .running) &&
    (match k.pf.busyH with
      | some b => decide (((s.ctx c).handle (s.vcoreRef k.own) b).snap.map (·.page.toNat) = some h)
      | none => false)))

/-- What a rebuild of a page tells the KVREBLDs that wait for it: each counts it or notes its first failure. -/
def noteRebuild (s : State) (ids : List Nat) (h : Nat) (fail : Option Nat) : State :=
  { s with cmds := s.cmds.map (fun k =>
      if k.id ∈ ids then
        { k with
          cap := k.cap ++ [BitVec.ofNat 64 h],
          prog := if fail.isNone then k.prog + 1 else k.prog,
          status := match fail with
            | some x => if k.status = 0 then BitVec.ofNat 64 x else k.status
            | none => k.status }
      else k) }

/-- A chain fill that waited for a page which cannot be rebuilt: its handle is FULL with FAIL (R425). -/
def failWaiting (s : State) (c h : Nat) : State :=
  s.cmds.foldl (fun u k =>
    match k.pf.busyH with
    | some b =>
      let v := u.vcoreRef k.own
      if k.ctx = c ∧ k.st = .running ∧ ((u.ctx c).handle v b).snap.map (·.page.toNat) = some h then
        (u.updHandle c v b (fun x => { x with st := 2, fail := true, filled := 0 })).updCmd k.id (fun k =>
          { k with pf := { k.pf with busyH := none, filled := k.pf.filled + 1, count := k.pf.count + 1 } })
      else u
    | none => u) s

/-- Writes past the parity check: a rebuild restores what the stripe holds (log entry 13). -/
def kRaw (c va : Nat) (bs : List Byte) : K Unit := do
  let x ← kCtx c
  let held := x.parSealed
  let out := x.parIn
  kUpdCtx c (fun y => { y with parSealed := [], parIn := [] })
  kWrite c va bs
  kUpdCtx c (fun y => { y with parSealed := held, parIn := out })

def kRawBlocks (c : Nat) (x : Ctx) : List (Nat × List Byte) → K Unit
  | [] => pure ()
  | (b, bs) :: rest => do
    kRaw c (blockVa x b) (bs.take (blockLen x b))
    kRawBlocks c x rest

/-- A page's blocks are restored from those returned, and its CRC checked: the code of the failure, if it fails. -/
def kRebuild (c h : Nat) (blocks : List (List Byte)) : K (Option Nat) := do
  let d ← kDesc c h
  let g ← kGeo c (dRq d) (dLg d)
  let x ← kCtx c
  let ids := bodyBlocks x d g
  kRawBlocks c x (ids.zip blocks)
  let bs ← kRead c (dAddr d) (g.bodySize (dFmt d))
  if crc32c (bs.drop 64) ≠ leNat ((bs.drop 0x3C).take 4) then
    kCharge c (dRq d) cKVINTEG (2 + 4) h none
    pure (some cKVINTEG)
  else
    kUpdCtx c (fun y => { y with rebuilt := y.rebuilt ++ [h] })
    pure none

/-- The restored page takes its new generation: the header's copy is a write like any other to its block (R176), then the
swap (R429). -/
def kReborn (c h : Nat) : K Unit := do
  let d ← kDesc c h
  kPutNat c (dAddr d + 0xA) 2 (dGen d + 1)
  kDescPut c h (recSet (recSet d 8 4 3 0) 8 31 16 (dGen d + 1))
  kUpdCtx c (fun y => { y with rebuilt := y.rebuilt.filter (· ≠ h), lostWith := y.lostWith.filter (· ≠ h) })

/-- The member asks its predella for every block that a page's body overlaps, from PBLK upward (R429). -/
def kAskBlocks (c h : Nat) : K Unit := do
  let d ← kDesc c h
  let g ← kGeo c (dRq d) (dLg d)
  let x ← kCtx c
  kParSend c ((bodyBlocks x d g).map (fun b => { chip := x.regs.kvpolyPred.toNat, block := b, kind := .ask }))
  kUpdCtx c (fun y => { y with parAsked := y.parAsked ++ [h] })

/-- A page is asked for no more. -/
def State.askEnds (s : State) (c h : Nat) : State := s.updCtx c (fun x => { x with parAsked := x.parAsked.filter (· ≠ h) })

/-- A rebuild has failed. -/
def rebuildFails (s t : State) (c h code : Nat) : State :=
  ((failWaiting (noteRebuild t (rebldsAt s c h) h (some code)) c h).askEnds c h).updCtx c (fun x =>
    { x with rebuilt := x.rebuilt.filter (· ≠ h) })

/-- The last part of a rebuild, after it began in `s`; a write that must wait leaves the page restored. -/
def rebuildEnds (s t : State) (c h : Nat) : State :=
  match kRun (bgWho c) (kReborn c h) t with
  | (.ok _, u) => noteRebuild u (rebldsAt s c h) h none
  | (.error .wait, _) => t
  | (.error (.park b), _) => askOut t c b
  | (.error (.mem e _ _), u) => rebuildFails s u c h e.code
  | (.error (.code e _), u) => rebuildFails s u c h e

/-- A rebuild of a page that is wanted (R429): the member asks for its blocks; with their answers (`blocks`, or not `avail`) it restores them
once no reader from before the loss is left. -/
def execPageRebuild (ctx handle : Nat) (blocks : List (List Byte)) (avail : Bool) (s : State) :
    Host.Outcome State Fault Refusal :=
  match kRun (bgWho ctx) (kDesc ctx handle) s with
  | (.error _, _) => .next s
  | (.ok d, s1) =>
    let x := s.ctx ctx
    if x.regs.kvpolyPos.toNat ≤ 7 ∧ dLive d ∧ dTier d = 2 then
      if handle ∈ x.rebuilt then .next (rebuildEnds s s ctx handle)
      else if !rebuildWanted s ctx handle then .next s
      else if !avail ∨ dPblk d = noPage then
        .next (rebuildFails s (kRun (bgWho ctx) (kCharge ctx (dRq d) cKVLOST 2 handle none) s1).2 ctx handle cKVLOST)
      else if handle ∉ x.parAsked then .next (kBackground ctx (kAskBlocks ctx handle) s1)
      else if dReaders d ≠ 0 then .next s
      else
        match kRun (bgWho ctx) (kRebuild ctx handle blocks) s1 with
        | (.ok none, t) => .next (rebuildEnds s (t.askEnds ctx handle) ctx handle)
        | (.ok (some code), t) => .next (rebuildFails s t ctx handle code)
        | (.error e, t) => .next (rebuildFails s t ctx handle e.status)
    else .next s

/-- KVREBLD (R326, R429): done once no page of TIER 2 is left untried; outside a polyptych none can be rebuilt. -/
def kRebld (c rq : Nat) (tried : List Word64) (n : Nat) (code : Nat) (own : Option GRef) : K (Option (Nat × Nat)) := do
  let lost ← kLostPages c rq tried
  let x ← kCtx c
  if lost.isEmpty then pure (some (code, n))
  else if x.regs.kvpolyPos.toNat ≤ 7 then pure none
  else
    lost.forM (fun k => kCharge c rq cKVLOST 2 k own)
    pure (some (cKVLOST, n))

end Sys2Proof.Machine
end

