-- ==== Sys2Proof/Machine/KvCmds.lean ====
section
/-! DEFINITION. The key-value page instructions (R312 to R318, R323 to R326): their checks at execution, and the work of
their commands. -/

namespace Sys2Proof.Machine

/-! ## Slot words (R306) -/

/-- The request that a slot word names in the current step table. -/
def slotWordRq (s : State) (ctx : Nat) (w : Word64) : Option Nat := slotRq (s.ctx ctx).former (w.toNat % 65536)
def slotWordLg (w : Word64) : Nat := bitsN w.toNat 31 16

/-- What execution captures of a slot word: the request, one beyond the records where the slot is not listed. -/
def capSlot (s : State) (ctx : Nat) (w : Word64) : List Word64 := [BitVec.ofNat 64 ((slotWordRq s ctx w).getD 8192)]
def capRq (c : Cmd) : Nat := (c.cap.getD 0 8192).toNat

/-- The map entry that a command names, mapped: its address and contents (R314). -/
def kEntry (c rq lg : Nat) : K (Nat × Nat) := do
  if 8192 ≤ rq then kEnd cRQSTATE
  let r ← kRq c rq
  if Rq.nlg r ≤ lg then kEnd cOBJBOUNDS
  let va := Rq.kvroot r + 64 * lg
  let e ← kNat c va 64
  if eNpages e = 0 then kEnd cRQSTATE
  pure (va, e)

/-- The geometry of a slot word's entry as execution finds it, where it can be found. -/
def slotGeo (s : State) (ctx : Nat) (w : Word64) : Option Geo :=
  match slotWordRq s ctx w with
  | none => none
  | some rq =>
    match (kRun (bgWho ctx) (kEntry ctx rq (slotWordLg w)) s).1 with
    | .ok p => some (geoOf p.2)
    | .error _ => none

/-- The scratchpad region that a command reads: `n` bytes of it where the geometry is known, its alignment always. -/
def kvRegion (I : Iss) (w : Word64) (algn off : Nat) (n : Geo → Nat) : Option FInfo :=
  match slotGeo I.s I.tm.ctx w with
  | some g => scrRegion I true .read algn off (n g)
  | none => if off % algn ≠ 0 then some (memFault { code := cALIGN, site := 14 } .read true I.en off) else none

/-- Scratchpad bytes as a command's engine reads them. -/
def kScr (own : GRef) (off n : Nat) : K (List Byte) := do
  let s ← get
  let t := s.team own.team
  let up := upperOf s own
  if !scrIn t.decl off n then kEnd cPGPROT
  if n ≠ 0 ∧ scrBad t up off n then kEnd cECCU
  pure (scrRead t up off n)

/-! ## KVMAP (R313) -/

def execKvmap (o : OpSSS) (s : State) : Host.Outcome State Fault Refusal :=
  issue (.kvmap o) s (fun I => issueCmd I .copy (some o.d) none (fun J =>
    match scrRegion J true .read 64 (J.rs o.b).toNat 64 with
    | some f => .error f
    | none => .ok (J.s, [])))

/-- A map entry with the geometry of an image and a first page. -/
def mapEntry (e img h : Nat) : Nat :=
  let a := recSet (recSet (recSet (recSet e 0 31 0 h) 4 31 0 h) 8 31 0 1) 0xC 6 0 0
  let b := recSet a 0xC 19 8 (recGet img 0xC 19 8)
  recSet (recSet (recSet b 0x10 31 0 (recGet img 0x10 31 0)) 0x14 31 0 (recGet img 0x14 31 0)) 0x18 31 0 (recGet img 0x18 31 0)

def kMap (c : Cmd) (o : OpSSS) : K Nat := do
  let rq := (c.s o.a).toNat % 8192
  let lg := slotWordLg (c.s o.a)
  let bs ← kScr c.own (c.s o.b).toNat 64
  let img := leNat bs
  let r ← kRq c.ctx rq
  if Rq.state r = rqFREE ∨ Rq.state r = rqSTOPPED then kEnd cRQSTATE
  if Rq.nlg r ≤ lg then kEnd cOBJBOUNDS
  let va := Rq.kvroot r + 64 * lg
  let e ← kNat c.ctx va 64
  if eNpages e ≠ 0 then kEnd cRQSTATE
  let x ← kCtx c.ctx
  let g := geoOf img
  if !geoOk img ∨ x.regs.kvslot.toNat < g.bodySize 0 ∨ x.regs.kvsksz.toNat < g.sketchSize then kEnd cILLENC
  let h? ← kOpen c.ctx rq lg 0 g
  match h? with
  | none => kEnd cOBJBOUNDS
  | some h =>
    kPutNat c.ctx va 64 (mapEntry e img h)
    pure 0

/-! ## KVAPND (R314, R423) -/

def kvRows (g : Geo) (rows : Nat) : Nat := 4 * g.nkvh * rows * g.dh

def execKvapnd (o : OpKvapnd) (s : State) : Host.Outcome State Fault Refusal :=
  issue (.kvapnd o) s (fun I => issueCmd I .copy (some o.tok) none (fun J =>
    match kvRegion J (J.rs o.sq) 64 (J.rs o.sa).toNat (fun g => kvRows g o.nrows.toNat) with
    | some f => .error f
    | none => .ok (J.s, capSlot J.s J.tm.ctx (J.rs o.sq))))

/-- The rows of one token: for K and V, for each head, DH codes at tail row `j`. -/
def kRow (c l n : Nat) (g : Geo) (body j r : Nat) (rows : List Byte) : K Unit :=
  (List.range 2).forM (fun t => (List.range g.nkvh).forM (fun h =>
    kWrite c (body + 64 + 2 * g.elem l t h j 0) ((rows.drop (2 * g.dh * ((t * g.nkvh + h) * n + r))).take (2 * g.dh))))

/-- Appends the rows from `r`: `tail` is the open page, `j` its next row; the row at which the command ends. -/
def kAppend (c va l n : Nat) (g : Geo) (rows : List Byte) : Nat → Nat → Nat → Nat → K Nat
  | 0, _, _, j => pure j
  | f + 1, r, tail, j => do
    let d ← kDesc c tail
    let last : Bool := decide (l + 1 = g.nl)
    if last ∧ j = 63 then
      let h? ← kHandle c
      let a? ← kSlot c true false
      if h?.isNone ∨ a?.isNone then throw (KStop.code cOBJBOUNDS 63)
    kRow c l n g (dAddr d) j r rows
    if last then
      let e ← kNat c va 64
      kPutNat c va 64 (recSet e 0xC 6 0 (j + 1))
      kDescUpd c tail (fun d => recSet d 8 14 8 (j + 1))
      if j + 1 = 64 then
        let n? ← kSeal c va
        match n? with
        | none => throw (KStop.code cOBJBOUNDS 63)
        | some t => kAppend c va l n g rows f (r + 1) t 0
      else kAppend c va l n g rows f (r + 1) tail (j + 1)
    else kAppend c va l n g rows f (r + 1) tail (j + 1)

def kApnd (c : Cmd) (o : OpKvapnd) : K Nat := do
  let (va, e) ← kEntry c.ctx (capRq c) (slotWordLg (c.s o.sq))
  let tailn : K Nat := do
    let e ← kNat c.ctx va 64
    pure (eTailn e)
  kCounting tailn (do
    let g := geoOf e
    let l := o.layer.toNat
    let n := o.nrows.toNat
    if g.nl ≤ l then kEnd cOBJBOUNDS
    if l + 1 < g.nl ∧ 64 < eTailn e + n then kEnd cILLENC
    let rows ← kScr c.own (c.s o.sa).toNat (kvRows g n)
    let j ← kAppend c.ctx va l n g rows n 0 (eTail e) (eTailn e)
    pure (if l + 1 = g.nl then j else eTailn e))

/-! ## KVSEAL and KVFREE (R315) -/

def execKvseal (o : OpSd) (s : State) : Host.Outcome State Fault Refusal :=
  issue (.kvseal o) s (fun I => issueCmd I .copy (some o.d) none (fun J => .ok (J.s, capSlot J.s J.tm.ctx (J.rs o.a))))

def kSealCmd (c : Cmd) (o : OpSd) : K Nat := do
  let (va, e) ← kEntry c.ctx (capRq c) (slotWordLg (c.s o.a))
  if eTailn e = 0 then pure 0
  else
    let n? ← kSeal c.ctx va
    if n?.isNone then kEnd cOBJBOUNDS
    pure 0

def execKvfree (o : OpSd) (s : State) : Host.Outcome State Fault Refusal :=
  issue (.kvfree o) s (fun I => plainCmd I .copy (some o.d))

def kFreeCmd (c : Cmd) (o : OpSd) : K Nat := do
  let lg := slotWordLg (c.s o.a)
  let r ← kRq c.ctx ((c.s o.a).toNat % 8192)
  if !(Rq.state r ∈ [rqPENDING, rqEVICTED, rqSTOPPED, rqFAULTED]) then kEnd cRQSTATE
  if Rq.nlg r ≤ lg then kEnd cOBJBOUNDS
  let x ← kCtx c.ctx
  kFreeChain true c.ctx (Rq.kvroot r + 64 * lg) (x.regs.kvptn.toNat + 1) 0

/-! ## KVSEL (R168, R169, R316, R427) -/

def execKvsel (o : OpKvsel) (s : State) : Host.Outcome State Fault Refusal :=
  issue (.kvsel o) s (fun I => issueCmd I .gather (some o.tok) none (fun J =>
    match kvRegion J (J.rs o.sq) 4 (J.rs o.sa).toNat (fun g => 4 * g.nkvh * g.dh) with
    | some f => .error f
    | none => .ok (J.s, capSlot J.s J.tm.ctx (J.rs o.sq))))

/-- A page of the chain as the selector meets it. -/
structure Cand where
  page : Nat
  ord  : Nat
  open_ : Bool
  sk   : Nat
  score : Nat := 0
  deriving DecidableEq, Repr

/-- Walks the chain: the candidates in ascending ordinal. A handle that is not live, or of another request or layer group than the first,
`key`, ends the command (R427). -/
def kCands (c : Nat) (key : Option (Nat × Nat)) (own : GRef) : Nat → Nat → K (List Cand)
  | 0, _ => pure []
  | f + 1, h => do
    let x ← kCtx c
    if h = noPage then pure []
    else if x.regs.kvptn.toNat ≤ h then kEnd cOBJBOUNDS
    else
      let d ← kDesc c h
      if !dLive d ∨ (key.isSome ∧ key ≠ some (dRq d, dLg d)) then kEnd cKVSTALE
      let succ ← kSuccOf c h (dAddr d) 3 (some own)
      let rest ← kCands c (some (dRq d, dLg d)) own f succ
      pure (if 1 ≤ dNtok d then { page := h, ord := dOrd d, open_ := !dSealed d, sk := dSkaddr d } :: rest else rest)

/-- Does a product that is NaN come from factors that are none (R139)? -/
def madeNan (a b : Ev) : Bool := (Ev.mul a b).isNan && !a.isNan && !b.isNan

/-- The score of a page from the sketch of one layer, as numbers of 16-bit codes, and its flags (R140, R168). -/
def pageScore (nkvh dh : Nat) (query : List Nat) (sketch : Nat) : Nat × Nat :=
  let code := fun (i : Nat) => BF16.val (sketch / 2 ^ (16 * i) % 65536)
  (List.range nkvh).foldl (fun score h =>
    let bound := (List.range dh).foldl (fun (b : Nat × Nat) d =>
      let q := FP32.val (query.getD (h * dh + d) 0)
      let u := code ((2 * h) * dh + d)
      let v := code ((2 * h + 1) * dh + d)
      let x := Ev.mul q u
      let y := Ev.mul q v
      let m := if x.isNan ∨ y.isNan then Ev.nan else if Ev.lt x y then y else x
      let r := accum b.1 m
      (r.1, b.2 ||| r.2 ||| (if madeNan q u || madeNan q v then fNV else 0))) (0, 0)
    let r := accum score.1 (FP32.val bound.1)
    (r.1, score.2 ||| bound.2 ||| r.2)) (0, 0)

/-- Does `a` rank before `b`, a page of higher ordinal (R169)? -/
def ranksBefore (a b : Nat) : Bool :=
  let x := FP32.val a
  let y := FP32.val b
  if x.isNan then y.isNan else y.isNan || !Ev.lt x y

/-- Inserts a page of higher ordinal than all in the list. -/
def rankIn (p : Cand) : List Cand → List Cand
  | [] => [p]
  | q :: qs => if ranksBefore q.score p.score then q :: rankIn p qs else p :: q :: qs

/-- The forced pages, the chosen ranked ones in rank order, and all chosen in ascending ordinal. -/
def choose (s w k : Nat) (cs : List Cand) : List Cand × List Cand :=
  let n := cs.length
  let forced := ((cs.zipIdx).filter (fun p => decide (p.2 < s) || decide (n ≤ p.2 + w) || p.1.open_)).map (·.1)
  let ranked := ((cs.filter (fun c => c ∉ forced)).foldl (fun l c => rankIn c l) []).take k
  (cs.filter (fun c => decide (c ∈ forced) || decide (c ∈ ranked)), ranked)

/-- The result list (R169). -/
def selList (p : List Cand × List Cand) : List Byte :=
  leBytes (p.1.length + p.2.length * 2 ^ 32) 16 ++ p.1.flatMap (fun c => leBytes (c.page + c.ord * 2 ^ 32) 8) ++
    p.2.flatMap (fun c => leBytes (c.page + c.ord * 2 ^ 32 + c.score * 2 ^ 64) 16)

/-- Scores the candidates that have a sketch: those that are sealed; and their flags. -/
def kScores (c l : Nat) (g : Geo) (query : List Nat) : List Cand → K (List Cand × Nat)
  | [] => pure ([], 0)
  | p :: ps => do
    let x ←
      if p.open_ then pure (p, 0)
      else do
        let n := 4 * g.nkvh * g.dh
        let sk ← kNat c (p.sk + l * n) n
        let r := pageScore g.nkvh g.dh query sk
        pure ({ p with score := r.1 }, r.2)
    let xs ← kScores c l g query ps
    pure (x.1 :: xs.1, x.2 ||| xs.2)

/-- What a KVSEL finds: its list, its flags, and how many pages it chose. -/
def kSelect (c : Cmd) (o : OpKvsel) : K (List Byte × Nat × Nat) := do
  let rq := capRq c
  let lg := slotWordLg (c.s o.sq)
  let (_, e) ← kEntry c.ctx rq lg
  let g := geoOf e
  if g.nl ≤ o.layer.toNat then kEnd cOBJBOUNDS
  if (c.s o.sb).toNat % 16 ≠ 0 then kEnd cILLENC
  let r ← kRq c.ctx rq
  let n := g.nkvh * g.dh
  let q ← kScr c.own (c.s o.sa).toNat (4 * n)
  let x := leNat q
  let query := (List.range n).map (fun i => x / 2 ^ (32 * i) % 2 ^ 32)
  let cx ← kCtx c.ctx
  let cs ← kCands c.ctx none c.own (cx.regs.kvptn.toNat + 1) (eHead e)
  let (scored, flags) ← kScores c.ctx o.layer.toNat g query cs
  let p := if o.ovr then choose o.cs.toNat o.cw.toNat o.ck.toNat scored else choose (Rq.sels r) (Rq.selw r) (Rq.topk r) scored
  pure (selList p, flags, p.1.length)

def kSelCmd (c : Cmd) (o : OpKvsel) : K Nat := do
  let (bs, flags, n) ← kSelect c o
  kWrite c.ctx (c.s o.sb).toNat bs
  kFlags c.own flags
  pure n

/-- The writes of a list that lies on another chip, which its target performs (R80); then the end of the command. -/
def selSend (s : State) (c : Cmd) : State :=
  match gWrites s c c.left with
  | .ask l t => cpAsk t c l
  | .ok _ t => finishCmd (cpDrop t c) c.id (statusWord 0 c.prog) c.flags.toNat
  | .fault e _ _ t => finishCmd (cpDrop t c) c.id (statusWord e.code 0) 0

/-- KVSEL's work: its list is written at home, or sent over the fabric once the command has made it (R80, R316). -/
def selDone (s : State) (c : Cmd) (o : OpKvsel) : State :=
  let va := (c.s o.sb).toNat
  if !farVa va then kCommand c (kSelCmd c o) s
  else if !c.left.isEmpty then selSend s c
  else
    match kRun (s.engWho c.own) (kSelect c o) s with
    | (.ok (bs, fl, n), t) =>
      let f : Cmd → Cmd := fun k => { k with left := [(va, bs)], prog := n, flags := BitVec.ofNat 6 fl }
      selSend (t.updCmd c.id f) (f c)
    | (.error .wait, _) => s
    | (.error (.park b), _) => askOut s c.ctx b
    | (.error e, t) => finishCmd t c.id (statusWord e.status 0) 0

/-! ## KVPF (R167, R317, R318, R424, R425, R427) -/

/-- The handles of a ring, from its first. -/
def ringOf (o : OpKvpf) : List Nat := (List.range (o.rnm1.toNat + 1)).map (fun i => (o.ring.toNat + i) % 64)

def execKvpf (o : OpKvpf) (s : State) : Host.Outcome State Fault Refusal :=
  issue (.kvpf o) s (fun I => issueCmd I .gather (some o.tok) none (fun J =>
    let x := J.s.ctx J.tm.ctx
    let v := J.s.vcoreRef J.ref
    let start := (J.rs o.sq).toNat % 2 ^ 32
    if (ringOf o).any (fun h => decide ((x.handle v h).size = 0)) then .error { code := cOBJBOUNDS, lanes := J.en }
    else if !o.list ∧ x.regs.kvptn.toNat ≤ start ∧ start ≠ noPage then .error { code := cOBJBOUNDS, lanes := J.en }
    else .ok (J.s, [])))

/-- The next page to visit, if one is left. -/
def kNextPage (c : Cmd) (o : OpKvpf) : K (Option Nat) := do
  let limit := (c.s o.sb).toNat % 2 ^ 32
  if limit ≠ 0 ∧ limit ≤ c.pf.index then pure none
  else if o.list then
    let base := (c.s o.sq).toNat
    let n ← kNat c.ctx base 4
    if n ≤ c.pf.index then pure none
    else
      let h ← kNat c.ctx (base + 16 + 8 * c.pf.index) 4
      pure (some h)
  else
    let h := if c.pf.index = 0 then (c.s o.sq).toNat % 2 ^ 32 else c.pf.next.toNat
    pure (if h = noPage then none else some h)

/-- The same where the list lies on another chip: its words come over the fabric (R80). -/
def pfNextPage (s : State) (c : Cmd) (o : OpKvpf) : Cp (Option Nat) :=
  let base := (c.s o.sq).toNat
  let limit := (c.s o.sb).toNat % 2 ^ 32
  if o.list ∧ farVa base ∧ (limit = 0 ∨ c.pf.index < limit) then
    match gRead s c 0 base 4 with
    | .fault e a v t => .fault e a v t
    | .ask l t => .ask l t
    | .ok n t =>
      if leNat n ≤ c.pf.index then .ok none t
      else
        match gRead t c 0 (base + 16 + 8 * c.pf.index) 4 with
        | .fault e a v u => .fault e a v u
        | .ask l u => .ask l u
        | .ok h u => .ok (some (leNat h)) u
  else
    match kRun (s.engWho c.own) (kNextPage c o) s with
    | (.ok x, t) => .ok x t
    | (.error (.mem e a va), t) => .fault e a va t
    | (.error e, t) => .fault { code := e.status } .read base t

/-- The tensors that TSEL selects. -/
def tensors (tsel : Nat) : List Nat := if tsel = 1 then [0] else if tsel = 2 then [1] else [0, 1]

def kvBufSize (g : Geo) (tsel fmt : Nat) : Nat :=
  let n := (tensors tsel).length * g.nkvh * 64 * g.dh
  n * kvBits fmt / 8 + (if 2 ≤ fmt then n / 32 else 0)

/-- The bytes of one row of a snapshot: its codes, or its scale codes. -/
def kBufRow (c l : Nat) (g : Geo) (sn : Snap) (sc : Bool) (t h j : Nat) : K (List Byte) := do
  let fmt := sn.fmt.toNat
  let e := g.elem l t h j 0
  let n := if sc then g.dh / 32 else g.dh * kvBits fmt / 8
  if sn.ntok.toNat ≤ j then pure (List.replicate n (if sc then 0x7F else 0))
  else kRead c (sn.addr.toNat + (if sc then g.scaleAt fmt + e / 32 else 64 + e * kvBits fmt / 8)) n

/-- The buffer of R318. -/
def kBuffer (c l tsel : Nat) (g : Geo) (sn : Snap) : K (List Byte) := do
  let parts := fun (sc : Bool) => (tensors tsel).flatMap (fun t => (List.range g.nkvh).flatMap (fun h =>
    (List.range 64).map (fun j => (sc, t, h, j))))
  let all := parts false ++ (if 2 ≤ sn.fmt.toNat then parts true else [])
  let out ← all.mapM (fun p => kBufRow c l g sn p.1 p.2.1 p.2.2.1 p.2.2.2)
  pure out.flatten

/-- The geometry of a map entry as one value. -/
def geoKey (g : Geo) : List Word64 := [g.nkvh, g.dh, g.nl, g.hs, g.ts, g.ls].map (BitVec.ofNat 64)

/-- How the visit of a page ended: the handle's new contents. -/
structure Visit where
  full  : Bool
  fail  : Bool
  bytes : List Byte
  snap  : Snap
  geo   : Geo
  next  : Nat
  /-- STATUS that the end of the chain will carry, where SUCC could not be read. -/
  bad   : Nat := 0
  deriving DecidableEq, Repr

/-- SUCC of a body, and the code of a failure to read it. -/
def kSucc (c addr : Nat) : K (Nat × Nat) := do
  let s ← get
  let w ← read
  match vaReadHome s { w with ctx := c } addr 4 with
  | .ok (bs, t) =>
    set t
    pure (leNat bs, 0)
  | .error (e, _) =>
    set (s.markErr e)
    pure (noPage, e.code)

/-- A page of TIER 2: its fetch waits for a rebuild, of which the predella is asked if the page was lost with its member, or it
fails at once (R424, R425). `charged`: the loss was charged just now. -/
def kLostPage (c h : Nat) (g : Geo) (charged : Bool) (own : GRef) : K Visit := do
  let sn ← kSnap c h
  let d ← kDesc c h
  let x ← kCtx c
  let su ← kSucc c (dAddr d)
  if (rebuildable x d ∨ (x.regs.kvpolyPos.toNat ≤ 7 ∧ h ∈ x.lostWith)) ∧ !charged then
    pure { full := false, fail := false, bytes := [], snap := sn, geo := g, next := su.1, bad := su.2 }
  else
    if !charged then kCharge c (dRq d) cKVINTEG 0 h own
    pure { full := true, fail := true, bytes := [], snap := sn, geo := g, next := su.1, bad := su.2 }

/-- An uncorrectable soft error strikes the first element that a chain fetch reads of a body: its sector is poisoned, and the
error counted (R417). -/
def kStrike (c va : Nat) : K Unit := do
  let s ← get
  let w ← read
  match xlate s { w with ctx := c } va .read false with
  | .error _ => pure ()
  | .ok (lf, t) => set { t with poison := (lf.pa / 64 :: t.poison).eraseDups }.countUe

/-- The fetch of a page that is not lost; a soft error in its body loses it. -/
def kFetch (c h l tsel : Nat) (g : Geo) (soft : Bool) (own : GRef) : K Visit := do
  let sn ← kSnap c h
  if soft then
    kStrike c (sn.addr.toNat + 64 + g.elem l ((tensors tsel).headD 0) 0 0 0 * kvBits sn.fmt.toNat / 8)
  let s0 ← get
  let w ← read
  let r := kRun w (do
      let succ ← kNat c sn.addr.toNat 4
      let bs ← kBuffer c l tsel g sn
      pure (succ, bs)) s0
  match r with
  | (.ok p, t) =>
    set t
    pure { full := true, fail := false, bytes := p.2, snap := sn, geo := g, next := p.1 }
  | (.error (.mem e a va), t) =>
    set t
    if cECCU ≤ e.code then
      kRelease c sn
      let d ← kDesc c h
      let x ← kCtx c
      kLoss c h 0 false own
      kLostPage c h g (!rebuildable x d) own
    else
      kRelease c sn
      throw (KStop.mem e a va)
  | (.error e, _) => throw e

/-- The checks of a visit (R317, R427), then the fetch. -/
def kVisit (c : Cmd) (o : OpKvpf) (h : Nat) (soft : Bool) : K (Visit × (Nat × Nat) × List Word64) := do
  let x ← kCtx c.ctx
  if x.regs.kvptn.toNat ≤ h then kEnd cOBJBOUNDS
  let d ← kDesc c.ctx h
  let key := (dRq d, dLg d)
  if !dLive d ∨ (c.pf.geom.isSome ∧ c.pf.geom ≠ some key) then kEnd cKVSTALE
  let g ← kGeo c.ctx (dRq d) (dLg d)
  let s ← get
  let v := s.vcoreRef c.own
  let need := kvBufSize g o.tsel.toNat 0
  if g.nl ≤ o.layer.toNat ∨ (ringOf o).any (fun r => decide ((x.handle v r).size.toNat < need)) ∨
      (c.pf.geom.isSome ∧ c.cap ≠ geoKey g) then kEnd cOBJBOUNDS
  let r ←
    if dTier d = 2 then kLostPage c.ctx h g false c.own
    else kFetch c.ctx h o.layer.toNat o.tsel.toNat g soft c.own
  pure (r, key, geoKey g)

/-- The handle of a visit, and its buffer. -/
def putVisit (s : State) (ctx v h tsel : Nat) (own : GRef) (r : Visit) : State :=
  let hd := (s.ctx ctx).handle v h
  let up := upperOf s own
  let t := if (s.team hd.team).onCore then s.updTeam hd.team (fun x => x.scrWrite up hd.offset.toNat r.bytes) else s
  t.updHandle ctx v h (fun x => { x with
    st := if r.full then 2 else 1,
    fail := r.fail,
    filled := BitVec.ofNat 32 r.bytes.length,
    tsel := BitVec.ofNat 2 tsel,
    snap := some r.snap,
    geo := r.geo })

/-- The end of a chain engine's command: the pages filled. -/
def pfEnd (s : State) (c : Cmd) (code : Nat) : State := finishCmd (cpDrop s c) c.id (statusWord code c.pf.filled) 0

/-- A visit has ended with its handle FULL, or waits for a rebuild. -/
def pfNext (p : PfSt) (r : Visit) (key : Nat × Nat) (h : Nat) : PfSt :=
  { p with
    next := BitVec.ofNat 64 r.next,
    index := p.index + 1,
    count := p.count + b2n r.full,
    filled := p.filled + b2n r.full,
    geom := some key,
    waits := false,
    busyH := if r.full then none else some h }

/-- The next FREE handle of a ring from a position, and its position. -/
def ringFree (hd : Nat → Handle) (ring : List Nat) (at_ : Nat) : Option (Nat × Nat) :=
  (((List.range ring.length).map (fun i => (at_ + i) % ring.length)).map (fun i => (i, ring.getD i 0))).find?
    (fun p => decide ((hd p.2).st = 0))

/-- The ring has no handle for a page that is left: the engine waits, which the watchdog times (R167, R403). -/
def pfFull (s : State) (c : Cmd) (o : OpKvpf) : State :=
  match pfNextPage s c o with
  | .ok (some _) _ => s.updCmd c.id (fun k => { k with pf := { k.pf with waits := true } })
  | .ok none _ => s
  | .ask l t => cpAsk t c l
  | .fault _ _ _ _ => s

/-- Visits the next page if the ring has room for it (R167). -/
def pfVisit (s : State) (c : Cmd) (o : OpKvpf) (soft : Bool) : State :=
  let ring := ringOf o
  let v := s.vcoreRef c.own
  let hd := fun (h : Nat) => (s.ctx c.ctx).handle v h
  let busy := (ring.filter (fun r => decide ((hd r).st = 1) || decide ((hd r).st = 2))).length
  if o.dm1.toNat < busy then pfFull s c o
  else
    match ringFree hd ring c.pf.ring with
    | none => pfFull s c o
    | some (i, h) =>
      match pfNextPage s c o with
      | .ask l t => cpAsk t c l
      | .fault e _ _ t => pfEnd t c e.code
      | .ok none _ => s
      | .ok (some page) s1 =>
        match kRun (s.engWho c.own) (kVisit c o page soft) s1 with
        | (.error .wait, _) => s
        | (.error (.park b), _) => askOut s c.ctx b
        | (.error e, t) => pfEnd t c e.status
        | (.ok (r, key, gk), t) =>
          (putVisit t c.ctx v h o.tsel.toNat c.own r).updCmd c.id (fun k =>
            { k with pf := pfNext { k.pf with ring := i + 1 } r key h, cap := gk, status := BitVec.ofNat 64 r.bad })

/-- Fills the handle that waited once its page has been rebuilt (R425); a handle freed meanwhile, or used for another request or layer
group, ends the command (R427). -/
def pfRebuilt (s : State) (c : Cmd) (o : OpKvpf) (h : Nat) : State :=
  let v := s.vcoreRef c.own
  match ((s.ctx c.ctx).handle v h).snap with
  | none => s
  | some sn =>
    let page := sn.page.toNat
    let work : K (Option Visit) := do
      let d ← kDesc c.ctx page
      if !dLive d ∨ c.pf.geom ≠ some (dRq d, dLg d) then kEnd cKVSTALE
      if dTier d = 2 then pure none
      else
        let g ← kGeo c.ctx (dRq d) (dLg d)
        let r ← kFetch c.ctx page o.layer.toNat o.tsel.toNat g false c.own
        pure (some r)
    match kRun (s.engWho c.own) work s with
    | (.error .wait, _) => s
    | (.error (.park b), _) => askOut s c.ctx b
    | (.error e, t) => pfEnd (freeHandle t c.ctx v h) c e.status
    | (.ok none, _) => s
    | (.ok (some r), t) =>
      (putVisit t c.ctx v h o.tsel.toNat c.own r).updCmd c.id (fun k =>
        { k with
          pf := { pfNext k.pf r (k.pf.geom.getD (0, 0)) h with index := k.pf.index },
          status := BitVec.ofNat 64 r.bad })

/-- A chain engine snapshots its next page into a FREE handle and fills it; `soft`: the body read meets an uncorrectable
error. While its team is being saved or ended it starts no visit (R347). -/
def execChainFill (cmd : Nat) (soft : Bool) (s : State) : Host.Outcome State Fault Refusal :=
  match s.cmd cmd with
  | none => .next s
  | some c =>
    match c.instr with
    | .kvpf o =>
      if c.st ≠ .running then .next s
      else
        match c.pf.busyH with
        | some h => .next (pfRebuilt s c o h)
        | none => .next (if (s.team c.own.team).st.runs then pfVisit s c o soft else s)
    | _ => .next s

/-- The command completes when no page is left and its last handle is FULL. -/
def pfDone (s : State) (c : Cmd) (o : OpKvpf) : State :=
  if c.pf.busyH.isSome then s
  else
    match pfNextPage s c o with
    | .ok none _ => pfEnd s c c.status.toNat
    | .ok (some _) _ => s
    | .ask l t => cpAsk t c l
    | .fault _ _ _ _ => s

/-! ## Washing, tiers, rebuilding (R323 to R326) -/

def execKvwashReq (o : OpSd) (s : State) : Host.Outcome State Fault Refusal :=
  issue (.kvwashReq o) s (fun I => plainCmd I .copy (some o.d))
def execKvwashPage (o : OpSd) (s : State) : Host.Outcome State Fault Refusal :=
  issue (.kvwashPage o) s (fun I => plainCmd I .copy (some o.d))
def execKvtierHbm (o : OpSd) (s : State) : Host.Outcome State Fault Refusal :=
  issue (.kvtierHbm o) s (fun I => plainCmd I .copy (some o.d))
def execKvtierLp (o : OpSd) (s : State) : Host.Outcome State Fault Refusal :=
  issue (.kvtierLp o) s (fun I => plainCmd I .copy (some o.d))
def execKvrebld (o : OpSd) (s : State) : Host.Outcome State Fault Refusal :=
  issue (.kvrebld o) s (fun I => plainCmd I .copy (some o.d))

/-- KVREBLD completes once no page is left to try. -/
def rebldDone (s : State) (c : Cmd) (o : OpSd) : State :=
  match kRun (s.engWho c.own) (kRebld c.ctx ((c.s o.a).toNat % 8192) c.cap c.prog c.status.toNat c.own) s with
  | (.ok none, _) => s
  | (.ok (some r), t) => finishCmd t c.id (statusWord r.1 r.2) 0
  | (.error e, t) => finishCmd t c.id (statusWord e.status c.prog) 0

/-- The page handle that a wash or tier command names. -/
def pageArg (c : Cmd) (o : OpSd) : Nat := (c.s o.a).toNat % 2 ^ 32

/-- The work of the commands of the KV engines that write pages; none for another instruction. -/
def kvWork (c : Cmd) : Option (K Nat) :=
  match c.instr with
  | .kvmap o => some (kMap c o)
  | .kvapnd o => some (kApnd c o)
  | .kvseal o => some (kSealCmd c o)
  | .kvfree o => some (kFreeCmd c o)
  | .kvwashReq o => some (kWashReq c.ctx ((c.s o.a).toNat % 8192) (some c.own))
  | .kvwashPage o => some (kWashPage c.ctx (pageArg c o) (some c.own))
  | .kvtierHbm o => some (kTier c.ctx (pageArg c o) true (some c.own))
  | .kvtierLp o => some (kTier c.ctx (pageArg c o) false (some c.own))
  | _ => none

/-- An allocation that waited takes its slot once the slot is released: the command that waits does its work (R151). -/
def execPageAllocation (cmd : Nat) (s : State) : Host.Outcome State Fault Refusal :=
  match s.cmd cmd with
  | none => .next s
  | some c =>
    match kvWork c with
    | some m => if c.st = .running then .next (kCommand c m s) else .next s
    | none => .next s

end Sys2Proof.Machine
end

