-- ==== Sys2Proof/Machine/IntAlu.lean ====
section
/-! DEFINITION. The integer and predicate instructions (R232 to R235). -/

namespace Sys2Proof.Machine

/-- Shapes shared by the integer instructions: operands read as R180 gives them, result after the fixed latency. -/
def alu1 (i : Instr) (o : Alu1) (s : State) (f : Word32 → Res) : Host.Outcome State Fault Refusal :=
  issue i s (fun I => .ok (I.outVF o.d (fun t => f (t.r o.a))))
def alu2 (i : Instr) (o : Alu2) (s : State) (f : Word32 → Word32 → Res) : Host.Outcome State Fault Refusal :=
  issue i s (fun I => .ok (I.outVF o.d (fun t => f (t.r o.a) (srcI I.gp o.n t o.b))))
def alu3 (i : Instr) (o : Alu3) (s : State) (f : Word32 → Word32 → Word32 → Res) : Host.Outcome State Fault Refusal :=
  issue i s (fun I => .ok (I.outVF o.d (fun t => f (t.r o.a) (srcI I.gp o.n t o.b) (t.r o.c))))

def execIadd (o : Alu2) (s : State) : Host.Outcome State Fault Refusal := alu2 (.iadd o) o s (iaddR o.n o.sat)
def execIsub (o : Alu2) (s : State) : Host.Outcome State Fault Refusal := alu2 (.isub o) o s (isubR o.n o.sat)
def execIadd3 (o : Alu3) (s : State) : Host.Outcome State Fault Refusal := alu3 (.iadd3 o) o s (iadd3R o.n o.sat)
def execImul (o : Alu2) (s : State) : Host.Outcome State Fault Refusal := alu2 (.imul o) o s (imulR o.n o.sat)
def execImulh (o : Alu2) (s : State) : Host.Outcome State Fault Refusal :=
  alu2 (.imulh o) o s (fun a b => (imulhR o.n a b, 0))
def execImad (o : Alu3) (s : State) : Host.Outcome State Fault Refusal := alu3 (.imad o) o s (imadR o.n o.sat)
def execImadw (o : Alu3) (s : State) : Host.Outcome State Fault Refusal :=
  issue (.imadw o) s (fun I => .ok (I.outVp o.d (fun t => imadwR o.n (t.r o.a) (srcI I.gp o.n t o.b) (t.rw o.c))))
def execIdiv (o : Alu2) (s : State) : Host.Outcome State Fault Refusal :=
  issue (.idiv o) s (fun I => .ok (I.setV o.d (fun _ t => idivR o.n (t.r o.a) (srcI I.gp o.n t o.b))))
def execIrem (o : Alu2) (s : State) : Host.Outcome State Fault Refusal :=
  issue (.irem o) s (fun I => .ok (I.setV o.d (fun _ t => iremR o.n (t.r o.a) (srcI I.gp o.n t o.b))))
def execImin (o : Alu2) (s : State) : Host.Outcome State Fault Refusal :=
  alu2 (.imin o) o s (fun a b => (iminR o.n a b, 0))
def execImax (o : Alu2) (s : State) : Host.Outcome State Fault Refusal :=
  alu2 (.imax o) o s (fun a b => (imaxR o.n a b, 0))
def execIabs (o : Alu1) (s : State) : Host.Outcome State Fault Refusal := alu1 (.iabs o) o s (iabsR o.sat)
def execIneg (o : Alu1) (s : State) : Host.Outcome State Fault Refusal := alu1 (.ineg o) o s (inegR o.sat)
def execIdp4 (o : OpIdp4) (s : State) : Host.Outcome State Fault Refusal :=
  issue (.idp4 o) s (fun I =>
    .ok (I.outVF o.d (fun t => idp4R o.ua o.sat o.ub (t.r o.a) (srcI I.gp false t o.b) (t.r o.c))))
def execAnd (o : Alu2) (s : State) : Host.Outcome State Fault Refusal := alu2 (.and o) o s (fun a b => (a &&& b, 0))
def execOr (o : Alu2) (s : State) : Host.Outcome State Fault Refusal := alu2 (.or o) o s (fun a b => (a ||| b, 0))
def execXor (o : Alu2) (s : State) : Host.Outcome State Fault Refusal := alu2 (.xor o) o s (fun a b => (a ^^^ b, 0))
def execAndn (o : Alu2) (s : State) : Host.Outcome State Fault Refusal :=
  alu2 (.andn o) o s (fun a b => (a &&& ~~~b, 0))
def execNot (o : Alu1) (s : State) : Host.Outcome State Fault Refusal := alu1 (.not o) o s (fun a => (~~~a, 0))
def execShl (o : Alu2) (s : State) : Host.Outcome State Fault Refusal := alu2 (.shl o) o s (fun a b => (shlR a b, 0))
def execShr (o : Alu2) (s : State) : Host.Outcome State Fault Refusal := alu2 (.shr o) o s (fun a b => (shrR a b, 0))
def execSar (o : Alu2) (s : State) : Host.Outcome State Fault Refusal := alu2 (.sar o) o s (fun a b => (sarR a b, 0))
def execRotl (o : Alu2) (s : State) : Host.Outcome State Fault Refusal :=
  alu2 (.rotl o) o s (fun a b => (rotlR a b, 0))
def execBfe (o : Alu2) (s : State) : Host.Outcome State Fault Refusal :=
  alu2 (.bfe o) o s (fun a b => (bfeR o.n a b, 0))
def execBfi (o : Alu3) (s : State) : Host.Outcome State Fault Refusal :=
  alu3 (.bfi o) o s (fun a b c => (bfiR a b c, 0))
def execPopc (o : Alu1) (s : State) : Host.Outcome State Fault Refusal := alu1 (.popc o) o s (fun a => (popcR a, 0))
def execClz (o : Alu1) (s : State) : Host.Outcome State Fault Refusal := alu1 (.clz o) o s (fun a => (clzR a, 0))
def execCtz (o : Alu1) (s : State) : Host.Outcome State Fault Refusal := alu1 (.ctz o) o s (fun a => (ctzR a, 0))
def execBrev (o : Alu1) (s : State) : Host.Outcome State Fault Refusal := alu1 (.brev o) o s (fun a => (brevR a, 0))
def execPrmt (o : Alu3) (s : State) : Host.Outcome State Fault Refusal :=
  alu3 (.prmt o) o s (fun a b c => (prmtR a b c, 0))
def execIsetp (o : OpSetp) (s : State) : Host.Outcome State Fault Refusal :=
  issue (.isetp o) s (fun I =>
    .ok (I.outP o.d (fun t =>
      accP o.acc (t.rp o.d.toNat) (condOf o.cond.toNat (icmp o.n (t.r o.a) (srcI I.gp o.n t o.b))))))
def execIsel (o : OpISel) (s : State) : Host.Outcome State Fault Refusal :=
  issue (.isel o) s (fun I =>
    .ok (I.outV o.d (fun t => if t.rp o.c.toNat then t.r o.a else srcI I.gp false t o.b)))
def execLea (o : OpLea) (s : State) : Host.Outcome State Fault Refusal :=
  issue (.lea o) s (fun I => .ok (I.outVp o.d (fun t => leaR o.n (t.r o.a) (srcW I.gp false t o.b) o.sh.toNat)))
def execIadd64 (o : OpIAdd64) (s : State) : Host.Outcome State Fault Refusal :=
  issue (.iadd64 o) s (fun I => .ok (I.outVp o.d (fun t => t.rw o.a + srcW I.gp o.n t o.b)))
def execMov (o : Alu1) (s : State) : Host.Outcome State Fault Refusal := alu1 (.mov o) o s (fun a => (a, 0))

/-- MOVI (R232): the widened immediate, or the upper half replaced. -/
def moviR (n hi : Bool) (imm : Imm16) (old : Word32) : Word32 :=
  if hi then imm ++ old.setWidth 16 else if n then imm.setWidth 32 else imm.signExtend 32

def execMovi (o : OpMovi) (s : State) : Host.Outcome State Fault Refusal :=
  issue (.movi o) s (fun I => .ok (I.outV o.d (fun t => moviR o.n o.hi o.imm (t.r o.d))))
def execMovu (o : OpMovu) (s : State) : Host.Outcome State Fault Refusal :=
  issue (.movu o) s (fun I =>
    let x := I.rs o.a
    .ok (I.setV o.d (fun _ _ => if o.hi then (x >>> 32).setWidth 32 else x.setWidth 32)))
def execPlop3 (o : OpPlop3) (s : State) : Host.Outcome State Fault Refusal :=
  issue (.plop3 o) s (fun I =>
    .ok (I.outP o.d (fun t => plop3R o.neg o.fn (t.rp o.a.toNat) (t.rp o.b.toNat) (t.rp o.c.toNat))))

/-- Predicates p(32K) to p(32K + 31) as a word; p127 reads 1 (R235). -/
def packPreds (t : Thread) (k : Nat) : Word32 :=
  BitVec.ofNat 32 ((List.range 32).foldl (fun a j => a + b2n (t.rp (32 * k + j)) * 2 ^ j) 0)

def execPmov (o : OpPmov) (s : State) : Host.Outcome State Fault Refusal :=
  issue (.pmov o) s (fun I =>
    if o.fromv then
      .ok (I.lanewise (fun _ t =>
        let x := t.r o.r
        (List.range 32).foldl (fun u j => u.pendP I.due (32 * o.k.toNat + j) (x.getLsbD j)) t))
    else .ok (I.outV o.r (fun t => packPreds t o.k.toNat)))

end Sys2Proof.Machine
end

