-- ==== Sys2Proof/Machine/Special.lean ====
section
/-! DEFINITION. The error bounds of FEXP2, FLOG2, FSIN, FCOS and FTANH (R247): the exact results to far more bits than a bound
asks for, in fixed point with 512 fraction bits, and the results that a bound admits. -/

namespace Sys2Proof.Machine

def fxP : Nat := 512
def fxOne : Int := 2 ^ fxP
def fxMul (a b : Int) : Int := a * b / 2 ^ fxP
def fxDiv (a b : Int) : Int := a * 2 ^ fxP / b

/-- Terms of e^x from the one with divisor `i`. -/
def fxExpFrom (x : Int) : Nat → Nat → Int
  | 0, _ => fxOne
  | n + 1, i => fxOne + fxMul x (fxExpFrom x n (i + 1)) / i

/-- Terms of cos x (`i` = 1) or of sin x / x (`i` = 2), of x². -/
def fxCosFrom (x2 : Int) : Nat → Nat → Int
  | 0, _ => fxOne
  | n + 1, i => fxOne - fxMul x2 (fxCosFrom x2 n (i + 2)) / (i * (i + 1) : Nat)

/-- Terms of artanh z / z, of z². -/
def fxArtFrom (z2 : Int) : Nat → Nat → Int
  | 0, _ => 0
  | n + 1, i => fxOne / i + fxMul z2 (fxArtFrom z2 n (i + 2))

def fxArtanh (z : Int) : Int := fxMul z (fxArtFrom (fxMul z z) 180 1)
def fxLn2 : Int := 2 * fxArtanh (fxOne / 3)

/-- e^x for 0 ≤ x. -/
def fxExp (x : Int) : Int :=
  let q := x / fxLn2
  fxExpFrom (x - q * fxLn2) 100 1 * 2 ^ q.toNat

/-- A number m × 2^e in fixed point, signed. -/
def fxOf (s : Bool) (m : Nat) (e : Int) : Int := signedAt s m e (-fxP)
def fxVal (x : Int) : Ev := .num (decide (x < 0)) x.natAbs (-fxP)

/-- 2^a for −200 ≤ a. -/
def exp2Val (s : Bool) (m : Nat) (e : Int) : Ev :=
  let a := fxOf s m e
  let n := a / fxOne
  .num false (fxExp (fxMul (a - n * fxOne) fxLn2)).toNat (n - fxP)

/-- log2 a for 0 < a. -/
def log2Val (m : Nat) (e : Int) : Ev :=
  let l : Int := Nat.log2 m
  let x := fxOf false m (-l)
  fxVal ((e + l) * fxOne + fxDiv (2 * fxArtanh (fxDiv (x - fxOne) (x + fxOne))) fxLn2)

/-- Sine and cosine of a doubled angle, `n` times. -/
def fxDouble : Nat → Int × Int → Int × Int
  | 0, p => p
  | n + 1, p => fxDouble n (2 * fxMul p.1 p.2, fxMul p.2 p.2 - fxMul p.1 p.1)

/-- Sine and cosine of a: of a / 2^k below 1/2, then doubled k times. -/
def sinCos (s : Bool) (m : Nat) (e : Int) : Int × Int :=
  let k := (floorLog m e + 2).toNat
  let x := fxOf s m (e - k)
  let x2 := fxMul x x
  fxDouble k (fxMul x (fxCosFrom x2 60 2), fxCosFrom x2 60 1)

/-- tanh a. -/
def tanhVal (s : Bool) (m : Nat) (e : Int) : Ev :=
  if 5 ≤ floorLog m e then .num s 1 0
  else
    let y := fxExp (2 * fxOf false m e)
    let t := fxDiv (y - fxOne) (y + fxOne)
    fxVal (if s then -t else t)

/-- A bound of 2^e. -/
def bound (e : Int) : Ev := .num false 1 e

/-- The exponent of an ulp of FP32 at a value. -/
def ulpExp : Ev → Int
  | .num _ m e => if m = 0 then -149 else max (floorLog m e) (-126) - 23
  | .nan => 0
  | .inf _ => 0

/-- Is a code a number whose distance from a value is below a bound, or, where not `below`, at most the bound? -/
def admits (below : Bool) (v tol : Ev) (c : Nat) : Bool :=
  match FP32.val c with
  | .num s m e =>
    let err := (Ev.add false (.num s m e) v.neg).abs
    if below then Ev.lt err tol else !Ev.lt tol err
  | .nan => false
  | .inf _ => false

/-- The result of function `k` for an operand without a listed result: a fixed function of it within the bound, which those of FEXP2 and
FLOG2, 0 and 1, stay below (log entry 4). NX is
set where it is not the exact result, UF where that lies below the smallest normal magnitude besides (R139). -/
def specialR (k : Nat) (v tol : Ev) (exact : Option Ev) (uf : Bool) (a : Nat) : Nat × Nat :=
  let c := (Config.special k (BitVec.ofNat 32 a)).toNat
  let x := if admits (decide (k < 2)) v tol c then c else (FP32.round .rne v).1
  (x, if exact.any (Ev.eqv (FP32.val x)) then 0 else fNX + (if uf then fUF else 0))

/-- 2^n as an exact result of FP32. -/
def exactPow (n : Int) : Option Ev := if -149 ≤ n then some (.num false 1 n) else none

def fexp2 (a : Nat) : Nat × Nat :=
  match FP32.val a with
  | .nan => (FP32.cnan, 0)
  | .inf s => (if s then 0 else FP32.infCode, 0)
  | .num s m e =>
    let x : Ev := .num s m e
    if Ev.lt x (Ev.ofInt 128) then
      let v := if Ev.lt x (Ev.ofInt (-200)) then .num false 1 (-200) else exp2Val s m e
      let n := if Ev.lt x (Ev.ofInt (-200)) then -200 else fxOf s m e / fxOne
      specialR 0 v (bound (ulpExp v)) (if Ev.eqv x (Ev.ofInt n) then exactPow n else none) (Ev.lt x (Ev.ofInt (-126))) a
    else (FP32.infCode, fOF + fNX)

def flog2 (a : Nat) : Nat × Nat :=
  match FP32.val a with
  | .nan => (FP32.cnan, 0)
  | .inf s => if s then (FP32.cnan, fNV) else (FP32.infCode, 0)
  | .num s m e =>
    if m = 0 then (FP32.signBit true + FP32.infCode, fDZ)
    else if s then (FP32.cnan, fNV)
    else if a = 0x3F800000 then (0, 0)
    else
      let v := log2Val m e
      specialR 1 v (bound (ulpExp v)) (if m = 2 ^ Nat.log2 m then some (Ev.ofInt (floorLog m e)) else none) false a

/-- Is a non-zero magnitude at most 2^−126? -/
def tiny (a : Nat) : Bool := decide (a % 2 ^ 31 ≤ 2 ^ 23)

def fsin (a : Nat) : Nat × Nat :=
  match FP32.val a with
  | .nan => (FP32.cnan, 0)
  | .inf _ => (FP32.cnan, fNV)
  | .num s m e => if m = 0 then (a, 0) else specialR 2 (fxVal (sinCos s m e).1) (bound (-21)) none (tiny a) a

def fcos (a : Nat) : Nat × Nat :=
  match FP32.val a with
  | .nan => (FP32.cnan, 0)
  | .inf _ => (FP32.cnan, fNV)
  | .num s m e => specialR 3 (fxVal (sinCos s m e).2) (bound (-21)) (if m = 0 then some Ev.one else none) false a

def ftanh (a : Nat) : Nat × Nat :=
  match FP32.val a with
  | .nan => (FP32.cnan, 0)
  | .inf s => (FP32.signBit s + 0x3F800000, 0)
  | .num s m e =>
    if m = 0 then (a, 0)
    else
      let v := tanhVal s m e
      specialR 4 v (bound (ulpExp v + 1)) none (tiny a) a

end Sys2Proof.Machine
end

