-- ==== Sys2Proof/Machine/Float.lean ====
section
/-! DEFINITION. FP32 and packed arithmetic (R244 to R246), the special functions (R247), the activation table (R248),
and P words (R192, R193). -/

namespace Sys2Proof.Machine

def toRes (x : Nat × Nat) : Res := (BitVec.ofNat 32 x.1, x.2)

/-- An FP32 operation under FPCTL.FTZ: operands flushed before it, the result after rounding (R139, R243). -/
def fp2 (ftz : Bool) (op : Nat → Nat → Nat × Nat) (a b : Word32) : Res :=
  toRes (ftzOut ftz (op (ftzIn ftz a.toNat) (ftzIn ftz b.toNat)))
def fp3 (ftz : Bool) (op : Nat → Nat → Nat → Nat × Nat) (a b c : Word32) : Res :=
  toRes (ftzOut ftz (op (ftzIn ftz a.toNat) (ftzIn ftz b.toNat) (ftzIn ftz c.toNat)))

/-- FMIN and FMAX set no flags (R245). -/
def fminR (ftz mx : Bool) (a b : Word32) : Res :=
  (BitVec.ofNat 32 (FP32.minmax mx (ftzIn ftz a.toNat) (ftzIn ftz b.toNat)), 0)

def fcmp (ftz : Bool) (a b : Word32) : Option Ordering :=
  Ev.cmp (FP32.val (ftzIn ftz a.toNat)) (FP32.val (ftzIn ftz b.toNat))

def rnd2 (rm : BitVec 2) : Rnd := Rnd.ofCode rm.toNat 0

def float2 (i : Instr) (o : F2) (s : State) (f : Bool → Word32 → Word32 → Res) : Host.Outcome State Fault Refusal :=
  issue i s (fun I => .ok (I.outVF o.d (fun t => f I.gp.ftz (t.r o.a) (srcF I.gp t o.b))))

def execFadd (o : F2) (s : State) : Host.Outcome State Fault Refusal :=
  float2 (.fadd o) o s (fun z => fp2 z (FP32.addOp (rnd2 o.rm)))
def execFsub (o : F2) (s : State) : Host.Outcome State Fault Refusal :=
  float2 (.fsub o) o s (fun z => fp2 z (FP32.subOp (rnd2 o.rm)))
def execFmul (o : F2) (s : State) : Host.Outcome State Fault Refusal :=
  float2 (.fmul o) o s (fun z => fp2 z (FP32.mulOp (rnd2 o.rm)))
def execFfma (o : F3) (s : State) : Host.Outcome State Fault Refusal :=
  issue (.ffma o) s (fun I =>
    .ok (I.outVF o.d (fun t => fp3 I.gp.ftz (FP32.fmaOp (rnd2 o.rm)) (t.r o.a) (srcF I.gp t o.b) (t.r o.c))))
def execFmin (o : F2) (s : State) : Host.Outcome State Fault Refusal := float2 (.fmin o) o s (fun z => fminR z false)
def execFmax (o : F2) (s : State) : Host.Outcome State Fault Refusal := float2 (.fmax o) o s (fun z => fminR z true)
def execFsetp (o : OpSetp) (s : State) : Host.Outcome State Fault Refusal :=
  issue (.fsetp o) s (fun I =>
    .ok (I.outP o.d (fun t =>
      accP o.acc (t.rp o.d.toNat) (condOf o.cond.toNat (fcmp I.gp.ftz (t.r o.a) (srcF I.gp t o.b))))))
def execFrnd (o : OpFrnd) (s : State) : Host.Outcome State Fault Refusal :=
  issue (.frnd o) s (fun I => .ok (I.outV o.d (fun t => BitVec.ofNat 32 (frnd (rnd2 o.rm) (t.r o.a).toNat))))
def execFclass (o : Un) (s : State) : Host.Outcome State Fault Refusal :=
  issue (.fclass o) s (fun I => .ok (I.outV o.d (fun t => BitVec.ofNat 32 (fclass (t.r o.a).toNat))))

/-! ## Packed arithmetic (R246) -/

def h2Fmt (t : Bool) : Fmt := if t then FP16 else BF16
def half0 (x : Word32) : Nat := x.toNat % 65536
def half1 (x : Word32) : Nat := x.toNat / 65536
/-- Two half results into one. -/
def join2 (lo hi : Nat × Nat) : Res := (BitVec.ofNat 32 (lo.1 + 65536 * hi.1), flagOr lo.2 hi.2)

def h2op (f : Nat → Nat → Nat × Nat) (a b : Word32) : Res := join2 (f (half0 a) (half0 b)) (f (half1 a) (half1 b))

def packed2 (i : Instr) (o : OpH2) (s : State) (f : Fmt → Nat → Nat → Nat × Nat) : Host.Outcome State Fault Refusal :=
  issue i s (fun I => .ok (I.outVF o.d (fun t => h2op (f (h2Fmt o.t)) (t.r o.a) (srcH I.gp t o.b))))

def execH2add (o : OpH2) (s : State) : Host.Outcome State Fault Refusal :=
  packed2 (.h2add o) o s (fun f => f.addOp .rne)
def execH2mul (o : OpH2) (s : State) : Host.Outcome State Fault Refusal :=
  packed2 (.h2mul o) o s (fun f => f.mulOp .rne)
def execH2fma (o : OpH3) (s : State) : Host.Outcome State Fault Refusal :=
  issue (.h2fma o) s (fun I =>
    .ok (I.outVF o.d (fun t =>
      let a := t.r o.a
      let b := srcH I.gp t o.b
      let c := t.r o.c
      let f := h2Fmt o.t
      join2 (f.fmaOp .rne (half0 a) (half0 b) (half0 c)) (f.fmaOp .rne (half1 a) (half1 b) (half1 c)))))
def execH2min (o : OpH2) (s : State) : Host.Outcome State Fault Refusal :=
  packed2 (.h2min o) o s (fun f a b => (f.minmax false a b, 0))
def execH2max (o : OpH2) (s : State) : Host.Outcome State Fault Refusal :=
  packed2 (.h2max o) o s (fun f a b => (f.minmax true a b, 0))
def execH2setp (o : OpH2Setp) (s : State) : Host.Outcome State Fault Refusal :=
  issue (.h2setp o) s (fun I =>
    .ok (I.lanewise (fun _ t =>
      let a := t.r o.a
      let b := srcH I.gp t o.b
      let f := h2Fmt o.t
      let cmp := fun (x y : Nat) => condOf o.cond.toNat (Ev.cmp (f.val x) (f.val y))
      (t.pendP I.due o.d.toNat (cmp (half0 a) (half0 b))).pendP I.due (o.d.toNat + 1) (cmp (half1 a) (half1 b)))))

/-! ## Special functions (R247) -/

def sfu (i : Instr) (o : Un) (s : State) (f : Nat → Nat × Nat) : Host.Outcome State Fault Refusal :=
  issue i s (fun I => .ok (I.outVF o.d (fun t => toRes (f (t.r o.a).toNat))))

def execFrcp (o : Un) (s : State) : Host.Outcome State Fault Refusal := sfu (.frcp o) o s frcp
def execFrsq (o : Un) (s : State) : Host.Outcome State Fault Refusal := sfu (.frsq o) o s frsq
def execFsqrt (o : Un) (s : State) : Host.Outcome State Fault Refusal := sfu (.fsqrt o) o s fsqrt
def execFexp2 (o : Un) (s : State) : Host.Outcome State Fault Refusal := sfu (.fexp2 o) o s fexp2
def execFlog2 (o : Un) (s : State) : Host.Outcome State Fault Refusal := sfu (.flog2 o) o s flog2
def execFsin (o : Un) (s : State) : Host.Outcome State Fault Refusal := sfu (.fsin o) o s fsin
def execFcos (o : Un) (s : State) : Host.Outcome State Fault Refusal := sfu (.fcos o) o s fcos
def execFtanh (o : Un) (s : State) : Host.Outcome State Fault Refusal := sfu (.ftanh o) o s ftanh

/-! ## The activation table (R248) -/

/-- The greatest segment below `n` whose left end is at most a; 0 when none is. -/
def actSeg (tab : Nat → Nat) (a : Ev) : Nat → Nat
  | 0 => 0
  | n + 1 =>
    match Ev.cmp (FP32.val (tab (8 * n))) a with
    | some .lt => n
    | some .eq => n
    | _ => actSeg tab a n

def actEval (tab : Nat → Nat) (a : Nat) : Nat × Nat :=
  if (FP32.val a).isNan then (FP32.cnan, 0)
  else
    let i := actSeg tab (FP32.val a) 256
    let c := fun k => tab (8 * i + k)
    let t := FP32.subOp .rne a (c 0)
    let y3 := FP32.fmaOp .rne (c 4) t.1 (c 3)
    let y2 := FP32.fmaOp .rne y3.1 t.1 (c 2)
    let y1 := FP32.fmaOp .rne y2.1 t.1 (c 1)
    (y1.1, flagOr (flagOr t.2 y3.2) (flagOr y2.2 y1.2))

/-- Word `w` of a bank as ACT reads it: free values until the bank is first loaded (R249, log entry 3). -/
def actTab (s : State) (ctx : Nat) (bank : Bool) (w : Nat) : Nat :=
  let c := s.ctx ctx
  if c.actInit.getLsbD (b2n bank) then leNat (Map.getN 0 c.actMem (b2n bank * 8192 + 4 * w) 4)
  else (Config.freeWord (s.free + w)).toNat % 2 ^ 32

def execAct (o : Un) (s : State) : Host.Outcome State Fault Refusal :=
  issue (.act o) s (fun I =>
    let tab := actTab I.s I.tm.ctx I.gp.actBank
    let t := I.outVF o.d (fun t => toRes (actEval tab (t.r o.a).toNat))
    .ok (if (I.s.ctx I.tm.ctx).actInit.getLsbD (b2n I.gp.actBank) then t else { t with free := t.free + 2048 }))

/-! ## P words (R192, R193) -/

/-- The second source of a half. -/
def halfSrc (g : Group) (t : Thread) (x : Half) : Word32 :=
  if x.hop = .movi then x.m.setWidth 32
  else if x.m.getLsbD 0 then (g.rs (x.s.toNat % 64)).setWidth 32
  else t.r x.s

/-- The result of a half: the F form of the same mnemonic with MOD[6:0] = 0. -/
def halfR (g : Group) (t : Thread) (x : Half) : Res :=
  let d := t.r x.d
  let b := halfSrc g t x
  let h := h2Fmt (x.m.getLsbD 1)
  match x.hop with
  | .iadd => iaddR false false d b
  | .isub => isubR false false d b
  | .imul => imulR false false d b
  | .imin => (iminR false d b, 0)
  | .imax => (imaxR false d b, 0)
  | .and => (d &&& b, 0)
  | .or => (d ||| b, 0)
  | .xor => (d ^^^ b, 0)
  | .andn => (d &&& ~~~b, 0)
  | .shl => (shlR d b, 0)
  | .shr => (shrR d b, 0)
  | .sar => (sarR d b, 0)
  | .mov => (b, 0)
  | .movi => (b, 0)
  | .fadd => fp2 g.ftz (FP32.addOp .rne) d b
  | .fsub => fp2 g.ftz (FP32.subOp .rne) d b
  | .fmul => fp2 g.ftz (FP32.mulOp .rne) d b
  | .fmin => fminR g.ftz false d b
  | .fmax => fminR g.ftz true d b
  | .h2add => h2op (h.addOp .rne) d b
  | .h2mul => h2op (h.mulOp .rne) d b
  | .h2min => h2op (fun x y => (h.minmax false x y, 0)) d b
  | .h2max => h2op (fun x y => (h.minmax true x y, 0)) d b

def execPWord (a b : Half) (s : State) : Host.Outcome State Fault Refusal :=
  issue (.pWord a b) s (fun I =>
    let g := I.gp
    let t := I.lanewise (fun _ t =>
      (t.pendV (g.spacing + Us.hopLat a.hop) a.d.toNat (halfR g t a).1).pendV (g.spacing + Us.hopLat b.hop) b.d.toNat
        (halfR g t b).1)
    .ok ((t.orFlags I.ref (I.flagsOf (fun t => halfR g t a))).orFlags I.ref (I.flagsOf (fun t => halfR g t b))))

end Sys2Proof.Machine
end

