-- ==== Sys2Proof/Machine/Convert.lean ====
section
/-! DEFINITION. Register conversions (R250 to R253). -/

namespace Sys2Proof.Machine

/-- The float format of a CVT type code, or the integer format (R250). -/
def cvtFmt (ty : Nat) : Fmt ⊕ IFmt :=
  match ty with
  | 0 => .inl FP32
  | 1 => .inl FP16
  | 2 => .inl BF16
  | 3 => .inl E4M3
  | 4 => .inl E5M2
  | 5 => .inr I32
  | 6 => .inr N32
  | 7 => .inr I16
  | 8 => .inr I8
  | 9 => .inr N8
  | _ => .inr I4

/-- A conversion between float formats that is exact for every value, whose infinities `.sat` leaves alone (R141, R250): into FP32, and
from E5M2 and E4M3 into BF16. That of FP16 into BF16, which is exact for some values only, is one of the first row (log entry 25). -/
def cvtExact (dt st : Nat) : Bool := decide (dt = 0) || (decide (dt = 2) && (decide (st = 3) || decide (st = 4)))

/-- CVT of one value: destination and source types, rounding, `.sat` (R250, R141). -/
def cvtR (dt st : Nat) (r : Rnd) (sat : Bool) (a : Word32) : Res :=
  match cvtFmt st, cvtFmt dt with
  | .inl f, .inl g => toRes (g.enc r (sat && !cvtExact dt st) false (f.val (a.toNat % 2 ^ f.bits)))
  | .inl f, .inr g =>
    let y := g.enc r (f.val (a.toNat % 2 ^ f.bits))
    (BitVec.ofInt 32 y.1, y.2)
  | .inr f, .inl g => toRes (g.enc .rne sat false (Ev.ofInt (f.val a.toNat)))
  | .inr f, .inr g =>
    let y := g.sat (f.val a.toNat)
    (BitVec.ofInt 32 y.1, y.2)

/-- SRSEED of the group, as srh reads it (R138, R140). -/
def Group.seed (g : Group) : Nat := g.srseed.toNat

def execCvt (o : OpCvt) (s : State) : Host.Outcome State Fault Refusal :=
  issue (.cvt o) s (fun I =>
    .ok (I.outVF o.d (fun t =>
      cvtR o.dt.toNat o.st.toNat (Rnd.ofCode o.rm.toNat (srh I.gp.seed 0 (t.r o.c).toNat)) o.sat (t.r o.a))))

/-- A variable-latency result with flags. -/
def Iss.setVF (I : Iss) (d : VReg) (f : Nat → Thread → Res) : State :=
  (I.setV d (fun l t => (f l t).1)).orFlags I.ref (I.en.foldl (fun a l => a ||| (f l (I.th l)).2) 0)

/-- Element formats of CVTQ and CVTDQ (R251), by the codes of `cvtFmt`. -/
def cvtqTy (f : Nat) : Nat :=
  match f with
  | 0 => 1
  | 1 => 2
  | 2 => 3
  | 3 => 4
  | 4 => 8
  | 5 => 9
  | _ => 10

def cvtqW (f : Nat) : Nat := if f < 2 then 16 else if f < 6 then 8 else 4

/-- Encodes an exact value to a CVTQ format, always saturated (R251). -/
def cvtqEnc (f : Nat) (r : Rnd) (x : Ev) : Nat × Nat :=
  match cvtFmt (cvtqTy f) with
  | .inl g => g.enc r true false x
  | .inr g =>
    let y := g.enc r x
    (intBits g.bits y.1, y.2)

def cvtqR (f pos : Nat) (r : Rnd) (d a b : Word32) : Res :=
  let ea := FP32.val a.toNat
  let eb := FP32.val b.toNat
  let x := Ev.mul ea eb
  let y := cvtqEnc f r x
  let w := cvtqW f
  let m : Word32 := BitVec.ofNat 32 ((2 ^ w - 1) * 2 ^ (w * pos))
  ((d &&& ~~~m) ||| (BitVec.ofNat 32 (y.1 * 2 ^ (w * pos)) &&& m), flagOr y.2 (nvOf [ea, eb] x))

def execCvtq (o : OpCvtq) (s : State) : Host.Outcome State Fault Refusal :=
  issue (.cvtq o) s (fun I =>
    .ok (I.setVF o.d (fun _ t =>
      let r := if o.sr then Rnd.sr (srh I.gp.seed 1 (t.r o.c).toNat) else .rne
      cvtqR o.fmt.toNat o.pos.toNat r (t.r o.d) (t.r o.a) (srcF I.gp t o.b))))

/-- The exact value of an element of a CVTDQ format. -/
def cvtdqVal (f code : Nat) : Ev :=
  match cvtFmt (cvtqTy f) with
  | .inl g => g.val code
  | .inr g => Ev.ofInt (g.val code)

def cvtdqR (f pos : Nat) (a b : Word32) : Res :=
  let w := cvtqW f
  let e := cvtdqVal f ((a.toNat / 2 ^ (w * pos)) % 2 ^ w)
  let x := FP32.val b.toNat
  toRes (FP32.op .rne [e, x] (Ev.mul e x))

def execCvtdq (o : OpCvtdq) (s : State) : Host.Outcome State Fault Refusal :=
  issue (.cvtdq o) s (fun I => .ok (I.setVF o.d (fun _ t => cvtdqR o.fmt.toNat o.pos.toNat (t.r o.a) (srcF I.gp t o.b))))

/-- FP4X as a conversion sees it (R133). -/
def extraOf (fp4x : Nat) : Extra := if bitN fp4x 8 then some (fp4x % 256) else none

/-- Block j of MXQ: scale, codes by lane of the block, flags (R252). -/
def mxqBlock (I : Iss) (o : OpMxq) (j : Nat) : Nat × List Nat × Nat :=
  let g := I.gp
  let vs := (List.range 32).map (fun k =>
    if (32 * j + k) ∈ I.en then FP32.val ((g.lane (32 * j + k)).r o.a).toNat else Ev.zero)
  let r := fun (k : Nat) => if o.sr then Rnd.sr (srh g.seed 2 ((g.lane (32 * j + k)).r o.c).toNat) else .rne
  mxBlock o.fmt.toNat r (extraOf g.fp4x.toNat) vs

def execMxq (o : OpMxq) (s : State) : Host.Outcome State Fault Refusal :=
  issue (.mxq o) s (fun I =>
    if I.tm.decl.gw = 16 then I.fail cILLENC 0 I.en
    else
      let bs := ((List.range (I.tm.decl.gw / 32)).filter (fun j => I.en.any (fun l => decide (l / 32 = j)))).map
        (fun j => (j, mxqBlock I o j))
      let t := I.lanewise (fun l t =>
        match bs.find? (fun b => decide (b.1 = l / 32)) with
        | some b =>
          (t.setV o.d.toNat (BitVec.ofNat 32 (b.2.2.1.getD (l % 32) 0))).setV (o.d.toNat + 1) (BitVec.ofNat 32 b.2.1)
        | none => t)
      .ok (t.orFlags I.ref (bs.foldl (fun f b => f ||| b.2.2.2) 0)))

/-- MXDQ (R252): X × e exactly, then one rounding. -/
def mxdqR (fmt : Nat) (bf : Bool) (xv : Extra) (a b : Word32) : Res :=
  let e := elemVal fmt xv (a.toNat % 2 ^ elemBits fmt)
  let x := e8m0 b.toNat
  toRes ((if bf then BF16 else FP32).op .rne [e, x] (Ev.mul e x))

def execMxdq (o : OpMxdq) (s : State) : Host.Outcome State Fault Refusal :=
  issue (.mxdq o) s (fun I =>
    .ok (I.setVF o.d (fun _ t =>
      mxdqR o.fmt.toNat o.bf (extraOf I.gp.fp4x.toNat) (t.r o.a) (srcI I.gp true t o.b))))

def execRngs (o : OpRngs) (s : State) : Host.Outcome State Fault Refusal :=
  issue (.rngs o) s (fun I =>
    .ok (I.setV o.d (fun _ t =>
      BitVec.ofNat 32 (srh I.gp.seed (t.r o.a).toNat (srcI I.gp false t o.b).toNat))))

end Sys2Proof.Machine
end

