-- ==== Sys2Proof/Machine/Matrix.lean ====
section
/-! DEFINITION. The matrix array: accumulation (R143 to R148), MMA and MMAS (R277 to R281), the order of commands
(R282), and the accumulator instructions (R283 to R285). -/

namespace Sys2Proof.Machine

/-! ## Sums within the array (R144 to R147) -/

/-- An in-array sum: its finite part, and the special values that have entered it since the last promotion. -/
structure ASum where
  val : Ev := .num false 0 0
  pos : Bool := false
  neg : Bool := false
  nan : Bool := false
  /-- A product ∞ × 0 has occurred (R146). -/
  bad : Bool := false
  deriving DecidableEq, Repr

/-- Is any operand of the aligned class (R143)? -/
def alignedFmt (f : Nat) : Bool := decide (f ≤ 1) || decide (f = 3) || decide (f = 5)
def alignedPair (a b : Nat) : Bool := alignedFmt a || alignedFmt b

/-- An exact term cut to a multiple of 2^q, discarding toward −∞ (R145). -/
def floorTo (q : Int) : Ev → Ev
  | .num s m e =>
    if q ≤ e then .num s m e
    else
      let d := 2 ^ (q - e).toNat
      .num s (if s then (m + d - 1) / d else m / d) q
  | v => v

def sumEv : List Ev → Ev
  | [] => .num false 0 0
  | v :: vs => vs.foldl (fun a b => Ev.add false a b) v

/-- Adds a k-step's products to a sum. -/
def ASum.step (aligned : Bool) (s : ASum) (ps : List (Ev × Ev)) : ASum :=
  let prods := ps.map (fun p => Ev.mul p.1 p.2)
  let nanIn := ps.any (fun p => p.1.isNan || p.2.isNan)
  let zeroInf := ps.any (fun p => (p.1.isInf && p.2.isZero) || (p.2.isInf && p.1.isZero))
  let fin := prods.filter (fun v => !v.isNan && !v.isInf && !v.isZero)
  let val :=
    if aligned then
      let ts := s.val :: fin
      match maxLog ts with
      | none => .num false 0 0
      | some e => sumEv (ts.map (floorTo (e - 40)))
    else sumEv (s.val :: fin)
  { val := val,
    pos := s.pos || prods.any (fun v => v.isInf && !v.sign),
    neg := s.neg || prods.any (fun v => v.isInf && v.sign),
    nan := s.nan || nanIn || zeroInf,
    bad := s.bad || zeroInf }

/-- Did a product ∞ × 0 occur, or infinities of opposite sign meet (R146)? -/
def ASum.invalid (s : ASum) : Bool := s.bad || (s.pos && s.neg)

/-- Promotes a sum into an FP32 accumulator (R147): the code and the flags. -/
def promote (acc : Nat) (sa sb : Ev) (s : ASum) : Nat × Nat :=
  let inv := if s.invalid then fNV else 0
  if sa.isNan ∨ sb.isNan ∨ sa.isInf ∨ sb.isInf then (FP32.cnan, if sa.isInf ∨ sb.isInf then fNV else inv)
  else if s.nan ∨ s.invalid then (FP32.cnan, inv)
  else if s.pos ∨ s.neg then FP32.op .rne [FP32.val acc, .inf s.neg] (Ev.add false (FP32.val acc) (.inf s.neg))
  else if s.val.isZero then (acc, 0)
  else FP32.round .rne (Ev.add false (FP32.val acc) (Ev.mul (Ev.mul sa sb) s.val))

/-- An exact integer sum. -/
def evInt : Ev → Int
  | .num s m e => signedAt s m e 0
  | _ => 0

/-- Promotes a sum into an i32 accumulator (R148). -/
def promoteI (acc : Nat) (s : ASum) : Nat × Nat :=
  let r := I32.sat (sext 32 acc + evInt s.val)
  (intBits 32 r.1, r.2)

/-! ## Operands (R278, R281) -/

/-- An operand as the array reads it: its image as a number, the bytes of a row, where the scales begin, and how many
there are to a row. -/
structure Opnd where
  fmt : Nat
  img : Nat
  rb  : Nat
  sat : Nat
  sst : Nat
  deriving DecidableEq, Repr

def Opnd.code (x : Opnd) (r c : Nat) : Nat := x.img / 2 ^ (8 * r * x.rb + elemBits x.fmt * c) % 2 ^ elemBits x.fmt
def Opnd.val (x : Opnd) (xv : Extra) (r c : Nat) : Ev := elemVal x.fmt xv (x.code r c)
def Opnd.scale (x : Opnd) (r b : Nat) : Ev := e8m0 (x.img / 2 ^ (8 * (x.sat + r * x.sst + b)) % 256)

/-- Bytes of an operand of `rows` rows and `cols` columns whose rows stand for `ratio` times as many. -/
def opndSize (fmt rows cols ratio : Nat) : Nat := rows * rowBytes fmt cols + (if isMx fmt then rows * (cols * ratio) / 32 else 0)

/-- The operand of a command: in scratchpad at an offset, or in a tile of a captured shape. -/
def mkOpnd (t : Team) (up sp : Bool) (fmt rows cols ratio loc shape : Nat) : Opnd :=
  let r := if sp then rows else shRows shape
  let c := if sp then cols else shCols shape
  let n := opndSize fmt r c ratio
  { fmt := fmt, img := leNat (if sp then scrRead t up loc n else tileBytes t up loc 0 n), rb := rowBytes fmt c,
    sat := r * rowBytes fmt c, sst := c * ratio / 32 }

/-- The check that the rule of an operand makes at execution (R278). A tile whose codes and scales are more than a tile holds gives ILLENC
(log entry 79). -/
def opndShape (I : Iss) (sp : Bool) (reg : SReg) (fmt rows cols ratio : Nat) : Option FInfo :=
  let w := I.shape (reg.toNat % 8)
  if !sp ∧ (shRows w = 0 ∨ shEfmt w ≠ fmt ∨ shRows w < rows ∨ shCols w < cols ∨ 65536 < opndSize fmt (shRows w) (shCols w) ratio) then
    some { code := cILLENC, lanes := I.en }
  else none

/-- The memory checks of an operand, which come after the checks of every operand's rule (R393). -/
def opndMem (I : Iss) (a : Acc) (sp : Bool) (reg : SReg) (fmt rows cols ratio : Nat) : Option FInfo :=
  if sp then scrRegion I true a 64 (I.rs reg).toNat (opndSize fmt rows cols ratio)
  else if a = .read ∧ tileBad I.tm I.up (reg.toNat % 8) then some (memFault { code := cECCU, site := 11 } .read true I.en 0)
  else none

def accEcc (I : Iss) (a : Nat) : Option FInfo :=
  if accBad I.tm I.up a then some (memFault { code := cECCU, site := 12 } .read true I.en 0) else none

/-- The first check that fails. -/
def firstFail : List (Option FInfo) → Option FInfo
  | [] => none
  | some f :: _ => some f
  | none :: l => firstFail l

/-! ## MMA and MMAS -/

def mmaM (o : OpMma) : Nat := 16 * o.mq.toNat
def mmaN (o : OpMma) : Nat := 16 * o.nq.toNat
def mmaKs (o : OpMma) : Nat := if o.afmt.toNat < 2 then 16 else 32
def mmaK (o : OpMma) : Nat := (mmaKs o) * o.kq.toNat

/-- Dense columns to one column of A: 2:4, 1:4, 4:8 (R281). -/
def mmaRatio (o : OpMma) (sparse : Bool) : Nat := if !sparse then 1 else if o.pat = 1 then 4 else 2
/-- Bits of a metadata index (R293). -/
def mmaMetaBits (o : OpMma) : Nat := if o.pat = 2 then 3 else 2
def mmaMetaRow (o : OpMma) : Nat := (mmaK o) / mmaRatio o true * (mmaMetaBits o) / 8

def ceilDiv (a b : Nat) : Nat := (a + b - 1) / b

/-- The checks of R278, R279 and R281 when the elected lane executes; zero extents never fault (R280). -/
def mmaChecks (I : Iss) (o : OpMma) (sparse : Bool) : Option FInfo :=
  let kc := (mmaK o) / mmaRatio o sparse
  if o.mq = 0 ∨ o.nq = 0 then none
  else
    firstFail [
      if o.kq = 0 then none else opndShape I o.asp o.aop o.afmt.toNat (mmaM o) kc (mmaRatio o sparse),
      if o.kq = 0 then none else opndShape I o.bsp o.bop o.bfmt.toNat (mmaN o) (mmaK o) 1,
      if o.clr then none else accEcc I o.acc.toNat,
      if o.kq = 0 then none else opndMem I .read o.asp o.aop o.afmt.toNat (mmaM o) kc (mmaRatio o sparse),
      if o.kq = 0 then none else opndMem I .read o.bsp o.bop o.bfmt.toNat (mmaN o) (mmaK o) 1,
      if !o.saen ∨ o.kq = 0 then none else scrRegion I true .read 4 (I.rs o.sas).toNat (4 * ((mmaM o) * ceilDiv (mmaK o) 128)),
      if !o.sben ∨ o.kq = 0 then none
      else scrRegion I true .read 4 (I.rs o.sbs).toNat (4 * (ceilDiv (mmaN o) 128 * ceilDiv (mmaK o) 128)),
      if !sparse ∨ o.kq = 0 then none else scrRegion I true .read 4 (I.rs o.smeta).toNat ((mmaM o) * (mmaMetaRow o))]

/-- The command of MMA or MMAS: the shapes of its tiles are read now (R276). -/
def mmaIssue (i : Instr) (o : OpMma) (sparse : Bool) (s : State) : Host.Outcome State Fault Refusal :=
  issue i s (fun I => issueCmd I .matrix (some o.tok) (some o.cv) (fun J =>
    match mmaChecks J o sparse with
    | some f => .error f
    | none => .ok (J.s, [BitVec.ofNat 64 (J.shape (o.aop.toNat % 8)), BitVec.ofNat 64 (J.shape (o.bop.toNat % 8))])))

def execMma (o : OpMma) (s : State) : Host.Outcome State Fault Refusal := mmaIssue (.mma o) o false s
def execMmas (o : OpMma) (s : State) : Host.Outcome State Fault Refusal := mmaIssue (.mmas o) o true s

/-- What an MMA reads. -/
structure MmaIn where
  a    : Opnd
  b    : Opnd
  xv   : Extra
  /-- FP32 scale codes, row-major; a row of scales holds `sc` of them. -/
  sa   : Option (List Nat)
  sb   : Option (List Nat)
  sc   : Nat
  /-- The metadata of A's rows as a number. -/
  mta  : Nat
  deriving DecidableEq, Repr

/-- The products of k-step `s` of element (m, n). -/
def mmaProducts (o : OpMma) (sparse : Bool) (x : MmaIn) (m n s : Nat) : List (Ev × Ev) :=
  let ks := (mmaKs o)
  if sparse then
    let kept := if o.pat = 2 then 4 else if o.pat = 1 then 1 else 2
    let grp := if o.pat = 2 then 8 else 4
    let per := ks * kept / grp
    (List.range per).map (fun i =>
      let e := s * per + i
      let idx := x.mta / 2 ^ (8 * m * (mmaMetaRow o) + (mmaMetaBits o) * e) % 2 ^ (mmaMetaBits o)
      let k := e / kept * grp + idx
      (x.a.val x.xv m e, x.b.val x.xv n k))
  else (List.range ks).map (fun i => (x.a.val x.xv m (s * ks + i), x.b.val x.xv n (s * ks + i)))

/-- The scale of an operand at the promotion that ends with k-step `s`: the block scale and the FP32 scale. -/
def spanScale (mx : Bool) (x : Opnd) (row blk : Nat) (f : Option Nat) : Ev :=
  let a := if mx then x.scale row blk else Ev.one
  match f with
  | some c => Ev.mul a (FP32.val c)
  | none => a

/-- One element of the result (R280): the accumulator's code and the flags. -/
def mmaElem (o : OpMma) (sparse : Bool) (x : MmaIn) (acc0 m n : Nat) : Nat × Nat :=
  let p := if isMx o.afmt.toNat then 1 else o.pm1.toNat + 1
  let al := alignedPair o.afmt.toNat o.bfmt.toNat
  let r := (List.range o.kq.toNat).foldl (fun (st : Nat × Nat × ASum) s =>
    let sum := st.2.2.step al (mmaProducts o sparse x m n s)
    if (s + 1) % p = 0 ∨ s + 1 = o.kq.toNat then
      let j := s * (mmaKs o) / 128
      let a := spanScale (isMx o.afmt.toNat) x.a m s (x.sa.map (fun l => l.getD (m * x.sc + j) 0))
      let b := spanScale (isMx o.bfmt.toNat) x.b n s (x.sb.map (fun l => l.getD (n / 128 * x.sc + j) 0))
      let q := if o.atyp then promoteI st.1 sum else promote st.1 a b sum
      (q.1, flagOr st.2.1 q.2, {})
    else (st.1, st.2.1, sum)) (if o.clr then 0 else acc0, 0, {})
  (r.1, r.2.1)

/-- Writes the elements of a region of an accumulator, and gathers flags. -/
def accRegion (t : Team) (up : Bool) (a : Nat) (ms ns : Nat) (f : Nat → Nat → Nat → Nat × Nat) : Team × Nat :=
  (List.range ms).foldl (fun r m => (List.range ns).foldl (fun r n =>
    let q := f (accGet t up a m n).toNat m n
    (r.1.accPut up a m n (BitVec.ofNat 32 q.1), flagOr r.2 q.2)) r) (t, 0)

/-- FP32 codes at a scratchpad offset. -/
def scrWords (t : Team) (up : Bool) (off n : Nat) : List Nat :=
  let x := leNat (scrRead t up off (4 * n))
  (List.range n).map (fun i => x / 2 ^ (32 * i) % 2 ^ 32)

def clearAcc (t : Team) (up : Bool) (a : Nat) : Team := { t with badAcc := t.badAcc.filter (· ≠ accKey up a) }

/-- What the command of an MMA or MMAS reads as it completes. -/
def mmaIn (t : Team) (up : Bool) (c : Cmd) (o : OpMma) (sparse : Bool) : MmaIn :=
  let nsc := ceilDiv (mmaK o) 128
  { a := mkOpnd t up o.asp o.afmt.toNat (mmaM o) ((mmaK o) / mmaRatio o sparse) (mmaRatio o sparse)
      (if o.asp then (c.s o.aop).toNat else o.aop.toNat % 8) (c.cap.getD 0 0).toNat,
    b := mkOpnd t up o.bsp o.bfmt.toNat (mmaN o) (mmaK o) 1 (if o.bsp then (c.s o.bop).toNat else o.bop.toNat % 8)
      (c.cap.getD 1 0).toNat,
    xv := extraOf c.fp4x.toNat,
    sa := if o.saen then some (scrWords t up (c.s o.sas).toNat ((mmaM o) * nsc)) else none,
    sb := if o.sben then some (scrWords t up (c.s o.sbs).toNat (ceilDiv (mmaN o) 128 * nsc)) else none,
    sc := nsc,
    mta := if sparse then leNat (scrRead t up (c.s o.smeta).toNat ((mmaM o) * (mmaMetaRow o))) else 0 }

/-- MMA or MMAS completes. -/
def mmaDone (s : State) (c : Cmd) (o : OpMma) (sparse : Bool) : State :=
  if o.mq = 0 ∨ o.nq = 0 then finishCmd s c.id 0 0
  else
    let up := upperOf s c.own
    let t := s.team c.own.team
    let kc := (mmaK o) / mmaRatio o sparse
    let lost :=
      (o.asp && scrBad t up (c.s o.aop).toNat (opndSize o.afmt.toNat (mmaM o) kc (mmaRatio o sparse))) ||
      (o.bsp && scrBad t up (c.s o.bop).toNat (opndSize o.bfmt.toNat (mmaN o) (mmaK o) 1)) ||
      (!o.asp && tileBad t up (o.aop.toNat % 8)) || (!o.bsp && tileBad t up (o.bop.toNat % 8))
    if lost ∧ o.kq ≠ 0 then finishCmd s c.id (statusWord cECCU 0) 0
    else
      let x := mmaIn t up c o sparse
      let r := accRegion (if o.clr then clearAcc t up o.acc.toNat else t) up o.acc.toNat (mmaM o) (mmaN o) (fun a m n => mmaElem o sparse x a m n)
      finishCmd (s.updTeam c.own.team (fun _ => r.1)) c.id 0 r.2

/-! ## ACCCVT (R284) -/

def execAcccvt (o : OpAcccvt) (s : State) : Host.Outcome State Fault Refusal :=
  issue (.acccvt o) s (fun I => issueCmd I .matrix (some o.tok) (some o.cv) (fun J =>
    let m := 16 * o.mq.toNat
    let n := 16 * o.nq.toNat
    match (if m = 0 ∨ n = 0 then none
      else firstFail [opndShape J o.asp o.aop o.afmt.toNat m n 1, accEcc J o.acc.toNat,
        opndMem J .write o.asp o.aop o.afmt.toNat m n 1]) with
    | some f => .error f
    | none => .ok (J.s, [BitVec.ofNat 64 (J.shape (o.aop.toNat % 8))])))

/-- One row converted: element codes, scale codes, flags. -/
def cvtRow (fmt : Nat) (r : Nat → Rnd) (xv : Extra) (row : List Nat) : List Nat × List Nat × Nat :=
  if fmt = 12 ∨ fmt = 13 then (row, [], 0)
  else if fmt = 10 ∨ fmt = 11 then
    let f := if fmt = 10 then I8 else I4
    let cs := row.map (fun x => f.sat (sext 32 x))
    (cs.map (fun c => intBits f.bits c.1), [], cs.foldl (fun a c => flagOr a c.2) 0)
  else if isMx fmt then
    let bs := ((cut32 (row.length / 32 + 1) (row.map FP32.val)).zipIdx).map (fun p => mxBlock fmt (fun i => r (32 * p.2 + i)) xv p.1)
    (bs.flatMap (fun b => b.2.1), bs.map (fun b => b.1), bs.foldl (fun a b => flagOr a b.2.2) 0)
  else
    let cs := (row.zipIdx).map (fun p => encElem fmt (r p.2) (FP32.val p.1))
    (cs.map (·.1), [], cs.foldl (fun a c => flagOr a c.2) 0)

/-- Writes a row of an image, in scratchpad at `loc` or in tile `loc`, of the given rows and columns. -/
def putRow (t : Team) (up sp : Bool) (loc fmt rows cols r : Nat) (codes scales : List Nat) : Team :=
  let w := fun (u : Team) (off : Nat) (bs : List Byte) => if sp then u.scrWrite up (loc + off) bs else u.tileWrite up loc off bs
  let u := w t (rowAt fmt cols r) (pack fmt codes)
  if isMx fmt then w u (scalesAt fmt rows cols r) (scales.map (BitVec.ofNat 8)) else u

/-- Reads a row of an image: codes and scales of its first `n` elements. -/
def getRow (t : Team) (up sp : Bool) (loc fmt rows cols r n : Nat) : List Nat × List Nat :=
  let rd := fun (off k : Nat) => if sp then scrRead t up (loc + off) k else tileBytes t up loc off k
  (unpack fmt n (rd (rowAt fmt cols r) (rowBytes fmt n)),
   if isMx fmt then (rd (scalesAt fmt rows cols r) (n / 32)).map (·.toNat) else [])

def acccvtDone (s : State) (c : Cmd) (o : OpAcccvt) : State :=
  let ms := 16 * o.mq.toNat
  let ns := 16 * o.nq.toNat
  if ms = 0 ∨ ns = 0 then finishCmd s c.id 0 0
  else
    let up := upperOf s c.own
    let t := s.team c.own.team
    let fmt := o.afmt.toNat
    let sh := (c.cap.getD 0 0).toNat
    let loc := if o.asp then (c.s o.aop).toNat else o.aop.toNat % 8
    let rows := if o.asp then ms else shRows sh
    let cols := if o.asp then ns else shCols sh
    let rnd := fun (m n : Nat) =>
      if o.pat = 2 then Rnd.sr (srh c.srseed.toNat 3 (m * 384 + n)) else if o.pat = 1 then .rz else .rne
    let xv := extraOf c.fp4x.toNat
    let r := (List.range ms).foldl (fun (q : Team × Nat) m =>
      let row := (List.range ns).map (fun n => (accGet t up o.acc.toNat m n).toNat)
      let v := cvtRow fmt (rnd m) xv row
      (putRow q.1 up o.asp loc fmt rows cols m v.1 v.2.1, flagOr q.2 v.2.2)) (if o.asp then t else clearTile t up loc, 0)
    finishCmd (s.updTeam c.own.team (fun _ => r.1)) c.id 0 r.2

/-! ## ACCZ, ACCST, ACCRD, ACCWR (R283, R285) -/

def execAccz (o : OpAccz) (s : State) : Host.Outcome State Fault Refusal :=
  issue (.accz o) s (fun I => plainCmd I .matrix (some o.d))

def acczDone (s : State) (c : Cmd) (o : OpAccz) : State :=
  let up := upperOf s c.own
  let k := accKey up o.a.toNat * 98304
  finishCmd (s.updTeam c.own.team (fun t => clearAcc { t with acc := Map.clear t.acc k (k + 98304) } up o.a.toNat)) c.id 0 0

/-- M, N and whether SC's value is out of range. -/
def accstExt (x : Nat) : Nat × Nat × Bool :=
  let m := bitsN x 8 0
  let n := bitsN x 24 16
  (m, n, decide (256 < m) || decide (384 < n) || decide (x ≠ m + 65536 * n))

def execAccst (o : OpAccst) (s : State) : Host.Outcome State Fault Refusal :=
  issue (.accst o) s (fun I => issueCmd I .matrix (some o.d) none (fun J =>
    let e := accstExt (J.rs o.c).toNat
    match (if e.2.2 ∨ e.1 = 0 ∨ e.2.1 = 0 then none
      else firstFail [scrRegion J true .write 64 (J.rs o.b).toNat (4 * e.1 * e.2.1), accEcc J o.a.toNat]) with
    | some f => .error f
    | none => .ok (J.s, [])))

def accstDone (s : State) (c : Cmd) (o : OpAccst) : State :=
  let e := accstExt (c.s o.c).toNat
  if e.2.2 then finishCmd s c.id (statusWord cILLENC 0) 0
  else
    let up := upperOf s c.own
    let bs := fun (t : Team) => (List.range e.1).flatMap (fun m => (List.range e.2.1).flatMap (fun n =>
      leBytes (accGet t up o.a.toNat m n).toNat 4))
    finishCmd (s.updTeam c.own.team (fun t => t.scrWrite up (c.s o.b).toNat (bs t))) c.id 0 0

/-- The row and column of an element index, none beyond the accumulator. -/
def accIdx (x : Word32) : Option (Nat × Nat) :=
  let r := x.toNat / 65536
  let c := x.toNat % 65536
  if r < 256 ∧ c < 384 then some (r, c) else none

def execAccrd (o : OpAccrd) (s : State) : Host.Outcome State Fault Refusal :=
  issue (.accrd o) s (fun I =>
    if accBusy I.s I.ref o.a.toNat then .wait 0 I.s0
    else if accBad I.tm I.up o.a.toNat then .fault (memFault { code := cECCU, site := 12 } .read false I.en 0) I.s0
    else .ok (I.setV o.d (fun _ t =>
      match accIdx (srcI I.gp false t o.b) with
      | some (r, c) => accGet I.tm I.up o.a.toNat r c
      | none => 0)))

def execAccwr (o : OpAccwr) (s : State) : Host.Outcome State Fault Refusal :=
  issue (.accwr o) s (fun I =>
    if accBusy I.s I.ref o.acc.toNat then .wait 0 I.s0
    else .ok (I.updTeam (fun t => I.en.foldl (fun u l =>
      match accIdx ((I.th l).r o.a) with
      | some (r, c) => u.accPut I.up o.acc.toNat r c (srcI I.gp false (I.th l) o.b)
      | none => u) t)))

end Sys2Proof.Machine
end

