-- ==== Sys2Proof/Machine/Attn.lean ====
section
/-! DEFINITION. Attention: ATTN, ATTNV and ATTNF (R319 to R322, R426), from their checks to their completion. -/

namespace Sys2Proof.Machine

/-! ## Execution (R319) -/

/-- The checks of the elected lane's execution: more than 16 operands; the accumulators; the tile. -/
def attnChecks (I : Iss) (o : OpAttn) (v : Bool) : Option FInfo :=
  let n := (handleList (I.rs o.shm)).length
  let w := I.shape o.tq.toNat
  let span := if v then 1 else ceilDiv (64 * n) 384
  if 16 < n then some { code := cILLENC, lanes := I.en }
  else if I.tm.decl.accs < o.acc.toNat + span then some { code := cILLREG, lanes := I.en }
  else if shRows w = 0 ∨ 2 < shEfmt w ∨ shRows w < 16 * o.mq.toNat ∨ (v ∧ shCols w < 64 * n) then
    some { code := cILLENC, lanes := I.en }
  else if n = 0 ∨ o.vrows = 0 then none
  else firstFail [
    if tileBad I.tm I.up o.tq.toNat then some (memFault { code := cECCU, site := 11 } .read true I.en 0) else none,
    if o.clr then none else firstFail ((List.range span).map (fun k => accEcc I (o.acc.toNat + k)))]

/-- The command of ATTN or ATTNV: the tile's shape is read now (R276). -/
def attnIssue (i : Instr) (o : OpAttn) (v : Bool) (s : State) : Host.Outcome State Fault Refusal :=
  issue i s (fun I => issueCmd I .matrix (some o.tok) (some o.cv) (fun J =>
    match attnChecks J o v with
    | some f => .error f
    | none => .ok (J.s, [BitVec.ofNat 64 (J.shape o.tq.toNat)])))

def execAttn (o : OpAttn) (s : State) : Host.Outcome State Fault Refusal := attnIssue (.attn o) o false s
def execAttnv (o : OpAttn) (s : State) : Host.Outcome State Fault Refusal := attnIssue (.attnv o) o true s

/-! ## Reaching the array -/

/-- What the array knows of an operand, read once as it reaches the array (R319): format, token count, DH, KV heads, tensors, failed;
SCALE; FILLED, and where its buffer lies. -/
structure AttnOp where
  fmt  : Nat
  ntok : Nat
  dh   : Nat
  nkvh : Nat
  tsel : Nat
  fail : Bool
  scale : Nat
  filled : Nat
  off  : Nat
  team : Nat
  deriving DecidableEq, Repr

def AttnOp.words (x : AttnOp) : List Word64 :=
  [BitVec.ofNat 64 (x.fmt + x.ntok * 2 ^ 8 + x.dh * 2 ^ 16 + x.nkvh * 2 ^ 32 + x.tsel * 2 ^ 40 + b2n x.fail * 2 ^ 48),
   BitVec.ofNat 64 (x.scale + x.filled * 2 ^ 32), BitVec.ofNat 64 (x.off + x.team * 2 ^ 32)]

def attnOpsOf : List Word64 → List AttnOp
  | a :: b :: d :: rest =>
    let w := a.toNat
    { fmt := bitsN w 7 0, ntok := bitsN w 15 8, dh := bitsN w 31 16, nkvh := bitsN w 39 32, tsel := bitsN w 47 40,
      fail := bitN w 48, scale := bitsN b.toNat 31 0, filled := bitsN b.toNat 63 32, off := bitsN d.toNat 31 0,
      team := bitsN d.toNat 63 32 } :: attnOpsOf rest
  | _ => []

/-- Reads one operand as it reaches the array: OBJBOUNDS where it holds no snapshot or a check of R319 fails. The geometry is
that of the fill, for the map entry may be gone (R327, log entry 72). -/
def attnOperand (s : State) (c : Cmd) (o : OpAttn) (v : Bool) (h : Nat) : Except Nat AttnOp :=
  let hd := (s.ctx c.ctx).handle (s.vcoreRef c.own) h
  match hd.snap with
  | none => .error cOBJBOUNDS
  | some sn =>
    let g := hd.geo
    let lacks : Bool := if v then decide (hd.tsel = 1) else decide (hd.tsel = 2)
    if g.nkvh ≤ o.head.toNat ∨ g.nl ≤ o.layer.toNat ∨ hd.tsel = 0 ∨ lacks ∨ (!v ∧ shCols (c.cap.getD 0 0).toNat < g.dh) then
      .error cOBJBOUNDS
    else
      .ok { fmt := sn.fmt.toNat, ntok := min 64 sn.ntok.toNat, dh := g.dh, nkvh := g.nkvh, tsel := hd.tsel.toNat,
            fail := hd.fail, scale := sn.scale.toNat, filled := hd.filled.toNat, off := hd.offset.toNat, team := hd.team }

def attnOperands (s : State) (c : Cmd) (o : OpAttn) (v : Bool) : List Nat → Except Nat (List AttnOp)
  | [] => .ok []
  | h :: hs =>
    match attnOperand s c o v h, attnOperands s c o v hs with
    | .error e, _ => .error e
    | .ok _, .error e => .error e
    | .ok x, .ok xs => .ok (x :: xs)

def attnCmd (c : Cmd) : Option (OpAttn × Bool) :=
  match c.instr with
  | .attn o => some (o, false)
  | .attnv o => some (o, true)
  | _ => none

/-- The operands of a command that completes move to FREE, and their snapshots are released (R164, R300). -/
def attnFree (s : State) (ctx k : Nat) (hs : List Nat) : State := hs.foldl (fun u h => freeHandle u ctx k h) s

/-- A command reaches the array: its operands move from FULL to DRAINING, or it completes with nothing written to its accumulators
(R300, R319). -/
def attnArrive (s : State) (core : Nat) (c : Cmd) (o : OpAttn) (v : Bool) : State :=
  let hs := handleList (c.s o.shm)
  let k := s.vcoreRef c.own
  match attnOperands s c o v hs with
  | .error code => finishCmd (attnFree s c.ctx k hs) c.id (statusWord code 0) 0
  | .ok ops =>
    if v ∧ ops.any (fun x => decide (x.dh ≠ (ops.headD x).dh)) then finishCmd (attnFree s c.ctx k hs) c.id (statusWord cOBJBOUNDS 0) 0
    else
      let t := hs.foldl (fun u h => u.updHandle c.ctx k h (fun x => { x with st := 3 })) s
      (t.updCmd c.id (fun x => { x with st := .queued, cap := x.cap ++ ops.flatMap AttnOp.words })).updCore core
        (fun x => { x with matrix := x.matrix ++ [c.id] })

/-- Is every operand of a waiting command FULL? -/
def attnReady (s : State) (core : Nat) (c : Cmd) : Bool :=
  match attnCmd c with
  | none => false
  | some (o, _) =>
    decide (c.st = .waiting) && (s.team c.own.team).st.runs && decide (coreOf (s.team c.own.team) c.own.gid = core) &&
    (handleList (c.s o.shm)).all (fun h => decide (((s.ctx c.ctx).handle (s.vcoreRef c.own) h).st = 2))

def execAttnArrayStart (core : Nat) (s : State) : Host.Outcome State Fault Refusal :=
  match s.cmds.find? (attnReady s core) with
  | none => .next s
  | some c =>
    match attnCmd c with
    | none => .next s
    | some (o, v) => .next (attnArrive s core c o v)

/-! ## The computation (R320, R321) -/

/-- The element type of a page format (R154). -/
def pageEfmt (fmt : Nat) : Nat := if fmt = 0 then 0 else if fmt = 1 then 2 else if fmt = 2 then 7 else 9

/-- A tensor of an operand's buffer as a number, its codes and its block scales (R318). -/
structure AttnBuf where
  img : Nat
  op  : AttnOp
  /-- τ of the tensor, and how many tensors the buffer holds. -/
  tau : Nat
  nt  : Nat
  deriving DecidableEq, Repr

def AttnBuf.rb (b : AttnBuf) : Nat := b.op.dh * kvBits b.op.fmt / 8
def AttnBuf.e (b : AttnBuf) : Nat := b.op.nkvh * 64 * b.rb
def AttnBuf.row (b : AttnBuf) (h j : Nat) : Nat := b.tau * b.e + (h * 64 + j) * b.rb
def AttnBuf.val (b : AttnBuf) (h j d : Nat) : Ev :=
  elemVal (pageEfmt b.op.fmt) none (b.img / 2 ^ (8 * b.row h j + kvBits b.op.fmt * d) % 2 ^ kvBits b.op.fmt)
/-- The page factor at token `j` and dimension `d`: SCALE, or the block's X. -/
def AttnBuf.factor (b : AttnBuf) (h j d : Nat) : Ev :=
  if b.op.fmt < 2 then FP32.val b.op.scale
  else
    let at_ := b.nt * b.e + b.tau * (b.op.nkvh * 64 * b.op.dh / 32) + (h * 64 + j) * (b.op.dh / 32) + d / 32
    e8m0 (b.img / 2 ^ (8 * at_) % 256)

/-- The tensor of an operand from its buffer. -/
def attnBuf (s : State) (c : Cmd) (v : Bool) (x : AttnOp) : AttnBuf :=
  let nt := if x.tsel = 3 then 2 else 1
  { img := leNat (scrRead (s.team x.team) (upperOf s c.own) x.off x.filled), op := x, tau := if v then nt - 1 else 0, nt := nt }

/-- Is an operand's buffer lost to a soft error (R417)? -/
def attnBufBad (s : State) (c : Cmd) (x : AttnOp) : Bool :=
  decide (x.filled ≠ 0) && scrBad (s.team x.team) (upperOf s c.own) x.off x.filled

/-- FP32 −∞. -/
def negInf32 : Nat := 0xFF800000

/-- One score (R320): the accumulator's code and the flags. -/
def attnScore (qf : Nat) (q : Nat → Ev) (b : AttnBuf) (head j acc0 : Nat) : Nat × Nat :=
  let ks := if qf < 2 ∨ b.op.fmt = 0 then 16 else 32
  let al := alignedPair qf (pageEfmt b.op.fmt)
  let n := b.op.dh / ks
  let p := if b.op.fmt < 2 then n else 1
  let r := (List.range n).foldl (fun (st : Nat × Nat × ASum) s =>
    let sum := st.2.2.step al ((List.range ks).map (fun i => (q (s * ks + i), b.val head j (s * ks + i))))
    if (s + 1) % p = 0 ∨ s + 1 = n then
      let x := promote st.1 Ev.one (b.factor head j (s * ks)) sum
      (x.1, flagOr st.2.1 x.2, {})
    else (st.1, st.2.1, sum)) (acc0, 0, {})
  (r.1, r.2.1)

/-- One operand's part of an element of ATTNV (R321). -/
def attnvPart (qf : Nat) (pt : Nat → Ev) (b : AttnBuf) (head d : Nat) (st : Nat × Nat) : Nat × Nat :=
  let ks := if qf < 2 ∨ b.op.fmt = 0 then 16 else 32
  let al := alignedPair qf (pageEfmt b.op.fmt)
  let term := fun (j : Nat) => (pt j, b.val head j d)
  if b.op.fmt < 2 then
    let sum := (List.range (64 / ks)).foldl (fun (a : ASum) s =>
      a.step al (((List.range ks).filter (fun i => decide (s * ks + i < b.op.ntok))).map (fun i => term (s * ks + i)))) {}
    let x := promote st.1 Ev.one (b.factor head 0 d) sum
    (x.1, flagOr st.2 x.2)
  else
    (List.range b.op.ntok).foldl (fun st j =>
      let x := promote st.1 Ev.one (b.factor head j d) (({} : ASum).step al [term j])
      (x.1, flagOr st.2 x.2)) st

/-- ATTN over every operand: the team and the flags. -/
def attnRun (t : Team) (up : Bool) (o : OpAttn) (q : Opnd) (bufs : List AttnBuf) : Team × Nat :=
  (bufs.zipIdx).foldl (fun r p => (List.range o.vrows.toNat).foldl (fun r m => (List.range 64).foldl (fun r j =>
    let c := 64 * p.2 + j
    let a := o.acc.toNat + c / 384
    let old := if o.clr then 0 else (accGet r.1 up a m (c % 384)).toNat
    let x := if p.1.op.fail ∨ p.1.op.ntok ≤ j then (negInf32, 0) else attnScore q.fmt (q.val none m) p.1 o.head.toNat j old
    (r.1.accPut up a m (c % 384) (BitVec.ofNat 32 x.1), flagOr r.2 x.2)) r) r) (t, 0)

/-- ATTNV: each element over the operands in list order; failed ones contribute nothing (R426). -/
def attnvRun (t : Team) (up : Bool) (o : OpAttn) (pt : Opnd) (bufs : List AttnBuf) : Team × Nat :=
  accRegion t up o.acc.toNat o.vrows.toNat ((bufs.map (fun b => b.op.dh)).headD 0) (fun old m d =>
    (bufs.zipIdx).foldl (fun st p =>
      if p.1.op.fail then st else attnvPart pt.fmt (fun j => pt.val none m (64 * p.2 + j)) p.1 o.head.toNat d st)
      (if o.clr then 0 else old, 0))

/-- The mask of failed operands by position (R426). -/
def failMask (ops : List AttnOp) : Nat := (ops.zipIdx).foldl (fun a p => if p.1.fail then a + 2 ^ p.2 else a) 0

/-- ATTN or ATTNV completes: its operands are freed (R300); with nothing to compute only the token is written (R319). -/
def attnDone (s : State) (c : Cmd) (o : OpAttn) (v : Bool) : State :=
  let hs := handleList (c.s o.shm)
  let k := s.vcoreRef c.own
  let ops := attnOpsOf (c.cap.drop 1)
  if hs.isEmpty ∨ o.vrows = 0 then finishCmd (attnFree s c.ctx k hs) c.id (BitVec.ofNat 64 (failMask ops * 2 ^ 16)) 0
  else
    let up := upperOf s c.own
    let t := s.team c.own.team
    let sh := (c.cap.getD 0 0).toNat
    if tileBad t up o.tq.toNat ∨ ops.any (attnBufBad s c) then finishCmd (attnFree s c.ctx k hs) c.id (statusWord cECCU 0) 0
    else
      let q := mkOpnd t up false (shEfmt sh) (shRows sh) (shCols sh) 1 o.tq.toNat sh
      let bufs := ops.map (attnBuf s c v)
      let r := if v then attnvRun t up o q bufs else attnRun t up o q bufs
      finishCmd (attnFree (s.updTeam c.own.team (fun _ => r.1)) c.ctx k hs) c.id (BitVec.ofNat 64 (failMask ops * 2 ^ 16)) r.2

/-! ## ATTNF (R170, R322) -/

/-- Rows and page count of SC, and whether one is out of range. -/
def attnfExt (x : Nat) : Nat × Nat × Bool :=
  let rows := bitsN x 8 0
  let n := bitsN x 20 16
  (rows, n, decide (rows = 0) || decide (256 < rows) || decide (n = 0) || decide (16 < n))

def attnfChecks (I : Iss) (o : OpAttnf) : Option FInfo :=
  let x := attnfExt (I.rs o.c).toNat
  let w := I.shape o.t.toNat
  if x.2.2 ∨ shRows w = 0 ∨ (shEfmt w ≠ 0 ∧ shEfmt w ≠ 12) ∨ shRows w < x.1 ∨ shCols w < 64 * x.2.1 then
    some { code := cILLENC, lanes := I.en }
  else firstFail [
    scrRegion I true .read 4 (I.rs o.b).toNat (4 * x.2.1),
    if tileBad I.tm I.up o.t.toNat then some (memFault { code := cECCU, site := 11 } .read true I.en 0) else none]

/-- STEP is that of execution (R322). -/
def execAttnf (o : OpAttnf) (s : State) : Host.Outcome State Fault Refusal :=
  issue (.attnf o) s (fun I => issueCmd I .matrix (some o.d) none (fun J =>
    match attnfChecks J o with
    | some f => .error f
    | none => .ok (J.s, [BitVec.ofNat 64 (J.shape o.t.toNat), (J.s.ctx J.tm.ctx).former.step.setWidth 64])))

/-- A term joins a sum with flags. -/
def addTerm (a : Nat × Nat) (x : Ev) : Nat × Nat :=
  let r := accum a.1 x
  (r.1, a.2 ||| r.2)

/-- A contribution (R149): tokens in ascending order within each row, then the row sums; and its flags (R140). -/
def massSum (q : Opnd) (i ntok rows : Nat) : Nat × Nat :=
  (List.range rows).foldl (fun acc m =>
    let row := (List.range ntok).foldl (fun a j => addTerm a (q.val none m (64 * i + j))) (0, 0)
    addTerm (acc.1, acc.2 ||| row.2) (FP32.val row.1)) (0, 0)

/-- Δ (R170): a negative or NaN contribution gives 0; with the flags of a conversion to an integer (log entry 50). -/
def massDelta (c rows : Nat) : Nat × Nat :=
  match FP32.val c with
  | .nan => (0, fNV)
  | .inf s => (if s then 0 else 0xFFFFFFFF, fSAT + fNX)
  | .num s m e =>
    if m = 0 then (0, 0)
    else if s then (0, fSAT + fNX)
    else
      let x : Int := e + 16
      let num := m * 2 ^ x.toNat
      let den := rows * 2 ^ (-x).toNat
      let q := num / den
      let r := num % den
      let n := if 2 * r > den ∨ (2 * r = den ∧ q % 2 = 1) then q + 1 else q
      if 0xFFFFFFFF < n then (0xFFFFFFFF, fSAT + fNX) else (n, if r = 0 then 0 else fNX)

/-- NTOK of the pages of a list, as the command finds it when it starts (R322). -/
def massToks (s : State) (c : Nat) (hs : List Nat) : List Word64 :=
  hs.map (fun h => match (kRun (bgWho c) (kDesc c h) s).1 with
    | .ok d => BitVec.ofNat 64 (dNtok d)
    | .error _ => 0)

/-- The handles of ATTNF's list in the scratchpad. -/
def attnfList (s : State) (c : Cmd) (o : OpAttnf) : List Nat :=
  scrWords (s.team c.own.team) (upperOf s c.own) (c.s o.b).toNat (attnfExt (c.s o.c).toNat).2.1

/-- What a command of the array reads as it starts. -/
def startCap (s : State) (c : Cmd) : Cmd :=
  match c.instr with
  | .attnf o => { c with st := .running, cap := c.cap ++ massToks s c.ctx (attnfList s c o) }
  | _ => { c with st := .running }

/-- The array takes the next command in the order of arrival (R282). -/
def execMatrixCommandStart (core : Nat) (s : State) : Host.Outcome State Fault Refusal :=
  match (s.core core).array, (s.core core).matrix with
  | none, id :: rest =>
    .next ((s.updCore core (fun c => { c with matrix := rest, array := some id })).updCmd id (startCap s))
  | _, _ => .next s

/-- Adds mass to the pages of a list from position `i`, `toks` their tokens: the mask of those skipped, and the flags. -/
def kMass (c : Nat) (q : Opnd) (rows step : Nat) (toks : List Word64) : List Nat → Nat → K (Nat × Nat)
  | [], _ => pure (0, 0)
  | h :: hs, i => do
    let x ← kCtx c
    let live ←
      if x.regs.kvptn.toNat ≤ h then pure false
      else do
        let d ← kDesc c h
        pure (dLive d)
    let one ←
      if live then do
        let d ← kDesc c h
        let r ← kRq c (dRq d)
        let w ← kPolicy c r
        let sum := massSum q i (min 64 (toks.getD i 0).toNat) rows
        let delta := massDelta sum.1 rows
        kDescUpd c h (massUpd step (wDecay w) delta.1)
        pure (0, sum.2 ||| delta.2)
      else pure (2 ^ i, 0)
    let m ← kMass c q rows step toks hs (i + 1)
    pure (one.1 + m.1, one.2 ||| m.2)

def attnfDone (s : State) (c : Cmd) (o : OpAttnf) : State :=
  let x := attnfExt (c.s o.c).toNat
  let up := upperOf s c.own
  let t := s.team c.own.team
  let sh := (c.cap.getD 0 0).toNat
  let off := (c.s o.b).toNat
  if tileBad t up o.t.toNat ∨ scrBad t up off (4 * x.2.1) then finishCmd s c.id (statusWord cECCU 0) 0
  else
    let q := mkOpnd t up false (shEfmt sh) (shRows sh) (shCols sh) 1 o.t.toNat sh
    let hs := attnfList s c o
    match kRun (s.engWho c.own) (kMass c.ctx q x.1 (c.cap.getD 1 0).toNat (c.cap.drop 2) hs 0) s with
    | (.ok m, u) => finishCmd u c.id (BitVec.ofNat 64 (m.1 * 2 ^ 16)) m.2
    | (.error .wait, _) => s
    | (.error (.park b), _) => askOut s c.ctx b
    | (.error e, u) => finishCmd u c.id (statusWord e.status 0) 0

/-! ## Completion of commands (R119) -/

/-- The array is free again. -/
def arrayFree (s : State) (id : Nat) : State :=
  { s with cores := s.cores.map (fun c => (c.1, if c.2.array = some id then { c.2 with array := none } else c.2)) }

end Sys2Proof.Machine
end

