-- ==== Sys2Proof/Machine/Threads.lean ====
section
/-! DEFINITION. Control flow, threads and convergence (R33 to R50, R214 to R218), traps and hints (R219 to R222), bins
(R39 to R46), and the ends of groups (R217). -/

namespace Sys2Proof.Machine

/-! ## Transfers -/

/-- The first failing check of the targets of the enabled lanes (R213): ADDRCANON, then ALIGN. -/
def targetFault (I : Iss) (f : Nat → Word64) : Option FInfo :=
  let es := I.en.filterMap (fun l => (targetErr (f l)).map (fun e => (⟨l, (f l).toNat, e⟩ : LaneErr)))
  (firstFailure es .fetch).map (·.1)

/-- Every enabled lane goes to its target, if all targets pass. -/
def jump (I : Iss) (s : State) (f : Nat → Word64) : Eff :=
  match targetFault I f with
  | some e => .fault e I.s0
  | none => .ok (s.updGroup I.ref (fun g => g.mapLanes I.en (fun l t => { t with pc := f l })))

def execNop (o : Op0) (s : State) : Host.Outcome State Fault Refusal := issue (.nop o) s (fun I => .ok I.s)

def execBra (o : OpI) (s : State) : Host.Outcome State Fault Refusal :=
  issue (.bra o) s (fun I => .ok (I.lanewise (fun _ t => { t with pc := relTarget I.pc o.imm })))

def execBrx (o : OpV) (s : State) : Host.Outcome State Fault Refusal :=
  issue (.brx o) s (fun I => jump I I.s (fun l => (I.th l).rw o.a))

def execRet (o : OpV) (s : State) : Host.Outcome State Fault Refusal :=
  issue (.ret o) s (fun I => jump I I.s (fun l => (I.th l).rw o.a))

/-- The target of an instruction with an immediate or an s-register. -/
def groupTarget (I : Iss) : ImmS → Word64
  | .imm i => relTarget I.pc i
  | .s r => I.rs r

/-- The check of an absolute target; a relative one has none (R213). -/
def absFault (I : Iss) (x : ImmS) : Option FInfo :=
  match x with
  | .imm _ => none
  | .s r => targetFault I (fun _ => I.rs r)

/-- BRU takes the whole issue set, disabled lanes included (R214, R215). -/
def execBru (o : OpT) (s : State) : Host.Outcome State Fault Refusal :=
  issue (.bru o) s (fun I =>
    match absFault I o.t with
    | some e => .fault e I.s0
    | none => .ok (I.s.updGroup I.ref (fun g => g.mapLanes I.set (fun _ t => { t with pc := groupTarget I o.t }))))

/-- CALL reads its target, then writes the return address, then transfers (R214). -/
def execCall (o : OpCall) (s : State) : Host.Outcome State Fault Refusal :=
  issue (.call o) s (fun I =>
    let t := I.lanewise (fun _ t => t.setVp o.d.toNat (BitVec.ofNat 64 (I.pc + 8)))
    match o.t with
    | .rel i => .ok (t.updGroup I.ref (fun g => g.mapLanes I.en (fun _ t => { t with pc := relTarget I.pc i })))
    | .v r => jump I t (fun l => (I.th l).rw r))

/-! ## Threads -/

def execExit (o : Op0) (s : State) : Host.Outcome State Fault Refusal :=
  issue (.exit o) s (fun I => .ok (I.lanewise (fun _ t => t.exit)))

/-- JOIN is a NOP wherever it executes; a lane of an open split mask waits before it (R37, R38). -/
def execJoin (o : Op0) (s : State) : Host.Outcome State Fault Refusal := issue (.join o) s (fun I => .ok I.s)

def execElect (o : OpP) (s : State) : Host.Outcome State Fault Refusal :=
  issue (.elect o) s (fun I => .ok (I.lanewise (fun l t => t.setP o.d.toNat (decide (l = I.low)))))

def execYield (o : Op0) (s : State) : Host.Outcome State Fault Refusal :=
  issue (.yield o) s (fun I => .ok (I.s.updGroup I.ref (fun g => { g with yieldMask := maskOf I.en })))

/-! ## Bins (R39 to R46) -/

/-- The bins of a sequencer, by number. -/
def seqBins (c : Core) (q : Nat) : List (Nat × Bin) := c.bins.filter (fun b => decide (b.1 / 16 = q))

/-- Chooses the bin for a thread (R40): the one with the key that is not full and was entered earliest, else the lowest
empty one. -/
def chooseBin (c : Core) (q k : Nat) (key : Word64) (gw : Nat) : Option Nat :=
  let fit := (seqBins c q).filter (fun b => decide (b.2.team = k) && decide (b.2.key = key) && decide (b.2.threads.length < gw))
  match fit with
  | b :: bs => some (bs.foldl (fun (a : Nat × Bin) x => if x.2.first < a.2.first then x else a) b).1
  | [] => ((List.range 16).map (fun i => 16 * q + i)).find? (fun i => (Map.find c.bins i).isNone)

/-- Files a thread into a bin of a group's sequencer; none where no bin entry is available. -/
def fileThread (s : State) (g : GRef) (key : Word64) (t : Thread) : Option State :=
  let tm := s.team g.team
  let core := coreOf tm g.gid
  let q := (s.group g).seq
  match chooseBin (s.core core) q g.team key tm.decl.gw with
  | none => none
  | some b =>
    let u : Thread := { t.commitAll with pc := key, st := .live }
    some (s.updCore core (fun c =>
      { c with bins := match Map.find c.bins b with
          | some x =>
            let y := { x with threads := x.threads ++ [u] }
            Map.put c.bins b { y with ready := y.ready || decide (tm.decl.gw ≤ y.threads.length) }
          | none =>
            Map.put c.bins b ⟨g.team, key, [u], s.now, s.now + max 16 (s.group g).binage.toNat, decide (tm.decl.gw ≤ 1)⟩ }))

/-- A filed lane's place in its group. -/
def Thread.leave (t : Thread) : Thread := { t with st := .left, bind := none, pend := [] }

/-- A lane leaves its group; the last one that does so ends it (R40, R41). -/
def Group.leave (g : Group) (l : Nat) : Group :=
  let x := g.updLane l Thread.leave
  { x with gone := !x.hasLive }

/-- REFORM of lanes in ascending order: filed, or parked to retry (R40). -/
def reformLane (g : GRef) (s : State) (l : Nat) : State :=
  let t := (s.group g).lane l
  match fileThread s g t.pc t with
  | some u => u.updGroup g (fun x => x.leave l)
  | none => s.updGroup g (fun x => x.updLane l (fun t => { t with st := .parked .reform }))

/-- Is any register of a lane still awaited (R43)? -/
def laneBusy (g : Group) (l : Nat) : Bool :=
  g.busy.any (fun b => decide (b.cls ≠ .s) && b.lanes.getLsbD l)

def execReform (o : Op0) (s : State) : Host.Outcome State Fault Refusal :=
  issue (.reform o) s (fun I =>
    let last := (I.gp.lanes.filter (fun e => decide (e.2.st ≠ .exited) && decide (e.2.st ≠ .left))).all (fun e => decide (e.1 ∈ I.en))
    if I.en.any (laneBusy I.gp) ∨ (last ∧ !I.gp.idle) then .wait 0 I.s0
    else .ok (I.en.foldl (reformLane I.ref) I.s))

/-- Thread frames in use on a sequencer of a core by a team. -/
def framesUsed (s : State) (k core q : Nat) : Nat :=
  let t := s.team k
  let gs := t.groups.filter (fun e => decide (coreOf t e.1 = core) && decide (e.2.seq = q))
  gs.foldl (fun a e => a + (e.2.lanes.filter (fun l => decide (l.2.st ≠ .exited) && decide (l.2.st ≠ .left))).length) 0 +
    ((seqBins (s.core core) q).filter (fun b => decide (b.2.team = k))).foldl (fun a b => a + b.2.threads.length) 0

/-- Thread frames reserved there (R30). -/
def framesHeld (t : Team) (core q : Nat) : Nat :=
  ((List.range t.decl.team).filter (fun g => decide (coreOf t g = core) && decide (g % 4 = q))).length * t.decl.gw

/-- A thread sees its maker's earlier stores as a later instruction of the maker's would: those that wait, and halves of atomics, are its
own too (R43). -/
def inherit (s : State) (k : Nat) (parent child : BitVec 32) : State :=
  let t := s.updTeam k (fun x => { x with groups := x.groups.map (fun e => (e.1, { e.2 with
    stq := e.2.stq.map (fun h => if parent ∈ h.tids then { h with tids := h.tids ++ [child] } else h) })) })
  { t with sauQ := t.sauQ.map (fun q =>
    if q.own.team = k ∧ q.atom ∧ parent ∈ q.tids ++ q.heirs then { q with heirs := q.heirs ++ [child] } else q) }

/-- SPAWN for one lane: a new thread is filed, or the lane parks to retry (R42). -/
def spawnLane (entry : Word64) (g : GRef) (s : State) (l : Nat) : State :=
  let tm := s.team g.team
  let core := coreOf tm g.gid
  let t := ((s.group g).lane l).commitAll
  let park := fun (_ : Unit) => s.updGroup g (fun x => x.updLane l (fun t => { t with st := .parked (.spawn entry) }))
  let q := (s.group g).seq
  if framesHeld tm core q ≤ framesUsed s g.team core q then park ()
  else
    let n : Thread := { tid := tm.nextTid, v := t.v.filter (fun e => decide (e.1 < 8)), bad := t.bad.filter (· < 8) }
    match fileThread s g entry n with
    | none => park ()
    | some u =>
      (inherit (u.updTeam g.team (fun x => { x with nextTid := x.nextTid + 1 })) g.team t.tid tm.nextTid).updGroup g
        (fun x => x.updLane l (fun t => { t with st := .live }))

def execSpawn (o : OpT) (s : State) : Host.Outcome State Fault Refusal :=
  issue (.spawn o) s (fun I =>
    let x := groupTarget I o.t
    match targetFault I (fun _ => x) with
    | some e => .fault e I.s0
    | none =>
      if I.en.any (laneBusy I.gp) then .wait 0 I.s0
      else .ok (I.en.foldl (spawnLane x I.ref) I.s))

/-- A parked REFORM or SPAWN tries again (R40, R42). -/
def execFilingRetry (g : GRef) (lane : Nat) (s : State) : Host.Outcome State Fault Refusal :=
  if (s.group g).fault.isSome ∨ !(s.team g.team).st.runs then .next s
  else
    match ((s.group g).lane lane).st with
    | .parked .reform =>
      let last := ((s.group g).lanes.filter (fun e => decide (e.2.st ≠ .exited) && decide (e.2.st ≠ .left))).all (fun e => decide (e.1 = lane))
      if last ∧ !(s.group g).idle then .next s else .next (reformLane g s lane)
    | .parked (.spawn e) => .next (spawnLane e g s lane)
    | _ => .next s

/-- A bin's age timer expires (R44). -/
def execBinAgeExpiry (core bin : Nat) (s : State) : Host.Outcome State Fault Refusal :=
  match Map.find (s.core core).bins bin with
  | none => .next s
  | some b =>
    if b.expiry ≤ s.now then .next (s.updCore core (fun c => { c with bins := Map.put c.bins bin { b with ready := true } }))
    else .next s

/-- The initial state of a group's own registers (R331). Its creation counts as its last issue (R338; DESIGN CHOICE, log entry 86). -/
def newGroup (s : State) (k seq : Nat) (lanes : Map Thread) : Group :=
  let t := s.team k
  let c := s.ctx t.ctx
  let g := s.gridOf t
  let win := if t.decl.win = 0 then (0 : Word64) else BitVec.ofNat 64 Config.winVa
  { live := true, seq := seq, lanes := lanes,
    sr := Map.set 0 (Map.set 0 (Map.set 0 (Map.set 0 [] 0 g.arg) 1 win) 2
      (BitVec.ofNat 64 (t.lid.toNat + g.teams * 2 ^ 32))) 3 c.former.steptab,
    binage := c.regs.defbin, actBank := c.actDef, nextIssue := s.now, lastIssue := s.now }

/-- Groups resident on a sequencer of a core. -/
def seqGroups (s : State) (core q : Nat) : Nat :=
  (s.teams.filter (fun e => e.2.onCore)).foldl (fun a e =>
    a + (e.2.groups.filter (fun g => decide (coreOf e.2 g.1 = core) && decide (g.2.seq = q))).length) 0

/-- The lowest free group slot of a team on a core, of those that its declaration gives it there (R30, R45; log entry 59). -/
def freeSlot (t : Team) (core : Nat) : Option Nat :=
  (List.range t.decl.team).find? (fun g => decide (coreOf t g = core) && (Map.find t.groups g).isNone)

/-- Group slots of the team on a core: as many as its declaration places there (R30). -/
def slotsHeld (t : Team) (core : Nat) : Nat := ((List.range t.decl.team).filter (fun g => decide (coreOf t g = core))).length

/-- Can a bin launch: is it ready, and does its team run and have a free slot on the core (R44)? -/
def canLaunch (s : State) (core : Nat) (b : Bin) : Bool :=
  b.ready && (s.team b.team).st.runs && (freeSlot (s.team b.team) core).isSome

/-- Does a bin launch before another: the earlier first entry, then the lower number (R44)? -/
def binBefore (a b : Nat × Bin) : Bool := decide (a.2.first < b.2.first) || (decide (a.2.first = b.2.first) && decide (a.1 < b.1))

/-- A ready bin launches a group of its team (R44, R45), earliest first entry first. -/
def execBinLaunch (core bin : Nat) (s : State) : Host.Outcome State Fault Refusal :=
  match Map.find (s.core core).bins bin with
  | none => .next s
  | some b =>
    let q := bin / 16
    let t := s.team b.team
    let older := (seqBins (s.core core) q).any (fun x => canLaunch s core x.2 && binBefore x (bin, b))
    match freeSlot t core with
    | none => .next s
    | some gid =>
      if !canLaunch s core b ∨ older ∨ 16 ≤ seqGroups s core q then .next s
      else
        let lanes := (List.range t.decl.gw).map (fun j => (j, match b.threads[j]? with
          | some x => { x with pc := b.key, st := LaneSt.live }
          | none => ({ st := .exited } : Thread)))
        let g := { newGroup s b.team q lanes with nextIssue := s.now + 8 }
        .next ((s.updCore core (fun c => { c with bins := Map.erase c.bins bin })).updGroup ⟨b.team, gid⟩ (fun _ => g))

/-- A group with no live lane ends once its counters are zero and, unless its last thread left by REFORM, its tokens are
written (R41, R217). -/
def execGroupEnd (g : GRef) (s : State) : Host.Outcome State Fault Refusal :=
  if canEnd (s.group g) ∧ (s.team g.team).st.runs then .next (endGroup s g) else .next s

/-! ## Convergence registers -/

def execCvset (o : OpCvSet) (s : State) : Host.Outcome State Fault Refusal :=
  issue (.cvset o) s (fun I =>
    let n := match o.c with
      | .imm i => i.toNat
      | .s r => (I.rs r).toNat % 2 ^ 32
    let d := I.tm.decl
    let r := Map.get {} I.tm.cv o.cv.toNat
    if !r.signed.isEmpty then .fault (cvFault o.cv.toNat 4 I.en) I.s0
    else if d.team * d.gw < n then .fault (cvFault o.cv.toNat 5 I.en) I.s0
    else .ok (I.s.updTeam I.ref.team (fun t => { t with cv := Map.put t.cv o.cv.toNat { r with count := n } })))

/-- CVSIGN of one lane: the state with its signature, or its failure. -/
def cvsignLane (I : Iss) (cv : Nat) (acc : State × List (Nat × Nat)) (l : Nat) : State × List (Nat × Nat) :=
  let tid := (I.th l).tid
  match cvRefused (Map.get {} (acc.1.team I.ref.team).cv cv) tid false with
  | some why => (acc.1, acc.2 ++ [(l, why)])
  | none => (cvSigned acc.1 I.ref.team cv tid none, acc.2)

/-- CVSIGN (R48): a release at team scope; the lanes that fail fault, the others are counted and go on (R218). -/
def execCvsign (o : OpCv) (s : State) : Host.Outcome State Fault Refusal :=
  issue (.cvsign o) s (fun I0 => withRelease I0 1 (fun I =>
    let r := I.en.foldl (cvsignLane I o.cv.toNat) (I.s, [])
    match r.2 with
    | [] => .ok r.1
    | (_, why) :: _ =>
      let bad := (r.2.filter (fun p => decide (p.2 = why))).map (·.1)
      let back := r.2.map (·.1)
      .fault (cvFault o.cv.toNat why bad)
        (r.1.updGroup I.ref (fun g =>
          let y := { g with yieldMask := I.s0.group I.ref |>.yieldMask }
          y.mapLanes back (fun _ t => { t with pc := BitVec.ofNat 64 I.pc })))))

/-! ## Traps and hints -/

/-- One line of a PREFI; a target that cannot be fetched drops the hint (R220). -/
def prefiLine (g : GRef) (s : State) (va : Nat) : State :=
  let t := s.team g.team
  match xlate s (s.who g) va .fetch false with
  | .error _ => s
  | .ok (lf, u) =>
    match homeRead (atBoundary u (s.gridOf t)) (lf.pa / 64 * 64) 64 with
    | .error _ => s
    | .ok _ => icFill u t.die (lf.pa / 64)

def execPrefi (o : OpPrefi) (s : State) : Host.Outcome State Fault Refusal :=
  issue (.prefi o) s (fun I =>
    let x := (relTarget I.pc o.imm).toNat
    .ok ((List.range (o.n.toNat + 1)).foldl (fun u k => prefiLine I.ref u (x / 64 * 64 + 64 * k)) I.s))

def execIdempBegin (o : Op0) (s : State) : Host.Outcome State Fault Refusal :=
  issue (.idempBegin o) s (fun I => .ok (I.s.updGroup I.ref (fun g => { g with idempf := true })))

def execIdempEnd (o : Op0) (s : State) : Host.Outcome State Fault Refusal :=
  issue (.idempEnd o) s (fun I => .ok (I.s.updGroup I.ref (fun g => { g with idempf := false })))

def execTrap (o : OpI) (s : State) : Host.Outcome State Fault Refusal :=
  issue (.trap o) s (fun I => I.fail cSWTRAP o.imm.toNat I.en)

def execBkpt (o : OpI) (s : State) : Host.Outcome State Fault Refusal :=
  issue (.bkpt o) s (fun I => I.fail cBKPT o.imm.toNat I.en)

/-- TRAPFENCE (R222): every instruction of this machine that sets flags at its completion, commands aside, has set them
when it issues. -/
def execTrapfence (o : Op0) (s : State) : Host.Outcome State Fault Refusal :=
  issue (.trapfence o) s (fun I =>
    let f := (I.gp.fpflags &&& I.gp.trapctl &&& 63).toNat
    if f = 0 then .ok I.s else I.fail cARITH f I.en)

end Sys2Proof.Machine
end

