-- ==== Sys2Proof/Machine/Events.lean ====
section
/-! DEFINITION. Event slots and WAITANY (R68 to R74, R223 to R225), mailboxes (R75 to R78, R226), the event backing ring
(R354), barriers (R228 to R230), engine waits and fences (R231). -/

namespace Sys2Proof.Machine

/-- A 16-bit operand: immediate or s[15:0]. -/
def srcX16 (I : Iss) (x : ImmS) : BitVec 16 := (srcX I.gp x).setWidth 16

/-! ## Binding and polling -/

def evKindOf (k : BitVec 4) : EvKind :=
  match k.toNat with
  | 1 => .bar
  | 2 => .dbar
  | 3 => .tok
  | 4 => .hnd
  | 5 => .mbx
  | 6 => .step
  | 7 => .sw
  | 8 => .timer
  | _ => .none

/-- The checks of a binding word (R224). -/
def bindOk (d : Decl) (k : EvKind) (w : Word64) : Bool :=
  let o := bitsN w.toNat 7 0
  let r := bitsN w.toNat 63 32
  decide (bitsN w.toNat 31 8 = 0) &&
    match k with
    | .bar => decide (o < d.nbar) && decide (r < 65536)
    | .dbar => decide (o ≤ 3) && d.coop && decide (r < 65536)
    | .tok => decide (o ≤ 63)
    | .hnd => decide (o ≤ 63) && decide (r ≤ 3)
    | .mbx => decide (o ≤ 31)
    | .timer => decide (1 ≤ r)
    | .none => true
    | .step => true
    | .sw => true

def execEvbind (o : OpEvBind) (s : State) : Host.Outcome State Fault Refusal :=
  issue (.evbind o) s (fun I =>
    let w := I.rs o.a
    let k := evKindOf o.kind
    let i := o.ev.toNat
    if bindOk I.tm.decl k w then
      let e : EvSlot :=
        { kind := k, obj := w.setWidth 8, ref := (w >>> 32).setWidth 32, handler := relTarget I.pc o.imm,
          armed := decide (k ≠ .none), deadline := I.s.now + bitsN w.toNat 63 32 }
      .ok (evSettle (I.s.updGroup I.ref (fun g =>
        { g with evPend := g.evPend &&& ~~~(1#16 <<< i), ev := Map.put g.ev i e })) I.ref)
    else I.fail cEVSTATE (i + 16) I.en)

def execEvmask (o : OpEvMask) (s : State) : Host.Outcome State Fault Refusal :=
  issue (.evmask o) s (fun I =>
    let x := srcX16 I o.x
    .ok (evSettle (I.s.updGroup I.ref (fun g =>
      { g with evMask := match o.op.toNat with
          | 0 => x
          | 1 => g.evMask ||| x
          | _ => g.evMask &&& ~~~x })) I.ref))

def execEvclr (o : OpX) (s : State) : Host.Outcome State Fault Refusal :=
  issue (.evclr o) s (fun I =>
    .ok (evSettle (I.s.updGroup I.ref (fun g => { g with evPend := g.evPend &&& ~~~(srcX16 I o.x) })) I.ref))

def execEvpoll (o : OpEvPoll) (s : State) : Host.Outcome State Fault Refusal :=
  issue (.evpoll o) s (fun I =>
    let t := latchLevels I.s I.ref
    .ok (t.updGroup I.ref (fun g => g.setS o.d.toNat ((g.readyEv (srcX16 I o.x)).setWidth 64))))

/-- WAITANY (R72): resumes at once through the lowest ready slot, or parks. -/
def execWaitany (o : OpWaitAny) (s : State) : Host.Outcome State Fault Refusal :=
  issue (.waitany o) s (fun I =>
    if !(parkedAny I.gp).isEmpty then I.fail cEVSTATE 48 I.en
    else
      let t := latchLevels I.s I.ref
      match lowestBit ((t.group I.ref).readyEv o.list) with
      | some i => .ok (resumeAny t I.ref I.en i)
      | none =>
        let d := if o.tmo then some (I.s.now + o.timeout.toNat) else none
        .ok (t.updGroup I.ref (fun g => g.mapLanes I.en (fun _ t => { t with st := .parked (.waitAny o.list d) }))))

/-- A WAITANY timeout expires (R72); a latch in the same cycle wins. -/
def execWaitanyTimeout (g : GRef) (s : State) : Host.Outcome State Fault Refusal :=
  if (s.team g.team).st.runs then .next (timeOutAny (evSettle (latchTimers s g) g) g) else .next s

/-- An armed TIMER slot whose count has run out latches, once (R68, R69). -/
def execEventTimerExpiry (g : GRef) (ev : Nat) (s : State) : Host.Outcome State Fault Refusal :=
  if timerDue s.now (Map.get {} (s.group g).ev ev) ∧ (s.team g.team).st.runs then
    .next (wakeAny (s.updGroup g (fun x => x.expire ev)) g)
  else .next s

/-! ## The event backing ring (R354) -/

def ringFull (s : State) (ctx : Nat) : Bool :=
  let c := s.ctx ctx
  decide (c.regs.evn.toNat ≤ c.ring.length)

/-- The 32 bytes of an entry. -/
def ringBytes (e : RingEnt) : List Byte :=
  leBytes (e.vcore % 64 + 256 * e.kind + 65536 * (e.team % 65536)) 4 ++ leBytes (e.gid % 64 + 256 * (e.obj % 64)) 4 ++
    leBytes e.word.toNat 8 ++ leBytes e.arg.toNat 8 ++ leBytes 0 8

/-- Appends an entry; a failed write drops the occurrence with a device record (R442). The flag says whether it stands. -/
def ringPut (s : State) (ctx : Nat) (e : RingEnt) : State × Bool :=
  let c := s.ctx ctx
  let r := formerWrite s ctx (c.regs.evbase.toNat + 32 * c.ringPos) (ringBytes e)
  match r.2 with
  | some (er, a) => (r.1.devRecord ctx er.code (devInfo er) a, false)
  | none =>
    (r.1.updCtx ctx (fun c => { c with
      ring := c.ring ++ [{ e with pos := c.ringPos }],
      ringPos := (c.ringPos + 1) % max 1 c.regs.evn.toNat }), true)

/-- The team of an index in a grid, if it has been placed and is not gone. -/
def teamAt (s : State) (ctx lid index : Nat) : Option Nat :=
  (gridTeams s ctx lid).find? (fun k => decide ((s.team k).index = index))

/-- EVRAISE (R225): a release at the narrowest scope that includes the target (R122). -/
def execEvraise (o : OpSS) (s : State) : Host.Outcome State Fault Refusal :=
  issue (.evraise o) s (fun I =>
    let w := (I.rs o.a).toNat
    let gid := bitsN w 13 8
    let own := bitN w 16
    let idx := if own then I.tm.index else bitsN w 63 32
    let ctx := I.tm.ctx
    let lid := I.tm.lid.toNat
    if bitsN w 15 14 ≠ 0 ∨ bitsN w 31 17 ≠ 0 ∨ (!own ∧ (I.s.gridOf I.tm).teams ≤ idx) then
      I.fail cEVSTATE (gid % 16 + 32) I.en
    else
      let tgt := teamAt I.s ctx lid idx
      let saved : Bool := match tgt with
        | some k => decide ((I.s.team k).st = .saved)
        | none => false
      let scope :=
        if idx = I.tm.index then (if gid = I.ref.gid then 0 else 1)
        else match tgt with
          | some k => if (I.s.team k).die = I.tm.die then 2 else 3
          | none => 3
      if saved ∧ ringFull I.s ctx then .wait 10 I.s0
      else withRelease I scope (fun J =>
        let e : SwEv :=
          { id := J.s.fresh, own := J.ref, ctx := ctx, lid := J.tm.lid, team := idx, gid := gid, num := BitVec.ofNat 8 w,
            word := J.rs o.b, arg := J.rs o.a, scope := scope }
        .ok { J.s with swQ := J.s.swQ ++ [e], fresh := J.s.fresh + 1 }))

/-- Latches every armed SW slot of a number (R225); the first word since the bit was cleared is kept (R70). -/
def swLatch (s : State) (g : GRef) (num : BitVec 8) (word : Word64) (scope : Nat) : State :=
  let gp := s.group g
  let hit := gp.ev.filter (fun e => decide (e.2.kind = .sw) && e.2.armed && decide (e.2.obj = num) && !gp.evPend.getLsbD e.1)
  if hit.isEmpty then s
  else
    let t := s.updGroup g (fun x =>
      let y := x.pendEv (hit.map (·.1))
      { y with ev := hit.foldl (fun m e => Map.put m e.1 { e.2 with word := word, scope := scope }) y.ev })
    wakeAny t g

/-- An EVRAISE arrives (R225, R354). -/
def execSwEventDelivery (id : Nat) (s : State) : Host.Outcome State Fault Refusal :=
  match s.swQ.find? (fun q => decide (q.id = id)) with
  | none => .next s
  | some q =>
    let behind := s.swQ.any (fun p => decide (p.id < q.id) && decide (p.own = q.own) && decide (p.team = q.team) && decide (p.gid = q.gid))
    let gone := { s with swQ := s.swQ.filter (fun p => decide (p.id ≠ id)) }
    if behind then .next s
    else
      match teamAt s q.ctx q.lid.toNat q.team with
      | none => .next gone
      | some k =>
        let t := s.team k
        if t.st = .saved then
          if ringFull s q.ctx then .next s
          else
            let e : RingEnt :=
              { pos := 0, vcore := if isUpper t q.gid then t.vcore2 else t.vcore, kind := 1, team := q.team, gid := q.gid,
                obj := 0, word := q.word, arg := q.arg, lid := q.lid, scope := q.scope }
            .next (ringPut gone q.ctx e).1
        else if t.alive ∧ (s.group ⟨k, q.gid⟩).live then .next (swLatch gone ⟨k, q.gid⟩ q.num q.word q.scope)
        else .next gone

/-! ## Mailboxes -/

/-- A name that names no mailbox (R76). -/
def badName (n : Nat) : Bool := decide (bitsN n 7 5 ≠ 0) || decide (bitsN n 31 26 ≠ 0) || (bitN n 14 && bitN n 15)

/-- Does a saved team belong to a virtual core? -/
def savedOn (s : State) (ctx v : Nat) : Bool :=
  s.teams.any (fun e => decide (e.2.ctx = ctx) && decide (e.2.st = .saved) &&
    (decide (e.2.vcore = v) || (e.2.decl.pair && decide (e.2.vcore2 = v))))

def vMapped (s : State) (ctx v : Nat) : Bool := ((Map.find (s.ctx ctx).vmap v)).isSome

/-- The mailbox that a name means: the host queue, else VCORE and MBN; other bits are ignored (R76). -/
def boxOfName (n : Nat) : Option Nat := if bitN n 14 then none else some (mbKey (bitsN n 13 8) (n % 32))

/-- Is a local mailbox full: its 16 places hold messages, or messages on their way have them (R399)? -/
def boxFull (s : State) (ctx n : Nat) : Bool :=
  decide (16 ≤ ((s.ctx ctx).box (bitsN n 13 8) (n % 32)).length +
    (s.sends.filter (fun m => decide (m.ctx = ctx) && decide (boxOfName m.name.toNat = boxOfName n))).length)

/-- MBSEND (R77, R226, R399). -/
def execMbsend (o : OpSSS) (s : State) : Host.Outcome State Fault Refusal :=
  issue (.mbsend o) s (fun I =>
    let n := (I.rs o.a).toNat % 2 ^ 32
    let v := bitsN n 13 8
    let ctx := I.tm.ctx
    let far := bitN n 14 || bitN n 15
    if badName n then
      let c := newCmd I I.s .none (some o.d) none []
      .ok (finishCmd c.2 c.1 (statusWord cILLENC 0) 0)
    else if !far ∧ vMapped I.s ctx v ∧ boxFull I.s ctx n then .wait 11 I.s0
    else if !far ∧ !vMapped I.s ctx v ∧ savedOn I.s ctx v ∧ ringFull I.s ctx then .wait 10 I.s0
    else
      let scope := if far then 4 else if v = I.s.vcoreRef I.ref then 1 else 3
      withRelease I scope (fun J =>
        let c := newCmd J J.s .none (some o.d) none []
        let u := c.2.updCmd c.1 (fun x => { x with st := .running })
        if bitN n 15 then
          let r : FabReq :=
            { id := c.1, own := J.ref, tids := tidsOf J.gp J.en, ctx := ctx, die := J.tm.die, lane := J.low, kind := .send, chip := bitsN n 25 16, addr := 0,
              op := .mbsend (BitVec.ofNat 32 n) (J.rs o.b), tok := some o.d.toNat, pc := BitVec.ofNat 64 J.pc, sentAt := u.time }
          .ok (fabFlush { u with fabQ := u.fabQ ++ [r] })
        else
          let m : Send :=
            { id := c.1, own := some J.ref, tids := tidsOf J.gp J.en, tok := some o.d.toNat, ctx := ctx, name := BitVec.ofNat 32 n, msg := J.rs o.b,
              scope := scope }
          .ok { u with sends := u.sends ++ [m] }))

/-- MBRECV (R77, R226): the oldest message, acquired at its sender's scope. -/
def execMbrecv (o : OpMbRecv) (s : State) : Host.Outcome State Fault Refusal :=
  issue (.mbrecv o) s (fun I =>
    let v := I.s.vcoreRef I.ref
    let ctx := I.tm.ctx
    let out := fun (t : State) (x : Word64) (b : Bool) =>
      t.updGroup I.ref (fun g => (g.setS o.d.toNat x).mapLanes I.en (fun _ t => t.setP o.p.toNat b))
    match (I.s.ctx ctx).box v o.m.toNat with
    | [] => .ok (out I.s 0 false)
    | m :: ms =>
      let t := I.s.updCtx ctx (fun c => { c with mbox := Map.set [] c.mbox (mbKey v o.m.toNat) ms })
      .ok (acqState (out t m.val true) I.ref m.scope))

/-- Ends a send: the token of an MBSEND, or the launch whose post it was. -/
def sendDone (s : State) (m : Send) (status : Nat) : State :=
  let t := { s with sends := s.sends.filter (fun x => decide (x.id ≠ m.id)) }
  match m.own, m.post with
  | some _, _ => finishCmd t m.id (statusWord status 0) 0
  | none, some lid => launchDone t m.ctx lid
  | none, none => t

/-- Places a message in a mailbox of a mapped virtual core. -/
def boxPut (s : State) (ctx v b : Nat) (m : Msg) : State :=
  s.updCtx ctx (fun c => { c with mbox := Map.set [] c.mbox (mbKey v b) (c.box v b ++ [m]) })

/-- Do messages from the backing ring wait for room in a mailbox, ahead of every later arrival (R78, R354)? -/
def boxHeld (s : State) (ctx v b : Nat) : Bool :=
  s.sends.any (fun x => x.arrived && decide (x.ctx = ctx) && decide (boxOfName x.name.toNat = some (mbKey v b)))

/-- A message arrives from the backing ring: placed, or, beyond a full mailbox, waiting for room (R354). -/
def boxArrive (s : State) (ctx v b : Nat) (m : Msg) : State :=
  if ((s.ctx ctx).box v b).length < 16 ∧ !boxHeld s ctx v b then boxPut s ctx v b m
  else
    let x : Send :=
      { arrived := true, id := s.fresh, own := none, tok := none, ctx := ctx, name := BitVec.ofNat 32 (b + 256 * v), msg := m.val,
        scope := m.scope }
    { s with sends := s.sends ++ [x], fresh := s.fresh + 1 }

/-- A virtual core is mapped anew: the messages that wait for it in the ring arrive in its order, ahead of those that have not arrived
yet (R78, R351, R354). -/
def boxDrain (s : State) (ctx v : Nat) : State :=
  let mine := fun (e : RingEnt) => decide (e.kind = 2) && decide (e.vcore = v)
  let es := (s.ctx ctx).ring.filter mine
  let u := s.updCtx ctx (fun c => { c with ring := c.ring.filter (fun e => !mine e) })
  let w := es.foldl (fun t e => boxArrive t ctx v e.obj ⟨e.word, e.scope⟩) u
  if es.isEmpty then s else { w with sends := w.sends.drop s.sends.length ++ s.sends }

/-- Must the message `x`, sent before `m`, be placed before it: one sender and one mailbox, or arrived at that mailbox (R78)? -/
def goesBefore (x m : Send) : Bool :=
  decide (x.ctx = m.ctx) && decide (boxOfName x.name.toNat = boxOfName m.name.toNat) &&
    (x.arrived || (decide (x.own = m.own) && decide (x.port = m.port)))

/-- A message arrives (R77, R78, R354, R399). R77 names the destination mailbox, and a ring entry names no sender: an MBSEND to a saved
team's virtual core has STATUS 0 once the ring holds its message (DESIGN CHOICE, log entry 36). -/
def execMailboxDelivery (id : Nat) (s : State) : Host.Outcome State Fault Refusal :=
  match s.sends.find? (fun m => decide (m.id = id)) with
  | none => .next s
  | some m =>
    let n := m.name.toNat
    let v := bitsN n 13 8
    let c := s.ctx m.ctx
    if (s.sends.takeWhile (fun x => decide (x.id ≠ id))).any (fun x => goesBefore x m) then .next s
    else if bitN n 14 then
      if c.hmq.length < 256 then .next (sendDone (s.hmqPut m.ctx m.msg) m 0)
      else if m.own.isSome then .next (sendDone s m cMBFULL) else .next s
    else if vMapped s m.ctx v then
      if (c.box v (n % 32)).length < 16 then .next (sendDone (boxPut s m.ctx v (n % 32) ⟨m.msg, m.scope⟩) m 0) else .next s
    else if savedOn s m.ctx v then
      if ringFull s m.ctx then .next s
      else
        let e : RingEnt :=
          { pos := 0, vcore := v, kind := 2, team := 0, gid := 0, obj := n % 32, word := m.msg, arg := 0, lid := 0,
            scope := m.scope }
        let r := ringPut s m.ctx e
        .next (sendDone r.1 m (if r.2 then 0 else cDROPPED))
    else .next (sendDone s m cDROPPED)

/-! ## Barriers -/

/-- The group's arrival at a team barrier (R229). -/
def arriveBar (s : State) (g : GRef) (b : Nat) : State :=
  let p := Map.get 0 (s.team g.team).bar b
  s.updGroup g (fun x => { x with barA := Map.put x.barA b p })

def execBararv (o : OpBarArv) (s : State) : Host.Outcome State Fault Refusal :=
  issue (.bararv o) s (fun I0 => withRelease I0 1 (fun I =>
    let p := Map.get 0 I.tm.bar o.b.toNat
    let t := (arriveBar I.s I.ref o.b.toNat).updGroup I.ref (fun g => g.setS o.d.toNat (p.setWidth 64))
    .ok (completeBar t I.ref.team o.b.toNat)))

def execBarwt (o : OpB) (s : State) : Host.Outcome State Fault Refusal :=
  issue (.barwt o) s (fun I =>
    let p := Map.get 0 I.tm.bar o.b.toNat
    match Map.find I.gp.barA o.b.toNat with
    | none => I.fail cBARMISUSE o.b.toNat I.en
    | some a => if a = p then .ok (parkLanes I.s I.ref I.en (.bar o.b.toNat p)) else .ok (acqState I.s I.ref 1))

def execBarsync (o : OpB) (s : State) : Host.Outcome State Fault Refusal :=
  issue (.barsync o) s (fun I0 => withRelease I0 1 (fun I =>
    let p := Map.get 0 I.tm.bar o.b.toNat
    .ok (completeBar (parkLanes (arriveBar I.s I.ref o.b.toNat) I.ref I.en (.bar o.b.toNat p)) I.ref.team o.b.toNat)))

def execDiebar (o : OpDb) (s : State) : Host.Outcome State Fault Refusal :=
  issue (.diebar o) s (fun I0 =>
    let b := o.db.toNat
    if !I0.tm.decl.coop then I0.fail cBARMISUSE (b + 16 + 64) I0.en
    else withRelease I0 2 (fun I =>
      let p := Map.get 0 (I.s.gridOf I.tm).dieBar (I.tm.die * 4 + b)
      let t := I.s.updGroup I.ref (fun x => { x with dieA := Map.put x.dieA b p })
      .ok (completeDieBar (parkLanes t I.ref I.en (.dieBar b p)) I.tm.ctx I.tm.lid.toNat I.tm.die b)))

def execGridbar (o : Op0) (s : State) : Host.Outcome State Fault Refusal :=
  issue (.gridbar o) s (fun I0 =>
    if !I0.tm.decl.coop then I0.fail cBARMISUSE (32 + 64) I0.en
    else withRelease I0 3 (fun I =>
      let p := (I.s.gridOf I.tm).gridBar
      let t := I.s.updGroup I.ref (fun x => { x with gridA := some p })
      .ok (completeGridBar (parkLanes t I.ref I.en (.gridBar p)) I.tm.ctx I.tm.lid.toNat)))

/-! ## Engine waits and fences -/

def cmdClsOf (c : BitVec 2) : CmdCls :=
  match c.toNat with
  | 0 => .copy
  | 1 => .matrix
  | 2 => .gather
  | _ => .coll

def execWaitc (o : OpWaitC) (s : State) : Host.Outcome State Fault Refusal :=
  issue (.waitc o) s (fun I =>
    if I.gp.counter (cmdClsOf o.cls) ≤ o.n.toNat then .ok (acqState I.s I.ref 1) else .wait 0 I.s0)

/-- FENCE (R112 to R115): release first, then acquire; an acquire alone waits for every earlier read. -/
def execFence (o : OpFence) (s : State) : Host.Outcome State Fault Refusal :=
  issue (.fence o) s (fun I =>
    let sc := o.scope.toNat
    if o.kind = 2 then if atomPending I.s0 I.ref then .wait 0 I.s0 else .ok (acqState I.s I.ref sc)
    else withRelease I sc (fun J => .ok (if o.kind = 0 then acqState J.s J.ref sc else J.s)))

end Sys2Proof.Machine
end

