-- ==== Sys2Proof/Machine/Coll.lean ====
section
/-! DEFINITION. Collectives (R302 to R305, R434). A rank gives each peer its contribution and takes each peer's, piece by
piece, as the receivers pull; the events say what the fabric carries. -/

namespace Sys2Proof.Machine

/-! ## The descriptor (R302) -/

def clNrank (d : Nat) : Nat := recGet d 0 15 0
def clRank (d : Nat) : Nat := recGet d 0 31 16
def clFmt (d : Nat) : Nat := recGet d 4 3 0
def clCount (d : Nat) : Nat := recGet d 8 31 0
def clTmo (d : Nat) : Nat := let x := recGet d 0xC 31 0; if x = 0 then 2000 else x
def clSrc (d : Nat) : Nat := recGet d 0x10 63 0
def clDst (d : Nat) : Nat := recGet d 0x18 63 0
def clPeers (d : Nat) : Nat := recGet d 0x20 63 0
def clWin (d : Nat) : Nat := let x := recGet d 0x28 31 0; if x = 0 then 2 ^ 20 else x
def clTag (d : Nat) : Nat := recGet d 0x2C 31 0
def clScnt (d : Nat) : Nat := recGet d 0x30 63 0
def clRcnt (d : Nat) : Nat := recGet d 0x38 63 0

def clReduces (sub : Nat) : Bool := decide (sub ≤ 1)

/-- Are the fields in range (R302)? -/
def clOk (sub rop d : Nat) : Bool :=
  let f := clFmt d
  let wide := decide (f ≤ 1) || decide (f = 12) || decide (f = 13)
  decide (2 ≤ clNrank d) && decide (clNrank d ≤ 1024) && decide (clRank d < clNrank d) && decide (rop ≠ 3) &&
  (wide || (!clReduces sub && (decide (f = 2) || decide (f = 3) || decide (f = 10)))) && decide (clWin d % 4096 = 0)

/-- The words of an array of `n` entries of `w` bits. -/
def arrWords (x w n : Nat) : List Word64 := (List.range n).map (fun i => BitVec.ofNat 64 (x / 2 ^ (w * i) % 2 ^ w))

/-- What the command finds at execution. -/
inductive CollGot where
  | cap (l : List Word64) (s : State)
  | fault (f : FInfo)
  | wait (s : State)
  deriving DecidableEq, Repr

/-- The command at execution: its descriptor (8 words), its peers and its send counts, or the STATUS with which it ends and the TAG,
0 where no descriptor was read (R302, R305). -/
def collRead (I : Iss) (o : OpCpy) : CollGot :=
  let va := (I.rs o.scrd).toNat
  let ends := fun (t : State) (code tag : Nat) => CollGot.cap [BitVec.ofNat 64 code, BitVec.ofNat 64 tag] t
  if va % 64 ≠ 0 then .fault (memFault { code := cALIGN, site := 14 } .read true I.en va)
  else
    match issueRead I I.s va 64 with
    | .wait t => .wait t
    | .bad code t => ends t code 0
    | .ok bs t =>
      let d := leNat bs
      if !clOk o.sub.toNat o.rop.toNat d then ends t cILLENC (clTag d)
      else
        match issueRead I t (clPeers d) (2 * clNrank d) with
        | .wait u => .wait u
        | .bad code u => ends u code (clTag d)
        | .ok ps u =>
          let desc := arrWords d 64 8 ++ arrWords (leNat ps) 16 (clNrank d)
          if o.sub = 3 ∧ clScnt d ≠ 0 then
            match issueRead I u (clScnt d) (4 * clNrank d) with
            | .wait v => .wait v
            | .bad code v => ends v code (clTag d)
            | .ok cs v => .cap (desc ++ arrWords (leNat cs) 32 (clNrank d)) v
          else .cap desc u

/-- COLL issues as a release at `.sys`: its source is read for other chips (R304). -/
def execColl (o : OpCpy) (s : State) : Host.Outcome State Fault Refusal :=
  issue (.coll o) s (fun I =>
    if I.gp.cColl = 255 then .wait 0 I.s0
    else withRelease I 4 (fun J =>
      match collRead J o with
      | .fault f => .fault f J.s0
      | .wait t => .wait 0 t
      | .cap l t => commitCmd J (farDrop t J) .coll (some o.tok) (some o.cv) l))

/-! ## The pieces -/

def collDesc (c : Cmd) : Nat := (c.cap.take 8).foldr (fun w a => w.toNat + 2 ^ 64 * a) 0

/-- Elements that a rank sends to rank `p`. -/
def collCount (c : Cmd) (sub p : Nat) : Nat :=
  let d := collDesc c
  if sub = 3 ∧ clScnt d ≠ 0 then min (clCount d) (c.cap.getD (8 + clNrank d + p) 0).toNat else clCount d

def clBytes (d : Nat) : Nat := elemBits (clFmt d) / 8

/-- Bytes that this rank sends to rank `p`, and where they lie (R303). -/
def collSend (c : Cmd) (sub p : Nat) : Nat × Nat :=
  let d := collDesc c
  (if sub = 1 ∨ sub = 3 then clSrc d + p * clCount d * clBytes d else clSrc d, collCount c sub p * clBytes d)

/-- The largest number of bytes that a rank receives from another. -/
def collRecv (c : Cmd) : Nat := clCount (collDesc c) * clBytes (collDesc c)

def collPeers (c : Cmd) : List Nat := (List.range (clNrank (collDesc c))).filter (fun p => decide (p ≠ clRank (collDesc c)))

/-- Packets of a class can go between this rank and a peer (R367, R368, R433). -/
def collOpen (s : State) (c : Cmd) (peer cls : Nat) : Bool :=
  (fabGo s (s.team c.own.team).die ((c.cap.getD (8 + peer) 0).toNat % 1024) cls).isSome

/-- A COLL under way: its instruction and its well-formed descriptor. -/
def collOf (s : State) (id : Nat) : Option (Cmd × OpCpy) :=
  match s.cmd id with
  | none => none
  | some c =>
    match c.instr with
    | .coll o => if c.st = .running ∧ 8 ≤ c.cap.length ∧ c.coll.ending.isNone then some (c, o) else none
    | _ => none

/-- The TAG of the status word (R305). -/
def collTag (c : Cmd) : Nat := if c.cap.length < 8 then (c.cap.getD 1 0).toNat else clTag (collDesc c)

/-- The command ends. While its team is saved its counter decrements in the image and its token goes to the event backing
ring, whose room it waits for (R349, R354). -/
def collEnd (s0 : State) (c : Cmd) (code flags : Nat) : State :=
  let s := cpDrop s0 c
  let x := statusWord code (collTag c)
  let t := s.team c.own.team
  if t.st = .saved ∧ c.tok.isSome then
    if ringFull s c.ctx then s.updCmd c.id (fun c => { c with flags := BitVec.ofNat 6 flags, coll := { c.coll with ending := some code } })
    else
      let e : RingEnt :=
        { pos := 0, vcore := if isUpper t c.own.gid then t.vcore2 else t.vcore, kind := 3, team := t.index, gid := c.own.gid,
          obj := c.tok.getD 0, word := x, arg := 0, lid := t.lid, scope := 0 }
      let u := if (Map.find t.groups c.own.gid).isSome then s.orFlags c.own flags else s
      retireCmds ((ringPut u c.ctx e).1.updCmd c.id (fun c => { c with st := .done, status := x })) c.own c.cls
  else finishCmd s c.id x flags

/-- A sender notices its next piece to a peer, within the window (R304). -/
def execCollNotice (cmd peer : Nat) (s : State) : Host.Outcome State Fault Refusal :=
  match collOf s cmd with
  | none => .next s
  | some (c, o) =>
    let total := (collSend c o.sub.toNat peer).2
    let n := Map.get 0 c.coll.noticed peer
    let pulled := (Map.get [] c.coll.out peer).length
    let k := min 4096 (total - n)
    if peer ∈ collPeers c ∧ n < total ∧ n + k - pulled ≤ clWin (collDesc c) ∧ collOpen s c peer 2 then
      .next (s.updCmd cmd (fun c => { c with coll := { c.coll with noticed := Map.put c.coll.noticed peer (n + k), lastAt := s.time } }))
    else .next s

/-- Where a peer's chunk goes (R303). -/
def collDst (c : Cmd) (peer : Nat) : Nat := clDst (collDesc c) + peer * collRecv c

/-- Writes a chunk that has been pulled in full (R303, R434); to another chip, it sends the writes. -/
def collChunk (s : State) (c : Cmd) (o : OpCpy) (peer : Nat) (bs : List Byte) : State × Option MErr :=
  if clReduces o.sub.toNat then (s, none)
  else if farVa (collDst c peer) then (cpAsk s c (farWrites (collDst c peer) bs), none)
  else
    let r := vaWrite s (s.who c.own) (collDst c peer) bs
    (r.1, r.2.1.map (·.1))

/-- A piece moves: a peer pulls from this rank, or this rank pulls `data` from a peer; an empty piece says that the peer
sends no more (log entry 14). -/
def execCollPull (cmd peer : Nat) (inbound : Bool) (data : List Byte) (s : State) : Host.Outcome State Fault Refusal :=
  match collOf s cmd with
  | none => .next s
  | some (c, o) =>
    if peer ∉ collPeers c ∨ !collOpen s c peer 3 then .next s
    else if inbound then
      let old := Map.get [] c.coll.got peer
      if peer ∈ c.coll.ended then .next s
      else
        let now := (old ++ data).take (collRecv c)
        let full : Bool := decide (now.length = collRecv c) || data.isEmpty
        let t := s.updCmd cmd (fun c => { c with coll := { c.coll with
          got := Map.put c.coll.got peer now,
          ended := if full then c.coll.ended ++ [peer] else c.coll.ended,
          lastAt := s.time } })
        if full then
          let r := collChunk t c o peer now
          match r.2 with
          | some e => .next (collEnd (r.1.markErr e) c e.code 0)
          | none => .next r.1
        else .next t
    else
      let sent := Map.get [] c.coll.out peer
      let k := min 4096 (Map.get 0 c.coll.noticed peer - sent.length)
      if k = 0 then .next s
      else
        match gRead s c 0 ((collSend c o.sub.toNat peer).1 + sent.length) k with
        | .fault e _ _ t => .next (collEnd (t.markErr e) c e.code 0)
        | .ask l t => .next (cpAsk t c l)
        | .ok bs t =>
          .next (t.updCmd cmd (fun c => { c with coll := { c.coll with
            out := Map.put c.coll.out peer (sent ++ bs), lastAt := s.time } }))

/-- TMO passes without progress (R434): milliseconds of package time. -/
def execCollTimeout (cmd : Nat) (s : State) : Host.Outcome State Fault Refusal :=
  match collOf s cmd with
  | none => .next s
  | some (c, _) =>
    if clTmo (collDesc c) * 168000000 ≤ s.time - c.coll.lastAt then .next (collEnd s c 0x19 0) else .next s

/-! ## Completion (R303, R304) -/

/-- One step of a reduction on codes of EFMT, with its flags (R140, R303). -/
def redStep (fmt rop a b : Nat) : Nat × Nat :=
  if fmt = 13 then
    (if rop = 0 then (a + b) % 2 ^ 32
    else if rop = 1 then (if sext 32 a < sext 32 b then b else a)
    else (if sext 32 b < sext 32 a then b else a), 0)
  else
    let f := if fmt = 0 then BF16 else if fmt = 1 then FP16 else FP32
    if rop = 0 then f.addOp .rne a b else (f.minmax (decide (rop = 1)) a b, 0)

/-- One rank's codes beside what the ranks below it gave. -/
def redRow (fmt rop : Nat) (acc : List Nat × Nat) (xs : List Nat) : List Nat × Nat :=
  let rs := (acc.1.zip xs).map (fun p => redStep fmt rop p.1 p.2)
  (rs.map (·.1), rs.foldl (fun a r => flagOr a r.2) acc.2)

/-- Element-wise reduction of the ranks' contributions in ascending rank, and its flags. -/
def reduceAll (fmt rop n : Nat) : List (List Byte) → List Byte × Nat
  | [] => ([], 0)
  | x :: xs =>
    let r := xs.foldl (fun acc bs => redRow fmt rop acc (unpack fmt n bs)) (unpack fmt n x, 0)
    (pack fmt r.1, r.2)

/-- Has every piece been taken and given? -/
def collReady (c : Cmd) (o : OpCpy) : Bool :=
  (collPeers c).all (fun p => (decide (collRecv c = 0) || decide (p ∈ c.coll.ended)) && decide ((Map.get [] c.coll.out p).length = (collSend c o.sub.toNat p).2))

/-- What the rank still writes when every piece is there, and the flags of its reduction: its own part or the reduction, the chunks sent to
another chip once more, whose answers it awaits, and the counts received. -/
def collOut (c : Cmd) (o : OpCpy) (mine : List Byte) : List (Nat × List Byte) × Nat :=
  let d := collDesc c
  let me := clRank d
  let from_ := fun (p : Nat) => if p = me then mine else Map.get [] c.coll.got p
  let ranks := List.range (clNrank d)
  let counts := if o.sub = 3 ∧ clRcnt d ≠ 0 then [(clRcnt d, ranks.flatMap (fun p => leBytes ((from_ p).length / clBytes d) 4))] else []
  if clReduces o.sub.toNat then
    let r := reduceAll (clFmt d) o.rop.toNat (clCount d) (ranks.map from_)
    ((clDst d, r.1) :: counts, r.2)
  else
    ((ranks.filter (fun p => decide (p = me) || farVa (collDst c p))).map (fun p => (collDst c p, from_ p)) ++ counts, 0)

/-- The rank's own part and its reductions are written, and the command completes; the state is unchanged while pieces
are missing. -/
def collDone (s : State) (c : Cmd) (o : OpCpy) : State :=
  match c.coll.ending with
  | some code => collEnd s c code c.flags.toNat
  | none =>
    if c.cap.length < 8 then collEnd s c (c.cap.headD 0).toNat 0
    else if !collReady c o then s
    else
      let own := collSend c o.sub.toNat (clRank (collDesc c))
      match gRead s c 0 own.1 own.2 with
      | .fault e _ _ t => collEnd (t.markErr e) c e.code 0
      | .ask l t => cpAsk t c l
      | .ok mine t =>
        let out := collOut c o mine
        match gWrites t c (if c.left.isEmpty then out.1 else c.left) with
        | .fault e _ _ u => collEnd (u.markErr e) c e.code 0
        | .ask l u => cpAsk u c l
        | .ok _ u => collEnd u c 0 out.2

end Sys2Proof.Machine
end

