-- ==== Sys2Proof/Machine/Copy.lean ====
section
/-! DEFINITION. The copy family (R288 to R297): the checks when the elected lane executes, and the copy engine's work,
row by row, with its suspension at a translation fault (R415). -/

namespace Sys2Proof.Machine

/-! ## Box records (R290) -/

def bxOrg (b k : Nat) : Int := sext 32 (recGet b (4 * k) 31 0)
def bxBox (b k : Nat) : Nat := recGet b (0x14 + 2 * k) 15 0
def bxAux (b : Nat) : Nat := recGet b 0x20 63 0
def bxRows (b : Nat) : Nat := bxBox b 1 * bxBox b 2 * bxBox b 3 * bxBox b 4

/-- The extents, and the alignment that a format asks of the extent and of the origin used in dimension 0 (R290). -/
def boxOk (b org0 ndm1 fmt : Nat) : Bool :=
  [0, 1, 2, 3, 4].all (fun k => decide (bxBox b k ≠ 0) && (decide (k ≤ ndm1) || decide (bxBox b k = 1))) &&
  (let al : Nat := if isMx fmt then 32 else if fmt = 11 then 2 else 1
   decide (org0 % al = 0) && decide (bxBox b 0 % al = 0))

/-- Which copy an instruction is. -/
inductive CpyKind where
  | plain
  | gather
  | expand
  | compact
  | fill
  deriving DecidableEq, Repr

/-- Does the copy read an object entry (R288)? -/
def cpyObj (k : CpyKind) (dir : Nat) : Bool :=
  match k with
  | .plain => decide (dir ≠ 4) && decide (dir ≠ 5)
  | .fill => decide (dir = 1)
  | .gather => true
  | .expand => true
  | .compact => true

/-- Does it read the object, or write it? -/
def cpyReads (k : CpyKind) (dir : Nat) : Bool :=
  match k with
  | .plain => decide (dir = 0) || decide (dir = 2) || decide (dir = 6)
  | .gather => true
  | .expand => true
  | .compact => false
  | .fill => false

/-- Where the image lies: 0 scratchpad, 1 tile, 2 global memory, 3 none. -/
def cpyPlace (k : CpyKind) (dir : Nat) : Nat :=
  match k with
  | .fill => if dir = 0 then 0 else if dir = 2 then 1 else 3
  | _ => if dir ≤ 1 then 0 else if dir = 6 then 2 else 1

/-- Dense columns to one compressed column (R294). -/
def subRatio (sub : Nat) : Nat := if sub = 1 then 4 else 2
/-- Bytes of metadata of a dense row (R293). -/
def metaBytes (sub w : Nat) : Nat := if sub = 0 then w / 8 else if sub = 1 then w / 16 else 3 * w / 16
def convFmt (f : Nat) : Bool := decide (f ≤ 3) || decide (f = 12)

/-- The columns of the image. -/
def cpyCols (k : CpyKind) (sub b : Nat) : Nat :=
  match k with
  | .expand => bxBox b 0 * subRatio sub
  | .compact => bxBox b 0 * subRatio sub
  | _ => bxBox b 0

/-- VALID, rights, dimensions and formats (R288, R291, R294, R296). -/
def cpyEntryOk (k : CpyKind) (o : OpCpy) (e : Nat) : Bool :=
  let f := o.efmt.toNat
  oValid e && (if cpyReads k o.dir.toNat then oRd e else oWr e) && decide (oNdm1 e = o.ndm1.toNat) &&
  (match k with
    | .plain => decide (oFmt e = f) || (convFmt (oFmt e) && convFmt f)
    | .gather => decide (oFmt e = f) || (convFmt (oFmt e) && convFmt f)
    | .expand => decide (oFmt e = f) && plainFmt f && (decide (o.dir = 0) || decide (o.dir = 2))
    | .compact => decide (oFmt e = f) && plainFmt f && (decide (o.dir = 1) || decide (o.dir = 3))
    | .fill => decide (oFmt e = f))

/-- The box against the object (R290, R294); without one the ORG fields are ignored (R296). -/
def cpyBoxOk (k : CpyKind) (o : OpCpy) (e b : Nat) : Bool :=
  boxOk b (if cpyObj k o.dir.toNat then recGet b 0 31 0 else 0) o.ndm1.toNat (if cpyObj k o.dir.toNat then oFmt e else o.efmt.toNat) &&
  (match k with
    | .plain => true
    | .gather => true
    | .fill => true
    | _ => decide (bxOrg b 0 = 0) && decide (bxBox b 0 = oDim e 0) &&
        decide (cpyCols k o.sub.toNat b % (if o.sub = 0 then 8 else 16) = 0))

def words (x n : Nat) : List Word64 := (List.range n).map (fun i => BitVec.ofNat 64 (x / 2 ^ (64 * i)))
def unwords (l : List Word64) : Nat := l.foldr (fun w a => w.toNat + 2 ^ 64 * a) 0

/-- The tile of a copy: its index, then its shape against the image (R291). -/
def cpyTile (I : Iss) (o : OpCpy) (rows cols : Option Nat) : Option FInfo :=
  let t := (I.rs o.sloc).toNat % 8
  let w := I.shape t
  if I.tm.decl.tiles ≤ t then some { code := cILLREG, lanes := I.en }
  else if shEfmt w ≠ o.efmt.toNat ∨ shRows w = 0 ∨ shRows w < rows.getD 0 ∨ shCols w < cols.getD 0 then
    some { code := cOBJBOUNDS, lanes := I.en }
  else none

/-- The checks at execution, and what the command keeps: its entry, its box record and its tile's shape. -/
def cpyCheck (k : CpyKind) (o : OpCpy) (I : Iss) : Except FInfo (State × List Word64) :=
  let dir := o.dir.toNat
  let obj := cpyObj k dir
  let f := o.efmt.toNat
  let ent : Except FInfo (Nat × State) :=
    if obj then objEntry I true o.bl o.obj.toNat ((I.rs o.sbh).toNat % 2 ^ 32) else .ok (0, I.s)
  match ent with
  | .error x => .error x
  | .ok (e, t) =>
    if obj && !cpyEntryOk k o e then .error { code := cOBJRIGHTS, lanes := I.en }
    else if k = .plain ∧ (dir = 4 ∨ dir = 5) then
      let w := I.shape ((I.rs o.sloc).toNat % 8)
      let n := imgSize (shEfmt w) (shRows w) (shCols w)
      match firstFail [cpyTile I o none none,
          scrRegion I true (if dir = 4 then .read else .write) 64 (I.rs o.scrd).toNat n,
          if dir = 5 ∧ tileBad I.tm I.up ((I.rs o.sloc).toNat % 8) then some (eccTile I) else none] with
      | some x => .error x
      | none => .ok (t, words 0 16 ++ [BitVec.ofNat 64 w])
    else
      let off := (I.rs o.scrd).toNat
      match scrRegion I true .read 64 off 64 with
      | some x => .error x
      | none =>
        let b := leNat (scrRead I.tm I.up off 64)
        let rows := bxRows b
        let cols := cpyCols k o.sub.toNat b
        let place := cpyPlace k dir
        let fromImg := k = .compact ∨ (k = .plain ∧ (dir = 1 ∨ dir = 3))
        let tile := (I.rs o.sloc).toNat % 8
        if !cpyBoxOk k o e b then .error { code := cOBJRIGHTS, lanes := I.en }
        else
          let aux := if place = 2 then 256 else if k = .expand ∨ k = .compact then 4 else 1
          match firstFail [
              if place = 1 then cpyTile I o (some rows) (some cols) else none,
              if place = 0 then scrRegion I true (if fromImg then .read else .write) 64 (I.rs o.sloc).toNat (imgSize f rows cols) else none,
              if place = 1 ∧ fromImg ∧ tileBad I.tm I.up tile then some (eccTile I) else none,
              if k = .gather then scrRegion I true .read 4 (I.rs o.saux).toNat (4 * bxBox b 1) else none,
              if bxAux b % aux ≠ 0 then some (memFault { code := cALIGN, site := 14 } .write true I.en (bxAux b)) else none] with
          | some x => .error x
          | none => .ok (t, words e 8 ++ words b 8 ++ [BitVec.ofNat 64 (I.shape tile)])

def cpyIssue (i : Instr) (k : CpyKind) (o : OpCpy) (s : State) : Host.Outcome State Fault Refusal :=
  issue i s (fun I => issueCmd I .copy (some o.tok) (some o.cv) (cpyCheck k o))

def execCpy (o : OpCpy) (s : State) : Host.Outcome State Fault Refusal := cpyIssue (.cpy o) .plain o s
def execCpyg (o : OpCpy) (s : State) : Host.Outcome State Fault Refusal := cpyIssue (.cpyg o) .gather o s
def execCpyx (o : OpCpy) (s : State) : Host.Outcome State Fault Refusal := cpyIssue (.cpyx o) .expand o s
def execCpyc (o : OpCpy) (s : State) : Host.Outcome State Fault Refusal := cpyIssue (.cpyc o) .compact o s
def execCpyf (o : OpCpy) (s : State) : Host.Outcome State Fault Refusal := cpyIssue (.cpyf o) .fill o s

/-! ## Rows of the object (R287, R291) -/

/-- What a copy works on, as it was read at execution. -/
structure CpyPlan where
  e   : Nat
  b   : Nat
  sh  : Nat
  deriving DecidableEq, Repr

def cpyPlan (c : Cmd) : CpyPlan :=
  { e := unwords (c.cap.take 8), b := unwords ((c.cap.drop 8).take 8), sh := (c.cap.getD 16 0).toNat }

/-- The index of row `r` in dimension `k` from 1 to 4. -/
def rowIdx (b r k : Nat) : Int :=
  let q := (List.range (k - 1)).foldl (fun a i => a / bxBox b (i + 1)) r
  bxOrg b k + ((q % bxBox b k : Nat) : Int)

/-- The part of a row that lies inside the object: its first column within the box and its length, its address and the
address of its scales. None where nothing does. -/
def objRun (p : CpyPlan) (g : Nat → Int) : Option (Nat × Nat × Nat × Nat) :=
  let e := p.e
  let o := bxOrg p.b 0
  let lo := (max 0 (-o)).toNat
  let hi := (min (bxBox p.b 0 : Int) ((oDim e 0 : Int) - o)).toNat
  if hi ≤ lo ∨ !([1, 2, 3, 4].all (fun k => decide (0 ≤ g k) && decide (g k < (oDim e k : Int)))) then none
  else
    let i := fun (k : Nat) => (g k).toNat
    let c0 := (o + lo).toNat
    let at_ := (oBase e + 16 * (i 1 * oStr e 1 + i 2 * oStr e 2 + i 3 * oStr e 3 + i 4 * oStr e 4) + c0 * elemBits (oFmt e) / 8) % 2 ^ 64
    let sc := (oSbase e + (((i 4 * oDim e 3 + i 3) * oDim e 2 + i 2) * oDim e 1 + i 1) * oDim e 0 / 32 + c0 / 32) % 2 ^ 64
    some (lo, hi - lo, at_, sc)

/-- A command as a row's next read finds it: with the bytes that the reads before it have given (R415). -/
def Cmd.read (c : Cmd) (bs : List Byte) : Cmd := { c with had := bs ++ c.had.drop bs.length }

/-- A row of the object as codes and scales, zeros outside, and the bytes read. -/
def objRead (s : State) (c : Cmd) (p : CpyPlan) (g : Nat → Int) : Cp ((List Nat × List Nat) × List Byte) :=
  let f := oFmt p.e
  let b0 := bxBox p.b 0
  let zeros := List.replicate b0 0
  let zsc := if isMx f then List.replicate (b0 / 32) 0x7F else []
  match objRun p g with
  | none => .ok ((zeros, zsc), []) s
  | some (lo, n, va, sa) =>
    match gRead s c 0 va (n * elemBits f / 8) with
    | .fault e a v t => .fault e a v t
    | .ask l t => .ask l t
    | .ok bs t =>
      let row := zeros.take lo ++ unpack f n bs ++ zeros.drop (lo + n)
      if isMx f then
        match gRead t (c.read bs) (n * elemBits f / 8) sa (n / 32) with
        | .fault e a v t => .fault e a v t
        | .ask l t => .ask l t
        | .ok ss u => .ok ((row, zsc.take (lo / 32) ++ ss.map (·.toNat) ++ zsc.drop ((lo + n) / 32)), bs ++ ss) u
      else .ok ((row, zsc), bs) t

/-- What a row of the object takes of codes and scales: the bytes and their addresses. -/
def objOut (p : CpyPlan) (g : Nat → Int) (codes scales : List Nat) : List (Nat × List Byte) :=
  let f := oFmt p.e
  match objRun p g with
  | none => []
  | some (lo, n, va, sa) =>
    (va, pack f ((codes.drop lo).take n)) ::
      (if isMx f then [(sa, ((scales.drop (lo / 32)).take (n / 32)).map (BitVec.ofNat 8))] else [])

/-- Bytes that the reads of a row of the object give. -/
def objSize (p : CpyPlan) (g : Nat → Int) : Nat :=
  match objRun p g with
  | none => 0
  | some (_, n, _, _) => n * elemBits (oFmt p.e) / 8 + (if isMx (oFmt p.e) then n / 32 else 0)

/-! ## Rows of the image -/

structure ImgRef where
  place : Nat
  loc   : Nat
  fmt   : Nat
  rows  : Nat
  cols  : Nat
  deriving DecidableEq, Repr

def imgRef (k : CpyKind) (o : OpCpy) (c : Cmd) (p : CpyPlan) : ImgRef :=
  let pl := cpyPlace k o.dir.toNat
  let tile := (c.s o.sloc).toNat % 8
  { place := pl, loc := if pl = 0 then (c.s o.sloc).toNat else if pl = 1 then tile else bxAux p.b, fmt := o.efmt.toNat,
    rows := if pl = 1 then shRows p.sh else bxRows p.b,
    cols := if pl = 1 then shCols p.sh else cpyCols k o.sub.toNat p.b }

/-- A row of an image in global memory: the bytes and their addresses. -/
def imgOut (m : ImgRef) (r : Nat) (codes scales : List Nat) : List (Nat × List Byte) :=
  (m.loc + rowAt m.fmt m.cols r, pack m.fmt codes) ::
    (if isMx m.fmt then [(m.loc + scalesAt m.fmt m.rows m.cols r, scales.map (BitVec.ofNat 8))] else [])

/-- A row of an image: written to the scratchpad or the tile now, or left to be written to global memory. -/
def imgPut (s : State) (c : Cmd) (m : ImgRef) (r f : Nat) (codes scales : List Nat) : Cp (Nat × List (Nat × List Byte)) :=
  if m.place = 2 then .ok (f, imgOut m r codes scales) s
  else
    .ok (f, []) (s.updTeam c.own.team (fun t =>
      putRow t (upperOf s c.own) (decide (m.place = 0)) m.loc m.fmt m.rows m.cols r codes scales))

def imgRead (s : State) (c : Cmd) (m : ImgRef) (r n : Nat) : List Nat × List Nat :=
  getRow (s.team c.own.team) (upperOf s c.own) (decide (m.place = 0)) m.loc m.fmt m.rows m.cols r n

/-- Codes converted from one format to another with round_rne (R291): codes and flags. -/
def convCodes (src dst : Nat) (l : List Nat) : List Nat × Nat :=
  if src = dst then (l, 0)
  else
    let cs := l.map (fun x => encElem dst .rne (elemVal src none x))
    (cs.map (·.1), cs.foldl (fun a c => flagOr a c.2) 0)

/-! ## Sparse rows (R293 to R295) -/

/-- Elements of a group, and how many are kept. -/
def subGroup (sub : Nat) : Nat := if sub = 2 then 8 else 4
def subKept (sub : Nat) : Nat := if sub = 2 then 4 else if sub = 1 then 1 else 2
def subBits (sub : Nat) : Nat := if sub = 2 then 3 else 2

/-- Is element `y` of greater magnitude than `x`? A NaN is above every number. -/
def magAbove (fmt x y : Nat) : Bool :=
  let a := elemVal fmt none x
  let b := elemVal fmt none y
  if a.isNan then false else if b.isNan then true else Ev.lt a.abs b.abs

/-- The position of the greatest magnitude not yet taken, the lowest of equal ones. -/
def bestPos (fmt : Nat) (grp : List Nat) (taken : List Nat) : Nat :=
  let free := (List.range grp.length).filter (fun i => decide (i ∉ taken))
  free.foldl (fun b i => if magAbove fmt (grp.getD b 0) (grp.getD i 0) then i else b) (free.headD 0)

def pickPos (fmt : Nat) (grp : List Nat) : Nat → List Nat → List Nat
  | 0, taken => (List.range grp.length).filter (fun i => decide (i ∈ taken))
  | k + 1, taken => pickPos fmt grp k (bestPos fmt grp taken :: taken)

def groupsOf (n : Nat) : Nat → List Nat → List (List Nat)
  | 0, _ => []
  | f + 1, l => if l.isEmpty then [] else l.take n :: groupsOf n f (l.drop n)

/-- A dense row compacted: the kept codes and the metadata bytes. -/
def compactRow (fmt sub : Nat) (row : List Nat) : List Nat × List Byte :=
  let gs := (groupsOf (subGroup sub) (row.length + 1) row).map (fun g => (g, pickPos fmt g (subKept sub) []))
  (gs.flatMap (fun g => g.2.map (fun i => g.1.getD i 0)),
   leBytes (packCodes (subBits sub) (gs.flatMap (fun g => g.2))) (metaBytes sub row.length))

/-- A compressed row expanded over `w` columns; a later element wins a position named twice. -/
def expandRow (sub w : Nat) (row : List Nat) (mta : Nat) : List Nat :=
  let put := fun (d : List Nat) (p : Nat × Nat) =>
    d.set (p.2 / subKept sub * subGroup sub + mta / 2 ^ (subBits sub * p.2) % 2 ^ subBits sub) p.1
  (row.zipIdx).foldl put (List.replicate w 0)

/-! ## The work -/

/-- One row of a copy: the flags it sets, and its writes to global memory. CPYX reads its metadata when it processes the row (log entry
70), and CPYC writes the metadata of a row of which nothing lies in the object (log entry 94). -/
def cpyRow (k : CpyKind) (o : OpCpy) (c : Cmd) (p : CpyPlan) (m : ImgRef) (s : State) (r : Nat) : Cp (Nat × List (Nat × List Byte)) :=
  let g := fun (d : Nat) => rowIdx p.b r d
  let fromObj := fun (g : Nat → Int) => match objRead s c p g with
    | .fault e a v t => Cp.fault e a v t
    | .ask l t => .ask l t
    | .ok (x, _) t =>
      let y := convCodes (oFmt p.e) m.fmt x.1
      imgPut t c m r y.2 y.1 x.2
  match k with
  | .plain =>
    if cpyReads .plain o.dir.toNat then fromObj g
    else
      let x := imgRead s c m r (bxBox p.b 0)
      let y := convCodes m.fmt (oFmt p.e) x.1
      .ok (y.2, objOut p g y.1 x.2) s
  | .gather =>
    let i := leNat (scrRead (s.team c.own.team) (upperOf s c.own) ((c.s o.saux).toNat + 4 * r) 4)
    fromObj (fun d => if d = 1 then (i : Int) else rowIdx p.b r d)
  | .expand =>
    match objRead s c p g with
    | .fault e a v t => .fault e a v t
    | .ask l t => .ask l t
    | .ok (x, raw) t =>
      let w := bxBox p.b 0 * subRatio o.sub.toNat
      let n := metaBytes o.sub.toNat w
      match gRead t (c.read raw) (objSize p g) (bxAux p.b + r * n) n with
      | .fault e a v t => .fault e a v t
      | .ask l t => .ask l t
      | .ok mb u => imgPut u c m r 0 (expandRow o.sub.toNat w x.1 (leNat mb)) []
  | .compact =>
    let w := bxBox p.b 0 * subRatio o.sub.toNat
    let y := compactRow m.fmt o.sub.toNat (imgRead s c m r w).1
    .ok (0, objOut p g y.1 [] ++ [(bxAux p.b + r * metaBytes o.sub.toNat w, y.2)]) s
  | .fill =>
    let x := (c.s o.saux).toNat
    let n := bxBox p.b 0
    let codes := List.replicate n (if isMx m.fmt then x % 256 else x % 2 ^ 32)
    let scales := if isMx m.fmt then List.replicate (n / 32) (x / 256 % 256) else []
    if o.dir = 1 then .ok (0, objOut p g codes scales) s else imgPut s c m r 0 codes scales

/-- The scratchpad that a copy reads while it runs: offset and bytes. -/
def cpyScr (k : CpyKind) (o : OpCpy) (c : Cmd) (p : CpyPlan) (m : ImgRef) : List (Nat × Nat) :=
  (if m.place = 0 ∧ (k = .compact ∨ (k = .plain ∧ o.dir = 1)) then [(m.loc, imgSize m.fmt m.rows m.cols)] else []) ++
  (if k = .gather then [((c.s o.saux).toNat, 4 * bxBox p.b 1)] else [])

def cpFinish (s : State) (c : Cmd) (code fl : Nat) : State := finishCmd (cpDrop s c) c.id (statusWord code 0) fl

/-- A copy stops at a failed access: it suspends at a translation fault (R415), and ends on another failure (R297, R408). -/
def cpyFail (c : Cmd) (e : MErr) (a : Acc) (va r fl : Nat) (t : State) : State :=
  if e.walk then suspendCmd (t.updCmd c.id (fun y => { y with flags := BitVec.ofNat 6 fl })) c.id e a va r
  else cpFinish (t.markErr e) c e.code fl

/-- The copy waits for the fabric at a row. -/
def cpyAsk (c : Cmd) (r fl : Nat) (l : List (Nat × FabOp)) (s : State) : State :=
  cpAsk (s.updCmd c.id (fun y => { y with prog := r, flags := BitVec.ofNat 6 fl })) c l

/-- The next row begins with nothing read and nothing left to write. -/
def Cmd.fresh (c : Cmd) : Cmd := { c with had := [], left := [] }

/-- Rows from `r` to the end of the copy, or to where it stops. A row that has been read makes its writes; one with writes left goes on
with them. -/
def cpyRows (k : CpyKind) (o : OpCpy) (c : Cmd) (p : CpyPlan) (m : ImgRef) : Nat → Nat → Nat → State → State
  | 0, _, fl, s => cpFinish s c 0 fl
  | f + 1, r, fl, s =>
    match (if c.left.isEmpty then cpyRow k o c p m s r else .ok (0, c.left) s) with
    | .ask l t => cpyAsk c r fl l t
    | .fault e a va t => cpyFail c e a va r fl t
    | .ok x t =>
      match gWrites t c x.2 with
      | .ok _ u => cpyRows k o c.fresh p m f (r + 1) (flagOr fl x.1) (u.updCmd c.id Cmd.fresh)
      | .ask l u => cpyAsk c r (flagOr fl x.1) l u
      | .fault e a va u => cpyFail c e a va r (flagOr fl x.1) u

/-- A copy's work, from where it stands (R289 to R297). -/
def cpyDone (k : CpyKind) (o : OpCpy) (s : State) (c : Cmd) : State :=
  let p := cpyPlan c
  let up := upperOf s c.own
  let t := s.team c.own.team
  let tile := (c.s o.sloc).toNat % 8
  if k = .plain ∧ o.dir = 4 then
    let n := imgSize (shEfmt p.sh) (shRows p.sh) (shCols p.sh)
    if scrBad t up (c.s o.scrd).toNat n then cpFinish s c cECCU 0
    else cpFinish (s.updTeam c.own.team (fun t => clearTile (t.tileWrite up tile 0 (scrRead t up (c.s o.scrd).toNat n)) up tile)) c 0 0
  else if k = .plain ∧ o.dir = 5 then
    let n := imgSize (shEfmt p.sh) (shRows p.sh) (shCols p.sh)
    if tileBad t up tile then cpFinish s c cECCU 0
    else cpFinish (s.updTeam c.own.team (fun t => t.scrWrite up (c.s o.scrd).toNat (tileBytes t up tile 0 n))) c 0 0
  else
    let m := imgRef k o c p
    if (cpyScr k o c p m).any (fun x => scrBad t up x.1 x.2) ||
        (decide (m.place = 1) && (decide (k = .compact) || decide (o.dir = 3)) && tileBad t up tile) then cpFinish s c cECCU 0
    else
      let dst : Bool := decide (m.place = 1) && !(decide (k = .compact) || decide (o.dir = 3))
      let u := if dst then s.updTeam c.own.team (fun t => clearTile t up tile) else s
      cpyRows k o c p m (bxRows p.b - c.prog) c.prog c.flags.toNat u

end Sys2Proof.Machine
end

