-- ==== Sys2Proof/Machine/Sxsect.lean ====
section
/-! DEFINITION. SXSECT, the stream unit's intersection (R269), and the activation banks' ACTLD and ACTSEL (R249). -/

namespace Sys2Proof.Machine

/-! ## SXSECT -/

/-- What the read of one stream word comes to: its value, a failure, or a fabric request that is not answered yet. -/
inductive SxWord where
  | val (x : Nat) (s : State)
  | bad (e : MErr)
  | ask
  | pend
  deriving DecidableEq, Repr

/-- Reads four bytes for a lane, through the core's L1 or over the fabric. -/
def sxRead (I : Iss) (s : State) (va : Nat) : SxWord :=
  if 2 ^ 56 ≤ va then .bad { code := cADDRCANON, site := 14 }
  else if va % 4 ≠ 0 then .bad { code := cALIGN, site := 14 }
  else if isFabric va then
    match s.fabQ.find? (fun r => decide (r.own = I.ref) && decide (r.kind = .sync) && decide (r.pc = BitVec.ofNat 64 I.pc) &&
        decide (r.addr.toNat = va)) with
    | none => .ask
    | some r =>
      match r.ans with
      | none => .pend
      | some (.ok x) => .val (leNat x) s
      | some (.nack c) => .bad { code := cFABNACK, level := c.toNat }
      | some .full => .bad { code := cFABTIMEOUT }
  else
    match xlate s I.who va .read false with
    | .error e => .bad e
    | .ok (lf, t) =>
      match coreRead t I.who lf 4 with
      | .error e => .bad e
      | .ok (bs, u) => .val (leNat bs) u

/-- A lane's intersection under way. -/
structure SxRun where
  n    : Nat := 0
  outs : List Nat := []
  s    : State
  fail : Option (MErr × Nat) := none
  ask  : Option Nat := none
  pend : Bool := false
  deriving DecidableEq, Repr

/-- The procedure of R269; `bound` is the exclusive lower bound of LO, `m` the output limit of EMIT. -/
def sxLoop (I : Iss) (a b : Nat) (la lb : Nat) (bound m : Option Nat) : Nat → Nat → Nat → SxRun → SxRun
  | 0, _, _, r => r
  | f + 1, i, j, r =>
    if la ≤ i ∨ lb ≤ j then r
    else
      let va := (a + 4 * i) % 2 ^ 64
      let vb := (b + 4 * j) % 2 ^ 64
      match sxRead I r.s va with
      | .bad e => { r with fail := some (e, va) }
      | .ask => { r with ask := some va }
      | .pend => { r with pend := true }
      | .val x t =>
        match sxRead I t vb with
        | .bad e => { r with s := t, fail := some (e, vb) }
        | .ask => { r with s := t, ask := some vb }
        | .pend => { r with s := t, pend := true }
        | .val y u =>
          if x < y then sxLoop I a b la lb bound m f (i + 1) j { r with s := u }
          else if y < x then sxLoop I a b la lb bound m f i (j + 1) { r with s := u }
          else
            let hit := match bound with
              | some k => decide (k < x)
              | none => true
            let put := match m with
              | some k => hit && decide (r.n < k)
              | none => false
            sxLoop I a b la lb bound m f (i + 1) (j + 1)
              { r with s := u, n := if hit then r.n + 1 else r.n, outs := if put then r.outs ++ [x] else r.outs }

/-- One lane's run. -/
def sxLane (I : Iss) (o : OpSxsect) (s : State) (l : Nat) : SxRun :=
  let t := I.th l
  let c := (t.rv o.c.toNat).toNat
  let c1 := (t.rv (o.c.toNat + 1)).toNat
  sxLoop I (t.rw o.a).toNat (t.rw o.b).toNat (c % 65536) (c / 65536) (if o.lo then some c1 else none)
    (if o.emit then some (o.m1.toNat + 1) else none) (c % 65536 + c / 65536 + 1) 0 0 { s := s }

/-- All lanes in turn. -/
def sxAll (I : Iss) (o : OpSxsect) : State → List Nat → List (Nat × SxRun) × State
  | s, [] => ([], s)
  | s, l :: ls =>
    let r := sxLane I o s l
    let q := sxAll I o r.s ls
    ((l, r) :: q.1, q.2)

/-- INFO of a failed stream: ENG 1; a fabric refusal has its own form (R410, R413). -/
def sxFault (p : FInfo × MErr) : FInfo :=
  if p.2.code = cFABNACK then { p.1 with info := p.2.level, replay := decide (p.2.level = cPGNP) }
  else if p.2.code = cFABTIMEOUT then { p.1 with info := 0, replay := true }
  else { p.1 with info := p.1.info + 64 }

/-- SXSECT (R269). R121 lets its reads be performed at any time before it completes: the model makes them all at issue (log entry 96). -/
def execSxsect (o : OpSxsect) (s : State) : Host.Outcome State Fault Refusal :=
  issue (.sxsect o) s (fun I0 =>
    if I0.gp.cGather = 255 then .wait 0 I0.s0
    else withRelease I0 1 (fun I =>
      let r := sxAll I o I.s I.en
      let asks := r.1.filterMap (fun p => p.2.ask.map (fun va => (p.1, va)))
      if !asks.isEmpty then
        let once := asks.foldl (fun (acc : List (Nat × Nat)) p => if acc.any (fun q => decide (q.2 = p.2)) then acc else acc ++ [p]) []
        .wait 0 (once.foldl (fun t p => fabSend t I.ref p.1 .sync p.2 (.read (fabOff p.2) 4) none I.pc) I.s0)
      else if r.1.any (fun p => p.2.pend) then .wait 0 I.s0
      else
        let es := r.1.filterMap (fun p => p.2.fail.map (fun e => (⟨p.1, e.2, e.1⟩ : LaneErr)))
        match firstFailure es .read with
        | some f => .fault (sxFault f) (farDrop I.s0 I)
        | none =>
          let off := fun (l : Nat) => ((I.th l).rv (o.c.toNat + 1)).toNat
          let spans := r.1.filter (fun p => !p.2.outs.isEmpty)
          let mis := (spans.filter (fun p => decide (off p.1 % 4 ≠ 0))).map (·.1)
          let out := (spans.filter (fun p => !scrIn I.tm.decl (off p.1) (4 * p.2.outs.length))).map (·.1)
          let bad := fun (ls : List Nat) (l : Nat) (e : MErr) =>
            Eff.fault { memFault e .write true ls (off l) with addrs := ls.map (fun k => (k, off k)) } (farDrop I.s0 I)
          match mis, out with
          | l :: _, _ => bad mis l { code := cALIGN, site := 14 }
          | [], l :: _ => bad out l { code := cPGPROT, site := 1 }
          | [], [] =>
            let cap := spans.flatMap (fun p => (p.2.outs.zipIdx).flatMap (fun q =>
              [BitVec.ofNat 64 (off p.1 + 4 * q.2), BitVec.ofNat 64 q.1]))
            let c := newCmd I (farDrop r.2 I) .gather none none cap
            let u := c.2.updGroup I.ref (fun g =>
              let b : Busy := ⟨c.1, maskOf I.en, .v, o.d.toNat⟩
              { g with busy := g.busy ++ [b] })
            .ok (u.updCmd c.1 (fun x => { x with st := .running, res := r.1.map (fun p => (p.1, BitVec.ofNat 64 p.2.n)) }))))

/-- Pairs of offset and word. -/
def sxPairs : List Word64 → List (Nat × Nat)
  | a :: b :: r => (a.toNat, b.toNat) :: sxPairs r
  | _ => []

/-- SXSECT completes: its scratchpad writes, then each lane's count (R269). -/
def sxsectDone (s : State) (c : Cmd) (o : OpSxsect) : State :=
  let up := upperOf s c.own
  let t := s.updTeam c.own.team (fun tm => (sxPairs c.cap).foldl (fun u p => u.scrWrite up p.1 (leBytes p.2 4)) tm)
  let u := t.updGroup c.own (fun g =>
    let y := { g with busy := g.busy.filter (fun (b : Busy) => decide (b.id ≠ c.id)) }
    y.mapLanes (c.res.map (fun (p : Nat × Word64) => p.1)) (fun l t => t.setV o.d.toNat ((Map.get 0 c.res l).setWidth 32)))
  finishCmd u c.id 0 0

/-! ## Activation banks (R249) -/

/-- Is an ACTLD of the context outstanding? -/
def actldPending (s : State) (ctx : Nat) : Bool :=
  s.cmds.any (fun c => decide (c.ctx = ctx) && decide (c.st ≠ .done) && (match c.instr with
    | .actld _ => true
    | _ => false))

/-- Is a group of the context, resident or saved, bound to a bank? -/
def bankBound (s : State) (ctx : Nat) (bank : Bool) : Bool :=
  s.teams.any (fun e => decide (e.2.ctx = ctx) && e.2.alive && e.2.groups.any (fun g => g.2.live && (g.2.actBank == bank)))

def execActld (o : OpSd) (s : State) : Host.Outcome State Fault Refusal :=
  issue (.actld o) s (fun I =>
    let tgt := !(I.s.ctx I.tm.ctx).actDef
    let a := (I.rs o.a).toNat
    if I.gp.actBank = tgt then I.fail cACTBANK (b2n tgt) I.en
    else if a % 256 ≠ 0 then .fault (memFault { code := cALIGN, site := 14 } .read true I.en a) I.s0
    else if bankBound I.s I.tm.ctx tgt ∨ actldPending I.s I.tm.ctx then .wait 13 I.s0
    else issueCmd I .copy (some o.d) none (fun J => .ok (J.s, [BitVec.ofNat 64 (b2n tgt)])))

/-- ACTLD completes: the bank holds the image in every replica, or the command suspends or ends (R249, R415). -/
def actldDone (s : State) (c : Cmd) (o : OpSd) : State :=
  let bank := (c.cap.headD 0).toNat
  match gRead s c 0 (c.s o.a).toNat 8192 with
  | .fault e a va t =>
    if e.walk then suspendCmd t c.id e a va 0 else finishCmd ((cpDrop t c).markErr e) c.id (statusWord e.code 0) 0
  | .ask l t => cpAsk t c l
  | .ok bs t =>
    finishCmd ((cpDrop t c).updCtx c.ctx (fun x => { x with
      actMem := Map.setN 0 x.actMem (bank * 8192) bs,
      actInit := x.actInit ||| (1#2 <<< bank) })) c.id 0 0

def execActsel (o : OpI) (s : State) : Host.Outcome State Fault Refusal :=
  issue (.actsel o) s (fun I =>
    if actldPending I.s I.tm.ctx then .wait 0 I.s0
    else .ok (I.s.updCtx I.tm.ctx (fun c => { c with actDef := decide (o.imm ≠ 0) })))

end Sys2Proof.Machine
end

