-- ==== Sys2Proof/Machine/Complete.lean ====
section
/-! DEFINITION. The completion of a command: its results, its token, its counter (R119, R120). -/

namespace Sys2Proof.Machine

/-- The completion of each command's instruction; one that is not ready leaves the state as it is. -/
def completeCmd (s : State) (c : Cmd) : State :=
  match c.instr with
  | .sxsect o => sxsectDone s c o
  | .actld o => actldDone s c o
  | .mma o => mmaDone s c o false
  | .mmas o => mmaDone s c o true
  | .acccvt o => acccvtDone s c o
  | .accz o => acczDone s c o
  | .accst o => accstDone s c o
  | .cpy o => cpyDone .plain o s c
  | .cpyg o => cpyDone .gather o s c
  | .cpyx o => cpyDone .expand o s c
  | .cpyc o => cpyDone .compact o s c
  | .cpyf o => cpyDone .fill o s c
  | .coll o => collDone s c o
  | .attn o => attnDone s c o false
  | .attnv o => attnDone s c o true
  | .attnf o => attnfDone s c o
  | .kvpf o => pfDone s c o
  | .kvrebld o => rebldDone s c o
  | .kvsel o => selDone s c o
  | _ =>
    match kvWork c with
    | some m => kCommand c m s
    | none => s

/-- A command that runs completes; one of the array leaves it free. While its team is saved only COLL goes on (R347, R349). -/
def execCommandCompletion (cmd : Nat) (s : State) : Host.Outcome State Fault Refusal :=
  match s.cmd cmd with
  | none => .next s
  | some c =>
    let isColl : Bool := match c.instr with
      | .coll _ => true
      | _ => false
    if c.st ≠ .running ∨ ((s.team c.own.team).st = .saved ∧ !isColl) then .next s
    else
      let t := completeCmd s c
      match t.cmd cmd with
      | some d => .next (if d.st = .running then t else arrayFree t cmd)
      | none => .next (arrayFree t cmd)

end Sys2Proof.Machine
end

