-- ==== Sys2Proof/Machine/CrossLane.lean ====
section
/-! DEFINITION. Cross-lane instructions (R254 to R257). Participants are the enabled lanes (R243). -/

namespace Sys2Proof.Machine

/-- SHFL's source lane, as an integer (R254). -/
def shflLane (mode gw l : Nat) (r : Int) : Int :=
  let o := r % (gw : Int)
  match mode with
  | 0 => o
  | 1 => ((l : Int) + o) % (gw : Int)
  | 2 => (l : Int) + r
  | _ => ((l ^^^ o.toNat : Nat) : Int)

def shflOff (rel : Bool) (gw : Nat) (b : Word32) : Int := if rel then (b.toInt * (gw : Int)) / 64 else b.toInt

def execShfl (o : OpShfl) (s : State) : Host.Outcome State Fault Refusal :=
  issue (.shfl o) s (fun I =>
    let gw := I.tm.decl.gw
    if o.vp && !o.b.noImm then .fault { code := cILLENC, lanes := I.en } I.s0
    else .ok (I.lanewise (fun l t =>
      let j := shflLane o.mode.toNat gw l (shflOff o.rel gw (srcI I.gp false t o.b))
      let valid := decide (0 ≤ j) && decide (j < (gw : Int)) && decide (j.toNat ∈ I.en)
      let x := if valid then (I.th j.toNat).r o.a else t.r o.a
      let u := t.pendV I.due o.d.toNat x
      if o.vp then u.pendP I.due o.c.toNat valid else u)))

/-- VOTE's result over the participants with the predicate true (R255). -/
def voteR (mode : Nat) (en yes : List Nat) : Word64 :=
  match mode with
  | 0 => maskOf yes
  | 1 => BitVec.ofNat 64 yes.length
  | 2 => match yes with
    | l :: _ => BitVec.ofNat 64 l
    | [] => 0xFFFFFFFFFFFFFFFF
  | _ => if yes.isEmpty ∨ yes.length = en.length then 1 else 0

def execVote (o : OpVote) (s : State) : Host.Outcome State Fault Refusal :=
  issue (.vote o) s (fun I =>
    .ok (I.setS o.d (voteR o.mode.toNat I.en (I.en.filter (fun l => (I.th l).rp o.a.toNat)))))

def execMatch (o : OpMatch) (s : State) : Host.Outcome State Fault Refusal :=
  issue (.matchL o) s (fun I =>
    let val := fun (t : Thread) => if o.w then t.rw o.a else (t.r o.a).setWidth 64
    .ok (I.setV o.d (fun _ t =>
      let same := I.en.filter (fun l => decide (val (I.th l) = val t))
      BitVec.ofNat 32 (if o.n then same.length else same.headD 0))))

/-- One step of a reduction: operation and type codes of R256. -/
def redOp (op ty : Nat) (x y : Word32) : Res :=
  match op with
  | 0 => if ty = 2 then toRes (FP32.addOp .rne x.toNat y.toNat) else (x + y, 0)
  | 1 => if ty = 2 then (BitVec.ofNat 32 (FP32.minmax false x.toNat y.toNat), 0) else (iminR (decide (ty = 1)) x y, 0)
  | 2 => if ty = 2 then (BitVec.ofNat 32 (FP32.minmax true x.toNat y.toNat), 0) else (imaxR (decide (ty = 1)) x y, 0)
  | 3 => (x &&& y, 0)
  | 4 => (x ||| y, 0)
  | _ => (x ^^^ y, 0)

/-- The identity that the lowest participant of an exclusive scan receives (R256). -/
def redId (op ty : Nat) : Word32 :=
  match op with
  | 1 => if ty = 2 then 0x7F800000 else if ty = 1 then 0xFFFFFFFF else 0x7FFFFFFF
  | 2 => if ty = 2 then 0xFF800000 else if ty = 1 then 0 else 0x80000000
  | _ => 0

/-- Running reductions in ascending lane order (R149): each lane with its inclusive result, and the flags. -/
def redRun (op ty : Nat) : Res → List (Nat × Word32) → List (Nat × Word32) × Nat
  | acc, [] => ([], acc.2)
  | acc, (l, x) :: xs =>
    let y := redOp op ty acc.1 x
    let r := redRun op ty (y.1, acc.2 ||| y.2) xs
    ((l, y.1) :: r.1, r.2)

/-- Every NaN result of a reduction is the canonical NaN (R128). -/
def canon32 (x : Word32) : Word32 := if (FP32.val x.toNat).isNan then 0x7FC00000 else x

/-- Inclusive results by lane. -/
def redAll (op ty : Nat) : List (Nat × Word32) → List (Nat × Word32) × Nat
  | [] => ([], 0)
  | (l, x) :: xs =>
    let y := if ty = 2 then canon32 x else x
    let r := redRun op ty (y, 0) xs
    ((l, y) :: r.1, r.2)

def redVals (I : Iss) (o : OpRedl) : List (Nat × Word32) × Nat :=
  redAll o.op.toNat o.ty.toNat (I.en.map (fun l => (l, (I.th l).r o.a)))

def execRedl (o : OpRedl) (s : State) : Host.Outcome State Fault Refusal :=
  issue (.redl o) s (fun I =>
    let r := redVals I o
    let x := match r.1.getLast? with
      | some e => e.2
      | none => 0
    .ok ((I.setV o.d (fun _ _ => x)).orFlags I.ref r.2))

/-- The value before lane `l` in a list of results by lane. -/
def exclusive (id : Word32) : List (Nat × Word32) → Nat → Word32
  | [], _ => id
  | (k, x) :: xs, l => if k = l then id else exclusive x xs l

def execScanl (o : OpRedl) (s : State) : Host.Outcome State Fault Refusal :=
  issue (.scanl o) s (fun I =>
    let r := redVals I o
    let fl := if o.ex then (redAll o.op.toNat o.ty.toNat (I.en.dropLast.map (fun l => (l, (I.th l).r o.a)))).2 else r.2
    .ok ((I.setV o.d (fun l _ =>
      if o.ex then exclusive (redId o.op.toNat o.ty.toNat) r.1 l else Map.get 0 r.1 l)).orFlags I.ref fl))

def execPackl (o : OpPackl) (s : State) : Host.Outcome State Fault Refusal :=
  issue (.packl o) s (fun I =>
    let ts := I.en.filter (fun l => (I.th l).rp o.p.toNat)
    let t := I.lanewise (fun l t =>
      let k := (I.en.filter (fun m => decide (m < l))).length
      match ts[k]? with
      | some m => t.setV o.d.toNat ((I.th m).r o.a)
      | none => t)
    .ok (if o.c then t.updGroup I.ref (fun g => g.setS o.sc.toNat (BitVec.ofNat 64 ts.length)) else t))

end Sys2Proof.Machine
end

