-- ==== Sys2Proof/Machine/Fabric.lean ====
section
/-! DEFINITION. The fabric as a chip sees it: requests that arrive (R80, R368, R432), answers to its own (R366, R432), timeouts,
flow control and link states (R368, R431, R433). -/

namespace Sys2Proof.Machine

/-! ## Requests from other chips -/

/-- The joined context: the lowest existing one with the sender's JOINTAG; 0 joins none (R360, R368). -/
def joined (s : State) (tag : BitVec 32) : Option Nat :=
  if tag = 0 then none else (s.ctxs.find? (fun c => decide (c.2.st ≠ 0) && decide (c.2.regs.jointag = tag))).map (·.1)

def fabNack (code : Nat) : FabAns := .nack (BitVec.ofNat 8 code)

/-- The virtual address of an exported range; none beyond EXPSIZE (R80, R360). -/
def expVa (s : State) (ctx off n : Nat) : Option Nat :=
  let r := (s.ctx ctx).regs
  if off + n ≤ r.expsize.toNat then some ((r.expbase.toNat + off) % 2 ^ 64) else none

/-- An access of a range that is exported. -/
def serveAt (s : State) (ctx off n : Nat) (f : Nat → State × FabAns) : State × FabAns :=
  match expVa s ctx off n with
  | none => (s, fabNack cPGPROT)
  | some va => f va

/-- An atomic of another chip at the target's memory: a package-scope access of `n` bytes (R98, R101). `f` gives the new value, if
there is a write. -/
def serveAtom (s : State) (ctx va n : Nat) (a : Acc) (f : Nat → Option Nat) : State × FabAns :=
  let w := bgWho ctx
  if va % n ≠ 0 then (s, fabNack cALIGN)
  else
    match xlate s w va a true with
    | .error e => (s.markErr e, fabNack e.code)
    | .ok (lf, t) =>
      match siteRead t w lf true n with
      | .error e => (t.markErr e, fabNack e.code)
      | .ok (x, u) =>
        (match f x with
          | some y => siteWrite u w lf true n y
          | none => u, .ok (leBytes x n))

def tyBytes (ty : BitVec 3) : Nat := if ty = 2 then 8 else 4

/-- The new value of a word after the steps of every merged operand. -/
def serveElem (op ty : BitVec 3) (vals : List Word64) (x : Nat) : Nat :=
  vals.foldl (fun a y => fabElem op.toNat ty.toNat a (y.toNat % 2 ^ (8 * tyBytes ty))) x

/-- A message from another chip (R76, R432). To a virtual core that only saved teams have, it waits for room in the backing ring
(R354): no answer yet. A place for which one from the ring waits is not free (R78). -/
def serveMsg (s : State) (ctx : Nat) (name : BitVec 32) (x : Word64) : State × Option FabAns :=
  let n := name.toNat
  let v := bitsN n 13 8
  let c := s.ctx ctx
  if bitN n 14 then if c.hmq.length < 256 then (s.hmqPut ctx x, some (.ok [])) else (s, some .full)
  else if vMapped s ctx v then
    if (c.box v (n % 32)).length < 16 ∧ !boxHeld s ctx v (n % 32) then (boxPut s ctx v (n % 32) ⟨x, 4⟩, some (.ok []))
    else (s, some .full)
  else if savedOn s ctx v then
    if ringFull s ctx then (s, none)
    else
      let e : RingEnt :=
        { pos := 0, vcore := v, kind := 2, team := 0, gid := 0, obj := n % 32, word := x, arg := 0, lid := 0, scope := 4 }
      let r := ringPut s ctx e
      (r.1, some (if r.2 then .ok [] else fabNack cDROPPED))
  else (s, some (fabNack cDROPPED))

/-- An access of another chip to memory. -/
def serveMem (s : State) (ctx : Nat) : FabOp → State × FabAns
  | .read off n =>
    serveAt s ctx off n (fun va => match vaReadHome s (bgWho ctx) va n with
      | .error (e, _) => (s.markErr e, fabNack e.code)
      | .ok (bs, t) => (t, .ok bs))
  | .write off bs =>
    serveAt s ctx off bs.length (fun va =>
      let r := vaWriteHome s (bgWho ctx) va bs
      (r.1, match r.2 with
        | some (e, _) => fabNack e.code
        | none => .ok []))
  | .atom off op ty vals =>
    serveAt s ctx off (tyBytes ty) (fun va => serveAtom s ctx va (tyBytes ty) .atom (fun x => some (serveElem op ty vals x)))
  | .cas off wide vals =>
    let n := if wide then 8 else 4
    serveAt s ctx off n (fun va =>
      serveAtom s ctx va n .atom (fun x =>
        let r := casRun x (vals.map (fun p => (0, p.1.toNat % 2 ^ (8 * n), p.2.toNat % 2 ^ (8 * n))))
        if r.2.2 then some r.1 else none))
  | .redst off op ty vals =>
    serveAt s ctx off (tyBytes ty) (fun va => serveAtom s ctx va (tyBytes ty) .write (fun x => some (serveElem op ty vals x)))
  | .mbsend _ _ => (s, .ok [])

/-- A request served through the joined context, and its answer, unless it must wait. -/
def serve (s : State) (ctx : Nat) (op : FabOp) : State × Option FabAns :=
  match op with
  | .mbsend name x => serveMsg s ctx name x
  | _ => let r := serveMem s ctx op; (r.1, some r.2)

/-- Does a message of the same sender wait ahead of a request (R78)? -/
def fabAhead (s : State) (r : FabReqOp) : Bool :=
  (s.fabIn.takeWhile (fun x => decide (x ≠ r))).any (fun x => decide (x.chip = r.chip) && decide (x.join = r.join)) &&
    (match r.op with
      | .mbsend _ _ => true
      | _ => false)

/-- A request of another chip is served and answered, or waits for room. -/
def execFabricRequest (r : FabReqOp) (s : State) : Host.Outcome State Fault Refusal :=
  let wait := if r ∈ s.fabIn then s else { s with fabIn := s.fabIn ++ [r] }
  let q := match joined s r.join with
    | none => (s, some (fabNack 0x0D))
    | some ctx => if fabAhead s r then (s, none) else serve s ctx r.op
  .next (match q.2 with
    | none => wait
    | some a =>
      fabFlush { q.1 with
        fabIn := q.1.fabIn.erase r,
        fabOut := q.1.fabOut ++ [{ die := r.port / 12, chip := r.chip, tag := r.tag, ans := a }] })

/-! ## Answers -/

/-- What a failed request means: code and reason (R409, R432). -/
inductive FabFail where
  | nack (reason : Nat)
  | full
  | timeout
  deriving DecidableEq, Repr

def failOf : FabAns → Option FabFail
  | .ok _ => none
  | .nack r => some (.nack r.toNat)
  | .full => some .full

def FabFail.code : FabFail → Nat
  | .nack _ => cFABNACK
  | .full => cMBFULL
  | .timeout => cFABTIMEOUT

/-- INFO of R410; `mbx`: of a mailbox send. -/
def FabFail.info (f : FabFail) (mbx : Bool) : Nat :=
  match f with
  | .nack r => r + 256 * b2n mbx
  | .full => 0
  | .timeout => 256 * b2n mbx

/-- A request ends: its store or reduce store defers a failure (R419), its send writes its token (R399), its post completes the
launch, with a device record for a failure (R442). -/
def fabEnd (s : State) (q : FabReq) (f : Option FabFail) : State :=
  let t := fabDrop s [q.id]
  let late := fun (sys : Bool) => match f with
    | none => t
    | some x => deferTo t q.own
        { code := BitVec.ofNat 8 x.code, info := BitVec.ofNat 16 (x.info false), addr := q.addr, sys := sys, tids := q.tids }
  match q.kind with
  | .sync => s
  | .store => late true
  | .redst => late false
  | .send =>
    let st := match f with
      | none => 0
      | some (.nack r) => if r = cDROPPED then cDROPPED else cFABNACK
      | some x => x.code
    finishCmd t q.id (statusWord st 0) 0
  | .post =>
    let u := match f with
      | none => t
      | some x => t.devRecord q.ctx x.code (x.info true) 0
    let w := match q.op with
      | .mbsend _ w => w
      | _ => 0
    launchDone u q.ctx (w.toNat / 2 ^ 32)

/-- The request that a response or a timeout concerns. -/
def fabOpenReq (s : State) (id : Nat) : Option FabReq := s.fabQ.find? (fun q => decide (q.id = id) && q.ans.isNone)

/-- The answer of a load or an atomic waits for its instruction. -/
def fabAnswer (s : State) (id : Nat) (a : FabAns) : State :=
  { s with fabQ := s.fabQ.map (fun q => if q.id = id then { q with ans := some a } else q) }

/-- A request that has gone out gets its answer. -/
def fabReply (s : State) (id : Nat) (a : FabAns) : State :=
  match fabOpenReq s id with
  | none => s
  | some q => if q.port.isNone then s else if q.kind = .sync then fabAnswer s id a else fabEnd s q (failOf a)

def execFabricResponse (id : Nat) (a : FabAns) (s : State) : Host.Outcome State Fault Refusal :=
  .next (fabReply s id a)

/-- FABTMO in microseconds of package time; 0 acts as 1,000 (R431). -/
def fabTimeUnits (s : State) : Nat := (if s.pkg.fabtmo = 0 then 1000 else s.pkg.fabtmo.toNat) * 168000

def execFabricTimeout (id : Nat) (s : State) : Host.Outcome State Fault Refusal :=
  match fabOpenReq s id with
  | none => .next s
  | some q =>
    if s.time < q.sentAt + fabTimeUnits s then .next s
    else .next (if q.kind = .sync then fabAnswer s id .full else fabEnd s q (some .timeout))

/-! ## Ports (R366, R368, R431) -/

def updPort (s : State) (p : Nat) (f : FabPort → FabPort) : State :=
  if p < 48 then { s with fports := Map.upd {} s.fports p f } else s

def execPauseFlit (port cls : Nat) (s : State) : Host.Outcome State Fault Refusal :=
  .next (if cls < 4 then updPort s port (fun p => { p with paused := p.paused ||| (1#4 <<< cls) }) else s)

def execResumeFlit (port cls : Nat) (s : State) : Host.Outcome State Fault Refusal :=
  .next (if cls < 4 then fabFlush (updPort s port (fun p => { p with paused := p.paused &&& ~~~(1#4 <<< cls) })) else s)

/-- A receive buffer stands at a percentage: past the high watermark of 75 the port sends a pause flit for the class, below the low
one of 25 a resume flit (R368). -/
def fabFill (s : State) (port cls percent : Nat) : State :=
  if 4 ≤ cls then s
  else
    fabFlush (updPort s port (fun p =>
      { p with full := if 75 < percent then p.full ||| (1#4 <<< cls) else if percent < 25 then p.full &&& ~~~(1#4 <<< cls) else p.full }))

/-- Requests and answers in flight on a port that has gone down are sent again by another port of the set (R433); the model knows of no
answer that it has come to its chip (log entry 69). -/
def resend (s : State) (p : Nat) : State :=
  { s with
    fabQ := s.fabQ.map (fun q => if q.port = some p ∧ q.ans.isNone then { q with port := none } else q),
    fabOut := s.fabOut.map (fun q => if q.port = some p then { q with port := none } else q) }

/-- The context's end: messages of other chips that wait for room in its backing ring are dropped (R354, R361). -/
def dropFabIn (s : State) (ctx : Nat) : State :=
  let mine := s.fabIn.filter (fun r => decide (joined s r.join = some ctx))
  fabFlush { s with
    fabIn := s.fabIn.filter (fun r => r ∉ mine),
    fabOut := s.fabOut ++ mine.map (fun r => { die := r.port / 12, chip := r.chip, tag := r.tag, ans := fabNack cDROPPED }) }

/-- A port changes: LINKUP, LINKEVT and an interrupt (R431). -/
def linkChange (s : State) (p : Nat) (up : Bool) : State :=
  if 48 ≤ p ∨ (Map.get {} s.fports p).up = up then s
  else
    let t := updPort s p (fun q => { q with up := up })
    fabFlush { (if up then t else resend t p) with pkg := { t.pkg with linkevt := t.pkg.linkevt + 1 } }.pkgIrq

def execLinkDown (port : Nat) (s : State) : Host.Outcome State Fault Refusal := .next (linkChange s port false)
def execLinkUp (port : Nat) (s : State) : Host.Outcome State Fault Refusal := .next (linkChange s port true)

end Sys2Proof.Machine
end

