-- ==== Sys2Proof/Machine/Faults.lean ====
section
/-! DEFINITION. The fault queue (R387, R388), the dispositions (R389, R390, R405, R415), the ends that they bring to teams and
grids, the watchdog and its notices (R403, R404). -/

namespace Sys2Proof.Machine

/-! ## Records (R386) -/

/-- The 32 bytes of a record; VALID is set. -/
def FRec.bytes (r : FRec) : List Byte :=
  leBytes (r.code.toNat + 2 ^ 8 + 2 ^ 9 * b2n r.replay + 2 ^ 10 * b2n r.rqf + 2 ^ 11 * b2n r.defer + 2 ^ 12 * b2n r.wdog +
      2 ^ 16 * r.vcore.toNat + 2 ^ 22 * r.gid.toNat + 2 ^ 28 * r.tslot.toNat) 4 ++
    leBytes (r.rqidx.toNat + 2 ^ 16 * r.info.toNat) 4 ++ leBytes (r.pc.toNat % 2 ^ 56) 8 ++ leBytes r.lanes.toNat 8 ++
    leBytes r.addr.toNat 8

/-- Is a wait the one that a notice reports? -/
def noticed (r : FRec) (born : Nat) (w : Wait) : Bool :=
  w.noted && decide (w.kind = r.info.toNat) && decide (w.born = born) && decide (w.pc = r.pc.toNat)

/-- The record of a waiting item whose holder is still there. -/
def itemRec (s : State) : FqItem → Option FRec
  | .group g => (s.group g).fault.map (·.frec)
  | .cmd id => ((s.cmd id).bind (·.held)).map (·.frec)
  | .notice g r born => if (s.group g).waits.any (noticed r born) then some r else none
  | .team k r => if (s.team k).alive ∧ (s.team k).refused then some r else none
  | .loose r => some r

/-- The holder of an item holds its entry from now on (R387). -/
def holdEntry (s : State) (i : Nat) : FqItem → State
  | .group g => s.updGroup g (fun x => { x with fault := x.fault.map (fun h => { h with entry := some i }) })
  | .cmd id => s.updCmd id (fun c => { c with held := c.held.map (fun h => { h with entry := some i }) })
  | .notice g r born => s.updGroup g (fun x =>
    { x with waits := x.waits.map (fun w => if noticed r born w then { w with entry := some i } else w) })
  | .team k _ => s.updTeam k (fun t => { t with note := some i })
  | .loose _ => s

/-- Who holds an entry. -/
inductive Holder where
  | fault (g : GRef)
  | notice (g : GRef) (entry : Nat)
  | cmd (id : Nat)
  | team (k : Nat)
  deriving DecidableEq, Repr

def groupHolds (g : GRef) (x : Group) (i : Nat) : Option Holder :=
  if x.fault.any (fun h => decide (h.entry = some i)) then some (.fault g)
  else if x.waits.any (fun w => decide (w.entry = some i)) then some (.notice g i)
  else none

/-- The holder of an entry in a context. A team that a disposition has ended holds none, nor do its groups (R387). -/
def holderOf (s : State) (ctx i : Nat) : Option Holder :=
  let ts := s.teams.filter (fun e => decide (e.2.ctx = ctx) && e.2.alive && decide (e.2.st ≠ .ending))
  match ts.findSome? (fun e => if e.2.note = some i then some (Holder.team e.1)
      else e.2.groups.findSome? (fun g => groupHolds ⟨e.1, g.1⟩ g.2 i)) with
  | some h => some h
  | none => (s.cmds.find? (fun c => decide (c.ctx = ctx) && c.held.any (fun h => decide (h.entry = some i)))).map (fun c => .cmd c.id)

/-! ## The queue (R387, R388) -/

def fqVa (s : State) (ctx i : Nat) : Nat := (s.ctx ctx).regs.fqbase.toNat + 32 * i

/-- VALID of an entry, as it stands in memory. -/
def fqValid (s : State) (ctx i : Nat) : Except MErr Bool :=
  match xlate s (bgWho ctx) (fqVa s ctx i) .write false with
  | .error e => .error e
  | .ok (lf, t) =>
    match homeRead t lf.pa 8 with
    | .error e => .error e
    | .ok bs => .ok (bitN (leNat bs) 8)

/-- Does the queue hold a VALID entry? -/
def fqAny (s : State) (ctx : Nat) : Bool :=
  (List.range (s.ctx ctx).regs.fqn.toNat).any (fun i => match fqValid s ctx i with
    | .ok b => b
    | .error _ => false)

/-- A write of a record has failed: FQERR, one interrupt; a position met by an uncorrectable error is skipped. -/
def fqFail (s : State) (ctx : Nat) (skip : Bool) : State :=
  let c := s.ctx ctx
  let t := s.updCtx ctx (fun c => { c with
    fqerr := true, fqStuck := true, fqNext := if skip then (c.fqNext + 1) % max 1 c.regs.fqn.toNat else c.fqNext })
  if c.fqerr then t else t.ctxIrq ctx true

/-- The first waiting record goes to the next entry, if that is free (R387). -/
def execFaultRecordWrite (ctx : Nat) (s : State) : Host.Outcome State Fault Refusal :=
  let c := s.ctx ctx
  match c.fqWait with
  | [] => .next s
  | x :: rest =>
    match itemRec s x with
    | none => .next (s.updCtx ctx (fun c => { c with fqWait := rest, fqerr := c.fqerr && !rest.isEmpty }))
    | some r =>
      let i := c.fqNext % max 1 c.regs.fqn.toNat
      if c.fqStuck then .next s
      else if c.regs.fqn = 0 then .next (fqFail s ctx false)
      else
        match fqValid s ctx i with
        | .error e => .next (fqFail (s.markErr e) ctx (decide (cECCU ≤ e.code)))
        | .ok valid =>
          if valid ∨ (holderOf s ctx i).isSome then .next s
          else
            let q := formerWrite s ctx (fqVa s ctx i) r.bytes
            match q.2 with
            | some (e, _) => .next (fqFail q.1 ctx (decide (cECCU ≤ e.code)))
            | none =>
              let t := (holdEntry q.1 i x).updCtx ctx (fun c => { c with
                fqWait := rest, fqNext := (i + 1) % max 1 c.regs.fqn.toNat, fqProd := c.fqProd + 1,
                fqerr := c.fqerr && !rest.isEmpty })
              .next (if fqAny s ctx then t else t.ctxIrq ctx true)

/-- RESUME and INVAL have the waiting records tried again (R388). -/
def fqRetry (s : State) (ctx : Nat) : State :=
  s.updCtx ctx (fun c => { c with fqStuck := false, fqerr := c.fqerr && !c.fqWait.isEmpty })

/-! ## Ends (R389, R390) -/

/-- Withdraws a command: its handle, token and counter go with the team or the image; a page under rebuild for KVPF is let go. -/
def withdrawCmd (s : State) (c : Cmd) : State :=
  let t := match c.pf.busyH with
    | some h => s.updHandle c.ctx (s.vcoreRef c.own) h (fun x => { x with st := 0, snap := none })
    | none => s
  { cpDrop t c with cmds := t.cmds.filter (fun x => decide (x.id ≠ c.id)) }

/-- Does a command go when its team ends (R347, R390): not yet at its engine, suspended, KVPF or COLL? -/
def goesAtEnd (c : Cmd) : Bool :=
  decide (c.st = .held) || decide (c.st = .waiting) || decide (c.st = .suspended) ||
    match c.instr with
    | .kvpf _ => true
    | .coll _ => true
    | _ => false

def withdrawAll (s : State) (k : Nat) (p : Cmd → Bool) : State :=
  (s.cmds.filter (fun c => decide (c.own.team = k) && p c)).foldl withdrawCmd s

/-- The commands of a team still to complete. -/
def teamBusy (s : State) (k : Nat) : Bool := s.cmds.any (fun c => decide (c.own.team = k) && decide (c.st ≠ .done))

/-- A team that a disposition has ended: it holds no fault and no notice any more (R387, R390). -/
def Team.toEnd (t : Team) : Team :=
  { t with st := .ending, refused := false, note := none, groups := t.groups.map (fun g => (g.1, { g.2 with fault := none, waits := [] })) }

/-- A team ends by a disposition whose record has code `code`. -/
def endTeam (s : State) (k : Nat) (code : BitVec 8) : State :=
  let t := s.team k
  if t.st = .ended ∨ t.st = .ending then s
  else
    let u := (withdrawAll s k goesAtEnd).updGrid t.ctx t.lid.toNat (fun g => { g with ended := some (g.ended.getD code) })
    if t.st = .saved then teamEnd u k else u.updTeam k Team.toEnd

/-- An ending team completes once its commands have, and its stores have been performed. -/
def endingDone (s : State) (k : Nat) : State :=
  if (s.team k).st = .ending ∧ !teamBusy s k ∧ !storesWait (s.team k) then teamEnd s k else s

/-- ENDGRID: the unplaced teams are dropped, then every team ends. -/
def endGrid (s : State) (ctx lid : Nat) (code : BitVec 8) : State :=
  let t := dequeue (s.updGrid ctx lid (fun g => { g with teams := g.placed, back := [], ended := some (g.ended.getD code) })) ctx lid
  (gridTeams t ctx lid).foldl (fun u k => endTeam u k code) t

/-! ## Dispositions (R389) -/

/-- The first word of the instruction at an address; 0 where it cannot be read. -/
def firstWord (s : State) (g : GRef) (va : Nat) : Nat :=
  match xlate s (s.who g) va .fetch false with
  | .error _ => 0
  | .ok (lf, t) =>
    match homeRead (atBoundary t (s.gridOf (s.team g.team))) lf.pa 8 with
    | .error _ => 0
    | .ok bs => leNat bs

/-- A disposition of a held fault takes effect on its group: 1 REPLAY, 2 SKIP, 3 EXIT. A record that still waits for its entry goes
with the fault, and what an earlier REPLAY asked for is over. -/
def disposeGroup (s : State) (g : GRef) (h : Held) (d : Nat) : State :=
  let r := h.frec
  let ls := lanesOf r.lanes
  let t := (s.updGroup g (fun x => { x with fault := none, replay := none, unchecked := false })).updCtx (s.team g.team).ctx
    (fun c => { c with fqWait := c.fqWait.filter (fun x => decide (x ≠ FqItem.group g)) })
  match d with
  | 1 => t.updGroup g (fun x => { x with replay := some r.lanes, unchecked := decide (r.code.toNat = cSTALLCHK) })
  | 2 =>
    if r.defer then t
    else
      let n := lengthOf (firstWord s g r.pc.toNat)
      t.updGroup g (fun x => x.mapLanes ls (fun _ t => { t with pc := r.pc + BitVec.ofNat 64 n }))
  | _ => t.exitLanes g ls

/-- A disposition of a suspended command (R415). -/
def disposeCmd (s : State) (c : Cmd) (d : Nat) : State :=
  match c.held with
  | none => s
  | some h =>
    let t := s.updCtx c.ctx (fun x => { x with fqWait := x.fqWait.filter (fun y => decide (y ≠ FqItem.cmd c.id)) })
    if d = 1 then t.updCmd c.id (fun c => { c with st := .running, held := none }) else cpFinish t c h.frec.code.toNat 0

/-- A disposition for a saved team is stored in its image (R405). -/
def storeGroup (s : State) (g : GRef) (d : Nat) : State :=
  s.updGroup g (fun x => { x with fault := x.fault.map (fun h => { h with disp := some d }) })

/-- What a group or command holder is disposed to: the effects of REPLAY, SKIP and EXIT. -/
def dispose (s : State) (d : Nat) : Holder → State
  | .fault g =>
    match (s.group g).fault with
    | none => s
    | some h =>
      if d = 1 ∧ h.frec.defer then s
      else if (s.team g.team).st = .saved then storeGroup s g d
      else disposeGroup s g h d
  | .cmd id =>
    match s.cmd id with
    | none => s
    | some c =>
      if (s.team c.own.team).st = .saved then
        s.updCmd id (fun c => { c with held := c.held.map (fun h => { h with disp := some d }) })
      else disposeCmd s c d
  | .notice _ _ => s
  | .team _ => s

/-- The team and the code that a holder's record names. -/
def holderTeam (s : State) : Holder → Option (Nat × BitVec 8)
  | .fault g => some (g.team, ((s.group g).fault.map (·.frec.code)).getD 0)
  | .notice g _ => some (g.team, 0)
  | .cmd id => (s.cmd id).map (fun c => (c.own.team, (c.held.map (·.frec.code)).getD 0))
  | .team k => some (k, 0)

def HostWr.port : HostWr → Nat
  | .reg o _ => o.port
  | .cmd o _ => o.port
  | .go o _ => o.port
  | .reply o _ => o.port
  | .mbox o _ _ _ => o.port
  | .ack o _ => o.port
  | .w2 o _ => o.port

/-- Does a host write to a full mailbox of a port wait in the device (R363)? -/
def mboxWaits (s : State) (port : Nat) : Bool := s.sends.any (fun m => m.port.any (fun p => decide (b2n p = port)))

/-- It does, or later writes of the port behind it (R124, R363). -/
def hostWaits (s : State) (port : Nat) : Bool := mboxWaits s port || s.hostQ.any (fun x => decide (x.port = port))

/-- A host write: at once, or behind the writes of its port that wait. -/
def hostIn (s : State) (x : HostWr) (f : State → State) : Host.Outcome State Fault Refusal :=
  .next (if hostWaits s x.port then { s with hostQ := s.hostQ ++ [x] } else f s)

/-- A W1 access through the owning port (R364). -/
def w1Owned (s : State) (port ctx : Nat) : Bool :=
  decide (s.pkg.phase = 8) && decide (ctx < 64) && decide (port = b2n (s.ctx ctx).owner)

/-- The same with no write of the port waiting (R363). -/
def w1Open (s : State) (port ctx : Nat) : Bool := w1Owned s port ctx && !hostWaits s port

/-- FQACK is accepted from the owning port, for an entry that is held (R387). -/
def ackHolder (s : State) (o : AckOp) : Option Holder := if w1Owned s o.port o.ctx then holderOf s o.ctx o.index else none

/-- CONTINUE restarts the watchdog of a wait (R403); while the team is saved it counts from the save. -/
def continueWait (s : State) : Holder → State
  | .notice g i =>
    let t := s.team g.team
    let from_ := if t.st = .saved then t.savedAt else s.now
    s.updGroup g (fun x => { x with waits := x.waits.map (fun w =>
      if w.entry = some i then { w with until_ := from_ + 2 ^ 28, noted := false, entry := none } else w) })
  | .team k => s.updTeam k (fun t => { t with note := none })
  | .fault _ => s
  | .cmd _ => s

/-- A disposition written through FQACK (R389): 1 REPLAY, 2 SKIP, 3 EXIT, 4 ENDTEAM, 5 ENDGRID, 6 CONTINUE. -/
def ackWrite (o : AckOp) (disp : Nat) (s : State) : State :=
  match ackHolder s o with
  | none => s
  | some h =>
    if disp ≤ 3 then dispose s disp h
    else if disp = 6 then continueWait s h
    else match holderTeam s h with
      | none => s
      | some (k, code) => if disp = 4 then endTeam s k code else endGrid s (s.team k).ctx (s.team k).lid.toNat code

def ack (o : AckOp) (disp : Nat) (s : State) : Host.Outcome State Fault Refusal := hostIn s (.ack o disp) (ackWrite o disp)

def execFqackReplay (o : AckOp) (s : State) : Host.Outcome State Fault Refusal := ack o 1 s
def execFqackSkip (o : AckOp) (s : State) : Host.Outcome State Fault Refusal := ack o 2 s
def execFqackExit (o : AckOp) (s : State) : Host.Outcome State Fault Refusal := ack o 3 s
def execFqackEndteam (o : AckOp) (s : State) : Host.Outcome State Fault Refusal := ack o 4 s
def execFqackEndgrid (o : AckOp) (s : State) : Host.Outcome State Fault Refusal := ack o 5 s
def execFqackContinue (o : AckOp) (s : State) : Host.Outcome State Fault Refusal := ack o 6 s

/-! ## The watchdog (R403, R404) -/

/-- The kind of wait of a parked lane; a WAITANY with a timeout has none. -/
def parkKind : Park → Option Nat
  | .bar _ _ => some 1
  | .dieBar _ _ => some 2
  | .gridBar _ => some 3
  | .waitAny _ none => some 4
  | .waitAny _ (some _) => none
  | .hwait _ _ => some 6
  | .reform => some 7
  | .spawn _ => some 7
  | .ecall _ _ => some 12

def laneKind (t : Thread) : Option Nat :=
  match t.st with
  | .parked w => parkKind w
  | .splitWait => some 8
  | .joinWait => some 8
  | .live => none
  | .exited => none
  | .left => none

/-- The instruction at which a lane waits: the one that parked it, or where a split mask's lane stands (R404). -/
def waitPc (kind pc : Nat) : Nat := if kind = 8 then pc else if kind = 4 then pc - 16 else pc - 8

/-- The wait in which a lane stands: its kind and its instruction. -/
def laneWait (t : Thread) : Option (Nat × Nat) := (laneKind t).map (fun k => (k, waitPc k t.pc.toNat))

/-- The commands of a group that wait: in a convergence register, or for a handle (R403). -/
def cmdWaits (s : State) (r : GRef) : List (Nat × Cmd) :=
  (s.cmds.filter (fun c => decide (c.own = r))).filterMap (fun c =>
    match c.st with
    | .held => some (5, c)
    | .waiting => some (6, c)
    | .running => if c.pf.waits then some (6, c) else none
    | .queued => none
    | .suspended => none
    | .done => none)

/-- Does the end of a group wait on its counters or tokens (R217)? -/
def endWaits (g : Group) : Bool := g.live && !g.hasLive && (!g.idle || (!g.gone && !g.toks.isEmpty))

/-- A wait as it goes on, with the lanes that still stand in it; none once it has ended. -/
def keepWait (s : State) (r : GRef) (w : Wait) : Option Wait :=
  let g := s.group r
  if w.atIssue then some w
  else match w.cmd with
    | some id => if (cmdWaits s r).any (fun p => decide (p.1 = w.kind) && decide (p.2.id = id)) then some w else none
    | none =>
      if w.kind = 5 then (if endWaits g then some w else none)
      else
        let ls := w.lanes.filter (fun l => decide (laneWait (g.lane l) = some (w.kind, w.pc)))
        if ls.isEmpty then none else some { w with lanes := ls }

/-- The waits that have begun since: of lanes by kind and instruction, of commands, of the group's end. -/
def newWaits (s : State) (r : GRef) (old : List Wait) : List Wait :=
  let g := s.group r
  let start := fun (kind pc : Nat) (ls : List Nat) (cmd : Option Nat) =>
    ({ kind := kind, lanes := ls, pc := pc, born := s.now, until_ := s.now + 2 ^ 28, cmd := cmd } : Wait)
  let seen := old.flatMap (fun w => if w.atIssue then [] else w.lanes)
  let ls := (g.lanes.map (·.1)).filter (fun l => (laneWait (g.lane l)).isSome && decide (l ∉ seen))
  let keys := (ls.filterMap (fun l => laneWait (g.lane l))).eraseDups
  keys.map (fun k => start k.1 k.2 (ls.filter (fun l => decide (laneWait (g.lane l) = some k))) none) ++
    ((cmdWaits s r).filter (fun p => !old.any (fun w => decide (w.cmd = some p.2.id)))).map
      (fun p => start p.1 p.2.pc.toNat [] (some p.2.id)) ++
    (if endWaits g ∧ !old.any (fun w => decide (w.kind = 5) && w.cmd.isNone) then [start 5 0 [] none] else [])

/-- The watchdogs of a group follow its waits (R403). -/
def watch (s : State) (r : GRef) : State :=
  if !(s.team r.team).st.runs then s
  else
    let old := (s.group r).waits.filterMap (keepWait s r)
    let ws := old ++ newWaits s r old
    if (s.group r).waits = ws then s else s.updGroup r (fun x => { x with waits := ws })

/-- A wait has lasted the full interval: one notice (R403, R404). -/
def execWatchdogNotice (g : GRef) (s : State) : Host.Outcome State Fault Refusal :=
  match (s.group g).waits.find? (fun w => !w.noted && decide (w.until_ ≤ s.now)) with
  | none => .next s
  | some w =>
    if (s.team g.team).st.runs then
      let r := { mkRec s g w.pc { code := 0, info := w.kind, lanes := w.lanes } with wdog := true }
      .next ((s.updGroup g (fun x => { x with waits := x.waits.map (fun v => if v = w then { v with noted := true } else v) })).report
        (s.team g.team).ctx (.notice g r w.born))
    else .next s

end Sys2Proof.Machine
end

