-- ==== Sys2Proof/Machine/Pkg.lean ====
section
/-! DEFINITION. The package: throttle states (R373), power gating (R374), bandwidth allotments (R358), power-on, verification
and identity (R369 to R372, R436). -/

namespace Sys2Proof.Machine

def State.updPkg (s : State) (f : Pkg → Pkg) : State := { s with pkg := f s.pkg }

/-! ## Throttle states (R373) -/

/-- The state that the package's inputs ask for. -/
def throttleWant (o : ThrOp) : Nat :=
  let tj := o.tj.toNat
  if 105 < tj then 4 else if 100 < tj then 3 else if 95 < tj ∨ o.insuff then 2 else if o.power then 1 else 0

/-- The state and the causes that the inputs and THRCAP make. -/
def throttleNext (p : Pkg) (o : ThrOp) : BitVec 3 × BitVec 3 :=
  let want := throttleWant o
  let cap := p.thrcap.toNat
  (BitVec.ofNat 3 (max want cap),
   BitVec.ofNat 3 (b2n (o.power || o.insuff) + 2 * b2n (decide (95 < o.tj.toNat)) + 4 * b2n (decide (want < cap))))

/-- The inputs as they stood last. -/
def Pkg.thrOp (p : Pkg) : ThrOp := ⟨p.power, p.insuff, p.tj⟩

def execThrottleChange (o : ThrOp) (s : State) : Host.Outcome State Fault Refusal :=
  let n := throttleNext s.pkg o
  let t := s.updPkg (fun p => { p with thrState := n.1, thrCause := n.2, tj := o.tj, power := o.power, insuff := o.insuff })
  if n.1 = s.pkg.thrState then .next t
  else .next (t.updPkg (fun p => { p with thrCount := p.thrCount + 1 })).pkgIrq

/-- THRCAP: 5 to 7 are stored as 4 (R357). -/
def thrcapSet (val : Word64) (s : State) : State :=
  s.updPkg (fun p => { p with thrcap := BitVec.ofNat 3 (min 4 (bitsN val.toNat 2 0)) })

def execThrcapWrite (val : Word64) (s : State) : Host.Outcome State Fault Refusal := .next (thrcapSet val s)

/-! ## Power gating (R374) -/

/-- Does a core qualify: no team, and none for 65,536 cycles? -/
def gateReady (s : State) (core : Nat) : Bool :=
  let c := s.core core
  decide (core < 64) && decide (c.idleAt + 65536 ≤ s.now) && !c.gated && c.ctx.isNone &&
    !s.teams.any (fun e => e.2.onCore && decide (core ∈ e.2.cores))

/-- A gated core keeps nothing: its dirty lines have gone to the L2. -/
def execPowerGate (core : Nat) (s : State) : Host.Outcome State Fault Refusal :=
  if gateReady s core then
    let r := drainL1 s core (s.core core).fifo
    .next ((r.1.lateAt false core r.2).updCore core (fun c => { c with gated := true, gatedAt := s.now, l1 := [], ways := [], fifo := [], tlb := [] }))
  else .next s

/-! ## Bandwidth allotments (R358) -/

/-- The six fields of an allotment: demand, chain, selector, wash, fabric, host. -/
def bwFields (val : Word64) : List Nat := [5, 13, 21, 29, 37, 45].map (fun h => bitsN val.toNat h (h - 5))

def bwOk (lp : Bool) (val : Word64) : Bool :=
  let fs := bwFields val
  decide (fs.foldl (· + ·) 0 = 32) && (if lp then decide (1 ≤ fs.headD 0) else fs.all (fun f => decide (1 ≤ f)))

/-- A valid allotment waits for the next turn of its wheel; another is ignored. -/
def bwSet (off : Nat) (val : Word64) (s : State) : State :=
  let md := (off - 0x410) / 16
  let lp : Bool := decide ((off - 0x410) % 16 = 8)
  let v := val &&& 0x00003F3F3F3F3F3F
  if off < 0x410 ∨ 0x490 ≤ off ∨ off % 8 ≠ 0 ∨ !bwOk lp val then s
  else
    let m : MemDie := Map.get {} s.mds md
    { s with mds := Map.put s.mds md (if lp then { m with newLp := some v } else { m with newHbm := some v }) }

def execBwAllotmentWrite (off : Nat) (val : Word64) (s : State) : Host.Outcome State Fault Refusal := .next (bwSet off val s)

/-! ## Power-on (R369, R370, R436) -/

/-- Reset is released: every register is at its reset value, and the ROM loader starts. What the outside has yet to do stays. -/
def execPowerOn (s : State) : Host.Outcome State Fault Refusal :=
  .next { State.reset with pkg := { phase := 1 }, agenda := s.agenda, fresh := s.fresh, free := s.free }

/-- MEAS ← SHA-384(MEAS ‖ digest) (R371). -/
def measure (m d : BitVec 384) : BitVec 384 := Config.sha384 (leBytes m.toNat 48 ++ leBytes d.toNat 48)

def Pkg.setMeas (p : Pkg) (i : Nat) (x : BitVec 384) : Pkg := { p with meas := p.meas.set i x }

/-- The staging buffer's 64 MiB (R369). -/
def stagingSize : Nat := 2 ^ 26

def stageN (p : Pkg) (off n : Nat) : Nat := leNat (Map.getN 0 p.staging off n)
def imageSvn (p : Pkg) : Nat := stageN p 8 4
def imageLen (p : Pkg) : Nat := stageN p 12 4

/-- The first failing check of the staged image, 0 where all hold (R436). -/
def verifyCause (p : Pkg) (o : BootOp) : Nat :=
  if stageN p 0 8 ≠ 0x53504E4753465731 ∨ stagingSize < 0xD80 + imageLen p then 1
  else if !o.ed25519 then 2
  else if !o.mldsa then 3
  else if stageN p 0x10 48 ≠ (Config.sha384 (Map.getN 0 p.staging 0xD80 (imageLen p))).toNat then 4
  else if imageSvn p < Config.svnMin.toNat then 5
  else 0

/-- A failure enters phase 15: MEAS1 to MEAS3 are zero (R436). -/
def recovery (p : Pkg) (cause : Nat) : Pkg :=
  { p with phase := 15, cause := BitVec.ofNat 4 cause, meas := [p.meas.headD 0, 0, 0, 0] }

/-- MEAS3 takes the updates applied before READY (R371). -/
def addUpdates (p : Pkg) (ds : List (BitVec 384)) : Pkg := p.setMeas 3 (ds.foldl measure (p.meas.getD 3 0))

/-- The end of a power-on phase. -/
def bootNext (p : Pkg) (o : BootOp) : Pkg :=
  match p.phase.toNat with
  | 1 => { p.setMeas 0 (measure 0 o.romDigest) with phase := 2 }
  | 2 => if o.flashOk then { p with phase := 3, staging := Map.setN 0 [] 0 (o.image.take stagingSize) } else recovery p 1
  | 3 =>
    if verifyCause p o = 0 then
      let n := 0xD80 + imageLen p
      { p.setMeas 1 (measure 0 (Config.sha384 (Map.getN 0 p.staging 0 n))) with
        phase := 4, cause := 0, svn := BitVec.ofNat 16 (imageSvn p) }
    else recovery p (verifyCause p o)
  | 4 =>
    if p.cause = 7 then p
    else if o.trainOk then { addUpdates (p.setMeas 2 (measure 0 o.cfgDigest)) o.updates with phase := 5 }
    else { p with cause := 7 }
  | 5 => { addUpdates p o.updates with phase := 8 }
  | _ => p

/-- The PCI Express links come up in phase 5. -/
def execBootPhaseComplete (o : BootOp) (s : State) : Host.Outcome State Fault Refusal :=
  .next { s.updPkg (fun p => bootNext p o) with pcieUp := if s.pkg.phase = 5 then 3 else s.pcieUp }

/-! ## Attestation (R369, R372) -/

/-- GO starts a report, with the nonce of that moment; in phases 2 and 15 it restarts verification. -/
def attGo (s : State) : State :=
  let p := s.pkg
  if p.phase = 2 ∨ p.phase = 15 then s.updPkg (fun p => { p with phase := 3 })
  else if (p.phase = 4 ∨ p.phase = 5 ∨ p.phase = 8) ∧ !p.attGo then
    s.updPkg (fun p => { p with attGo := true, attNonce := p.nonce })
  else s

def execAttcmdGo (s : State) : Host.Outcome State Fault Refusal := .next (attGo s)

/-- What a report signs: PKGID, FABID, SVN, MEAS0 to MEAS3 and the nonce. -/
def reportBody (p : Pkg) : List Byte :=
  leBytes Config.pkgId.toNat 8 ++ leBytes p.fabid.toNat 8 ++ leBytes p.svn.toNat 8 ++ p.meas.flatMap (fun m => leBytes m.toNat 48) ++
    leBytes p.attNonce.toNat 32

def execAttestationReportReady (s : State) : Host.Outcome State Fault Refusal :=
  if s.pkg.attGo then
    let b := reportBody s.pkg
    .next (s.updPkg (fun p => { p with attGo := false, attRpt := b ++ Config.reportTail b })).pkgIrq
  else .next s

end Sys2Proof.Machine
end

