-- ==== Sys2Proof/Machine/Launch.lean ====
section
/-! DEFINITION. Kernel objects (R330), the resources of teams (R30), and the acceptance of launches (R332, R242). -/

namespace Sys2Proof.Machine

/-! ## Kernel objects -/

/-- Bits of a 256-byte object at a byte offset. -/
def kobjBits (x off hi lo : Nat) : Nat := bitsN x (8 * off + hi) (8 * off + lo)

/-- The declarations that an object of 256 bytes holds. -/
def parseKobj (i x : Nat) : Decl :=
  { kobj := i,
    entry := BitVec.ofNat 64 (kobjBits x 0 63 0),
    gw := 16 * 2 ^ kobjBits x 8 1 0,
    team := kobjBits x 8 7 2 + 1,
    regs := 16 * (kobjBits x 8 11 8 + 1),
    tiles := kobjBits x 8 15 12,
    accs := kobjBits x 8 18 16,
    cvregs := kobjBits x 8 23 19,
    nbar := kobjBits x 8 28 24,
    pair := decide (kobjBits x 8 29 29 = 1),
    coop := decide (kobjBits x 8 30 30 = 1),
    rqsc := decide (kobjBits x 8 31 31 = 1),
    idem := decide (kobjBits x 12 0 0 = 1),
    scratch := 1024 * kobjBits x 12 12 1,
    expect := kobjBits x 16 31 0,
    win := kobjBits x 20 6 0,
    caddr := (List.range 8).map (fun k => BitVec.ofNat 64 (kobjBits x (32 + 16 * k) 63 0)),
    csize := (List.range 8).map (fun k => kobjBits x (40 + 16 * k) 16 0) }

/-! ## Resources (R30) -/

/-- Groups of a team on a sequencer of its lower or upper core. -/
def seqNeed (d : Decl) (up : Bool) (q : Nat) : Nat :=
  ((List.range d.team).filter (fun g => decide (g % 4 = q) && (decide (32 ≤ g && d.pair) == up))).length

/-- Are the fields in range, and does one team fit an empty core or pair (R330, R402)? -/
def declOk (d : Decl) : Bool :=
  decide (d.entry.toNat % 8 = 0) && decide (d.entry.toNat < 2 ^ 56) && decide (d.gw ≤ 64) &&
    decide (d.team ≤ if d.pair then 64 else 32) && decide (d.tiles ≤ 8) && decide (d.accs ≤ 4) && decide (d.cvregs ≤ 16) &&
    decide (d.nbar ≤ 16) && decide (d.scratch ≤ 3 * 2 ^ 20) && decide (d.win ≤ 64) && d.csize.all (fun z => decide (z ≤ 65536)) &&
    d.caddr.all (fun a => decide (a.toNat % 64 = 0)) &&
    [0, 1, 2, 3].all (fun q => [false, true].all (fun up => decide (seqNeed d up q * d.gw * d.regs ≤ 65536)))

/-- Teams that share a core: as many as the scarcest resource allows. -/
def perCore (d : Decl) : Nat :=
  ((List.range 17).filter (fun m =>
    decide (m * d.scratch ≤ 3 * 2 ^ 20) && decide (m * d.tiles ≤ 8) && decide (m * d.accs ≤ 4) && decide (m * d.cvregs ≤ 16) &&
    decide (m * d.nbar ≤ 16) &&
    [0, 1, 2, 3].all (fun q => [false, true].all (fun up =>
      decide (m * seqNeed d up q ≤ 16) && decide (m * (seqNeed d up q * d.gw * d.regs) ≤ 65536))))).getLastD 0

/-- Dies of a mask. -/
def diesOf (m : BitVec 4) : List Nat := (List.range 4).filter (fun d => m.getLsbD d)

/-- Fittable for a die mask and, for a cooperative grid, a team count (R330). -/
def fittable (d : Decl) (mask : BitVec 4) (teams : Nat) : Bool :=
  declOk d && (!d.coop || decide (teams ≤ (diesOf mask).length * (if d.pair then 8 else 16) * perCore d))

/-! ## Acceptance (R332) -/

/-- A launch as an instruction or a window gives it. -/
structure LaunchReq where
  kobj  : Nat
  arg   : Word64
  teams : Nat
  rq    : Bool
  mask  : BitVec 4
  prio  : Nat
  queue : Nat
  dep   : Nat
  depop : Word64
  cmpl  : BitVec 2
  mbox  : BitVec 32
  deriving DecidableEq, Repr

inductive LaunchRes where
  | accepted (lid : Nat) (s : State)
  | refused (status : Nat) (s : State)
  | full
  deriving DecidableEq, Repr

/-- Has an identifier been accepted in the context (R242, R333)? -/
def lidKnown (c : Ctx) (lid : Nat) : Bool :=
  (Map.find c.grids lid).isSome || decide (BitVec.ofNat 32 lid ∈ c.doneLids) || (decide (0 < lid) && decide (lid < c.nextLid.toNat))

/-- The next identifier or sequence number, skipping 0. -/
def next32 (x : BitVec 32) : BitVec 32 := if x + 1 = 0 then 1 else x + 1

def tryLaunch (s : State) (ctx : Nat) (r : LaunchReq) : LaunchRes :=
  let c := s.ctx ctx
  if c.regs.kobjn.toNat ≤ r.kobj then .refused cOBJBOUNDS s
  else
    match vaReadHome s (bgWho ctx) (c.regs.kobjt.toNat + 256 * r.kobj) 256 with
    | .error (e, _) => .refused e.code (s.markErr e)
    | .ok (bs, t) =>
      let d := parseKobj r.kobj (leNat bs)
      if !fittable d r.mask r.teams ∨ (r.rq ∧ d.coop) then .refused cOBJRIGHTS t
      else if r.dep = 2 ∧ !lidKnown c (r.depop.toNat % 2 ^ 32) then .refused cOBJBOUNDS t
      else
        let q := Map.get [] c.queues r.queue
        if 64 ≤ q.length then .full
        else
          let lid := c.nextLid
          let g : Grid :=
            { lid := lid, decl := d, arg := r.arg, teams := r.teams, rq := r.rq, dieMask := r.mask, prio := r.prio,
              queue := r.queue, dep := r.dep, depop := r.depop, depMet := decide (r.dep = 0), cmpl := r.cmpl, mbox := r.mbox,
              accepted := t.fresh, age := t.fresh, pollAt := t.now }
          .accepted lid.toNat ({ t with fresh := t.fresh + 1 }.updCtx ctx (fun c => { c with
            nextLid := next32 lid,
            queues := Map.set [] c.queues r.queue (q ++ [lid]),
            grids := Map.put c.grids lid.toNat g }))

/-- LAUNCH (R241, R242, R332). -/
def execLaunch (o : OpLaunch) (s : State) : Host.Outcome State Fault Refusal :=
  issue (.launch o) s (fun I =>
    let r : LaunchReq :=
      { kobj := o.kobj.toNat, arg := I.rs o.sarg, teams := (I.rs o.sgrid).toNat % 2 ^ 32, rq := o.rq, mask := o.dieMask,
        prio := o.prio.toNat, queue := o.queue.toNat, dep := o.dep.toNat, depop := I.rs o.sdep, cmpl := o.cmpl, mbox := o.mbox }
    match tryLaunch I.s I.tm.ctx r with
    | .full => .wait 9 I.s0
    | .refused st t =>
      let c := newCmd I t .none (some o.stok) none []
      .ok (finishCmd c.2 c.1 (statusWord st 0) 0)
    | .accepted lid t =>
      let c := newCmd I t .none (some o.stok) none []
      .ok (finishCmd c.2 c.1 (statusWord 0 lid) 0))

end Sys2Proof.Machine
end

