-- ==== Sys2Proof/Machine/Place.lean ====
section
/-! DEFINITION. Placement: what fits where (R30, R51, R336, R352), which heads are considered (R333 to R335), the start of a
team (R331, R337, R351), starvation (R335) and the dependence words (R241, R333). -/

namespace Sys2Proof.Machine

/-! ## What fits (R30, R336) -/

/-- Is a core the upper one of a team's pair? -/
def upOn (t : Team) (core : Nat) : Bool := t.decl.pair && decide (core = t.core + 1)

/-- Teams that occupy a core. -/
def teamsOn (s : State) (core : Nat) : List Team := (s.teams.filter (fun e => e.2.onCore && decide (core ∈ e.2.cores))).map (·.2)

def sumBy {α : Type} (f : α → Nat) (l : List α) : Nat := l.foldl (fun a x => a + f x) 0

/-- Thread frames reserved on a core. -/
def framesOn (s : State) (core : Nat) : Nat := sumBy (fun t => slotsHeld t core * t.decl.gw) (teamsOn s core)

/-- Group positions that a team needs on a sequencer of its lower or upper core: those of its declaration, or more where bins have
launched more there (R30, R44). -/
def posNeed (t : Team) (up : Bool) (q : Nat) : Nat :=
  max (seqNeed t.decl up q) (t.groups.filter (fun g => (isUpper t g.1 == up) && decide (g.2.seq = q))).length

/-- Does one core (the upper one of a pair when `up`) have room for a team of the given declaration and groups? -/
def coreFits (s : State) (ctx : Nat) (d : Decl) (new : Team) (core : Nat) (up : Bool) : Bool :=
  let ts := teamsOn s core
  let room := fun (f : Decl → Nat) (cap : Nat) => decide (sumBy (fun t => f t.decl) ts + f d ≤ cap)
  ts.all (fun t => decide (t.ctx = ctx)) && (s.core core).ctx.all (fun c => decide (c = ctx)) && decide (ts.length < 16) &&
    room (·.scratch) (3 * 2 ^ 20) && room (·.tiles) 8 && room (·.accs) 4 && room (·.cvregs) 16 && room (·.nbar) 16 &&
    [0, 1, 2, 3].all (fun q =>
      decide (sumBy (fun t => posNeed t (upOn t core) q) ts + posNeed new up q ≤ 16) &&
      decide (sumBy (fun t => seqNeed t.decl (upOn t core) q * t.decl.gw * t.decl.regs) ts + seqNeed d up q * d.gw * d.regs ≤ 65536))

/-- Does a core, or the pair from it, have room? -/
def placeFits (s : State) (ctx : Nat) (new : Team) (core : Nat) : Bool :=
  let d := new.decl
  coreFits s ctx d new core false && (!d.pair || (decide (core % 2 = 0) && coreFits s ctx d new (core + 1) true))

def pairCores (d : Decl) (core : Nat) : List Nat := if d.pair then [core, core + 1] else [core]
def dieCores (die : Nat) : List Nat := (List.range 16).map (fun i => 16 * die + i)

/-- Is a place power-gated (R374)? -/
def placeGated (s : State) (d : Decl) (core : Nat) : Bool := (pairCores d core).any (fun c => (s.core c).gated)

/-- The least element by a measure, the first of equal ones. -/
def leastBy (f : Nat → Nat) : List Nat → Option Nat
  | [] => none
  | x :: xs => some (xs.foldl (fun a y => if f y < f a then y else a) x)

/-- The core for a team on a die: fewest reserved frames, lowest number (R336); `ok` narrows the choice. -/
def bestCore (s : State) (ctx : Nat) (new : Team) (die : Nat) (ok : Nat → Bool) : Option Nat :=
  leastBy (fun c => sumBy (framesOn s) (pairCores new.decl c)) ((dieCores die).filter (fun c => placeFits s ctx new c && ok c))

/-- Resident teams of a grid on a die. -/
def gridOnDie (s : State) (ctx lid die : Nat) : Nat :=
  (s.teams.filter (fun e => e.2.onCore && decide (e.2.ctx = ctx) && decide (e.2.lid.toNat = lid) && decide (e.2.die = die))).length

/-- The core for a new team of a grid: an ungated place of the die mask before a gated one (R374), the die with the fewest
teams of the grid, then the core (R336). -/
def chooseCore (s : State) (ctx lid : Nat) (g : Grid) : Option Nat :=
  let new : Team := { decl := g.decl }
  let try_ := fun (ok : Nat → Bool) =>
    match leastBy (gridOnDie s ctx lid) ((diesOf g.dieMask).filter (fun d => (bestCore s ctx new d ok).isSome)) with
    | none => none
    | some d => bestCore s ctx new d ok
  match try_ (fun c => !placeGated s g.decl c) with
  | some c => some c
  | none => try_ (fun _ => true)

/-- Room for a grid's die-shared windows: 32 MiB on each die (R51). -/
def winFits (s : State) (g : Grid) : Bool :=
  let all := s.ctxs.flatMap (fun c => c.2.grids.map (·.2))
  (diesOf g.dieMask).all (fun d =>
    decide (sumBy (fun x => if x.started && !x.finished && x.dieMask.getLsbD d then x.decl.win else 0) all + g.decl.win ≤ 128))

/-! ## The start of a team (R331, R337, R351) -/

/-- Maps a core to its virtual core: the one that names it, or the lowest unmapped one of its die (R351). Messages that wait in the
backing ring for that one arrive first (R78, R354). -/
def mapCore (s : State) (ctx core : Nat) : State × Nat :=
  let m := (s.ctx ctx).vmap
  match m.find? (fun e => decide (e.2 = core)) with
  | some e => (s, e.1)
  | none =>
    let v := ((dieCores (core / 16)).find? (fun v => (Map.find m v).isNone)).getD core
    (boxDrain (s.updCtx ctx (fun c => { c with vmap := Map.put c.vmap v core })) ctx v, v)

/-- A core takes a context's team; a gated one wakes (R336, R374). -/
def takeCore (s : State) (ctx core : Nat) : State :=
  s.updCore core (fun c => { c with
    ctx := some ctx, gated := false, bornAt := if c.gated then c.bornAt + (s.now - c.gatedAt) else c.bornAt })

/-- The lowest resident-team slot free on every core of a place. -/
def freeTslot (s : State) (cs : List Nat) : Nat :=
  let used := cs.flatMap (fun c => (teamsOn s c).map (·.tslot))
  ((List.range 16).find? (fun i => i ∉ used)).getD 0

/-- The threads of a group at team launch. -/
def startLanes (d : Decl) (gid : Nat) : Map Thread :=
  (List.range d.gw).map (fun j => (j, { pc := d.entry, tid := BitVec.ofNat 32 (gid * d.gw + j), st := .live }))

/-- A team of a grid starts on a core. -/
def startTeam (s : State) (ctx lid index core : Nat) : State :=
  let g := s.grid ctx lid
  let d := g.decl
  let cs := pairCores d core
  let a := mapCore (cs.foldl (fun u c => takeCore u ctx c) s) ctx core
  let b := if d.pair then mapCore a.1 ctx (core + 1) else a
  let k := s.fresh
  let t : Team :=
    { ctx := ctx, lid := g.lid, index := index, die := core / 16, core := core, vcore := a.2, vcore2 := b.2,
      tslot := freeTslot s cs, st := .resident, decl := d, nextTid := BitVec.ofNat 32 (d.team * d.gw), age := k }
  let u := { b.1 with teams := Map.put b.1.teams k t, fresh := k + 1 }
  u.updTeam k (fun x => { x with groups := (List.range d.team).map (fun i => (i, newGroup u k (i % 4) (startLanes d i))) })

/-- The grid with an index placed; the snapshot of memory is taken at its first team. -/
def Grid.place (g : Grid) (s : State) (i : Nat) : Grid :=
  { g with
    started := true, snap := if g.started then g.snap else s.mem, snapMeta := if g.started then g.snapMeta else s.lmeta, headAt := some s.now, starved := false,
    placed := if i ∈ g.back then g.placed else g.placed + 1, back := g.back.erase i }

/-- The L2 of each die of a grid's mask lends the lines of its window (R51). -/
def carve (s : State) (g : Grid) : State := if g.decl.win = 0 then s else (diesOf g.dieMask).foldl l2Trim s

/-- Places the next team of a grid, if one is left and fits. Before the first one, the clean copies in the caches go: what the host
had written before the launch is then visible to every thread (R123). After it, the windows have their lines (R51). -/
def placeNext (s : State) (ctx lid : Nat) : Option State :=
  let g := s.grid ctx lid
  match nextIndex g with
  | none => none
  | some i =>
    match chooseCore s ctx lid g with
    | none => none
    | some c =>
      let t := (startTeam (if g.started then s else dropClean s) ctx lid i c).updGrid ctx lid (fun g => g.place s i)
      some (if g.started then t else carve t g)

/-- Places every team left of a COOP grid, or none. -/
def placeAll : Nat → State → Nat → Nat → Option State
  | 0, s, _, _ => some s
  | f + 1, s, ctx, lid =>
    if (nextIndex (s.grid ctx lid)).isNone then some s
    else
      match placeNext s ctx lid with
      | none => none
      | some t => placeAll f t ctx lid

/-! ## Resumption: where a saved team fits (R352) -/

/-- Empty bins on a sequencer. -/
def emptyBins (s : State) (core q : Nat) : Nat := 16 - (seqBins (s.core core) q).length

/-- Enough empty bins on the core for the bins saved with a team's half. -/
def binsFit (s : State) (t : Team) (up : Bool) (core : Nat) : Bool :=
  [0, 1, 2, 3].all (fun q =>
    let mine := t.binsSaved.filter (fun b => decide (b.1 % 4 = q) && (decide (4 ≤ b.1) == up))
    decide (mine.length ≤ emptyBins s core q))

/-- A place for a saved team, the core mapped to its virtual core when there is one. A core that another virtual core of the context
names is none (R352; DESIGN CHOICE, log entry 87). -/
def resumeCore (s : State) (t : Team) : Option Nat :=
  let m := (s.ctx t.ctx).vmap
  let ok := fun (c : Nat) =>
    binsFit s t false c && (!t.decl.pair || binsFit s t true (c + 1)) &&
      (Map.find m t.vcore).all (fun p => decide (p = c)) && (!t.decl.pair || (Map.find m t.vcore2).all (fun p => decide (p = c + 1))) &&
      m.all (fun e => !(decide (e.2 = c) && decide (e.1 ≠ t.vcore)) && !(t.decl.pair && decide (e.2 = c + 1) && decide (e.1 ≠ t.vcore2)))
  match bestCore s t.ctx t t.die (fun c => ok c && !placeGated s t.decl c) with
  | some c => some c
  | none => bestCore s t.ctx t t.die ok

/-- The timers of a group go on from what remained (R350, R403), and the cycles that it must let pass before it issues again
(R196, R394). -/
def Group.shift (g : Group) (d : Nat) : Group :=
  { g with
    nextIssue := g.nextIssue + d,
    ev := g.ev.map (fun e => (e.1, if e.2.kind = .timer then { e.2 with deadline := e.2.deadline + d } else e.2)),
    waits := g.waits.map (fun w => { w with until_ := w.until_ + d }),
    lanes := g.lanes.map (fun e => (e.1, match e.2.st with
      | .parked (.waitAny l (some n)) => { e.2 with st := .parked (.waitAny l (some (n + d))) }
      | _ => e.2)) }

/-- Puts a saved bin into the lowest empty bin of its sequencer. -/
def restoreBin (core : Nat) (d k : Nat) (s : State) (b : Nat × Bin) : State :=
  let c := core + b.1 / 4
  let q := b.1 % 4
  match ((List.range 16).map (fun i => 16 * q + i)).find? (fun i => (Map.find (s.core c).bins i).isNone) with
  | none => s
  | some i =>
    s.updCore c (fun x => { x with bins := Map.put x.bins i { b.2 with team := k, first := b.2.first + d, expiry := b.2.expiry + d } })

/-- Maps the team's virtual core to a core. -/
def remap (s : State) (ctx v core : Nat) : State := (takeCore s ctx core).updCtx ctx (fun c => { c with vmap := Map.put c.vmap v core })

/-- A team's cores as accessors of memory. -/
def Team.whoOn (t : Team) (core : Nat) : Who := { core := core, die := core / 16, ctx := t.ctx, win := winSpan t }

/-- The team stands on its new cores after the acquire of R125, which is made on each of them whether groups or bins hold its threads
(R353). -/
def seatTeam (s : State) (k core : Nat) : State :=
  let t := s.team k
  let d := s.now - t.savedAt
  let a := remap s t.ctx t.vcore core
  let b := if t.decl.pair then remap a t.ctx t.vcore2 (core + 1) else a
  let u := b.updTeam k (fun x => { x with
    core := core, tslot := freeTslot b (pairCores t.decl core), st := .resident, slot := none, binsSaved := [],
    groups := x.groups.map (fun g => (g.1, g.2.shift d)) })
  let v := t.binsSaved.foldl (restoreBin core d k) u
  (pairCores t.decl core).foldl (fun w c => fenceAcq w (t.whoOn c) 2) ((liveGroups t).foldl (fun w g => acqState w ⟨k, g.1⟩ 2) v)

/-- May teams of the context be placed or resumed: it runs, and no HOLD is in progress (R361)? -/
def ctxOpen (s : State) (ctx : Nat) : Bool :=
  let c := s.ctx ctx
  decide (c.st = 1) && !(c.busy && decide (c.last = 3))

/-- Seats saved teams one after another, if each fits. -/
def seatAll : List Nat → State → Option State
  | [], s => some s
  | k :: ks, s =>
    match resumeCore s (s.team k) with
    | none => none
    | some c => seatAll ks (seatTeam s k c)

/-! ## Heads (R333 to R335) -/

/-- Is a launch's dependence met? -/
def depOk (s : State) (ctx : Nat) (g : Grid) : Bool :=
  match g.dep with
  | 0 => true
  | 1 => g.depMet
  | _ => (Map.find (s.ctx ctx).grids (g.depop.toNat % 2 ^ 32)).isNone

/-- The heads of a context's queues. -/
def ctxHeads (s : State) (ctx : Nat) : List (Nat × Nat) :=
  (s.ctx ctx).queues.filterMap (fun q => q.2.head?.map (fun l => (ctx, l.toNat)))

/-- A launch before another: priority class, then acceptance (R335). -/
def launchBefore (s : State) (a b : Nat × Nat) : Bool :=
  let x := s.grid a.1 a.2
  let y := s.grid b.1 b.2
  decide (x.prio < y.prio) || (decide (x.prio = y.prio) && decide (x.accepted < y.accepted))

def insertBy {α : Type} (lt : α → α → Bool) (x : α) : List α → List α
  | [] => [x]
  | y :: ys => if lt x y then x :: y :: ys else y :: insertBy lt x ys

def sortBy {α : Type} (lt : α → α → Bool) (l : List α) : List α := l.foldr (insertBy lt) []

/-- Saved teams of a launch, in ascending team index. -/
def savedTeams (s : State) (ctx lid : Nat) : List Nat :=
  sortBy (fun a b => decide ((s.team a).index < (s.team b).index))
    ((gridTeams s ctx lid).filter (fun k => decide ((s.team k).st = .saved)))

/-- The teams of a launch that resume next, in one action: the first that fits, a COOP grid whole (R54, R352). -/
def resumeSet (s : State) (ctx lid : Nat) : List Nat :=
  let ks := savedTeams s ctx lid
  if (s.grid ctx lid).decl.coop then
    if (gridTeams s ctx lid).all (fun k => decide ((s.team k).st = .saved) || !(s.team k).alive) ∧ (seatAll ks s).isSome then ks else []
  else (ks.find? (fun k => (resumeCore s (s.team k)).isSome)).toList

/-- The heads that the scheduler considers, in its order. -/
def heads (s : State) : List (Nat × Nat) :=
  sortBy (launchBefore s) (((s.ctxs.map (·.1)).filter (ctxOpen s)).flatMap (ctxHeads s) |>.filter (fun h => depOk s h.1 (s.grid h.1 h.2)))

/-- The team count, read from the step table for RQ = 1 when the first team is placed (R337). -/
def readTeams (s : State) (ctx lid : Nat) : State :=
  let g := s.grid ctx lid
  if g.rq ∧ !g.started then s.updGrid ctx lid (fun g => { g with teams := (s.ctx ctx).former.table.length }) else s

/-- Places one team of a head (all that are left of a COOP grid, once those that are being flushed have gone), or completes
a grid without teams. -/
def placeHead (s0 : State) (ctx lid : Nat) : Option State :=
  let s := readTeams s0 ctx lid
  let g := s.grid ctx lid
  if g.teams = 0 then
    some (completeGrid (dequeue (s.updGrid ctx lid (fun g => { g with started := true, snap := s.mem, snapMeta := s.lmeta })) ctx lid) ctx lid)
  else if !(resumeSet s ctx lid).isEmpty ∨ (!g.started ∧ !winFits s g) ∨
      (g.decl.coop ∧ (gridTeams s ctx lid).any (fun k => (s.team k).alive)) then none
  else
    let r := if g.decl.coop then placeAll (g.teams + 1) s ctx lid else placeNext s ctx lid
    r.map (fun t => leaveQueue t ctx lid)

/-- Can a launch place its next team? A saved one comes before a new one (R352). -/
def canAct (s : State) (h : Nat × Nat) : Bool := !(resumeSet s h.1 h.2).isEmpty || (placeHead s h.1 h.2).isSome

/-- The head whose turn it is: the first that can place its next team; a starved one stops the later ones (R335). -/
def turnOf (s : State) : List (Nat × Nat) → Option (Nat × Nat)
  | [] => none
  | h :: hs => if canAct s h then some h else if (s.grid h.1 h.2).starved then none else turnOf s hs

def execTeamPlacement (s : State) : Host.Outcome State Fault Refusal :=
  match turnOf s (heads s) with
  | some h => .next ((placeHead s h.1 h.2).getD s)
  | none => .next s

/-- The head of a queue. -/
def headOf (s : State) (ctx queue : Nat) : Option Nat := (Map.get [] (s.ctx ctx).queues queue).head?.map (·.toNat)

/-- Since when a launch has been head with met dependence (R335, R343). -/
def Grid.markHead (g : Grid) (now : Nat) (head : Bool) : Grid :=
  if head then { g with headAt := some (g.headAt.getD now) } else { g with headAt := none, starved := false }

/-- Every launch of a context is marked as head with met dependence, or as none. -/
def markCtx (s : State) (ctx : Nat) : State :=
  let hs := ((ctxHeads s ctx).filter (fun h => depOk s ctx (s.grid ctx h.2))).map (·.2)
  s.updCtx ctx (fun c => { c with grids := c.grids.map (fun e => (e.1, e.2.markHead s.now (decide (e.1 ∈ hs)))) })

def markHeads (s : State) : State := (s.ctxs.map (·.1)).foldl markCtx s

/-- STARVE of a context; 0 acts as 1. -/
def starveOf (s : State) (ctx : Nat) : Nat := max 1 (s.ctx ctx).regs.sched.toNat

/-- Has a head waited `n` cycles with its dependence met? -/
def waitedFor (s : State) (ctx lid n : Nat) : Bool :=
  let g := s.grid ctx lid
  depOk s ctx g && g.headAt.any (fun a => decide (a + n ≤ s.now))

/-- Has it waited more than STARVE cycles (R335)? -/
def waitedLong (s : State) (ctx lid : Nat) : Bool := waitedFor s ctx lid (starveOf s ctx + 1)

def execStarvationLimit (ctx queue : Nat) (s : State) : Host.Outcome State Fault Refusal :=
  match headOf s ctx queue with
  | none => .next s
  | some lid =>
    if waitedLong s ctx lid ∧ ctxOpen s ctx then .next (s.updGrid ctx lid (fun g => { g with starved := true })) else .next s

/-- The dependence word of a DEP = 1 head is read, at `.sys` (R241, R333); a failure ends the launch. -/
def execDepWordPoll (ctx queue : Nat) (s : State) : Host.Outcome State Fault Refusal :=
  match headOf s ctx queue with
  | none => .next s
  | some lid =>
    let g := s.grid ctx lid
    if g.dep ≠ 1 ∨ g.depMet ∨ s.now < g.pollAt then .next s
    else
      match vaReadHome s (bgWho ctx) g.depop.toNat 8 with
      | .error (e, _) => .next (completeLaunch (dequeue (s.markErr e) ctx lid) ctx lid (BitVec.ofNat 8 e.code))
      | .ok (bs, t) =>
        .next (t.updGrid ctx lid (fun g =>
          if leNat bs = 0 then { g with pollAt := s.now + 1024 } else { g with depMet := true }))

end Sys2Proof.Machine
end

