-- ==== Sys2Proof/Machine/System.lean ====
section
/-! DEFINITION. Special registers (R29, R200), control registers (R201 to R203), clocks and counters (R238, R239), and
ECALL (R240). -/

namespace Sys2Proof.Machine

/-- `%die`: the index of a die among those of the launch's mask (R29). -/
def dieIndex (mask : BitVec 4) (die : Nat) : Nat := ((diesOf mask).filter (fun d => decide (d < die))).length

/-- A special register as a lane reads it (R29, R66, R200). -/
def specialReg (s : State) (g : GRef) (l n : Nat) : Word32 :=
  let t := s.team g.team
  match n with
  | 0 => BitVec.ofNat 32 l
  | 1 => ((s.group g).lane l).tid
  | 2 => BitVec.ofNat 32 g.gid
  | 3 => BitVec.ofNat 32 t.index
  | 4 => BitVec.ofNat 32 (dieIndex (s.gridOf t).dieMask t.die)
  | 5 => t.lid
  | 6 => 64
  | 7 => BitVec.ofNat 32 t.decl.gw
  | 8 => match (if t.decl.rqsc then ((s.group g).lane l).bind else none) with
    | some (slot, _) => BitVec.ofNat 32 slot
    | none => 0xFFFFFFFF
  | 9 => BitVec.ofNat 32 (s.vcoreRef g)
  | 10 => if isUpper t g.gid then 1 else 0
  | 11 => BitVec.ofNat 32 t.ctx
  | _ => (s.ctx t.ctx).former.step

def execMovs (o : OpMovs) (s : State) : Host.Outcome State Fault Refusal :=
  issue (.movs o) s (fun I =>
    .ok (I.lanewise (fun l t => t.pendV I.due o.d.toNat (specialReg I.s I.ref l o.sr.toNat))))

/-- A control register as MOVC reads it (R201). -/
def controlReg (s : State) (g : GRef) (n : Nat) : Word64 :=
  let gp := s.group g
  let t := s.team g.team
  let c := s.ctx t.ctx
  match n with
  | 0 => gp.fpctl
  | 1 => gp.fpflags
  | 2 => gp.srseed
  | 3 => gp.fp4x
  | 4 => gp.chkctl
  | 5 => gp.trapctl
  | 6 => gp.binage.setWidth 64
  | 7 => BitVec.ofNat 64 (b2n gp.actBank + 2 * b2n c.actDef)
  | 8 => gp.evPend.setWidth 64
  | 9 => gp.evMask.setWidth 64
  | 10 => s.pkg.hotidle.setWidth 64
  | 11 => c.capHead.getD 0
  | _ => BitVec.ofNat 64 (t.ctx + 64 * b2n c.priv + 128 * b2n c.owner)

def execMovc (o : OpMovc) (s : State) : Host.Outcome State Fault Refusal :=
  issue (.movc o) s (fun I =>
    let t := latchLevels I.s I.ref
    .ok (t.updGroup I.ref (fun g => g.setS o.d.toNat (controlReg t I.ref o.cr.toNat))))

/-- A group control register written; reserved bits stay zero (R6, R201). -/
def Group.putControl (g : Group) (n : Nat) (x : Word64) : Group :=
  match n with
  | 0 => { g with fpctl := x &&& 1 }
  | 1 => { g with fpflags := x &&& 63 }
  | 2 => { g with srseed := x }
  | 3 => { g with fp4x := x &&& 0x1FF }
  | 4 => { g with chkctl := x &&& 1 }
  | 5 => { g with trapctl := x &&& 63 }
  | 6 => { g with binage := x.setWidth 16 }
  | 9 => { g with evMask := x.setWidth 16 }
  | _ => g

/-- MOVCW (R201, R203): HOTIDLE needs a privileged context. -/
def execMovcw (o : OpMovcw) (s : State) : Host.Outcome State Fault Refusal :=
  issue (.movcw o) s (fun I =>
    let x := srcX I.gp o.x
    if o.cr = 10 then
      if (I.s.ctx I.tm.ctx).priv then .ok { I.s with pkg := { I.s.pkg with hotidle := x.setWidth 16 } }
      else I.fail cILLREG 0 I.en
    else .ok (evSettle (I.s.updGroup I.ref (fun g => g.putControl o.cr.toNat x)) I.ref))

/-- The two clocks (R238). -/
def clockVal (s : State) (core : Nat) (pkg : Bool) : Word64 :=
  if pkg then BitVec.ofNat 64 (s.time / 168) else BitVec.ofNat 64 (s.now - (s.core core).bornAt)

def execClkr (o : OpClkr) (s : State) : Host.Outcome State Fault Refusal :=
  issue (.clkr o) s (fun I => .ok (I.setS o.d (clockVal I.s (coreOf I.tm I.ref.gid) o.pkg)))

/-- The performance counters (R239). -/
def perfVal (s : State) (g : GRef) (n : Nat) : Word64 :=
  let t := s.team g.team
  match n with
  | 0 => (s.group g).issueCnt
  | 1 => t.retired
  | 2 => Map.get 0 (s.ctx t.ctx).slips (4 * s.vcoreRef g + (s.group g).seq)
  | _ => (s.group g).sbwait

def execPerfr (o : OpPerfr) (s : State) : Host.Outcome State Fault Refusal :=
  issue (.perfr o) s (fun I => .ok (I.setS o.d (perfVal I.s I.ref o.n.toNat)))

/-- The first message of an ECALL (R240). -/
def ecallWord (s : State) (g : GRef) (imm : Imm16) (seq : BitVec 32) : Word64 :=
  BitVec.ofNat 64 (imm.toNat + 2 ^ 16 * (g.gid % 64) + 2 ^ 22 * (s.vcoreRef g % 64) + 2 ^ 32 * seq.toNat)

/-- The first message, unless it is placed already or the queue is full; it takes the next sequence number. -/
def ecallFirst (s : State) (g : GRef) (imm : Imm16) : State :=
  let ctx := (s.team g.team).ctx
  let c := s.ctx ctx
  if (s.group g).ecallHalf.isSome ∨ 256 ≤ c.hmq.length then s
  else
    ((s.hmqPut ctx (ecallWord s g imm c.ecallSeq)).updCtx ctx (fun c => { c with ecallSeq := next32 c.ecallSeq })).updGroup g
      (fun y => { y with ecallHalf := some c.ecallSeq })

/-- ECALL (R240): the release, then the two messages, each as soon as the queue has room for it; then the lanes park. -/
def execEcall (o : OpEcall) (s : State) : Host.Outcome State Fault Refusal :=
  issue (.ecall o) s (fun I0 => withRelease I0 4 (fun I =>
    let ctx := I.tm.ctx
    let t := ecallFirst I.s I.ref o.imm
    match (t.group I.ref).ecallHalf with
    | none => .wait 12 I.s0
    | some seq =>
      if 256 ≤ (t.ctx ctx).hmq.length then .wait 12 (ecallFirst I.s0 I.ref o.imm)
      else
        let u := (t.hmqPut ctx (I.rs o.a)).updGroup I.ref (fun g =>
          let b : Busy := ⟨t.fresh, maskOf I.en, .s, o.d.toNat⟩
          { g with busy := g.busy ++ [b], ecallHalf := none })
        .ok (parkLanes { u with fresh := u.fresh + 1 } I.ref I.en (.ecall seq o.d.toNat))))

/-- A reply reaches the lanes that wait for it (R240): the value, an acquire at `.sys`. -/
def ecallAnswer (s : State) (g : GRef) (seq : BitVec 32) (x : Word64) : State :=
  let hit := fun (w : Park) => match w with
    | .ecall q _ => decide (q = seq)
    | _ => false
  let dst := (s.group g).lanes.filterMap (fun e => match e.2.st with
    | .parked (.ecall q d) => if q = seq then some d else none
    | _ => none)
  match dst with
  | [] => s
  | d :: _ =>
    let t := s.updGroup g (fun y =>
      let z := (y.setS d x).wake hit
      { z with busy := z.busy.filter (fun (b : Busy) => !(decide (b.cls = .s) && decide (b.reg = d))) })
    acqState t g 4

end Sys2Proof.Machine
end

