-- ==== Sys2Proof/Machine/Preempt.lean ====
section
/-! DEFINITION. Pre-emption (R343 to R350) and resumption (R348, R350 to R354, R405, R438). -/

namespace Sys2Proof.Machine

/-! ## The choice of a mode (R345, R406) -/

/-- The estimate of RETIRED at completion as a fraction, if there is one. -/
def estimate (s : State) (t : Team) : Option (Nat × Nat) :=
  if t.decl.expect ≠ 0 then some (t.decl.expect, 1)
  else
    match Map.get [] (s.ctx t.ctx).history t.decl.kobj with
    | [] => none
    | l => some (sumBy (fun (x : Word64) => x.toNat) l, l.length)

def canDrain (s : State) (t : Team) : Bool :=
  let r := (s.ctx t.ctx).regs
  !r.preNodrain && match estimate s t with
    | none => false
    | some (n, k) => decide (t.retired.toNat * k < n) && decide (n < (t.retired.toNat + r.drainb.toNat * 1024) * k)

def canFlush (s : State) (t : Team) : Bool := t.decl.idem && !(s.ctx t.ctx).regs.preNoflush && !t.nonIdem

/-- The size of a team's image (R347). -/
def imageSize (d : Decl) : Nat :=
  let n := 4096 + d.team * (2048 + d.gw * (4 * d.regs + 16)) + (if d.pair then 2 else 1) * (d.scratch + 65536 * d.tiles + 393216 * d.accs)
  (n + 65535) / 65536 * 65536

def imageFits (s : State) (t : Team) : Bool :=
  let r := (s.ctx t.ctx).regs
  decide (r.saven ≠ 0) && decide (imageSize t.decl ≤ r.savesz.toNat)

/-- A refused pre-emption: the team keeps running, and one notice names it (R406). -/
def refusePreempt (s : State) (k : Nat) : State :=
  let t := s.team k
  let r : FRec := { vcore := BitVec.ofNat 6 t.vcore, tslot := BitVec.ofNat 4 t.tslot, info := 0x0100 }
  (s.updTeam k (fun t => { t with st := .resident, refused := true })).report t.ctx (.team k r)

def beginSave (s : State) (k : Nat) : State :=
  if imageFits s (s.team k) then s.updTeam k (fun t => { t with st := .saving }) else refusePreempt s k

def beginFlush (s : State) (k : Nat) : State := s.updTeam k (fun t => { t with st := .flushing })

/-- Teams of a grid on their cores that are not yet being flushed, saved or ended. -/
def gridRunning (s : State) (t : Team) : List Nat :=
  (gridTeams s t.ctx t.lid.toNat).filter (fun k => (s.team k).st.runs)

/-- Pre-empts a team; a COOP grid whole. `again`: the choice is made without DRAIN. -/
def preempt (again : Bool) (s : State) (k : Nat) : State :=
  let t := s.team k
  if !t.st.runs then s
  else if t.decl.coop then
    let ks := gridRunning s t
    if ks.all (fun j => canFlush s (s.team j)) then ks.foldl beginFlush s else ks.foldl beginSave s
  else if !again ∧ canDrain s t then
    if t.st = .resident then
      s.updTeam k (fun x => { x with st := .draining (s.now + max 1 (s.ctx t.ctx).regs.drainto.toNat * 1024) })
    else s
  else if canFlush s t then beginFlush s k
  else beginSave s k

/-- A COOP grid goes whole. -/
def wholeGrid (s : State) (k : Nat) : List Nat :=
  let t := s.team k
  if t.decl.coop then gridRunning s t else [k]

/-- Pre-empts teams, each once: one that went with its grid is not pre-empted again (R345, R406). -/
def preemptAll : List Nat → List Nat → State → State
  | [], _, s => s
  | k :: ks, done, s => if k ∈ done then preemptAll ks done s else preemptAll ks (done ++ wholeGrid s k) (preempt false s k)

/-- At the drain deadline the choice is made again without DRAIN (R346). -/
def execDrainDeadline (team : Nat) (s : State) : Host.Outcome State Fault Refusal :=
  match (s.team team).st with
  | .draining d => .next (if d ≤ s.now then preempt true s team else s)
  | _ => .next s

/-! ## Victims (R343) -/

/-- The state as it will be once teams have gone, as far as placement sees it. -/
def without (s : State) (ks : List Nat) : State :=
  let gone := s.teams.filter (fun e => decide (e.1 ∈ ks))
  (gone.flatMap (fun e => e.2.cores)).foldl leaveCore { s with teams := s.teams.filter (fun e => !decide (e.1 ∈ ks)) }

/-- Teams on their way out. -/
def leaving (s : State) : List Nat := (s.teams.filter (fun e => e.2.onCore && decide (e.2.st ≠ .resident))).map (·.1)

/-- The victims that a launch may take, in order: the youngest grid first, its highest team index first. -/
def victims (s : State) (ctx lid : Nat) : List Nat :=
  let g := s.grid ctx lid
  let ok := fun (t : Team) =>
    decide (t.st = .resident) && !t.refused && decide (t.ctx ≠ ctx) && (s.ctx t.ctx).regs.preAuto &&
      decide (g.prio < (s.gridOf t).prio) && g.dieMask.getLsbD t.die
  let young := fun (a b : Nat × Team) =>
    let x := (s.gridOf a.2).age
    let y := (s.gridOf b.2).age
    decide (y < x) || (decide (x = y) && decide (b.2.index < a.2.index))
  (sortBy young (s.teams.filter (fun e => ok e.2))).map (·.1)

/-- The shortest list of victims after which the launch places a team. -/
def enough (s : State) (ctx lid : Nat) (taken : List Nat) : List Nat → Option (List Nat)
  | [] => if canAct (without s (leaving s ++ taken)) (ctx, lid) then some taken else none
  | v :: vs =>
    if canAct (without s (leaving s ++ taken)) (ctx, lid) then some taken
    else enough s ctx lid (taken ++ wholeGrid s v) vs

/-- Pre-emption for the first head that has waited STARVE cycles and cannot place its next team. -/
def execAutoPreempt (s : State) : Host.Outcome State Fault Refusal :=
  match (heads s).find? (fun h => waitedFor s h.1 h.2 (starveOf s h.1) && !canAct s h) with
  | none => .next s
  | some h =>
    match enough s h.1 h.2 [] (victims s h.1 h.2) with
    | none => .next s
    | some ks => .next (preemptAll ks [] s)

/-! ## FLUSH-RESTART (R346) -/

/-- A launch with teams pre-empted stands in its queue again, in the order of acceptance (R343). -/
def requeue (s : State) (ctx lid : Nat) : State :=
  let g := s.grid ctx lid
  s.updCtx ctx (fun c =>
    let q := Map.get [] c.queues g.queue
    if g.lid ∈ q then c
    else
      let before := fun (a b : BitVec 32) => decide ((s.grid ctx a.toNat).accepted < (s.grid ctx b.toNat).accepted)
      { c with queues := Map.set [] c.queues g.queue (insertBy before g.lid q) })

/-- Removes a team's record and frees its cores. -/
def removeTeam (s : State) (k : Nat) : State :=
  let t := s.team k
  let u := dropBins (dropAnswers s k) k
  t.cores.foldl leaveCore { u with teams := Map.erase u.teams k }

/-- Does an operation of the team's groups still wait for its performance? -/
def teamPending (s : State) (k : Nat) : Bool :=
  storesWait (s.team k) || s.sauQ.any (fun q => q.ans.isNone && decide (q.own.team = k)) || s.fabQ.any (fun q => decide (q.own.team = k) && decide (q.kind = .redst))

/-- The team's commands end, its state goes, and it returns to its grid unplaced. -/
def execFlushRestart (team : Nat) (s : State) : Host.Outcome State Fault Refusal :=
  let t := s.team team
  if t.st ≠ .flushing then .next s
  else
    let u := withdrawAll s team goesAtEnd
    if teamBusy u team ∨ teamPending u team then .next u
    else
      let v := (removeTeam u team).updGrid t.ctx t.lid.toNat (fun g => { g with back := insertBy (fun a b => decide (a < b)) t.index g.back })
      let w := { v with fabQ := v.fabQ.filter (fun q => !(decide (q.own.team = team) && decide (q.kind = .sync))) }
      .next (requeue w t.ctx t.lid.toNat)

/-! ## SAVE (R347, R350) -/

/-- Must the save wait for a command: one at its engine, save KVPF between fills and COLL? -/
def savesAfter (c : Cmd) : Bool :=
  match c.instr with
  | .kvpf _ => c.pf.busyH.isSome
  | .coll _ => false
  | _ => decide (c.st = .running) || decide (c.st = .queued)

/-- The lowest free image slot of a context. -/
def freeImage (s : State) (ctx : Nat) : Option Nat :=
  let used := (s.teams.filter (fun e => decide (e.2.ctx = ctx) && decide (e.2.st = .saved))).filterMap (fun e => e.2.slot)
  (List.range (s.ctx ctx).regs.saven.toNat).find? (fun i => i ∉ used)

/-- May the image be written? -/
def saveReady (s : State) (k : Nat) : Bool :=
  let t := s.team k
  !s.cmds.any (fun c => decide (c.own.team = k) && savesAfter c) && !teamPending s k &&
    t.groups.all (fun g => g.2.loads.all (·.split))

/-- `n` bytes of free values: the manual gives an image no layout (log entry 20). -/
def imageBytes (s : State) (n : Nat) : List Byte :=
  (List.range (n / 8)).flatMap (fun i => leBytes (Config.freeWord (s.free + i)).toNat 8)

/-- A part of an image at its home: whole lines, stored raw, their poison cleared, their cached copies dropped. -/
def putImage (s : State) (pa n : Nat) : State :=
  let t := dropEverywhere s pa n
  { t with
    mem := Map.splice Memory.zero t.mem pa (imageBytes s n),
    lmeta := Map.clear t.lmeta (lineOf pa) (lineOf (pa + n)),
    poison := t.poison.filter (fun q => decide (q / 4 < lineOf pa ∨ lineOf (pa + n) ≤ q / 4)),
    free := t.free + n / 8 }

/-- The image slot's bytes after a save (R347); a block that does not translate stays unwritten (log entry 20). -/
def writeImage (s : State) (ctx slot n : Nat) : State :=
  let r := (s.ctx ctx).regs
  (pieceList 65536 (r.savebase.toNat + slot * r.savesz.toNat) n).foldl (fun u p =>
    match xlate u (bgWho ctx) p.1 .write false with
    | .error _ => u
    | .ok (lf, v) => putImage v lf.pa p.2) s

/-- The release at `.die` that a save makes on a core, whether groups or bins hold the team's threads there (R125); failures that no
group's drain has met stay with the core (R419). -/
def coreRel (t : Team) (s : State) (core : Nat) : State :=
  let r := fenceRel s (t.whoOn core) 2
  r.1.lateAt false core r.2

/-- The image is written to a slot and the team's resources are freed: its record becomes the image. -/
def saveTeam (s : State) (k slot : Nat) : State :=
  let t := s.team k
  let r := t.cores.foldl (coreRel t) ((liveGroups t).foldl (fun u g => relState u ⟨k, g.1⟩ 2) s)
  let bins := (binsOf r k).map (fun b => (4 * (b.1 - t.core) + b.2.1 / 16, b.2.2))
  let u := (dropBins (writeImage r t.ctx slot (imageSize t.decl)) k).updTeam k (fun t => { t with st := .saved, slot := some slot, binsSaved := bins, savedAt := s.now })
  requeue (t.cores.foldl leaveCore u) t.ctx t.lid.toNat

def execTeamSave (team : Nat) (s : State) : Host.Outcome State Fault Refusal :=
  if (s.team team).st = .saving ∧ saveReady s team then
    match freeImage s (s.team team).ctx with
    | some i => .next (saveTeam s team i)
    | none => .next s
  else .next s

/-! ## Resumption (R348, R352 to R354) -/

/-- Is a ring entry for this team, or for a virtual core that is mapped now? -/
def ringMine (s : State) (t : Team) (e : RingEnt) : Bool :=
  if e.kind = 2 then vMapped s t.ctx e.vcore else decide (e.lid = t.lid) && decide (e.team = t.index)

/-- Delivers an entry as if it had just arrived (R354). A message beyond a full mailbox waits for room. -/
def ringDeliver (k : Nat) (s : State) (e : RingEnt) : State :=
  let t := s.team k
  let g : GRef := ⟨k, e.gid⟩
  match e.kind with
  | 1 => if (s.group g).live then swLatch s g (BitVec.ofNat 8 e.arg.toNat) e.word e.scope else s
  | 2 => boxArrive s t.ctx e.vcore e.obj ⟨e.word, e.scope⟩
  | _ => s.updGroup g (fun x => (x.setS e.obj e.word).freshTok e.obj (fun p => decide (p.1 ≠ e.obj)))

/-- The team's entries leave the ring and are delivered in its order; messages that wait for room go before those that have not
arrived yet (R78). -/
def drainRing (s : State) (k : Nat) : State :=
  let t := s.team k
  let es := (s.ctx t.ctx).ring.filter (ringMine s t)
  let u := s.updCtx t.ctx (fun c => { c with ring := c.ring.filter (fun e => !ringMine s t e) })
  let v := es.foldl (ringDeliver k) u
  { v with sends := v.sends.drop s.sends.length ++ s.sends }

/-- ECALL replies that came while the team was saved (R240, R348). -/
def drainReplies (s : State) (k : Nat) : State :=
  let t := s.team k
  (s.ctx t.ctx).replies.foldl (fun u p =>
    let v := (liveGroups (u.team k)).foldl (fun w g => ecallAnswer w ⟨k, g.1⟩ p.1 p.2) u
    if v = u then u else v.updCtx t.ctx (fun c => { c with replies := c.replies.filter (fun (q : BitVec 32 × Word64) => decide (q ≠ p)) })) s

/-- A parked fault at resumption: a stored disposition, or the replay of a recoverable one (R348, R405, R438). -/
def resumeFault (s : State) (g : GRef) : State :=
  match (s.group g).fault with
  | none => s
  | some h =>
    match h.disp with
    | some d => disposeGroup s g h d
    | none => if h.frec.replay then disposeGroup s g h 1 else s

/-- A suspended command at resumption (R415). -/
def resumeCmd (s : State) (c : Cmd) : State :=
  match c.held with
  | none => s
  | some h =>
    match h.disp with
    | some d => disposeCmd s c d
    | none => if h.frec.code.toNat = cPGNP then disposeCmd s c 1 else s

/-- A saved team resumes on the core that fits it. -/
def resumeTeam (s : State) (k : Nat) : State :=
  match resumeCore s (s.team k) with
  | none => s
  | some core =>
    let a := drainReplies (drainRing (seatTeam s k core) k) k
    let b := (a.cmds.filter (fun c => decide (c.own.team = k) && decide (c.st = .suspended))).foldl resumeCmd a
    (liveGroups (b.team k)).foldl (fun u g => resumeFault u ⟨k, g.1⟩) b

/-- A team resumes in its launch's turn (R335, R352), a COOP grid whole (R54). -/
def execTeamResume (team : Nat) (s : State) : Host.Outcome State Fault Refusal :=
  let ctx := (s.team team).ctx
  let lid := (s.team team).lid.toNat
  let ks := resumeSet s ctx lid
  if turnOf s (heads s) = some (ctx, lid) ∧ team ∈ ks then
    .next (leaveQueue ((ks.foldl resumeTeam s).updGrid ctx lid (fun g => { g with headAt := some s.now, starved := false })) ctx lid)
  else .next s

end Sys2Proof.Machine
end

