-- ==== Sys2Proof/Machine/Hosts.lean ====
section
/-! DEFINITION. What a host does: context commands (R361, R364, R430), registers (R357 to R360), launch windows, mailboxes and replies
(R362, R363), memory through W2 (R365), and the loss of its link (R435). -/

namespace Sys2Proof.Machine

/-! ## Context commands (R361) -/

/-- Is a command accepted: the package ready, not BUSY, a STATE that accepts it, from the owning port? -/
def cmdOk (s : State) (o : CtxOp) (states : List (BitVec 2)) (anyPort : Bool) : Bool :=
  let c := s.ctx o.ctx
  decide (s.pkg.phase = 8) && decide (o.ctx < 64) && decide (o.port < 2) && !c.busy && decide (c.st ∈ states) &&
    (anyPort || decide (o.port = b2n c.owner))

/-- An accepted command sets BUSY, LAST and LASTPORT. -/
def cmdTaken (s : State) (o : CtxOp) (cmd : Nat) : State :=
  s.updCtx o.ctx (fun c => { c with
    busy := true, last := BitVec.ofNat 4 cmd, lastPort := decide (o.port = 1), regs := { c.regs with ctxcmd := BitVec.ofNat 5 cmd } })

/-- The state of a context in which nothing has happened: its registers and its assignment stay. -/
def freshCtx (c : Ctx) : Ctx :=
  { regs := c.regs, fn := c.fn, lostTo := c.lostTo, owner := c.owner, priv := c.priv, busy := c.busy, last := c.last, lastPort := c.lastPort, lwin := c.lwin,
    lstat := c.lstat }

/-- Activation bank 0 takes the image at ACTIMG (R249); one that cannot be read leaves it unloaded. -/
def loadAct (s : State) (ctx : Nat) : State :=
  match vaReadHome s (bgWho ctx) (s.ctx ctx).regs.actimg.toNat 8192 with
  | .error (e, _) => s.markErr e
  | .ok (bs, t) => t.updCtx ctx (fun c => { c with actMem := Map.setN 0 c.actMem 0 bs, actInit := c.actInit ||| 1 })

/-- CREATE; its request table is written by the time it completes. The capability list is mapped (R342). -/
def createWrite (o : CtxOp) (priv : Bool) (s : State) : State :=
  if cmdOk s o [0] false then
    let t := (cmdTaken s o (1 + 16 * b2n priv)).updCtx o.ctx (fun c =>
      { freshCtx c with priv := priv, former := { freepg := c.regs.kvhn }, capHead := some (Config.capHead o.ctx) })
    loadAct (t.setMem capRegion capListBytes) o.ctx
  else s

/-- Everything in flight for a context goes. -/
def dropFlight (s : State) (ctx : Nat) : State :=
  let ks := (s.teams.filter (fun e => decide (e.2.ctx = ctx))).map (·.1)
  let ids := (s.cmds.filter (fun c => decide (c.ctx = ctx))).map (·.id)
  let a := ks.foldl removeTeam s
  { a with
    cmds := a.cmds.filter (fun c => decide (c.ctx ≠ ctx)),
    sauQ := a.sauQ.filter (fun q => !decide (q.own.team ∈ ks)),
    fabQ := a.fabQ.filter (fun q => decide (q.ctx ≠ ctx)),
    swQ := a.swQ.filter (fun q => decide (q.ctx ≠ ctx)),
    sends := a.sends.filter (fun m => decide (m.ctx ≠ ctx)),
    retired := a.retired.filter (fun r => decide (r.ctx ≠ ctx)),
    late := a.late.filter (fun f => decide (f.ctx ≠ ctx)),
    cores := a.cores.map (fun c => (c.1, { c.2 with
      matrix := c.2.matrix.filter (fun i => i ∉ ids),
      array := c.2.array.filter (fun i => i ∉ ids) })) }

/-- The windows of a context's grids are discarded (R52). -/
def dropWindows (s : State) (ctx : Nat) : State :=
  let lo := winRegion + ctx * 2 ^ 32 * 4 * 2 ^ 24
  let hi := winRegion + (ctx + 1) * 2 ^ 32 * 4 * 2 ^ 24
  let t := s.cores.foldl (fun u c => l1DropBytes u c.1 lo (hi - lo)) s
  { t with mem := Map.clear t.mem lo hi }

def destroyWrite (o : CtxOp) (s : State) : State :=
  if cmdOk s o [1, 2] false then
    let t := dropWindows (dropFabIn (dropFlight (cmdTaken s o 2) o.ctx) o.ctx) o.ctx
    t.updCtx o.ctx (fun c => { freshCtx c with st := 0 })
  else s

/-- The resident teams of a context. -/
def residents (s : State) (ctx : Nat) : List Nat := (s.teams.filter (fun e => e.2.onCore && decide (e.2.ctx = ctx))).map (·.1)

def holdWrite (o : CtxOp) (s : State) : State :=
  if cmdOk s o [1] false then preemptAll (residents s o.ctx) [] (cmdTaken s o 3) else s

def resumeWrite (o : CtxOp) (s : State) : State :=
  if cmdOk s o [2] false then fqRetry ((cmdTaken s o 4).updCtx o.ctx (fun c => { c with st := 1 })) o.ctx else s

/-- Does INVAL's operand name the page of a TLB entry (R361)? -/
def invalHits (arg : Nat) (ctx : Nat) (e : TlbE) : Bool :=
  let sh := [16, 21, 29].getD (arg % 4) 16
  let w := max sh (lvlShift e.lvl)
  decide (e.ctx = ctx) && (decide (arg = 2 ^ 64 - 1) || decide (e.vpn * 2 ^ lvlShift e.lvl / 2 ^ w = bitsN arg 55 16 * 2 ^ 16 / 2 ^ w))

def invalTlbs (s : State) (ctx arg : Nat) : State :=
  { s with
    cores := s.cores.map (fun c => (c.1, { c.2 with tlb := c.2.tlb.filter (fun e => !invalHits arg ctx e) })),
    dies := s.dies.map (fun d => (d.1, { d.2 with tlb := d.2.tlb.filter (fun e => !invalHits arg ctx e) })) }

def invalWrite (o : CtxOp) (s : State) : State :=
  let arg := (s.ctx o.ctx).regs.ctxarg.toNat
  if cmdOk s o [1, 2] false ∧ (arg = 2 ^ 64 - 1 ∨ arg % 4 ≠ 3) then
    fqRetry (invalTlbs (cmdTaken s o 5) o.ctx arg) o.ctx
  else s

/-! ## Ownership (R364) -/

/-- A takeover takes effect: the owner changes. The port that loses the context keeps its place in the function (`fnCtxs`), and what it
does there from now on has no effect. -/
def takeOver (s : State) (ctx : Nat) : State :=
  match (s.ctx ctx).takeover with
  | none => s
  | some (p, _) => s.updCtx ctx (fun c => { c with owner := p, lostTo := c.lostTo || decide (c.owner ≠ p), takeover := none })

/-- TAKEOVER, from either port; at once if the owner's link is down. -/
def takeoverWrite (o : CtxOp) (s : State) : State :=
  if cmdOk s o [0, 1, 2] true then
    let c := s.ctx o.ctx
    let us := if c.regs.ctxarg = 0 then 100000 else c.regs.ctxarg.toNat
    let t := (cmdTaken s o 6).updCtx o.ctx (fun x => { x with takeover := some (decide (o.port = 1), s.time + us * 168000) })
    if s.pcieUp.getLsbD (b2n c.owner) then
      (let u := t.irq c.owner 0 0
       if c.fn = 0 then u else u.irq c.owner c.fn 0)
    else takeOver t o.ctx
  else s

/-- DENY by the owner ends a takeover in progress, whose BUSY does not stand against it; without one it does nothing. -/
def denyWrite (o : CtxOp) (s : State) : State :=
  let c := s.ctx o.ctx
  if s.pkg.phase = 8 ∧ o.ctx < 64 ∧ o.port = b2n c.owner ∧ (c.takeover.isSome ∨ !c.busy) then
    (cmdTaken s o 7).updCtx o.ctx (fun x => { x with takeover := none })
  else s

def execTakeoverTimeout (ctx : Nat) (s : State) : Host.Outcome State Fault Refusal :=
  match (s.ctx ctx).takeover with
  | none => .next s
  | some (_, t) => .next (if t ≤ s.time then takeOver s ctx else s)

/-- A host link goes down: its interrupts are not sent, and takeovers from the other port take effect (R435). -/
def execPcieLinkDown (port : Nat) (s : State) : Host.Outcome State Fault Refusal :=
  if 2 ≤ port then .next s
  else
    let t := { s with pcieUp := s.pcieUp &&& ~~~(1#2 <<< port) }
    let hit := (s.ctxs.filter (fun c => decide (b2n c.2.owner = port) && c.2.takeover.any (fun p => decide (b2n p.1 ≠ port)))).map (·.1)
    .next (hit.foldl takeOver t)

/-! ## Polyptych (R430) -/

/-- LOSE: every LIVE page of TIER 0 receives the loss, and no block of this member counts as sealed here. -/
def loseWrite (o : CtxOp) (s : State) : State :=
  if cmdOk s o [2] false then
    let t := kBackground o.ctx (do
      let ds ← kDescs o.ctx
      for p in ds do
        if dLive p.2 && decide (dTier p.2 = 0) then
          kDescPut o.ctx p.1 (recSet p.2 8 4 3 2)
          kUpdCtx o.ctx (fun x => { x with lostWith := x.lostWith ++ [p.1] })) (cmdTaken s o 8)
    t.updCtx o.ctx (fun c => { c with parSealed := [], parIn := [], parOut := [], parSent := [], parAsked := [] })
  else s

/-- A predella's stripe and mask are zeroed. -/
def zeroStripe (ctx : Nat) (s : State) (b : Nat) : State :=
  let c := s.ctx ctx
  let r := formerWrite s ctx (stripeVa c b) (List.replicate (2 ^ 18) 0)
  (formerWrite r.1 ctx (maskVa c b) [0]).1

/-- The stripes of a predella are zero at its creation (R176). No register says how many its members use: the model zeroes as many as
the predella's own HBM pool has blocks (log entry 88). -/
def zeroStripes (s : State) (ctx : Nat) : State :=
  if (s.ctx ctx).regs.kvpolyPos = 8 then (List.range (blockCount (s.ctx ctx))).foldl (zeroStripe ctx) s else s

/-- RESEAL: on a predella stripes and masks are zeroed; on a member its quiet blocks are sent again, in ascending order. -/
def resealWrite (o : CtxOp) (s : State) : State :=
  if cmdOk s o [1, 2] false then
    let t := cmdTaken s o 9
    let c := s.ctx o.ctx
    let bs := List.range (blockCount c)
    if c.regs.kvpolyPos = 8 then (zeroStripes t o.ctx).updCtx o.ctx (fun c => { c with parBad := [], parServe := [] })
    else
      let u := t.updCtx o.ctx (fun c => { c with parSealed := [], parIn := [], parOut := [], parSent := [] })
      bs.foldl (fun v b => match execParityContribution o.ctx b v with
        | .next w => w
        | .fault _ => v
        | .refused _ => v) u
  else s

/-! ## Commands as host writes (R124) -/

/-- A write of CTXCMD as it takes effect; a reserved command is ignored. -/
def cmdWrite (o : CtxOp) (cmd : Nat) (s : State) : State :=
  match cmd % 16 with
  | 1 => createWrite o (bitN cmd 4) s
  | 2 => destroyWrite o s
  | 3 => holdWrite o s
  | 4 => resumeWrite o s
  | 5 => invalWrite o s
  | 6 => takeoverWrite o s
  | 7 => denyWrite o s
  | 8 => loseWrite o s
  | 9 => resealWrite o s
  | _ => s

/-- A host writes CTXCMD, in the order of its port's writes (R124). -/
def ctxCommand (o : CtxOp) (cmd : Nat) (s : State) : Host.Outcome State Fault Refusal := hostIn s (.cmd o cmd) (cmdWrite o cmd)

def execCreate (o : CtxOp) (priv : Bool) (s : State) : Host.Outcome State Fault Refusal := ctxCommand o (1 + 16 * b2n priv) s
def execDestroy (o : CtxOp) (s : State) : Host.Outcome State Fault Refusal := ctxCommand o 2 s
def execHold (o : CtxOp) (s : State) : Host.Outcome State Fault Refusal := ctxCommand o 3 s
def execResume (o : CtxOp) (s : State) : Host.Outcome State Fault Refusal := ctxCommand o 4 s
def execInval (o : CtxOp) (s : State) : Host.Outcome State Fault Refusal := ctxCommand o 5 s
def execTakeover (o : CtxOp) (s : State) : Host.Outcome State Fault Refusal := ctxCommand o 6 s
def execDeny (o : CtxOp) (s : State) : Host.Outcome State Fault Refusal := ctxCommand o 7 s
def execLose (o : CtxOp) (s : State) : Host.Outcome State Fault Refusal := ctxCommand o 8 s
def execReseal (o : CtxOp) (s : State) : Host.Outcome State Fault Refusal := ctxCommand o 9 s

/-! ## Completion of commands -/

/-- A FREE record, as RQRETIRE leaves it (R310). -/
def freeRecord (i : Nat) : Nat := recSet (Rq.setSlot i 0xFFFF) 0x40 31 0 0xFFFFFFFF

/-- The request table as CREATE writes it; the first failure ends it (R361). -/
def writeTable (ctx : Nat) : List Nat → State → State × Option (MErr × Nat)
  | [], s => (s, none)
  | i :: is, s =>
    let r := rqWrite s ctx i (freeRecord i)
    match r.2 with
    | some e => (r.1, some e)
    | none => writeTable ctx is r.1

def cmdDone (s : State) (ctx : Nat) (st : BitVec 2) : State := s.updCtx ctx (fun c => { c with busy := false, st := st })

/-- A context command's work finishes and BUSY clears (R361). -/
def execCtxcmdCompletion (ctx : Nat) (s : State) : Host.Outcome State Fault Refusal :=
  let c := s.ctx ctx
  if !c.busy then .next s
  else
    match c.last.toNat with
    | 1 =>
      let r := writeTable ctx (List.range 8192) s
      match r.2 with
      | none => .next (cmdDone (zeroStripes r.1 ctx) ctx 1)
      | some (e, a) => .next (cmdDone (r.1.devRecord ctx e.code (devInfo e) a) ctx 0)
    | 3 => if (residents s ctx).isEmpty then .next (cmdDone s ctx 2) else .next s
    | 6 => if c.takeover.isNone then .next (cmdDone s ctx c.st) else .next s
    | 9 => if c.parIn.isEmpty then .next (cmdDone s ctx c.st) else .next s
    | _ => .next (cmdDone s ctx c.st)

/-! ## Registers (R150, R286, R329, R357 to R360, R428) -/

/-- A context register by its offset; reserved bits ignore writes (R6, R359). -/
def CtxRegs.put (r : CtxRegs) (off : Nat) (v : Word64) : CtxRegs :=
  match off with
  | 0x018 => { r with ptroot := v &&& 0x1FFFFFFF7800 }
  | 0x020 => { r with rqtab := v }
  | 0x028 => { r with expbase := v }
  | 0x030 => { r with expsize := v.setWidth 45 }
  | 0x038 => { r with jointag := v.setWidth 32 }
  | 0x040 => { r with fqbase := v }
  | 0x048 => { r with fqn := v.setWidth 32 }
  | 0x050 => { r with w2base := v &&& 0xFFFFFFFFFFFF0000 }
  | 0x100 => { r with kvpt := v }
  | 0x108 => { r with kvptn := v.setWidth 32 }
  | 0x110 => { r with kvslot := v.setWidth 32 }
  | 0x118 => { r with kvhpool := v }
  | 0x120 => { r with kvhn := v.setWidth 32 }
  | 0x128 => { r with kvlpool := v }
  | 0x130 => { r with kvln := v.setWidth 32 }
  | 0x138 => { r with kvsk := v }
  | 0x140 => { r with kvsksz := v.setWidth 32 }
  | 0x148 => { r with kvwpol := v }
  | 0x150 => { r with kvpolyPos := v.setWidth 4, kvpolyPred := (v >>> 4).setWidth 10 }
  | 0x158 => { r with kvpar := v }
  | 0x160 => { r with kvparm := v }
  | 0x180 => { r with objt := v }
  | 0x188 => { r with objn := v.setWidth 16 }
  | 0x190 => { r with objbl := v }
  | 0x198 => { r with objbln := v.setWidth 20 }
  | 0x1C0 => { r with kobjt := v }
  | 0x1C8 => { r with kobjn := v.setWidth 16 }
  | 0x1D0 => { r with savebase := v }
  | 0x1D8 => { r with savesz := v.setWidth 32 }
  | 0x1E0 => { r with saven := v.setWidth 16 }
  | 0x1E8 => { r with evbase := v }
  | 0x1F0 => { r with evn := v.setWidth 32 }
  | 0x1F8 => { r with actimg := v }
  | 0x200 => { r with defbin := v.setWidth 16 }
  | 0x208 => { r with sched := v.setWidth 32 }
  | 0x210 =>
    { r with preAuto := v.getLsbD 0, preNoflush := v.getLsbD 1, preNodrain := v.getLsbD 2, drainb := (v >>> 16).setWidth 16,
             drainto := (v >>> 32).setWidth 16 }
  | _ => r

/-- A write of the context block: CTXARG always, the others while STATE is NONE or HELD (R359). -/
def ctxWrite (s : State) (ctx off : Nat) (v : Word64) : State :=
  let c := s.ctx ctx
  if off = 0x008 then s.updCtx ctx (fun c => { c with regs := { c.regs with ctxarg := v } })
  else if c.st = 0 ∨ c.st = 2 then s.updCtx ctx (fun c => { c with regs := c.regs.put off v })
  else s

/-- 64 bits of the nonce. -/
def nonceWrite (x : BitVec 256) (i : Nat) (v : Word64) : BitVec 256 :=
  (x &&& ~~~((v.setWidth 256 ||| 0xFFFFFFFFFFFFFFFF) <<< (64 * i))) ||| (v.setWidth 256 <<< (64 * i))

/-- A write of the package block (R357, R431); THRCAP, ATTCMD and the allotments as the table's own rows of them write it. -/
def pkgWrite (s : State) (off : Nat) (v : Word64) : State :=
  if off = 0x008 then
    if s.ctxs.all (fun c => decide (c.2.st = 0)) then s.updPkg (fun p => { p with fabid := v.setWidth 10 }) else s
  else if off = 0x018 then thrcapSet v s
  else if off = 0x220 then (if v.getLsbD 0 then attGo s else s)
  else if 0x410 ≤ off ∧ off < 0x490 then bwSet off v s
  else if off = 0x400 then s.updPkg (fun p => { p with fabwt := v.setWidth 32 })
  else if off = 0x520 then s.updPkg (fun p => { p with fabtmo := v.setWidth 32 })
  else if 0x200 ≤ off ∧ off < 0x220 ∧ off % 8 = 0 then s.updPkg (fun p => { p with nonce := nonceWrite p.nonce ((off - 0x200) / 8) v })
  else s

/-- A write of a W1 register without an effect of its own: a launch window's words, REPSEQ (R362). -/
def w1Write (s : State) (ctx off : Nat) (v : Word64) : State :=
  if off < 0x200 ∧ off % 8 = 0 ∧ off % 64 ≤ 0x20 then
    s.updCtx ctx (fun c => { c with lwin := Map.set 0 c.lwin (off / 8) v })
  else if off = 0x400 then s.updCtx ctx (fun c => { c with repseq := v.setWidth 32 })
  else s

/-- The contexts of the same function of the other port, which a port must reach to take one over (R364): their blocks follow those of
its own in W0 (log entry 89). -/
def otherCtxs (s : State) (port fn : Nat) : List Nat :=
  (List.range 64).filter (fun c => decide ((s.ctx c).fn = fn) && decide (b2n (s.ctx c).owner ≠ port) && decide (c ∉ fnCtxs s port fn))

/-- The context whose block or region an access of W0 or W1 reaches, by its place k among the function's contexts, and the
offset in it (R356). -/
def regCtx (s : State) (o : RegOp) : Option Nat :=
  if o.win = 0 then (fnCtxs s o.port o.fn ++ otherCtxs s o.port o.fn)[(o.off - 0x10000) / 4096]?
  else (fnCtxs s o.port o.fn)[o.off / 65536]?
def regOff (o : RegOp) : Nat := if o.win = 0 then o.off % 4096 else o.off % 65536

/-- A register write as it takes effect. The package block is the PF's; a function reaches the blocks and regions of its own contexts
(R356). Through a port that does not own the context W1 is discarded (R364), and W0 writes CTXARG alone (log entry 89). -/
def regWrite (o : RegOp) (val : Word64) (s : State) : State :=
  if o.win = 0 ∧ o.off < 0x10000 then (if o.fn = 0 then pkgWrite s o.off val else s)
  else if s.pkg.phase ≠ 8 then s
  else
    match regCtx s o with
    | none => s
    | some c =>
      let own : Bool := decide (o.port = b2n (s.ctx c).owner)
      if o.win = 0 then (if own ∨ regOff o = 0x008 then ctxWrite s c (regOff o) val else s)
      else if own then w1Write s c (regOff o) val
      else s

/-- A register write through W0 or W1, in the order of its port's writes (R124). -/
def execRegisterWrite (h : HostFn) (win off : Nat) (val : Word64) (s : State) : Host.Outcome State Fault Refusal :=
  let o : RegOp := ⟨h.port, h.fn, win, off⟩
  if 2 ≤ o.port then .next s else hostIn s (.reg o val) (regWrite o val)

/-! ## W1 (R362, R363) -/

/-- Does a window's launch have a malformed word? -/
def windowBad (w : Nat → Nat) : Bool :=
  decide (bitsN (w 0) 22 19 = 0) || decide (bitsN (w 0) 24 23 = 3) || decide (bitsN (w 0) 63 27 ≠ 0) || decide (bitsN (w 2) 63 32 ≠ 0) ||
    decide (bitsN (w 4) 63 32 ≠ 0) || (bitN (w 0) 26 && badName (bitsN (w 4) 31 0))

/-- The launch that a window's words make. -/
def windowReq (q : Nat) (w : Nat → Nat) : LaunchReq :=
  { kobj := bitsN (w 0) 15 0, arg := BitVec.ofNat 64 (w 1), teams := bitsN (w 2) 31 0, rq := bitN (w 0) 18,
    mask := BitVec.ofNat 4 (bitsN (w 0) 22 19), prio := bitsN (w 0) 17 16, queue := q, dep := bitsN (w 0) 24 23,
    depop := BitVec.ofNat 64 (w 3), cmpl := BitVec.ofNat 2 (bitsN (w 0) 26 25), mbox := BitVec.ofNat 32 (w 4) }

def setLstat (s : State) (ctx q : Nat) (x : Word64) : State := s.updCtx ctx (fun c => { c with lstat := Map.set 0 c.lstat q x })

def goWrite (o : CtxOp) (queue : Nat) (s : State) : State :=
  let c := s.ctx o.ctx
  let w := fun (i : Nat) => (Map.get 0 c.lwin (queue * 8 + i)).toNat
  if !w1Owned s o.port o.ctx ∨ 8 ≤ queue then s
  else if c.st = 0 then setLstat s o.ctx queue 0x1B
  else if windowBad w then setLstat s o.ctx queue 0x02
  else
    match tryLaunch s o.ctx (windowReq queue w) with
    | .full => setLstat s o.ctx queue 0xFF
    | .refused st t => setLstat t o.ctx queue (BitVec.ofNat 64 st)
    | .accepted lid t => setLstat t o.ctx queue (statusWord 0 lid)

def execLaunchWindowGo (o : CtxOp) (queue : Nat) (s : State) : Host.Outcome State Fault Refusal :=
  hostIn s (.go o queue) (goWrite o queue)

/-- A read of HMQ takes the oldest message; an empty queue reads 0, and a port that is not the owner's reads ones (R362, R364). -/
def execHmqRead (o : CtxOp) (s : State) : Host.Outcome State Fault Refusal :=
  let out := fun (t : State) (x : Word64) => ({ t with hostRd := .bytes (leBytes x.toNat 8) } : State)
  let c := s.ctx o.ctx
  if s.pkg.phase ≠ 8 ∨ 64 ≤ o.ctx then .next s
  else if o.port ≠ b2n c.owner then .next (out s (BitVec.allOnes 64))
  else
    match c.hmq with
    | [] => .next (out s 0)
    | x :: xs => .next (out (s.updCtx o.ctx (fun c => { c with hmq := xs })) x)

/-- Does a lane of a group wait for a reply? -/
def awaits (g : Group) (seq : BitVec 32) : Bool :=
  g.anyParked (fun w => match w with
    | .ecall q _ => decide (q = seq)
    | _ => false)

/-- REPVAL delivers the reply to the ECALL that waits for it; while its team is saved the reply is kept (R240, R363). -/
def replyWrite (o : CtxOp) (val : Word64) (s : State) : State :=
  let seq := (s.ctx o.ctx).repseq
  if !w1Owned s o.port o.ctx then s
  else
    let hit := (s.teams.filter (fun e => decide (e.2.ctx = o.ctx) && e.2.alive)).findSome? (fun e =>
      ((liveGroups e.2).find? (fun g => awaits g.2 seq)).map (fun g => (⟨e.1, g.1⟩ : GRef)))
    match hit with
    | none => s
    | some g =>
      if (s.team g.team).st.runs then ecallAnswer s g seq val
      else s.updCtx o.ctx (fun c => { c with replies := c.replies ++ [(seq, val)] })

def execEcallReply (o : CtxOp) (val : Word64) (s : State) : Host.Outcome State Fault Refusal :=
  hostIn s (.reply o val) (replyWrite o val)

/-- A host write to a mailbox: placed, kept in the event backing ring, discarded, or waiting for room (R354, R363). -/
def mboxWrite (o : CtxOp) (vcore mbn : Nat) (val : Word64) (s : State) : State :=
  let ctx := o.ctx
  if !w1Owned s o.port ctx ∨ 64 ≤ vcore ∨ 32 ≤ mbn then s
  else
    let m : Send :=
      { id := s.fresh, own := none, port := some (decide (o.port = 1)), tok := none, ctx := ctx, name := BitVec.ofNat 32 (mbn + 256 * vcore),
        msg := val, scope := 4 }
    let waits : State := { s with sends := s.sends ++ [m], fresh := s.fresh + 1 }
    if vMapped s ctx vcore then
      if ((s.ctx ctx).box vcore mbn).length < 16 ∧ !boxHeld s ctx vcore mbn then boxPut s ctx vcore mbn ⟨val, 4⟩ else waits
    else if savedOn s ctx vcore then
      if ringFull s ctx then waits
      else
        let e : RingEnt :=
          { pos := 0, vcore := vcore, kind := 2, team := 0, gid := 0, obj := mbn, word := val, arg := 0, lid := 0, scope := 4 }
        (ringPut s ctx e).1
    else s

def execHostMailboxWrite (o : CtxOp) (vcore mbn : Nat) (val : Word64) (s : State) : Host.Outcome State Fault Refusal :=
  hostIn s (.mbox o vcore mbn val) (mboxWrite o vcore mbn val)

/-! ## W2 (R365, R369, R413, R435) -/

/-- The selected context of a function: the one with k = 0 (R356); none for a port that has lost it (R364). -/
def selected (s : State) (port fn : Nat) : Option Nat :=
  match (fnCtxs s port fn).head? with
  | some c => if b2n (s.ctx c).owner = port then some c else none
  | none => none

/-- Does an access lie in the aperture's 64 GiB (R356)? -/
def w2In (o : W2Op) (n : Nat) : Bool := decide (o.off + n ≤ 2 ^ 36)

/-- Does the PF's W2 reach the staging buffer? -/
def stagingOpen (s : State) (o : W2Op) : Bool :=
  (decide (s.pkg.phase = 2) || decide (s.pkg.phase = 15)) && decide (o.fn = 0)

def w2Va (s : State) (ctx off : Nat) : Nat := ((s.ctx ctx).regs.w2base.toNat + off) % 2 ^ 64

/-- A host read. One that does not translate completes as an Unsupported Request, one of a poisoned sector as poisoned: the host
gets no bytes. -/
def execW2Read (o : W2Op) (n : Nat) (s : State) : Host.Outcome State Fault Refusal :=
  if !w2In o n then .next s
  else if stagingOpen s o then .next { s with hostRd := .bytes (Map.getN 0 s.pkg.staging o.off n) }
  else if s.pkg.phase ≠ 8 then .next s
  else
    match selected s o.port o.fn with
    | none => .next { s with hostRd := .bytes (List.replicate n 0xFF) }
    | some ctx =>
      match vaReadHome s (bgWho ctx) (w2Va s ctx o.off) n with
      | .error (e, _) => .next { s.markErr e with hostRd := if e.code < cECCU then .unsupported else .poisoned }
      | .ok (bs, t) => .next { t with hostRd := .bytes bs }

/-- The pieces of a host write at home; one that meets poison is discarded (R418). -/
def w2Pieces (w : Who) : List (Nat × Nat) → List Byte → State → State
  | [], _, s => s
  | (a, k) :: ps, bs, s =>
    match xlate s w a .write false with
    | .error _ => w2Pieces w ps (bs.drop k) s
    | .ok (lf, t) => w2Pieces w ps (bs.drop k) (homeEngWrite t w lf (bs.take k)).1

/-- A host write. One that does not translate, or a poisoned one, is discarded (R413, R435). -/
def w2Store (o : W2Op) (data : List Byte) (s : State) : State :=
  if s.pkg.phase ≠ 8 then s
  else
    match selected s o.port o.fn with
    | none => s
    | some ctx =>
      let w := bgWho ctx
      let va := w2Va s ctx o.off
      match vaCheck s w va data.length .write with
      | .error (e, _) => s.markErr e
      | .ok t => w2Pieces w (pieceList 256 va data.length) data t

/-- A poisoned write TLP is discarded and reported through the port's Advanced Error Reporting (R435). -/
def aerReport (s : State) (port : Nat) : State := s.updPkg (fun p => { p with aer := p.aer ||| (1#2 <<< port) })

def execW2Write (o : W2Op) (data : List Byte) (poisoned : Bool) (s : State) : Host.Outcome State Fault Refusal :=
  if poisoned then .next (aerReport s o.port)
  else if !w2In o data.length then .next s
  else if stagingOpen s o then
    .next (s.updPkg (fun p => { p with staging := Map.setN 0 p.staging o.off (data.take (stagingSize - o.off)) }))
  else hostIn s (.w2 o data) (w2Store o data)

/-! ## Writes that waited (R124, R363) -/

/-- A host write as it takes effect. -/
def HostWr.run (s : State) : HostWr → State
  | .reg o v => regWrite o v s
  | .cmd o c => cmdWrite o c s
  | .go o q => goWrite o q s
  | .reply o v => replyWrite o v s
  | .mbox o c m v => mboxWrite o c m v s
  | .ack o d => ackWrite o d s
  | .w2 o d => w2Store o d s

/-- Takes the first write whose port has no mailbox write waiting. -/
def hostPick (free : Nat → Bool) : List HostWr → Option (HostWr × List HostWr)
  | [] => none
  | x :: xs => if free x.port then some (x, xs) else (hostPick free xs).map (fun p => (p.1, x :: p.2))

/-- The next host write that waited takes effect. -/
def hostNext (s : State) : Option State :=
  (hostPick (fun p => !mboxWaits s p) s.hostQ).map (fun p => p.1.run { s with hostQ := p.2 })

/-! ## What the host driver sets outside the table's steps (R356, R367) -/

/-- The contexts of a function are numbered again (R356): those that a port has lost keep no place. -/
def renumber (s : State) (fn : Nat) : State :=
  { s with ctxs := s.ctxs.map (fun c => (c.1, if c.2.fn = fn then { c.2 with lostTo := false } else c.2)) }

/-- A routing table entry, an assignment of a context to a function, a poisoned write to W1, a host link that comes up. -/
def hostAct (s : State) : Act → State
  | .route d chip ports => fabFlush (s.updDie d (fun x => { x with route := Map.set 0 x.route (chip % 1024) ports }))
  | .assign ctx port fn =>
    if ctx < 64 ∧ fn ≤ 16 then renumber (renumber (s.updCtx ctx (fun c => { c with fn := fn, owner := port })) fn) (s.ctx ctx).fn else s
  | .poisonedW1 port => aerReport s port
  | .pcieUp port => if port < 2 then { s with pcieUp := s.pcieUp ||| (1#2 <<< port) } else s
  | _ => s

end Sys2Proof.Machine
end

