-- ==== Sys2Proof/Machine/MemEvents.lean ====
section
/-! DEFINITION. What the memory system does on its own: instruction lines and page walks arrive (R339, R84), lines are
written back and evicted (R89, R90), hot bits clear (R97), arbiter wheels turn (R102, R358), soft errors strike (R417). -/

namespace Sys2Proof.Machine

/-- A missing instruction line arrives and its sequencer goes on (R339). -/
def execIcacheFill (core seq : Nat) (s : State) : Host.Outcome State Fault Refusal :=
  match (Map.get {} (s.core core).seqs seq).frozen with
  | none => .next s
  | some line =>
    .next ((icFill s (core / 16) line).updCore core (fun c =>
      { c with seqs := Map.upd {} c.seqs seq (fun q =>
        { q with frozen := none, lost := q.lost + (s.now - q.frozenAt) }) }))

/-- A walk fills the TLBs; one that fails leaves them, and the access that needs it reports the failure (R84, R411). -/
def execPageWalk (core ctx : Nat) (va : Word64) (s : State) : Host.Outcome State Fault Refusal :=
  if 2 ^ 55 ≤ va.toNat then .next s
  else
    match leafOf s { core := core, die := core / 16, ctx := ctx } va.toNat with
    | .ok (_, _, t) => .next t
    | .error e => .next (s.markErr e)

/-- A line of 64 bytes leaves an L1 for its L2, or stays there clean. -/
def l1Return (s : State) (core l : Nat) (evict : Bool) (fail : LineFail) : State :=
  let hit := !(dirtyIn (s.core core).l1 (l * 64) (l * 64 + 64)).isEmpty && decide (fail ≠ .none)
  let r := l1WriteBack s core l fail
  let t := (if evict then l1Drop r.1 core l else r.1).lateAt false core r.2
  if hit then t.countUe else t

/-- A line of 256 bytes leaves an L2 for its home, its L1 copies first, or stays there clean. -/
def l2Return (s : State) (die line : Nat) (evict : Bool) (fail : LineFail) : State :=
  let dirty := fun (m : Map CByte) => !(dirtyIn m (line * 256) (line * 256 + 256)).isEmpty
  let hit := (dirty (s.die die).l2 || (evict && (coresOf s die).any (fun c => dirty (s.core c).l1))) && decide (fail ≠ .none)
  let r := if evict then l2Evict s die line fail else l2WriteBack s die line fail
  let u := r.1.lateAt true die r.2
  if hit then u.countUe else u

/-- A write-back happens at any time; `evict`: the copy then goes (R89, R90, R96). -/
def execLineWriteBack (l2 : Bool) (unit line : Nat) (evict : Bool) (fail : LineFail) (s : State) :
    Host.Outcome State Fault Refusal :=
  .next (if l2 then l2Return s unit line evict fail else l1Return s unit line evict fail)

/-- HOTIDLE cycles without an atomic clear the hot bit; 0 acts as 1 (R97). -/
def execHotLineIdle (die line : Nat) (s : State) : Host.Outcome State Fault Refusal :=
  match Map.find (s.die die).hot line with
  | none => .next s
  | some last =>
    if last + max 1 s.pkg.hotidle.toNat ≤ s.now then
      .next (s.updDie die (fun d => { d with hot := Map.erase d.hot line }))
    else .next s

/-- A wheel starts its next turn, with a new allotment if one waits (R358). -/
def execWheelTurn (md : Nat) (lp : Bool) (s : State) : Host.Outcome State Fault Refusal :=
  let m := Map.get {} s.mds md
  let n : MemDie :=
    if lp then { m with bwLp := m.newLp.getD m.bwLp, newLp := none }
    else { m with bwHbm := m.newHbm.getD m.bwHbm, newHbm := none }
  if n = m then .next s else .next { s with mds := Map.put s.mds md n }

/-! ## Soft errors (R417) -/

/-- A soft error strikes. -/
def softError (s : State) : Act → State
  | .softReg g lane reg => (s.updGroup g (fun x => x.updLane lane (fun t => { t with bad := (reg :: t.bad).eraseDups }))).countUe
  | .softPred g lane reg =>
    (s.updGroup g (fun x => x.updLane lane (fun t => { t with badP := (reg :: t.badP).eraseDups }))).countUe
  | .softSReg g reg => (s.updGroup g (fun x => { x with badS := (reg :: x.badS).eraseDups })).countUe
  | .softScratch k w => (s.updTeam k (fun t => { t with badScr := (w :: t.badScr).eraseDups })).countUe
  | .softTile k i => (s.updTeam k (fun t => { t with badTile := (i :: t.badTile).eraseDups })).countUe
  | .softAcc k i => (s.updTeam k (fun t => { t with badAcc := (i :: t.badAcc).eraseDups })).countUe
  | .softSector pa => { s with poison := (pa / 64 :: s.poison).eraseDups }.countUe
  | .softMeta line => (s.setMeta line 2).countUe
  | .softCorrected => { s with pkg := { s.pkg with eccce := s.pkg.eccce + 1 } }.pkgIrq
  | .softClean l2 u line =>
    if l2 then
      s.updDie u (fun d => { d with l2 := d.l2.filter (fun e => decide (lineOf e.1 ≠ line) || e.2.dirty) })
    else l1Inv s u line
  | .softInstr die line => s.updDie die (fun d => { d with ic := d.ic.erase line })
  | .issue _ => s
  | .event _ => s
  | .cycles _ => s
  | .route _ _ _ => s
  | .assign _ _ _ => s
  | .pcieUp _ => s
  | .poisonedW1 _ => s
  | .fabFill _ _ _ => s
  | .regRead _ => s
  | .storesLate _ _ => s
  | .storeEnter _ _ => s
  | .readAgain _ _ _ => s

end Sys2Proof.Machine
end

