-- ==== Sys2Proof/Machine/Uniform.lean ====
section
/-! DEFINITION. Uniform instructions (R236). -/

namespace Sys2Proof.Machine

/-- A uniform operation of two sources. -/
def execU2 (mk : U2 → Instr) (f : Word64 → Word64 → Word64) (o : U2) (s : State) : Host.Outcome State Fault Refusal :=
  issue (mk o) s (fun I => .ok (I.outS o.d (f (I.rs o.a) (srcU I.gp o.n o.b))))

/-- A shift by an unsigned count of 64 or more gives 0. -/
def ushlVal (a b : Word64) : Word64 := if 64 ≤ b.toNat then 0 else a <<< b.toNat
def ushrVal (a b : Word64) : Word64 := if 64 ≤ b.toNat then 0 else a >>> b.toNat

def execUadd (o : U2) (s : State) : Host.Outcome State Fault Refusal := execU2 .uadd (· + ·) o s
def execUsub (o : U2) (s : State) : Host.Outcome State Fault Refusal := execU2 .usub (· - ·) o s
def execUmul (o : U2) (s : State) : Host.Outcome State Fault Refusal := execU2 .umul (· * ·) o s
def execUand (o : U2) (s : State) : Host.Outcome State Fault Refusal := execU2 .uand (· &&& ·) o s
def execUor (o : U2) (s : State) : Host.Outcome State Fault Refusal := execU2 .uor (· ||| ·) o s
def execUxor (o : U2) (s : State) : Host.Outcome State Fault Refusal := execU2 .uxor (· ^^^ ·) o s
def execUshl (o : U2) (s : State) : Host.Outcome State Fault Refusal := execU2 .ushl ushlVal o s
def execUshr (o : U2) (s : State) : Host.Outcome State Fault Refusal := execU2 .ushr ushrVal o s

def execUmov (o : OpSd) (s : State) : Host.Outcome State Fault Refusal :=
  issue (.umov o) s (fun I => .ok (I.outS o.d (I.rs o.a)))

def execUmovi (o : OpUmovi) (s : State) : Host.Outcome State Fault Refusal :=
  issue (.umovi o) s (fun I => .ok (I.outS o.d o.imm))

def execUsel (o : OpUsel) (s : State) : Host.Outcome State Fault Refusal :=
  issue (.usel o) s (fun I => .ok (I.outS o.d (if I.rs o.c ≠ 0 then I.rs o.a else I.rs o.b)))

/-- Conditions of ISETP on 64-bit values. -/
def ucmpVal (n : Bool) (cond : Nat) (a b : Word64) : Bool :=
  let lt := fun (x y : Word64) => if n then BitVec.ult x y else BitVec.slt x y
  match cond with
  | 0 => a == b
  | 1 => a != b
  | 2 => lt a b
  | 3 => !lt b a
  | 4 => lt b a
  | _ => !lt a b

def execUcmp (o : OpUcmp) (s : State) : Host.Outcome State Fault Refusal :=
  issue (.ucmp o) s (fun I =>
    .ok (I.outS o.d (if ucmpVal o.n o.cond.toNat (I.rs o.a) (srcU I.gp o.n o.b) then 1 else 0)))

/-- UFROM reads the lowest enabled lane. -/
def execUfrom (o : OpUfrom) (s : State) : Host.Outcome State Fault Refusal :=
  issue (.ufrom o) s (fun I =>
    let t := I.th I.low
    .ok (I.outS o.d (if o.w then t.rw o.a else (t.r o.a).setWidth 64)))

def execUlea (o : OpUlea) (s : State) : Host.Outcome State Fault Refusal :=
  issue (.ulea o) s (fun I => .ok (I.outS o.d (I.rs o.b + (I.rs o.a <<< o.sh.toNat))))

end Sys2Proof.Machine
end

