-- ==== Sys2Proof/Machine/Dispatch.lean ====
section
/-! DEFINITION. The meaning of every instruction and event: one arm per constructor of `Instr`. -/

namespace Sys2Proof.Machine

def exec (i : Instr) (s : State) : Host.Outcome State Fault Refusal :=
  match i with
  | .nop o => Sys2Proof.Machine.execNop o s
  | .bra o => Sys2Proof.Machine.execBra o s
  | .brx o => Sys2Proof.Machine.execBrx o s
  | .bru o => Sys2Proof.Machine.execBru o s
  | .call o => Sys2Proof.Machine.execCall o s
  | .ret o => Sys2Proof.Machine.execRet o s
  | .exit o => Sys2Proof.Machine.execExit o s
  | .reform o => Sys2Proof.Machine.execReform o s
  | .spawn o => Sys2Proof.Machine.execSpawn o s
  | .join o => Sys2Proof.Machine.execJoin o s
  | .elect o => Sys2Proof.Machine.execElect o s
  | .yield o => Sys2Proof.Machine.execYield o s
  | .cvset o => Sys2Proof.Machine.execCvset o s
  | .cvsign o => Sys2Proof.Machine.execCvsign o s
  | .prefi o => Sys2Proof.Machine.execPrefi o s
  | .idempBegin o => Sys2Proof.Machine.execIdempBegin o s
  | .idempEnd o => Sys2Proof.Machine.execIdempEnd o s
  | .trap o => Sys2Proof.Machine.execTrap o s
  | .trapfence o => Sys2Proof.Machine.execTrapfence o s
  | .bkpt o => Sys2Proof.Machine.execBkpt o s
  | .evbind o => Sys2Proof.Machine.execEvbind o s
  | .evmask o => Sys2Proof.Machine.execEvmask o s
  | .waitany o => Sys2Proof.Machine.execWaitany o s
  | .evclr o => Sys2Proof.Machine.execEvclr o s
  | .evpoll o => Sys2Proof.Machine.execEvpoll o s
  | .evraise o => Sys2Proof.Machine.execEvraise o s
  | .mbsend o => Sys2Proof.Machine.execMbsend o s
  | .mbrecv o => Sys2Proof.Machine.execMbrecv o s
  | .bararv o => Sys2Proof.Machine.execBararv o s
  | .barwt o => Sys2Proof.Machine.execBarwt o s
  | .barsync o => Sys2Proof.Machine.execBarsync o s
  | .diebar o => Sys2Proof.Machine.execDiebar o s
  | .gridbar o => Sys2Proof.Machine.execGridbar o s
  | .waitc o => Sys2Proof.Machine.execWaitc o s
  | .fence o => Sys2Proof.Machine.execFence o s
  | .iadd o => Sys2Proof.Machine.execIadd o s
  | .isub o => Sys2Proof.Machine.execIsub o s
  | .iadd3 o => Sys2Proof.Machine.execIadd3 o s
  | .imul o => Sys2Proof.Machine.execImul o s
  | .imulh o => Sys2Proof.Machine.execImulh o s
  | .imad o => Sys2Proof.Machine.execImad o s
  | .imadw o => Sys2Proof.Machine.execImadw o s
  | .idiv o => Sys2Proof.Machine.execIdiv o s
  | .irem o => Sys2Proof.Machine.execIrem o s
  | .imin o => Sys2Proof.Machine.execImin o s
  | .imax o => Sys2Proof.Machine.execImax o s
  | .iabs o => Sys2Proof.Machine.execIabs o s
  | .ineg o => Sys2Proof.Machine.execIneg o s
  | .idp4 o => Sys2Proof.Machine.execIdp4 o s
  | .and o => Sys2Proof.Machine.execAnd o s
  | .or o => Sys2Proof.Machine.execOr o s
  | .xor o => Sys2Proof.Machine.execXor o s
  | .andn o => Sys2Proof.Machine.execAndn o s
  | .not o => Sys2Proof.Machine.execNot o s
  | .shl o => Sys2Proof.Machine.execShl o s
  | .shr o => Sys2Proof.Machine.execShr o s
  | .sar o => Sys2Proof.Machine.execSar o s
  | .rotl o => Sys2Proof.Machine.execRotl o s
  | .bfe o => Sys2Proof.Machine.execBfe o s
  | .bfi o => Sys2Proof.Machine.execBfi o s
  | .popc o => Sys2Proof.Machine.execPopc o s
  | .clz o => Sys2Proof.Machine.execClz o s
  | .ctz o => Sys2Proof.Machine.execCtz o s
  | .brev o => Sys2Proof.Machine.execBrev o s
  | .prmt o => Sys2Proof.Machine.execPrmt o s
  | .isetp o => Sys2Proof.Machine.execIsetp o s
  | .isel o => Sys2Proof.Machine.execIsel o s
  | .lea o => Sys2Proof.Machine.execLea o s
  | .iadd64 o => Sys2Proof.Machine.execIadd64 o s
  | .mov o => Sys2Proof.Machine.execMov o s
  | .movi o => Sys2Proof.Machine.execMovi o s
  | .movs o => Sys2Proof.Machine.execMovs o s
  | .movu o => Sys2Proof.Machine.execMovu o s
  | .plop3 o => Sys2Proof.Machine.execPlop3 o s
  | .pmov o => Sys2Proof.Machine.execPmov o s
  | .uadd o => Sys2Proof.Machine.execUadd o s
  | .usub o => Sys2Proof.Machine.execUsub o s
  | .umul o => Sys2Proof.Machine.execUmul o s
  | .uand o => Sys2Proof.Machine.execUand o s
  | .uor o => Sys2Proof.Machine.execUor o s
  | .uxor o => Sys2Proof.Machine.execUxor o s
  | .ushl o => Sys2Proof.Machine.execUshl o s
  | .ushr o => Sys2Proof.Machine.execUshr o s
  | .umov o => Sys2Proof.Machine.execUmov o s
  | .umovi o => Sys2Proof.Machine.execUmovi o s
  | .usel o => Sys2Proof.Machine.execUsel o s
  | .ucmp o => Sys2Proof.Machine.execUcmp o s
  | .ufrom o => Sys2Proof.Machine.execUfrom o s
  | .ulea o => Sys2Proof.Machine.execUlea o s
  | .movc o => Sys2Proof.Machine.execMovc o s
  | .movcw o => Sys2Proof.Machine.execMovcw o s
  | .clkr o => Sys2Proof.Machine.execClkr o s
  | .perfr o => Sys2Proof.Machine.execPerfr o s
  | .ecall o => Sys2Proof.Machine.execEcall o s
  | .launch o => Sys2Proof.Machine.execLaunch o s
  | .fadd o => Sys2Proof.Machine.execFadd o s
  | .fsub o => Sys2Proof.Machine.execFsub o s
  | .fmul o => Sys2Proof.Machine.execFmul o s
  | .ffma o => Sys2Proof.Machine.execFfma o s
  | .fmin o => Sys2Proof.Machine.execFmin o s
  | .fmax o => Sys2Proof.Machine.execFmax o s
  | .fsetp o => Sys2Proof.Machine.execFsetp o s
  | .frnd o => Sys2Proof.Machine.execFrnd o s
  | .fclass o => Sys2Proof.Machine.execFclass o s
  | .h2add o => Sys2Proof.Machine.execH2add o s
  | .h2mul o => Sys2Proof.Machine.execH2mul o s
  | .h2fma o => Sys2Proof.Machine.execH2fma o s
  | .h2min o => Sys2Proof.Machine.execH2min o s
  | .h2max o => Sys2Proof.Machine.execH2max o s
  | .h2setp o => Sys2Proof.Machine.execH2setp o s
  | .frcp o => Sys2Proof.Machine.execFrcp o s
  | .frsq o => Sys2Proof.Machine.execFrsq o s
  | .fsqrt o => Sys2Proof.Machine.execFsqrt o s
  | .fexp2 o => Sys2Proof.Machine.execFexp2 o s
  | .flog2 o => Sys2Proof.Machine.execFlog2 o s
  | .fsin o => Sys2Proof.Machine.execFsin o s
  | .fcos o => Sys2Proof.Machine.execFcos o s
  | .ftanh o => Sys2Proof.Machine.execFtanh o s
  | .act o => Sys2Proof.Machine.execAct o s
  | .actld o => Sys2Proof.Machine.execActld o s
  | .actsel o => Sys2Proof.Machine.execActsel o s
  | .cvt o => Sys2Proof.Machine.execCvt o s
  | .cvtq o => Sys2Proof.Machine.execCvtq o s
  | .cvtdq o => Sys2Proof.Machine.execCvtdq o s
  | .mxq o => Sys2Proof.Machine.execMxq o s
  | .mxdq o => Sys2Proof.Machine.execMxdq o s
  | .rngs o => Sys2Proof.Machine.execRngs o s
  | .shfl o => Sys2Proof.Machine.execShfl o s
  | .vote o => Sys2Proof.Machine.execVote o s
  | .redl o => Sys2Proof.Machine.execRedl o s
  | .scanl o => Sys2Proof.Machine.execScanl o s
  | .matchL o => Sys2Proof.Machine.execMatch o s
  | .packl o => Sys2Proof.Machine.execPackl o s
  | .ld o => Sys2Proof.Machine.execLd o s
  | .st o => Sys2Proof.Machine.execSt o s
  | .lds o => Sys2Proof.Machine.execLds o s
  | .sts o => Sys2Proof.Machine.execSts o s
  | .ldc o => Sys2Proof.Machine.execLdc o s
  | .uld o => Sys2Proof.Machine.execUld o s
  | .atom o => Sys2Proof.Machine.execAtom o s
  | .atoms o => Sys2Proof.Machine.execAtoms o s
  | .redst o => Sys2Proof.Machine.execRedst o s
  | .cas o => Sys2Proof.Machine.execCas o s
  | .sxsect o => Sys2Proof.Machine.execSxsect o s
  | .cctl o => Sys2Proof.Machine.execCctl o s
  | .prefd o => Sys2Proof.Machine.execPrefd o s
  | .tcfg o => Sys2Proof.Machine.execTcfg o s
  | .tzero o => Sys2Proof.Machine.execTzero o s
  | .tld o => Sys2Proof.Machine.execTld o s
  | .tst o => Sys2Proof.Machine.execTst o s
  | .ttrn o => Sys2Proof.Machine.execTtrn o s
  | .mma o => Sys2Proof.Machine.execMma o s
  | .mmas o => Sys2Proof.Machine.execMmas o s
  | .accz o => Sys2Proof.Machine.execAccz o s
  | .acccvt o => Sys2Proof.Machine.execAcccvt o s
  | .accrd o => Sys2Proof.Machine.execAccrd o s
  | .accwr o => Sys2Proof.Machine.execAccwr o s
  | .accst o => Sys2Proof.Machine.execAccst o s
  | .cpy o => Sys2Proof.Machine.execCpy o s
  | .cpyg o => Sys2Proof.Machine.execCpyg o s
  | .cpyx o => Sys2Proof.Machine.execCpyx o s
  | .cpyc o => Sys2Proof.Machine.execCpyc o s
  | .cpyf o => Sys2Proof.Machine.execCpyf o s
  | .hbind o => Sys2Proof.Machine.execHbind o s
  | .hset o => Sys2Proof.Machine.execHset o s
  | .hwait o => Sys2Proof.Machine.execHwait o s
  | .hrel o => Sys2Proof.Machine.execHrel o s
  | .coll o => Sys2Proof.Machine.execColl o s
  | .objq o => Sys2Proof.Machine.execObjq o s
  | .rqadmit o => Sys2Proof.Machine.execRqadmit o s
  | .rqstep o => Sys2Proof.Machine.execRqstep o s
  | .rqretire o => Sys2Proof.Machine.execRqretire o s
  | .rqrd o => Sys2Proof.Machine.execRqrd o s
  | .rqwr o => Sys2Proof.Machine.execRqwr o s
  | .rqwrEmit o => Sys2Proof.Machine.execRqwrEmit o s
  | .rqbind o => Sys2Proof.Machine.execRqbind o s
  | .rqflagCancel o => Sys2Proof.Machine.execRqflagCancel o s
  | .rqflagFault o => Sys2Proof.Machine.execRqflagFault o s
  | .rqevict o => Sys2Proof.Machine.execRqevict o s
  | .kvapnd o => Sys2Proof.Machine.execKvapnd o s
  | .kvseal o => Sys2Proof.Machine.execKvseal o s
  | .kvsel o => Sys2Proof.Machine.execKvsel o s
  | .kvpf o => Sys2Proof.Machine.execKvpf o s
  | .attn o => Sys2Proof.Machine.execAttn o s
  | .attnv o => Sys2Proof.Machine.execAttnv o s
  | .attnf o => Sys2Proof.Machine.execAttnf o s
  | .kvwashReq o => Sys2Proof.Machine.execKvwashReq o s
  | .kvwashPage o => Sys2Proof.Machine.execKvwashPage o s
  | .kvtierHbm o => Sys2Proof.Machine.execKvtierHbm o s
  | .kvtierLp o => Sys2Proof.Machine.execKvtierLp o s
  | .kvmap o => Sys2Proof.Machine.execKvmap o s
  | .kvrebld o => Sys2Proof.Machine.execKvrebld o s
  | .kvfree o => Sys2Proof.Machine.execKvfree o s
  | .pWord a b => Sys2Proof.Machine.execPWord a b s
  | .loadDataArrival a b => Sys2Proof.Machine.execLoadDataArrival a b s
  | .splitDataArrival a b => Sys2Proof.Machine.execSplitDataArrival a b s
  | .commandCompletion a => Sys2Proof.Machine.execCommandCompletion a s
  | .matrixCommandStart a => Sys2Proof.Machine.execMatrixCommandStart a s
  | .attnArrayStart a => Sys2Proof.Machine.execAttnArrayStart a s
  | .filingRetry a b => Sys2Proof.Machine.execFilingRetry a b s
  | .binAgeExpiry a b => Sys2Proof.Machine.execBinAgeExpiry a b s
  | .binLaunch a b => Sys2Proof.Machine.execBinLaunch a b s
  | .groupEnd a => Sys2Proof.Machine.execGroupEnd a s
  | .eventTimerExpiry a b => Sys2Proof.Machine.execEventTimerExpiry a b s
  | .waitanyTimeout a => Sys2Proof.Machine.execWaitanyTimeout a s
  | .swEventDelivery a => Sys2Proof.Machine.execSwEventDelivery a s
  | .mailboxDelivery a => Sys2Proof.Machine.execMailboxDelivery a s
  | .icacheFill a b => Sys2Proof.Machine.execIcacheFill a b s
  | .sauApply a => Sys2Proof.Machine.execSauApply a s
  | .pageWalk a b c => Sys2Proof.Machine.execPageWalk a b c s
  | .lineWriteBack a b c d e => Sys2Proof.Machine.execLineWriteBack a b c d e s
  | .hotLineIdle a b => Sys2Proof.Machine.execHotLineIdle a b s
  | .wheelTurn a b => Sys2Proof.Machine.execWheelTurn a b s
  | .teamPlacement => Sys2Proof.Machine.execTeamPlacement s
  | .starvationLimit a b => Sys2Proof.Machine.execStarvationLimit a b s
  | .depWordPoll a b => Sys2Proof.Machine.execDepWordPoll a b s
  | .autoPreempt => Sys2Proof.Machine.execAutoPreempt s
  | .drainDeadline a => Sys2Proof.Machine.execDrainDeadline a s
  | .flushRestart a => Sys2Proof.Machine.execFlushRestart a s
  | .teamSave a => Sys2Proof.Machine.execTeamSave a s
  | .teamResume a => Sys2Proof.Machine.execTeamResume a s
  | .chainFill a b => Sys2Proof.Machine.execChainFill a b s
  | .pageAllocation a => Sys2Proof.Machine.execPageAllocation a s
  | .evictionMove a b => Sys2Proof.Machine.execEvictionMove a b s
  | .tailReturnMove a b => Sys2Proof.Machine.execTailReturnMove a b s
  | .washEvaluation a b => Sys2Proof.Machine.execWashEvaluation a b s
  | .washDemotion a b => Sys2Proof.Machine.execWashDemotion a b s
  | .coldMove a b => Sys2Proof.Machine.execColdMove a b s
  | .collTimeout a => Sys2Proof.Machine.execCollTimeout a s
  | .fabricTimeout a => Sys2Proof.Machine.execFabricTimeout a s
  | .throttleChange a => Sys2Proof.Machine.execThrottleChange a s
  | .powerGate a => Sys2Proof.Machine.execPowerGate a s
  | .attestationReportReady => Sys2Proof.Machine.execAttestationReportReady s
  | .watchdogNotice a => Sys2Proof.Machine.execWatchdogNotice a s
  | .faultRecordWrite a => Sys2Proof.Machine.execFaultRecordWrite a s
  | .takeoverTimeout a => Sys2Proof.Machine.execTakeoverTimeout a s
  | .ctxcmdCompletion a => Sys2Proof.Machine.execCtxcmdCompletion a s
  | .parityContribution a b => Sys2Proof.Machine.execParityContribution a b s
  | .parityXorOut a b => Sys2Proof.Machine.execParityXorOut a b s
  | .parityAck a b c d e => Sys2Proof.Machine.execParityAck a b c d e s
  | .parityBlockRequest a b c d => Sys2Proof.Machine.execParityBlockRequest a b c d s
  | .pageRebuild a b c d => Sys2Proof.Machine.execPageRebuild a b c d s
  | .collNotice a b => Sys2Proof.Machine.execCollNotice a b s
  | .collPull a b c d => Sys2Proof.Machine.execCollPull a b c d s
  | .fabricRequest a => Sys2Proof.Machine.execFabricRequest a s
  | .fabricResponse a b => Sys2Proof.Machine.execFabricResponse a b s
  | .pauseFlit a b => Sys2Proof.Machine.execPauseFlit a b s
  | .resumeFlit a b => Sys2Proof.Machine.execResumeFlit a b s
  | .linkDown a => Sys2Proof.Machine.execLinkDown a s
  | .linkUp a => Sys2Proof.Machine.execLinkUp a s
  | .pcieLinkDown a => Sys2Proof.Machine.execPcieLinkDown a s
  | .powerOn => Sys2Proof.Machine.execPowerOn s
  | .bootPhaseComplete a => Sys2Proof.Machine.execBootPhaseComplete a s
  | .create a b => Sys2Proof.Machine.execCreate a b s
  | .destroy a => Sys2Proof.Machine.execDestroy a s
  | .hold a => Sys2Proof.Machine.execHold a s
  | .resume a => Sys2Proof.Machine.execResume a s
  | .inval a => Sys2Proof.Machine.execInval a s
  | .takeover a => Sys2Proof.Machine.execTakeover a s
  | .deny a => Sys2Proof.Machine.execDeny a s
  | .lose a => Sys2Proof.Machine.execLose a s
  | .reseal a => Sys2Proof.Machine.execReseal a s
  | .launchWindowGo a b => Sys2Proof.Machine.execLaunchWindowGo a b s
  | .hmqRead a => Sys2Proof.Machine.execHmqRead a s
  | .ecallReply a b => Sys2Proof.Machine.execEcallReply a b s
  | .hostMailboxWrite a b c d => Sys2Proof.Machine.execHostMailboxWrite a b c d s
  | .fqackReplay a => Sys2Proof.Machine.execFqackReplay a s
  | .fqackSkip a => Sys2Proof.Machine.execFqackSkip a s
  | .fqackExit a => Sys2Proof.Machine.execFqackExit a s
  | .fqackEndteam a => Sys2Proof.Machine.execFqackEndteam a s
  | .fqackEndgrid a => Sys2Proof.Machine.execFqackEndgrid a s
  | .fqackContinue a => Sys2Proof.Machine.execFqackContinue a s
  | .attcmdGo => Sys2Proof.Machine.execAttcmdGo s
  | .thrcapWrite a => Sys2Proof.Machine.execThrcapWrite a s
  | .bwAllotmentWrite a b => Sys2Proof.Machine.execBwAllotmentWrite a b s
  | .w2Read a b => Sys2Proof.Machine.execW2Read a b s
  | .w2Write a b c => Sys2Proof.Machine.execW2Write a b c s
  | .registerWrite a b c d => Sys2Proof.Machine.execRegisterWrite a b c d s

end Sys2Proof.Machine
end

