-- ==== Sys2Proof/Machine/HostRegs.lean ====
section
/-! DEFINITION. What the registers of W0 and W1 read as (R61, R150, R357 to R364, R373, R374, R431). A reserved offset reads 0 (R6);
a register without a read access gives nothing. -/

namespace Sys2Proof.Machine

/-- THRSTAT (R373). -/
def thrstat (p : Pkg) : Nat := p.thrState.toNat + 8 * p.thrCause.toNat + 256 * p.tj.toNat + 65536 * p.thrCount.toNat

/-- PGATED (R374). -/
def pgated (s : State) : Nat := (List.range 64).foldl (fun a c => if (s.core c).gated then a + 2 ^ c else a) 0

/-- LINKUP (R431). -/
def linkup (s : State) : Nat := (List.range 48).foldl (fun a p => if (Map.get {} s.fports p).up then a + 2 ^ p else a) 0

/-- An allotment register: the allotment in effect (R358). -/
def bwRead (s : State) (off : Nat) : Word64 :=
  let m := Map.get {} s.mds ((off - 0x410) / 16)
  if (off - 0x410) % 16 = 0 then m.bwHbm else m.bwLp

/-- A register of the package block (R357, R431). -/
def pkgRead (s : State) (off : Nat) : Option Word64 :=
  let p := s.pkg
  if off = 0x000 then some Config.pkgId
  else if off = 0x008 then some (p.fabid.setWidth 64)
  else if off = 0x010 then some (BitVec.ofNat 64 (thrstat p))
  else if off = 0x018 then some (p.thrcap.setWidth 64)
  else if off = 0x020 then some (BitVec.ofNat 64 (p.phase.toNat + 2 ^ 8 * p.cause.toNat + 2 ^ 16 * p.svn.toNat))
  else if 0x100 ≤ off ∧ off < 0x1C0 ∧ off % 8 = 0 then
    let k := (off - 0x100) / 8
    some ((((p.meas[k / 6]?).getD 0) >>> (64 * (k % 6))).setWidth 64)
  else if 0x200 ≤ off ∧ off < 0x220 then none
  else if off = 0x220 then some (if p.attGo then 1 else 0)
  else if off = 0x400 then some (p.fabwt.setWidth 64)
  else if 0x410 ≤ off ∧ off < 0x490 ∧ off % 8 = 0 then some (bwRead s off)
  else if off = 0x500 then some (BitVec.ofNat 64 (linkup s))
  else if off = 0x508 then some (p.linkevt.setWidth 64)
  else if off = 0x510 then some p.eccce
  else if off = 0x518 then some p.eccue
  else if off = 0x520 then some (p.fabtmo.setWidth 64)
  else if off = 0x528 then some (BitVec.ofNat 64 (pgated s))
  else if 0x2000 ≤ off ∧ off < 0x4000 ∧ off % 8 = 0 then
    some (BitVec.ofNat 64 (leNat ((p.attRpt.drop (off - 0x2000)).take 8)))
  else some 0

/-- CTXSTAT (R360). -/
def ctxstat (c : Ctx) : Word64 :=
  BitVec.ofNat 64 (c.st.toNat + 4 * b2n c.busy + 8 * b2n c.owner + 16 * b2n c.fqerr + 256 * c.last.toNat + 4096 * b2n c.lastPort)

/-- A register of a context block (R359). -/
def ctxRead (c : Ctx) (off : Nat) : Option Word64 :=
  let r := c.regs
  match off with
  | 0x000 => some (r.ctxcmd.setWidth 64)
  | 0x008 => some r.ctxarg
  | 0x010 => some (ctxstat c)
  | 0x018 => some r.ptroot
  | 0x020 => some r.rqtab
  | 0x028 => some r.expbase
  | 0x030 => some (r.expsize.setWidth 64)
  | 0x038 => some (r.jointag.setWidth 64)
  | 0x040 => some r.fqbase
  | 0x048 => some (r.fqn.setWidth 64)
  | 0x050 => some r.w2base
  | 0x100 => some r.kvpt
  | 0x108 => some (r.kvptn.setWidth 64)
  | 0x110 => some (r.kvslot.setWidth 64)
  | 0x118 => some r.kvhpool
  | 0x120 => some (r.kvhn.setWidth 64)
  | 0x128 => some r.kvlpool
  | 0x130 => some (r.kvln.setWidth 64)
  | 0x138 => some r.kvsk
  | 0x140 => some (r.kvsksz.setWidth 64)
  | 0x148 => some r.kvwpol
  | 0x150 => some (r.kvpolyPos.setWidth 64 ||| (r.kvpolyPred.setWidth 64 <<< 4))
  | 0x158 => some r.kvpar
  | 0x160 => some r.kvparm
  | 0x180 => some r.objt
  | 0x188 => some (r.objn.setWidth 64)
  | 0x190 => some r.objbl
  | 0x198 => some (r.objbln.setWidth 64)
  | 0x1C0 => some r.kobjt
  | 0x1C8 => some (r.kobjn.setWidth 64)
  | 0x1D0 => some r.savebase
  | 0x1D8 => some (r.savesz.setWidth 64)
  | 0x1E0 => some (r.saven.setWidth 64)
  | 0x1E8 => some r.evbase
  | 0x1F0 => some (r.evn.setWidth 64)
  | 0x1F8 => some r.actimg
  | 0x200 => some (r.defbin.setWidth 64)
  | 0x208 => some (r.sched.setWidth 64)
  | 0x210 =>
    some (BitVec.ofNat 64 (b2n r.preAuto + 2 * b2n r.preNoflush + 4 * b2n r.preNodrain + 2 ^ 16 * r.drainb.toNat + 2 ^ 32 * r.drainto.toNat))
  | _ => some 0

/-- A register of a context's W1 region without an effect of its own (R362, R387). -/
def w1Read (c : Ctx) (off : Nat) : Option Word64 :=
  if off < 0x200 ∧ off % 64 = 0x30 then some (Map.get 0 c.lstat (off / 64))
  else if off = 0x208 then some (BitVec.ofNat 64 c.hmq.length)
  else if off = 0x608 then some (c.fqProd.setWidth 64)
  else none

/-- A read of a register of W0 or W1. The package block is the PF's, zero-filled in a VF; W1 of a function that has no such
context, or has lost it, reads ones (R356, R364). -/
def hostRegRead (s : State) (o : RegOp) : State :=
  let put := fun (x : Option Word64) => ({ s with hostRd := match x with
    | some v => .bytes (leBytes v.toNat 8)
    | none => .none } : State)
  if o.win = 0 ∧ o.off < 0x10000 then (if o.fn = 0 then put (pkgRead s o.off) else put (some 0))
  else if s.pkg.phase ≠ 8 then { s with hostRd := .none }
  else
    match regCtx s o with
    | none => put (some (if o.win = 0 then 0 else BitVec.allOnes 64))
    | some c =>
      put (if o.win = 0 then ctxRead (s.ctx c) (regOff o)
        else if o.port = b2n (s.ctx c).owner then w1Read (s.ctx c) (regOff o)
        else some (BitVec.allOnes 64))

end Sys2Proof.Machine
end

