-- ==== Sys2Proof/Machine/Settle.lean ====
section
/-! DEFINITION. What follows from the state without a step of its own: lanes join (R37), waits end (R72, R229, R230, R299), watchdogs run
(R403), ended teams and grids complete (R337, R390); and the passing of time (R17, R373). -/

namespace Sys2Proof.Machine

/-- Time units of 1/168 ns in a core cycle, by throttle state (R17, R373). -/
def cycleTime (th : Nat) : Nat :=
  match th with
  | 0 => 105
  | 1 => 120
  | 2 => 140
  | 3 => 210
  | _ => 420

def advance (s : State) (n : Nat) : State :=
  { s with now := s.now + n, time := s.time + n * cycleTime s.pkg.thrState.toNat }

/-- The groups of the machine. -/
def allGroups (s : State) : List GRef :=
  (s.teams.map (fun t => t.2.groups.map (fun g => (⟨t.1, g.1⟩ : GRef)))).flatten

/-! ## Split gathers (R37) -/

/-- A lane of the split mask that stands at the JOIN waits there. -/
def joinLane (sp : Split) (l : Nat) (t : Thread) : Thread :=
  if sp.mask.getLsbD l ∧ t.st = .live ∧ t.pc = sp.join then { t with st := .joinWait } else t

/-- Is a lane of the split mask through: waiting at the JOIN, gone, or beyond it? R37 names the lanes that have exited; a lane
that has left by REFORM counts as one (DESIGN CHOICE, log entry 67). -/
def pastJoin (sp : Split) (t : Thread) : Bool :=
  match t.st with
  | .joinWait => true
  | .exited => true
  | .left => true
  | .splitWait => false
  | .live => decide (sp.join.toNat < t.pc.toNat)
  | .parked _ => decide (sp.join.toNat < t.pc.toNat)

/-- The split record as its lanes stand: they wait at the JOIN, and the record closes after the last. -/
def joinGroup (g : Group) : Group :=
  match g.split with
  | none => g
  | some sp =>
    let ls := g.lanes.map (fun e => (e.1, joinLane sp e.1 e.2))
    if ls.all (fun e => !sp.mask.getLsbD e.1 || pastJoin sp e.2) then
      { g with split := none, lanes := ls.map (fun e => if e.2.st = .joinWait then (e.1, { e.2 with st := .live }) else e) }
    else { g with lanes := ls }

/-! ## Waits that have ended -/

/-- Has a park's condition come: another phase, or the handle's state? Gives the scope of the acquire, if there is one. -/
def parkOver (s : State) (r : GRef) (w : Park) : Option (Option Nat) :=
  let t := s.team r.team
  match w with
  | .bar b ph => if Map.get 0 t.bar b ≠ ph then some (some 1) else none
  | .dieBar b ph => if Map.get 0 (s.gridOf t).dieBar (t.die * 4 + b) ≠ ph then some (some 2) else none
  | .gridBar ph => if (s.gridOf t).gridBar ≠ ph then some (some 3) else none
  | .hwait h st =>
    if ((s.ctx t.ctx).handle (s.vcoreRef r) h).st = st then some (if st = 2 then some 1 else none) else none
  | .waitAny _ _ => none
  | .reform => none
  | .spawn _ => none
  | .ecall _ _ => none

/-- The first park of a group that is over. -/
def overPark (s : State) (r : GRef) : Option (Park × Option Nat) :=
  (s.group r).lanes.findSome? (fun e => match e.2.st with
    | .parked w => (parkOver s r w).map (fun sc => (w, sc))
    | _ => none)

/-- Wakes the lanes of one park that is over, with its acquire (R122, R229, R230, R300). -/
def wakeOver (s : State) (r : GRef) : State :=
  match overPark s r with
  | none => s
  | some (w, sc) =>
    let t := s.updGroup r (fun g => g.wake (fun x => decide (x = w)))
    match sc with
    | some n => acqState t r n
    | none => t

/-- Everything that follows for a group of a running team: waits end, and then lanes that stand at the JOIN wait there. -/
def settleGroup (s : State) (r : GRef) : State :=
  if !(s.team r.team).st.runs then s
  else
    let a := wakeOver (evSettle s r) r
    watch (if (a.group r).split.isSome then a.updGroup r joinGroup else a) r

/-- Grids that have started, by context. -/
def openGrids (s : State) : List (Nat × Nat) :=
  s.ctxs.flatMap (fun c => (c.2.grids.filter (fun g => g.2.started && !g.2.finished)).map (fun g => (c.1, g.1)))

/-- The state with everything that follows from it: ends of teams and grids, which may end waits of groups, come before the groups. -/
def settle (s : State) : State :=
  let a := (s.teams.map (·.1)).foldl endingDone s
  let b := (openGrids a).foldl (fun u g => completeGrid u g.1 g.2) a
  markHeads ((allGroups b).foldl settleGroup b)

end Sys2Proof.Machine
end

