-- ==== Sys2Proof/Machine/Sched.lean ====
section
/-! DEFINITION. What the machine does next: the outside's input, an event of its own, or the issue of a group (R335, R338). -/

namespace Sys2Proof.Machine

/-- A step either makes a plain transition or runs an instruction or event from a prepared state. -/
inductive Plan where
  | stay (s : State)
  | run (i : Instr) (s : State)
  deriving DecidableEq, Repr

/-! ## Issue (R338) -/

/-- Issues for a group: its fetch, its decode, or the fault of either. -/
def issueFor (s : State) (g : GRef) : Plan :=
  match nextInstr s g with
  | .miss l t => .stay (freezeSeq t g l)
  | .fault f => .stay (takeFault s g (issuePc (s.group g)) f)
  | .instr i t => .run i { t with cur := some g }

/-- Does the group's next instruction wait on the scoreboard (R34)? -/
def isBlocked (s : State) (g : GRef) : Bool :=
  match nextInstr s g with
  | .instr i _ => sbBlocked (s.group g) (issueSet (s.group g)) i
  | _ => false

/-- Have the extra cycles of the group's next instruction for reads of one bank passed, from the moment that its spacing allowed
it (R199)? -/
def bankReady (s : State) (g : GRef) : Bool :=
  match nextInstr s g with
  | .instr i _ => decide ((s.group g).nextIssue + bankDelay i ≤ s.now)
  | _ => true

/-- Is the group eligible (R34)? -/
def eligible (s : State) (g : GRef) : Bool := canIssue s g && !isBlocked s g && bankReady s g

/-- A group's sequencer. -/
def seqOf (s : State) (g : GRef) : Nat × Nat := (coreOf (s.team g.team) g.gid, (s.group g).seq)

/-- Do two groups share a sequencer? -/
def sameSeq (s : State) (a b : GRef) : Bool := decide (seqOf s a = seqOf s b)

/-- The number of a sequencer's present issue opportunity: one in each cycle in which it is not frozen (R338, R339). -/
def oppOf (s : State) (g : GRef) : Nat := s.now - (Map.get {} (s.core (seqOf s g).1).seqs (seqOf s g).2).lost

/-- A group passed over at opportunity `n`: the count goes on if it was passed over at the one before (R338). -/
def Group.pass (g : Group) (n : Nat) : Group :=
  if g.waitedAt = n ∧ g.waited ≠ 0 then g else { g with waited := if g.waitedAt + 1 = n then g.waited + 1 else 1, waitedAt := n }

/-- The group has waited at each of the last opportunities up to the one before this (R338). -/
def waitedNow (s : State) (g : GRef) : Nat :=
  if oppOf s g ≤ (s.group g).waitedAt + 1 then (s.group g).waited else 0

/-- Rank of a group at an opportunity: 0 passed over 48 times, 1 resumed from WAITANY within 32 cycles, 2 the others. -/
def issueRank (s : State) (g : GRef) : Nat :=
  if 48 ≤ waitedNow s g then 0 else if (s.group g).resumed.any (fun r => decide (s.now ≤ r + 32)) then 1 else 2

/-- Is a group chosen before another (R338)? Equally old ones go in the order of the table of groups (DESIGN CHOICE, log entry 86). -/
def issueBefore (s : State) (a b : GRef) : Bool :=
  let x := s.group a
  let y := s.group b
  let p := (s.gridOf (s.team a.team)).prio
  let q := (s.gridOf (s.team b.team)).prio
  if issueRank s a ≠ issueRank s b then decide (issueRank s a < issueRank s b)
  else
    match issueRank s a with
    | 0 => decide (waitedNow s b < waitedNow s a)
    | 1 => decide (x.lastIssue < y.lastIssue)
    | _ => decide (p < q) || (decide (p = q) && decide (x.lastIssue < y.lastIssue))

/-- The eligible groups of a group's sequencer. -/
def rivals (s : State) (g : GRef) : List GRef := (allGroups s).filter (fun c => eligible s c && sameSeq s c g)

/-- The group that a sequencer issues, of those eligible there (R338). -/
def chosen (s : State) : List GRef → Option GRef
  | [] => none
  | c :: cs => some (cs.foldl (fun a b => if issueBefore s b a then b else a) c)

/-- The groups eligible beside the chosen one are passed over (R338). -/
def passOver (s : State) (cs : List GRef) (g : GRef) : State :=
  (cs.filter (fun c => decide (c ≠ g))).foldl (fun u c => u.updGroup c (fun x => x.pass (oppOf s c))) s

/-- The sequencer of an eligible group makes its choice. -/
def issueSeq (s : State) (g : GRef) : Plan :=
  let cs := rivals s g
  match chosen s cs with
  | some c => issueFor (passOver s cs c) c
  | none => .stay s

/-- The sequencer of the first eligible group issues; a group that the scoreboard blocks has its wait counted; time passes when
there is none. -/
def issuePlan (s : State) : Plan :=
  match (allGroups s).find? (fun g => canIssue s g && isBlocked s g) with
  | some g => issueFor s g
  | none =>
    match (allGroups s).find? (eligible s) with
    | none => .stay (advance s 1)
    | some c => issueSeq s c

/-! ## Events of the machine's own -/

/-- The events of a group that may be due. -/
def groupEvents (s : State) (r : GRef) : List Instr :=
  let g := s.group r
  (g.loads.filter (fun l => !l.split)).map (fun l => .loadDataArrival r l.id) ++
    (g.loads.filter (·.split)).flatMap (fun l => (l.vals.map (·.1) ++ l.far).map (fun k => .splitDataArrival r k)) ++
    (g.ev.filter (fun e => timerDue s.now e.2)).map (fun e => .eventTimerExpiry r e.1) ++
    (if g.waits.any (fun w => !w.noted && decide (w.until_ ≤ s.now)) then [.watchdogNotice r] else []) ++
    (g.lanes.filter (fun e => decide (e.2.st = .parked .reform) || (match e.2.st with
      | .parked (.spawn _) => true
      | _ => false))).map (fun e => .filingRetry r e.1) ++
    (if canEnd g then [.groupEnd r] else [])

/-- A WAITANY timeout that has expired; it comes after every latch of its cycle (R72). -/
def timeoutEvents (s : State) (r : GRef) : List Instr :=
  if (parkedAny (s.group r)).any (fun p => p.2.2.any (fun n => decide (n ≤ s.now))) then [.waitanyTimeout r] else []

/-- The events of a core that may be due. -/
def coreEvents (s : State) (c : Nat × Core) : List Instr :=
  (c.2.seqs.filter (fun q => q.2.frozen.isSome)).map (fun q => .icacheFill c.1 q.1) ++
    (if c.2.array.isNone ∧ !c.2.matrix.isEmpty then [.matrixCommandStart c.1] else []) ++
    (if s.cmds.any (attnReady s c.1) then [.attnArrayStart c.1] else []) ++
    (c.2.bins.filter (fun b => !b.2.ready && decide (b.2.expiry ≤ s.now))).map (fun b => .binAgeExpiry c.1 b.1) ++
    (c.2.bins.filter (fun b => b.2.ready)).map (fun b => .binLaunch c.1 b.1)

/-- The events of a command. -/
def cmdEvents (c : Cmd) : List Instr :=
  if c.st ≠ .running then []
  else
    match c.instr with
    | .kvpf _ => [.chainFill c.id false, .commandCompletion c.id]
    | .coll _ => [.commandCompletion c.id, .collTimeout c.id]
    | _ => [.commandCompletion c.id]

/-- The events of a team. -/
def teamEvents (t : Nat × Team) : List Instr :=
  match t.2.st with
  | .draining _ => [.drainDeadline t.1]
  | .flushing => [.flushRestart t.1]
  | .saving => [.teamSave t.1]
  | .saved => [.teamResume t.1]
  | .resident => []
  | .ending => []
  | .ended => []

/-- The handles of a context's page table. -/
def pageHandles (c : Ctx) : List Nat := List.range c.regs.kvptn.toNat

/-- The events of a context. -/
def ctxEvents (s : State) (c : Nat × Ctx) : List Instr :=
  (if c.2.fqWait.isEmpty then [] else [.faultRecordWrite c.1]) ++
    (if c.2.busy then [.ctxcmdCompletion c.1] else []) ++
    (if c.2.takeover.any (fun p => decide (p.2 ≤ s.time)) then [.takeoverTimeout c.1] else []) ++
    (if c.2.evicting.isEmpty then [] else (pageHandles c.2).map (fun h => .evictionMove c.1 h)) ++
    (if c.2.returning.isEmpty then [] else (pageHandles c.2).map (fun h => .tailReturnMove c.1 h)) ++
    c.2.queues.flatMap (fun q => match q.2 with
      | [] => []
      | l :: _ =>
        let g := s.grid c.1 l.toNat
        (if g.dep = 1 ∧ !g.depMet ∧ g.pollAt ≤ s.now then [Instr.depWordPoll c.1 q.1] else []) ++
          (if !g.starved ∧ waitedLong s c.1 l.toNat then [.starvationLimit c.1 q.1] else []))

/-- The events of the memory dies and of the package. -/
def pkgEvents (s : State) : List Instr :=
  s.mds.flatMap (fun m => (if m.2.newHbm.isSome then [Instr.wheelTurn m.1 false] else []) ++
      (if m.2.newLp.isSome then [.wheelTurn m.1 true] else [])) ++
    (if s.pkg.attGo then [.attestationReportReady] else []) ++
    (if throttleNext s.pkg s.pkg.thrOp ≠ (s.pkg.thrState, s.pkg.thrCause) then [.throttleChange s.pkg.thrOp] else []) ++
    ((List.range 64).filter (gateReady s)).map (fun c => .powerGate c) ++
    s.dies.flatMap (fun d => (d.2.hot.filter (fun h => decide (h.2 + max 1 s.pkg.hotidle.toNat ≤ s.now))).map (fun h => .hotLineIdle d.1 h.1))

/-- The events that may be due, in the order in which they are tried. -/
def dueEvents (s : State) : List Instr :=
  s.cores.flatMap (coreEvents s) ++ (allGroups s).flatMap (groupEvents s) ++ s.sauQ.map (fun q => .sauApply q.id) ++
    s.swQ.map (fun q => .swEventDelivery q.id) ++ s.sends.map (fun m => .mailboxDelivery m.id) ++ s.cmds.flatMap cmdEvents ++
    s.fabIn.map (fun r => .fabricRequest r) ++ s.fabQ.map (fun q => .fabricTimeout q.id) ++ s.ctxs.flatMap (ctxEvents s) ++ s.teams.flatMap teamEvents ++
    (if (heads s).isEmpty then [] else [.teamPlacement, .autoPreempt]) ++ pkgEvents s ++
    (allGroups s).flatMap (timeoutEvents s)

/-- Does an event change the state? -/
def happens (s : State) (i : Instr) : Bool :=
  match exec i s with
  | .next t => decide (t ≠ s)
  | .fault _ => false
  | .refused _ => false

/-! ## The plan -/

/-- The next store that waits is performed (R110). -/
def storeNext (s : State) : Option State :=
  (allGroups s).findSome? (fun g => (s.group g).stq.head?.map (fun h => storeEnter s g h.id))

/-- Cycles pass; those in which a group's next instruction waits on the scoreboard are counted (R239). -/
def passCycles (s : State) (n : Nat) : State :=
  let t := advance s n
  ((allGroups t).filter (fun g => canIssue t g && isBlocked t g)).foldl (fun u g => u.updGroup g (fun x =>
    { x with sbwait := x.sbwait + BitVec.ofNat 64 (t.now - max s.now x.nextIssue), nextIssue := t.now })) t

/-- What the outside has fixed (MODEL). A group named for issue issues if its sequencer chooses it, or its wait on the scoreboard
is counted; an event of the table may be named, a word of an instruction may not. -/
def actPlan (s : State) (a : Act) : Plan :=
  match a with
  | .issue g =>
    if canIssue s g ∧ isBlocked s g then issueFor s g
    else if chosen s (rivals s g) = some g then issueSeq s g
    else .stay s
  | .event i => if i.isWord then .stay s else .run i s
  | .cycles n => .stay (passCycles s n)
  | .route _ _ _ => .stay (hostAct s a)
  | .assign _ _ _ => .stay (hostAct s a)
  | .pcieUp _ => .stay (hostAct s a)
  | .poisonedW1 _ => .stay (hostAct s a)
  | .fabFill p c n => .stay (fabFill s p c n)
  | .regRead o => .stay (hostRegRead s o)
  | .storesLate c on => .stay (s.updCore c (fun x => { x with slow := on }))
  | .storeEnter g id => .stay (storeEnter s g id)
  | .readAgain g id l => .stay (readAgain s g id l)
  | _ => .stay (softError s a)

def plan (s0 : State) : Plan :=
  let s := settle s0
  match s.agenda with
  | a :: rest => actPlan { s with agenda := rest } a
  | [] =>
    match hostNext s with
    | some t => .stay t
    | none =>
    match storeNext s with
    | some t => .stay t
    | none =>
      match (dueEvents s).find? (happens s) with
      | some i => .run i s
      | none => issuePlan s

end Sys2Proof.Machine
end

