-- ==== Sys2Proof/Machine/Step.lean ====
section
/-! DEFINITION. One step of the package, and the state in which the next step runs a given instruction. -/

namespace Sys2Proof.Machine

def step (s : State) : Host.Outcome State Fault Refusal :=
  match plan s with
  | .stay t => .next t
  | .run i t => exec i t

/-! The host's question (log entry 1): a program is loaded from outside the machine, and the next step is its first
instruction's. -/

namespace FetchWord

/-- Where the instruction stands. -/
def codeAt : Nat := 0x20000

/-- A kernel that declares the most that one core gives. -/
def decl : Decl :=
  { entry := BitVec.ofNat 64 codeAt, gw := 16, team := 1, regs := 256, tiles := 8, accs := 4, cvregs := 16, nbar := 16, coop := true,
    rqsc := true, scratch := 3 * 2 ^ 20 }

/-- Page tables of three levels that map the first 512 MiB to itself, and the instruction. -/
def memory (s : State) (bs : List Byte) : Memory :=
  [(0x10000, leBytes (1 + 0x110 * 2 ^ 16) 8), (0x11000, leBytes (1 + 0x120 * 2 ^ 16) 8), (0x12000, leBytes 0x1F 8), (codeAt, bs)].foldl
    (fun m p => Map.setN Memory.zero m p.1 p.2) s.mem

def context (snap : Memory) : Ctx :=
  { st := 1,
    regs := { ptroot := 0x100 * 2 ^ 16 },
    grids := [(1, { lid := 1, decl := decl, teams := 1, dieMask := 1, started := true, placed := 1, snap := snap })],
    nextLid := 2,
    vmap := [(0, 0)] }

def group : Group := { live := true, lanes := [(0, { pc := BitVec.ofNat 64 codeAt, st := .live })] }

end FetchWord

/-- Context 0 runs one group of one thread on core 0, whose program counter stands at the instruction; the group is next to
issue. -/
def State.withFetchWord (s : State) (_nbits w : Nat) : State :=
  let m := FetchWord.memory s (leBytes w 16)
  let t : Team :=
    { ctx := 0, lid := 1, st := .resident, decl := FetchWord.decl, groups := [(0, FetchWord.group)], nextTid := 16 }
  { advance s 16 with
    mem := m, lmeta := [], poison := [],
    pkg := { s.pkg with phase := 8 },
    ctxs := Map.put s.ctxs 0 (FetchWord.context m),
    teams := Map.put s.teams s.fresh t,
    cores := Map.put s.cores 0 { ctx := some 0 },
    dies := Map.put s.dies 0 { ic := [FetchWord.codeAt / 64] },
    fresh := s.fresh + 1,
    agenda := [.issue ⟨s.fresh, 0⟩] }

end Sys2Proof.Machine
end

