-- ==== Sys2Proof/Safety.lean ====
section
/-! DEFINITION. The terms in which claims speak: when nothing keeps an instruction from being made, what a register holds for a
reader at adequate distance, what an instruction leaves alone, and the canonical form of memory. -/

namespace Sys2Proof.Machine

/-! ## What registers hold -/

def State.lane (s : State) (r : GRef) (l : Nat) : Thread := (s.group r).lane l

/-- A v-register as a reader at adequate distance gets it: every write made so far has arrived (R196, R197). -/
def Thread.value (t : Thread) (n : Nat) : Word32 := t.commitAll.rv n
/-- A pair of v-registers, the lower one in the low half (R181). -/
def Thread.value2 (t : Thread) (n : Nat) : Word64 := t.value (n + 1) ++ t.value n
/-- A predicate likewise. -/
def Thread.pvalue (t : Thread) (n : Nat) : Bool := t.commitAll.rp n
/-- An s-register likewise. -/
def Group.svalue (g : Group) (n : Nat) : Word64 := (g.commitS (fun _ => true)).rs n

/-! ## Completion -/

/-- Nothing keeps the instruction from being made by the group: it is selected, a lane is enabled, no register is awaited, the
checking scoreboard has no complaint, no register that it reads is lost, and no store or half of an atomic that it comes after
waits (R110, R265). -/
def ready (i : Instr) (s : State) (r : GRef) : Bool :=
  let I := enter i s r
  decide (s.cur = some r) && !I.en.isEmpty && !sbBlocked (s.group r) I.set i &&
    (stallChk (I.s0.group r) I.set I.en i).isNone && (badLanes (I.s0.group r) I.set I.en i).isEmpty &&
    !(comesAfter i && (storeHeld I.s0 r (fun _ => true) || halfLeft I.s0 r (fun _ => true)))

/-- Nor does it read a token for the first time, which makes an acquire before it (R120, R122). -/
def clear (i : Instr) (s : State) (r : GRef) : Bool := ready i s r && !firstRead i s r

/-- The instruction completes, with the state that `f` makes of its issue. -/
def Completes (i : Instr) (s : State) (r : GRef) (f : Iss → State) : Prop :=
  exec i s = .next (retire (enter i s r) (f (enter i s r)))

/-- The instruction completes in a state of which `P` holds. -/
def Leads (i : Instr) (s : State) (P : State → Prop) : Prop := ∃ t, exec i s = .next t ∧ P t

/-- FPFLAGS afterwards: the flags that `f` gives of the enabled lanes are ORed in (R140). -/
def flagged (I : Iss) (s t : State) (f : Nat → Thread → Nat) : Prop :=
  (t.group I.ref).fpflags = (s.group I.ref).fpflags ||| BitVec.ofNat 64 (I.en.foldl (fun a l => a ||| f l (I.th l)) 0)

/-- It completes; in every enabled lane register `d` then holds what `f` gives of the lane's operands; no flag is set. -/
def Gives (i : Instr) (s : State) (r : GRef) (d : VReg) (f : Iss → Nat → Thread → Word32) : Prop :=
  let I := enter i s r
  Leads i s (fun t => (∀ l ∈ I.en, (t.lane r l).value d.toNat = f I l (I.th l)) ∧ (t.group r).fpflags = (s.group r).fpflags)

/-- Likewise for an instruction that sets flags: `f` gives the result and the flags. -/
def GivesF (i : Instr) (s : State) (r : GRef) (d : VReg) (f : Iss → Nat → Thread → Word32 × Nat) : Prop :=
  let I := enter i s r
  Leads i s (fun t => (∀ l ∈ I.en, (t.lane r l).value d.toNat = (f I l (I.th l)).1) ∧ flagged I s t (fun l x => (f I l x).2))

/-- Likewise for a pair of registers; no flag is set. -/
def Gives2 (i : Instr) (s : State) (r : GRef) (d : VReg) (f : Iss → Nat → Thread → Word64) : Prop :=
  let I := enter i s r
  Leads i s (fun t => (∀ l ∈ I.en, (t.lane r l).value2 d.toNat = f I l (I.th l)) ∧ (t.group r).fpflags = (s.group r).fpflags)

/-- Likewise for a predicate; p127 reads true whatever is written (R181). -/
def GivesP (i : Instr) (s : State) (r : GRef) (d : PReg) (f : Iss → Nat → Thread → Bool) : Prop :=
  let I := enter i s r
  Leads i s (fun t => (∀ l ∈ I.en, (t.lane r l).pvalue d.toNat = (decide (d = 127) || f I l (I.th l))) ∧
    (t.group r).fpflags = (s.group r).fpflags)

/-- Likewise for an s-register of the group. -/
def GivesS (i : Instr) (s : State) (r : GRef) (d : SReg) (f : Iss → Word64) : Prop :=
  Leads i s (fun t => (t.group r).svalue d.toNat = f (enter i s r) ∧ (t.group r).fpflags = (s.group r).fpflags)

/-! ## Exact integers (R232) -/

/-- The value of a register under the type that N selects. -/
def typeVal (n : Bool) (x : Word32) : Int := if n then (x.toNat : Int) else x.toInt
/-- The least and the greatest value of that type. -/
def typeMin (n : Bool) : Int := if n then 0 else -2 ^ 31
def typeMax (n : Bool) : Int := if n then 2 ^ 32 - 1 else 2 ^ 31 - 1
/-- An exact result in a register: modulo 2^32, or clamped to the type with SAT. -/
def fitted (n sat : Bool) (x : Int) : Word32 :=
  BitVec.ofInt 32 (if sat then max (typeMin n) (min (typeMax n) x) else x)
/-- FPFLAGS.SAT of a result that SAT has clamped. -/
def clampFlag (n sat : Bool) (x : Int) : Nat := if sat ∧ (x < typeMin n ∨ typeMax n < x) then fSAT else 0

/-! ## A byte of memory -/

/-- A byte as its home holds it, none where it cannot be read (R93, R418). -/
def homeByte (s : State) (pa : Nat) : Option Byte :=
  match homeRead s pa 1 with
  | .ok (b :: _) => some b
  | _ => none

/-- A byte as a die's L2 serves it (R90). -/
def l2Byte (s : State) (die pa : Nat) : Option Byte :=
  if winRegion ≤ pa then some (memByte s pa)
  else match Map.find (s.die die).l2 pa with
    | some b => some b.val
    | none => homeByte s pa

/-- A byte as an access reads it under a cache policy: 2 at its home, 1 at the L2, any other through the core's L1 (R88 to R90). -/
def viewByte (s : State) (w : Who) (cp pa : Nat) : Option Byte :=
  if cp = 2 then homeByte s pa
  else if cp = 1 then l2Byte s w.die pa
  else match Map.find (s.core w.core).l1 pa with
    | some b => some b.val
    | none => l2Byte s w.die pa

/-- A cache of `n` ways a set has places for those of the lines `ls` that it does not hold. -/
def hasPlaces (ways : List Nat) (sets n : Nat) (ls : List Nat) : Prop :=
  ∀ c, (ways.filter (fun l => decide (l % sets = c))).length +
    ((ls.filter (fun l => l ∉ ways && decide (l % sets = c))).eraseDups).length ≤ n

/-- The sets of the core's L1 and of the die's L2 have places for the lines of the addresses `pas`: reading them displaces nothing
(R89, R90). -/
def hasRoom (s : State) (w : Who) (pas : List Nat) : Prop :=
  hasPlaces (s.core w.core).ways 512 8 (pas.map (· / 64)) ∧ hasPlaces (s.die w.die).ways 16384 (16 - (winLines s w.die + 16383) / 16384) (pas.map (· / 256))

/-- Nor does writing them: no dirty FIFO fills. -/
def roomy (s : State) (w : Who) (pas : List Nat) : Prop :=
  (s.core w.core).fifo.length + pas.length ≤ 512 ∧
  (∀ c, ((s.die w.die).shx.filter (fun l => decide (sliceOf l = c))).length + pas.length ≤ 2048) ∧ hasRoom s w pas

/-- The physical lines that PREFD's hints for these addresses reach, in turn (R270). -/
def hinted (w : Who) (lvl : Nat) : List Nat → State → List Nat
  | [], _ => []
  | va :: vs, s =>
    (match xlate s w (va / 64 * 64) .read false with
      | .ok (lf, _) => [lf.pa]
      | .error _ => []) ++ hinted w lvl vs (prefetch s w lvl va)

/-- The lanes of an access with the addresses that their operands name. -/
def Iss.addrs (I : Iss) (a : GAddr) : List (Nat × Nat) := I.en.map (fun l => (l, laneAddr I.gp (I.th l) a))
/-- The address of ULD (R262). -/
def Iss.uldAddr (I : Iss) (o : OpUld) : Nat := ((I.th I.low).rw o.a + o.imm.signExtend 64).toNat

/-- The issue of an atomic once the release of its order has been made (R116). -/
def Iss.ordered (I : Iss) (ord : BitVec 2) (scope : BitVec 3) : Iss := if ordRel ord then I.released scope.toNat else I

/-- The physical addresses that checked lanes reach. -/
def reached (ls : List (Nat × Nat × Leaf)) : List Nat := ls.map (fun p => p.2.2.pa)

/-- `n` bytes that a leaf names do not meet those of another. -/
def apart (n : Nat) (x y : Leaf) : Prop := x.pa + n ≤ y.pa ∨ y.pa + n ≤ x.pa

/-- What the accumulators, tiles and shapes of a half of the team hold. -/
def State.tileByte (s : State) (r : GRef) (t x : Nat) : Byte :=
  Map.get 0 (s.team r.team).tiles (tileKey (isUpper (s.team r.team) r.gid) t * 65536 + x)
def State.shapeOf (s : State) (r : GRef) (t : Nat) : Word64 := tileShape (s.team r.team) (isUpper (s.team r.team) r.gid) t
def State.accElem (s : State) (r : GRef) (a m n : Nat) : Word32 := accGet (s.team r.team) (isUpper (s.team r.team) r.gid) a m n
/-- A byte of the scratchpad at a window offset of the group's core. -/
def State.scrByte (s : State) (r : GRef) (x : Nat) : Byte :=
  Map.get 0 (s.team r.team).scratch (scrKey (isUpper (s.team r.team) r.gid) x)

/-! ## What is left alone -/

/-- The rest of the package is as it was: memory, contexts, dies, everything in flight. -/
def sameWorld (s t : State) : Prop := t = { s with teams := t.teams, cores := t.cores }

/-- Of the cores, only the time of a sequencer's last issue has changed. -/
def sameCores (s t : State) : Prop := ∀ c, t.core c = { s.core c with seqs := (t.core c).seqs }

/-- Every other group is as it was, and of the team only RETIRED and the non-idempotent bit. -/
def sameTeams (s t : State) (r : GRef) : Prop :=
  (∀ k, k ≠ r.team → t.team k = s.team k) ∧
  t.team r.team = { s.team r.team with
    groups := (t.team r.team).groups, retired := (t.team r.team).retired, nonIdem := (t.team r.team).nonIdem } ∧
  ∀ g, g ≠ r.gid → t.group ⟨r.team, g⟩ = s.group ⟨r.team, g⟩

/-- Of the issuing group, only its lanes, s-registers, which of them hold tokens not read yet, FPFLAGS, yield mask and the accounting of
the issue have changed. -/
def sameGroup (s t : State) (r : GRef) : Prop :=
  t.group r = { s.group r with
    lanes := (t.group r).lanes, sr := (t.group r).sr, spend := (t.group r).spend, badS := (t.group r).badS,
    fpflags := (t.group r).fpflags, yieldMask := (t.group r).yieldMask, spacing := (t.group r).spacing,
    nextIssue := (t.group r).nextIssue, issueCnt := (t.group r).issueCnt, lastIssue := (t.group r).lastIssue,
    waited := (t.group r).waited, hold := (t.group r).hold, replay := (t.group r).replay,
    unchecked := (t.group r).unchecked, waits := (t.group r).waits, tokNew := (t.group r).tokNew }

/-- Every register that the instruction does not name as a destination holds what it held; lanes outside the issue set are
untouched. -/
def sameRegs (i : Instr) (s t : State) (r : GRef) : Prop :=
  let I := enter i s r
  (∀ l, l ∉ I.set → t.lane r l = s.lane r l) ∧
  (∀ l n, (l ∉ I.en ∨ (RegCls.v, n) ∉ (uses i).writes) → (t.lane r l).value n = (s.lane r l).value n) ∧
  (∀ l n, (l ∉ I.en ∨ (RegCls.p, n) ∉ (uses i).writes) → (t.lane r l).pvalue n = (s.lane r l).pvalue n) ∧
  (∀ n, (RegCls.s, n) ∉ (uses i).writes → (t.group r).svalue n = (s.group r).svalue n)

/-- Every lane stands as it stood: the same thread, bound to the same slot, live or not. -/
def sameLanes (s t : State) (r : GRef) : Prop :=
  ∀ l, (t.lane r l).tid = (s.lane r l).tid ∧ (t.lane r l).bind = (s.lane r l).bind ∧ (t.lane r l).st = (s.lane r l).st

/-- The control registers that neither the instruction nor its flags concern are as they were (R201). -/
def sameControls (s t : State) (r : GRef) : Prop :=
  let g := s.group r
  let h := t.group r
  h.fpctl = g.fpctl ∧ h.srseed = g.srseed ∧ h.fp4x = g.fp4x ∧ h.chkctl = g.chkctl ∧ h.trapctl = g.trapctl ∧ h.binage = g.binage ∧
    h.actBank = g.actBank ∧ h.idempf = g.idempf

/-- Scratchpads, tiles, tile shapes and accumulators of every team are as they were. -/
def sameStores (s t : State) : Prop :=
  ∀ k, (t.team k).scratch = (s.team k).scratch ∧ (t.team k).tiles = (s.team k).tiles ∧ (t.team k).tc = (s.team k).tc ∧
    (t.team k).acc = (s.team k).acc

/-- Every other team and every other group of the team is as it was. -/
def sameOthers (s t : State) (r : GRef) : Prop :=
  (∀ k, k ≠ r.team → t.team k = s.team k) ∧ ∀ g, g ≠ r.gid → t.group ⟨r.team, g⟩ = s.group ⟨r.team, g⟩

/-- Home memory, its metadata and every cache hold what they held: no byte of memory reads otherwise, at home or through any
core. -/
def sameMemory (s t : State) : Prop :=
  (∀ a, memByte t a = memByte s a) ∧ t.lmeta = s.lmeta ∧ t.poison = s.poison ∧
    (∀ c, (t.core c).l1 = (s.core c).l1 ∧ (t.core c).fifo = (s.core c).fifo) ∧
    ∀ d, (t.die d).l2 = (s.die d).l2 ∧ (t.die d).shx = (s.die d).shx

/-- The accounting of an issue: the spacing count grows by 1 + STALL, ISSUE by one, RETIRED by one when a lane is enabled
(R196, R239). -/
def accounted (i : Instr) (s t : State) (r : GRef) : Prop :=
  (t.group r).spacing = (s.group r).spacing + 1 + (hdrOf i).stall.toNat ∧
  (t.group r).issueCnt = (s.group r).issueCnt + 1 ∧
  (t.team r.team).retired = (s.team r.team).retired + (if (enter i s r).en.isEmpty then 0 else 1)

/-- The frame of an instruction that writes registers only: every byte of memory, every special register and every other register
is as it was, and the issue set stands at the next instruction. -/
def registerFrame (i : Instr) (s : State) (r : GRef) : Prop :=
  Leads i s (fun t => sameWorld s t ∧ sameCores s t ∧ sameTeams s t r ∧ sameGroup s t r ∧ sameRegs i s t r ∧ sameLanes s t r ∧
    accounted i s t r ∧
    ∀ l ∈ (enter i s r).set, (t.lane r l).pc = BitVec.ofNat 64 (issuePc (s.group r) + instrLen i))

/-- The instructions that write registers of lanes and of the group and nothing else. SHFL with VP and an immediate second source stops
instead (R394). -/
def registerOnly : Instr → Bool
  | .nop _ | .join _ | .elect _ => true
  | .iadd _ | .isub _ | .iadd3 _ | .imul _ | .imulh _ | .imad _ | .imadw _ | .idiv _ | .irem _ | .imin _ | .imax _ | .iabs _
  | .ineg _ | .idp4 _ | .and _ | .or _ | .xor _ | .andn _ | .not _ | .shl _ | .shr _ | .sar _ | .rotl _ | .bfe _ | .bfi _ | .popc _
  | .clz _ | .ctz _ | .brev _ | .prmt _ | .isetp _ | .isel _ | .lea _ | .iadd64 _ | .mov _ | .movi _ | .movs _ | .movu _
  | .plop3 _ | .pmov _ => true
  | .uadd _ | .usub _ | .umul _ | .uand _ | .uor _ | .uxor _ | .ushl _ | .ushr _ | .umov _ | .umovi _ | .usel _ | .ucmp _
  | .ufrom _ | .ulea _ | .clkr _ | .perfr _ => true
  | .fadd _ | .fsub _ | .fmul _ | .ffma _ | .fmin _ | .fmax _ | .fsetp _ | .frnd _ | .fclass _ | .h2add _ | .h2mul _ | .h2fma _
  | .h2min _ | .h2max _ | .h2setp _ | .frcp _ | .frsq _ | .fsqrt _ | .fexp2 _ | .flog2 _ | .fsin _ | .fcos _ | .ftanh _ => true
  | .shfl o => !o.vp || o.b.noImm
  | .cvt _ | .cvtq _ | .cvtdq _ | .mxdq _ | .rngs _ | .vote _ | .redl _ | .scanl _ | .matchL _ | .packl _ => true
  | .pWord _ _ => true
  | _ => false

/-- The instruction raises the fault `f` of its own rule: none of its effects is made (R390). -/
def Raises (i : Instr) (s : State) (r : GRef) (f : FInfo) : Prop :=
  let I := enter i s r
  exec i s = .next (takeFault I.s0 r I.pc f)

/-! ## Commands -/

/-- The instruction starts its command, a release at `scope` having been made (R119, R227, R271): one more command is outstanding, of
this instruction and group; its class's counter has gone up by one and its token is awaited. No register, no other group and no
byte of memory is changed beyond what the release wrote back and what the lines displaced that the reads of the issue fetch: `reads` is
the state after those. Asked: the counter is not full, nothing that the release waits for is pending, and `ok` of the issue after the
release. -/
def StartsAfter (reads : Iss → State) (i : Instr) (s : State) (r : GRef) (scope : Nat) (cls : CmdCls) (tok : Option SReg)
    (ok : Iss → Prop) : Prop :=
  let J := (enter i s r).released scope
  clear i s r → (s.group r).counter cls < 255 → relPending s r scope = false → ok J →
  Leads i s (fun t => ∃ c, t.cmds.getLast? = some c ∧ t.cmds.length = s.cmds.length + 1 ∧ c.instr = i ∧ c.own = r ∧ c.cls = cls ∧
    c.tok = tok.map (·.toNat) ∧ (t.group r).counter cls = (s.group r).counter cls + 1 ∧
    (∀ d, tok = some d → (d.toNat, c.id) ∈ (t.group r).toks) ∧
    sameRegs i s t r ∧ sameLanes s t r ∧ sameControls s t r ∧ sameStores s t ∧ sameOthers s t r ∧ t.mem = (reads J).mem)

/-- The same for an instruction whose issue reads no global memory. -/
def Starts (i : Instr) (s : State) (r : GRef) (scope : Nat) (cls : CmdCls) (tok : Option SReg) (ok : Iss → Prop) : Prop :=
  StartsAfter (fun J => J.s) i s r scope cls tok ok

/-- The state after the reads of a copy's issue, and of a collective's. -/
def cpyAfter (k : CpyKind) (o : OpCpy) (J : Iss) : State :=
  match cpyCheck k o J with
  | .ok x => x.1
  | .error _ => J.s
def collAfter (o : OpCpy) (J : Iss) : State :=
  match collRead J o with
  | .cap _ t => t
  | _ => J.s

/-- The convergence register takes the command of the issuing lane (R47). -/
def cvTakes (J : Iss) (cv : BitVec 4) : Prop :=
  cvRefused (Map.get {} (J.s.team J.ref.team).cv cv.toNat) (J.th J.low).tid true = none

/-- A request of another chip has got its answer, which leaves by a port of the die that it came to. -/
def answered (s t : State) (r : FabReqOp) (a : FabAns) : Prop :=
  t.fabOut.length = s.fabOut.length + 1 ∧
    ∃ x, t.fabOut.getLast? = some x ∧ x.die = r.port / 12 ∧ x.chip = r.chip ∧ x.tag = r.tag ∧ x.ans = a

/-! ## Request records -/

/-- In the issue, no RQSTEP is in its eviction action (R63), and request record `k` reads as `x` (R57). -/
def Iss.holdsRec (I : Iss) (k x : Nat) : Prop :=
  k < 8192 ∧ (I.s.ctx I.tm.ctx).former.stage = none ∧ (kRun I.kWho (kRq I.tm.ctx k) I.s).1 = .ok x

/-- The instruction writes record `k` as `y` and completes with what `f` makes of that; asked: the write succeeds. -/
def Rewrites (i : Instr) (s : State) (r : GRef) (k y : Nat) (f : State → State) : Prop :=
  ∀ t, kRun (enter i s r).kWho (kRqPut (s.team r.team).ctx k y) (enter i s r).s = (.ok (), t) → Completes i s r (fun _ => f t)

/-- The group whose lane awaits the reply to an ECALL of the context (R240). -/
def replyTo (s : State) (ctx : Nat) (seq : BitVec 32) : Option GRef :=
  (s.teams.filter (fun e => decide (e.2.ctx = ctx) && e.2.alive)).findSome? (fun e =>
    ((liveGroups e.2).find? (fun g => awaits g.2 seq)).map (fun g => (⟨e.1, g.1⟩ : GRef)))

end Sys2Proof.Machine
end

