-- ==== Sys2Proof/Certificates/Slice0/Obligations.lean ====
section
/-! DEFINITION. The statements for the provers. -/

open Sys2Proof Sys2Proof.Machine

/-! ## Encoding, the step, memory -/

/-- Words written out from the encoding tables (R179, R184 to R194, R204) decode to the instructions that they stand for. -/
def Obligations.SpecWordsDecode : Prop :=
  let h : Hdr := ⟨0, false, 127⟩
  decode Limits.most 0x080406080A0C0000 0 = .ok (.iadd ⟨⟨2, false, 3⟩, 4, 5, .v 6, false, false⟩) ∧
  decode Limits.most 0x0800FE080BFFFB00 0 = .ok (.iadd ⟨h, 4, 5, .imm 0xFFFD, false, false⟩) ∧
  decode Limits.most 0x4000812020004180 0 = .ok (.pWord ⟨.iadd, 0, 4, 9, 0⟩ ⟨.fmul, 0, 1, 6, 0⟩) ∧
  decode Limits.most 0x0000FE0000000000 0 = .ok (.nop ⟨h⟩) ∧
  decode Limits.most 0x0020FE0001FFBF00 0 = .ok (.bra ⟨h, 0xFFDF⟩) ∧
  decode Limits.most 0x8340FE0016000000 0 = .ok (.waitany ⟨⟨0, false, 127⟩, 0x000B, false, 0⟩) ∧
  decode Limits.most 0x05A0FE0000000009 0 = .ok (.fence ⟨h, 1, 2⟩) ∧
  decode Limits.most 0x1862FE0802040600 0 = .ok (.ffma ⟨⟨1, false, 127⟩, 4, 1, .v 2, 3, 0⟩) ∧
  decode Limits.most 0x2000FE080A004107 0 = .ok (.shfl ⟨h, 4, 5, .imm 32, 3, true, false, 0⟩) ∧
  decode Limits.most 0x3520FE0600000002 0 = .ok (.hset ⟨h, 3, 2⟩) ∧
  decode Limits.most 0x3860FE080A008100 0 = .ok (.rqrd ⟨h, 4, 5, 0x40⟩) ∧
  decode Limits.most 0x3C20FE1408000000 0 = .ok (.kvseal ⟨h, 10, 4⟩) ∧
  decode Limits.most 0x04C0FE0000000000 0 = .ok (.barsync ⟨h, 0⟩)

/-- For every instruction of the stream, under any kernel's declarations, with every operand at every value that the encoding admits:
decoding what the encoder writes gives the instruction back (R179 to R194, R204). -/
def Obligations.DecodeEncode : Prop :=
  ∀ (L : Limits) (i : Instr), i.isWord = true → i.wellFormed L = true → decodeWords L (encode i) = .ok i

/-- Whatever decodes is well formed, and the encoder writes the words that were decoded: no bit of an accepted instruction is ignored
(R205). -/
def Obligations.EncodeDecode : Prop :=
  ∀ (L : Limits) (w0 w1 : Nat) (i : Instr), w0 < 2 ^ 64 → w1 < 2 ^ 64 → decode L w0 w1 = .ok i →
    i.isWord = true ∧ i.wellFormed L = true ∧ encode i = if lengthOf w0 = 16 then [w0, w1] else [w0]

/-- R178: FMT selects the format and the length. -/
def Obligations.FormatSelects : Prop :=
  ∀ (L : Limits) (w0 w1 : Nat), w0 < 2 ^ 64 →
    let fmt := w0 / 2 ^ 62
    lengthOf w0 = (if fmt = 2 then 16 else 8) ∧
    (fmt = 3 → decode L w0 w1 = .error (.illenc 1) ∧ (decodeFault (.illenc 1)).1 = cILLENC) ∧
    ∀ i, decode L w0 w1 = .ok i →
      instrLen i = lengthOf w0 ∧ (fmt = 1 ↔ ∃ a b, i = .pWord a b)

/-- When the bytes at the program counter of the group that its sequencer chooses decode to an instruction, a step is that instruction,
executed for the group: both when the outside names the group and when nothing else is due. Around `exec` a step makes what follows from
the state by itself (`settle`: barriers, waits, ends of grids), counts the groups passed over (`passOver`, R338) and makes the fetch's
entry in the TLBs. A group that waits on the scoreboard comes to the same `exec`, with no group passed over. -/
def Obligations.StepRunsDecoded : Prop :=
  ∀ (s t : State) (g : GRef) (bs : List Byte) (i : Instr),
    let u := settle s
    (∀ rest, u.agenda = .issue g :: rest →
      let v := { u with agenda := rest }
      let w := passOver v (rivals v g) g
      (chosen v (rivals v g) = some g → fetchInstr w g (issuePc (w.group g)) = .bytes bs t →
        decodeBytes (limitsOf (w.team g.team).decl) bs = .ok i → step s = exec i { t with cur := some g }) ∧
      (canIssue v g = true → fetchInstr v g (issuePc (v.group g)) = .bytes bs t →
        decodeBytes (limitsOf (v.team g.team).decl) bs = .ok i → sbBlocked (v.group g) (issueSet (v.group g)) i = true →
        step s = exec i { t with cur := some g })) ∧
    (u.agenda = [] → hostNext u = none → storeNext u = none → (dueEvents u).find? (happens u) = none →
      (∀ q ∈ allGroups u, canIssue u q = true → isBlocked u q = false) →
      ∀ q, (allGroups u).find? (eligible u) = some q →
      let w := passOver u (rivals u q) g
      chosen u (rivals u q) = some g → fetchInstr w g (issuePc (w.group g)) = .bytes bs t →
      decodeBytes (limitsOf (w.team g.team).decl) bs = .ok i → step s = exec i { t with cur := some g })

/-- Bytes that decode to no instruction fault the whole issue set, before the guard and before any effect, with the code and INFO of the
first failing check (R205, R392). -/
def Obligations.DecodeFaults : Prop :=
  ∀ (s t : State) (g : GRef) (bs : List Byte) (d : DErr) (rest : List Act),
    let u := settle s
    u.agenda = .issue g :: rest →
    let v := { u with agenda := rest }
    let w := passOver v (rivals v g) g
    chosen v (rivals v g) = some g → fetchInstr w g (issuePc (w.group g)) = .bytes bs t →
    decodeBytes (limitsOf (w.team g.team).decl) bs = .error d →
    step s = .next (takeFault w g (issuePc (w.group g))
      { code := (decodeFault d).1, info := (decodeFault d).2, lanes := issueSet (w.group g) })

/-- Nothing stops the machine: whatever the state, the data and the inputs, a step gives a next state. -/
def Obligations.StepNeverStops : Prop := ∀ s : State, ∃ t, step s = .next t

/-- What reset leaves: no context exists, no team is resident, nothing is in flight, the package waits for its boot ROM, and its
registers hold the values that R97, R366, R431 and R432 give. Memory listing nothing is the model's choice (log entry 2). Memory lists
what differs from an unwritten byte, in one order: the state after reset has that form. -/
def Obligations.ResetState : Prop :=
  (
    let s := State.reset
    s.ctxs = [] ∧ s.teams = [] ∧ s.cmds = [] ∧ s.sauQ = [] ∧ s.fabQ = [] ∧ s.fabIn = [] ∧ s.fabOut = [] ∧ s.hostQ = [] ∧ s.sends = [] ∧ s.swQ = [] ∧ s.irqs = [] ∧
    s.mem = [] ∧ s.now = 0 ∧ s.time = 0 ∧
    s.pkg.phase = 0 ∧ s.pkg.hotidle = 4096 ∧ s.pkg.fabwt = 0x04010201 ∧ s.pkg.fabtmo = 1000 ∧ s.pkg.meas = [0, 0, 0, 0] ∧
    (∀ c, (s.ctx c).st = 0 ∧ (s.ctx c).regs.defbin = 256 ∧ (s.ctx c).former.chunk = 512) ∧
    (∀ p, (Map.get {} s.fports p).up = false)) ∧
  (
    Memory.wf State.reset.mem = true)

/-- Memory keeps its canonical form through every write to it, and reads back what was written; every other byte is as it was (R104). -/
def Obligations.MemoryReadAfterWrite : Prop :=
  ∀ (s : State) (pa : Nat) (bs : List Byte), Memory.wf s.mem = true →
    let t := s.setMem pa bs
    Memory.wf t.mem = true ∧ memBytes t pa bs.length = bs ∧
    (∀ a, (a < pa ∨ pa + bs.length ≤ a) → memByte t a = memByte s a) ∧
    ∀ u : State, (∀ a, memByte u a = memByte t a) → Memory.wf u.mem = true → u.mem = t.mem

/-- In every state whose memory has the canonical form, whatever instruction, event or input the step runs, memory has that form
afterwards: equal memories stay equal data. -/
def Obligations.StepKeepsMemoryCanonical : Prop :=
  ∀ s t : State, Memory.wf s.mem = true → step s = .next t → Memory.wf t.mem = true

/-! ## Issue, distance, faults (R33 to R35, R181, R196 to R198, R386 to R394, R416) -/

/-- The issue set is the eligible lanes at the lowest PC held by any of them. While the group waits to issue, the live lanes of the set
that it selected are the eligible ones; otherwise, without a replay, they are the live lanes outside the yield mask, or all of them when
there is none outside (R33, R35). -/
def Obligations.IssueSetLowestPc : Prop :=
  ∀ (g : Group) (l : Nat),
    (l ∈ issueSet g ↔ l ∈ eligLanes g ∧ ∀ m ∈ eligLanes g, (g.lane l).pc.toNat ≤ (g.lane m).pc.toNat) ∧
    (∀ m : BitVec 64, g.hold = some m → (∃ k ∈ liveLanes g, m.getLsbD k = true) →
      (l ∈ eligLanes g ↔ l ∈ liveLanes g ∧ m.getLsbD l = true)) ∧
    (g.hold = none → g.replay = none → (l ∈ eligLanes g ↔ l ∈ liveLanes g ∧
      (g.yieldMask.getLsbD l = false ∨ ∀ m ∈ liveLanes g, g.yieldMask.getLsbD m = true)))

/-- An instruction whose lanes are all disabled only advances the PCs of its issue set, and still counts as an issue (R33, R182). While
a register of the instruction is awaited the whole group waits with its issue set: nothing but the wait's own count changes (R33, R197).
A register that it reads and whose contents are lost faults the lanes that read it, unless a run-time check of the instruction's own
rule fails first; that check reads the lost registers as free values (R393, R417, log entry 84). The first read of a token makes its
acquire before the instruction, and the group's outstanding reads are then performed (R120, R122). The checking
scoreboard: with CHKCTL.EN = 0 there is no fault; with EN = 1 an instruction that reads a register before its distance faults with
STALLCHK, recoverably, and one whose registers are all at their distance does not (R198, R394). What STALLCHK does: the group parks with
the record, before any operand is read and with no effect of the instruction; the replay comes 16 cycles later at the earliest (R198,
R390, R394). -/
def Obligations.IssueOutcomes : Prop :=
  (
    ∀ (i : Instr) (s : State) (r : GRef), i.isWord = true → s.cur = some r →
      let I := enter i s r
      I.set ≠ [] → I.en = [] → sbBlocked (s.group r) I.set i = false → stallChk (I.s0.group r) I.set I.en i = none →
      badLanes (I.s0.group r) I.set I.en i = [] → registerFrame i s r) ∧
  (
    ∀ (i : Instr) (s : State) (r : GRef), i.isWord = true → s.cur = some r → (enter i s r).set ≠ [] →
      sbBlocked (s.group r) (enter i s r).set i = true →
      exec i s = .next (s.updGroup r (fun g =>
        { g with sbwait := g.sbwait + 1, nextIssue := s.now + 1, hold := some (maskOf (issueSet (s.group r))) }))) ∧
  (
    ∀ (i : Instr) (s : State) (r : GRef), i.isWord = true → s.cur = some r →
      let I := enter i s r
      let bad := badLanes (I.s0.group r) I.set I.en i
      I.set ≠ [] → sbBlocked (s.group r) I.set i = false → stallChk (I.s0.group r) I.set I.en i = none → bad ≠ [] →
      let lost : FInfo := { code := cECCU, info := 7, lanes := bad }
      ∃ f : FInfo, exec i s = .next (takeFault { I.s0 with free := s.free + 32768 } r I.pc f) ∧
        (f = lost ∨ memCode f.code = false) ∧
        ∀ t, ready i (sound s r) r = true → (s.group r).fault = none → exec i (sound s r) = .next t →
          ((t.group r).fault = none → f = lost) ∧
          (f.code ≠ cECCU → ∃ h, (t.group r).fault = some h ∧ h.frec.code = BitVec.ofNat 8 f.code ∧
            h.frec.info = BitVec.ofNat 16 f.info)) ∧
  (
    ∀ (i : Instr) (s : State) (r : GRef), i.isWord = true → ready i s r = true → firstRead i s r = true →
      let u := tokAcq i s r
      firstRead i u r = false ∧ (∀ ld ∈ (u.group r).loads, ld.again = []) ∧ u.mem = s.mem ∧
      (∀ n, (u.group r).svalue n = (s.group r).svalue n) ∧ (∀ l, u.lane r l = s.lane r l) ∧
      (ready i u r = true → exec i s = exec i u)) ∧
  (
    ∀ (g : Group) (set en : List Nat) (i : Instr),
      (g.chkctl.getLsbD 0 = false → stallChk g set en i = none) ∧
      (g.chkctl.getLsbD 0 = true → g.unchecked = false → en ≠ [] →
        ((stallChk g set en i).isSome ↔
          (∃ q ∈ guardRef (hdrOf i), 0 < shortOf g set q) ∨ ∃ q ∈ guardRef (hdrOf i) ++ (uses i).reads, 0 < shortOf g en q)) ∧
      ∀ f, stallChk g set en i = some f → f.code = 5 ∧ f.replay = true) ∧
  (
    ∀ (i : Instr) (s : State) (r : GRef) (f : FInfo), i.isWord = true → s.cur = some r →
      let I := enter i s r
      I.set ≠ [] → sbBlocked (s.group r) I.set i = false → stallChk (I.s0.group r) I.set I.en i = some f →
      exec i s = .next ((takeFault I.s0 r I.pc f).updGroup r (fun g => { g with nextIssue := s.now + 16 })))

/-- Results are governed by distance: a fixed-latency write is read from its spacing count on, and until then its register reads as
without it; an interlocked write is read at once; other registers are untouched (R196, R197). p127 reads true and ignores writes (R181).
-/
def Obligations.DistanceGoverns : Prop :=
  (
    ∀ (t : Thread) (sp due r n : Nat) (x : Word32),
      ((t.pendV due r x).commit sp).rv n = (if n = r ∧ due ≤ sp then x else (t.commit sp).rv n) ∧
      ((t.setV r x).commit sp).rv n = (if n = r then x else (t.commit sp).rv n) ∧
      ((t.pendV due r x).value n = if n = r then x else t.value n)) ∧
  (
    ∀ (t : Thread) (b : Bool) (n due sp : Nat),
      t.rp 127 = true ∧ (t.setP 127 b).p = t.p ∧ (t.putP 127 b).rp n = t.rp n ∧
      ((t.pendP due 127 b).commit sp).rp n = (t.commit sp).rp n ∧
      (n < 127 → (t.setP n b).rp n = b))

/-- Taking a fault whose lanes no request pays for: the group parks and holds a record with the code, INFO, the failing lanes, the PC,
the address and the group's place; the record joins the context's queue; every other piece of the group's state, every other group,
memory and all else is kept, but that a wait at issue is over and that lines whose stream is malformed are marked (R386, R390, R420). In a
`.rqscope` kernel a chargeable fault of lanes bound to one request is charged to it: one record with RQF = 1 and RQIDX, the lanes exit,
and the group does not park. Lanes bound to nothing park it as elsewhere. Of lanes bound to several requests each request gets its own
record with its own lanes; where bound and unbound lanes fail together, the bound ones are charged and the group parks with a record
of the others (R416). -/
def Obligations.TakingFaults : Prop :=
  (
    ∀ (s : State) (g : GRef) (pc : Nat) (f : FInfo),
      (chargeable f.code = false ∨ (s.team g.team).decl.rqsc = false ∨ ∀ l ∈ f.lanes, (s.lane g l).bind = none) →
      let t := takeFault s g pc f
      let tm := s.team g.team
      let c : FRec :=
        { code := BitVec.ofNat 8 f.code, replay := f.replay, rqf := false, defer := false, wdog := false,
          vcore := BitVec.ofNat 6 (vcoreOf s tm.ctx (coreOf tm g.gid)), gid := BitVec.ofNat 6 g.gid, tslot := BitVec.ofNat 4 tm.tslot,
          rqidx := 0, info := BitVec.ofNat 16 f.info, pc := BitVec.ofNat 64 pc, lanes := maskOf f.lanes,
          addr := BitVec.ofNat 64 f.addrOf }
      t.group g = { s.group g with
        fault := some { frec := c }, hold := none, waits := (s.group g).waits.filter (fun x => !x.atIssue) } ∧
      (∀ h, h ≠ g → t.group h = s.group h) ∧ (∀ k, k ≠ g.team → t.team k = s.team k) ∧
      (t.ctx tm.ctx).fqWait = (s.ctx tm.ctx).fqWait ++ [.group g] ∧
      t = { s with teams := t.teams, ctxs := t.ctxs, lmeta := (s.markLines f.marks).lmeta } ∧ canIssue t g = false) ∧
  (
    ∀ (s : State) (g : GRef) (pc rq : Nat) (f : FInfo),
      (s.team g.team).decl.rqsc = true → chargeable f.code = true → f.lanes ≠ [] →
      (∀ l ∈ f.lanes, ∃ slot, ((s.group g).lane l).bind = some (slot, rq)) →
      let t := takeFault s g pc f
      (t.group g).fault = (s.group g).fault ∧
      (∀ l ∈ f.lanes, (t.lane g l).st = .exited ∧ (t.lane g l).bind = none) ∧
      (∀ l, l ∉ f.lanes → t.lane g l = s.lane g l) ∧
      ∃ q : FRec, (t.ctx (s.team g.team).ctx).fqWait = (s.ctx (s.team g.team).ctx).fqWait ++ [.loose q] ∧
        q.rqf = true ∧ q.rqidx = BitVec.ofNat 13 rq ∧ q.code = BitVec.ofNat 8 f.code ∧ q.lanes = maskOf f.lanes) ∧
  (
    ∀ (s : State) (g : GRef) (pc : Nat) (f : FInfo),
      (s.team g.team).decl.rqsc = true → chargeable f.code = true →
      let t := takeFault s g pc f
      let queue := (t.ctx (s.team g.team).ctx).fqWait
      let rest := f.lanes.filter (fun l => (s.lane g l).bind.isNone)
      (∀ l ∈ f.lanes, (s.lane g l).bind ≠ none → (t.lane g l).st = .exited ∧ (t.lane g l).bind = none) ∧
      (∀ l, (l ∉ f.lanes ∨ (s.lane g l).bind = none) → t.lane g l = s.lane g l) ∧
      (∀ l ∈ f.lanes, ∀ slot rq, (s.lane g l).bind = some (slot, rq) → ∃ q : FRec, .loose q ∈ queue ∧ q.rqf = true ∧
        q.rqidx = BitVec.ofNat 13 rq ∧ q.code = BitVec.ofNat 8 f.code ∧
        q.lanes = maskOf (f.lanes.filter (fun m => decide ((s.lane g m).bind.map (·.2) = some rq)))) ∧
      (rest = [] → f.lanes ≠ [] → (t.group g).fault = (s.group g).fault) ∧
      (rest ≠ [] → .group g ∈ queue ∧ ∃ h, (t.group g).fault = some h ∧ h.frec.code = BitVec.ofNat 8 f.code ∧ h.frec.rqf = false ∧
        h.frec.lanes = maskOf rest))

/-- The dispositions of a fault that a group of a running team holds: REPLAY issues the instruction again for the lanes in LANES, SKIP
moves them past it by its length, EXIT ends them; in each the group parks no longer (R389). ENDTEAM, ENDGRID and CONTINUE of an entry
that is held (R389, R390, R403, R406): ENDTEAM ends the team, whose faults and notices are gone, and the grid's STATUS keeps the code of
the first record so disposed; ENDGRID drops the grid's unplaced teams, takes its launch from its queue, and ends every team of the grid,
with the same rule for the code; CONTINUE starts the watchdog again. A saved team ends at once, and the team holds a notice of R406 (log
entry 54). All of them take effect when no earlier write of the port waits (R363). -/
def Obligations.Dispositions : Prop :=
  (
    ∀ (s : State) (o : AckOp) (g : GRef) (h : Held),
      hostWaits s o.port = false →
      ackHolder s o = some (.fault g) → (s.group g).fault = some h → (s.team g.team).st ≠ .saved → h.frec.defer = false →
      (∃ t, exec (.fqackReplay o) s = .next t ∧ (t.group g).fault = none ∧ (t.group g).replay = some h.frec.lanes ∧
        ∀ l, t.lane g l = s.lane g l) ∧
      (∃ t, exec (.fqackSkip o) s = .next t ∧ (t.group g).fault = none ∧
        ∀ l, t.lane g l =
          if h.frec.lanes.getLsbD l ∧ (Map.find (s.group g).lanes l).isSome then
            { s.lane g l with pc := h.frec.pc + BitVec.ofNat 64 (lengthOf (firstWord s g h.frec.pc.toNat)) } else s.lane g l) ∧
      (∃ t, exec (.fqackExit o) s = .next t ∧ (t.group g).fault = none ∧
        ∀ l, (Map.find (s.group g).lanes l).isSome →
          t.lane g l = if h.frec.lanes.getLsbD l then (s.lane g l).exit else s.lane g l)) ∧
  (
    ∀ (s : State) (o : AckOp) (x : Holder) (k : Nat) (code : BitVec 8),
      hostWaits s o.port = false → ackHolder s o = some x → holderTeam s x = some (k, code) →
      exec (.fqackEndteam o) s = .next (endTeam s k code) ∧
      exec (.fqackEndgrid o) s = .next (endGrid s (s.team k).ctx (s.team k).lid.toNat code) ∧
      ((s.team k).st = .resident → ((endTeam s k code).team k).st = .ending) ∧
      (let c := (s.team k).ctx
       let lid := (s.team k).lid
       let g := s.grid c lid.toNat
       ((s.team k).st ∉ [TeamSt.saved, .ended, .ending] → ∃ t, exec (.fqackEndteam o) s = .next t ∧ (t.team k).st = .ending ∧
         (t.team k).note = none ∧ (∀ i, (t.group ⟨k, i⟩).fault = none ∧ (t.group ⟨k, i⟩).waits = []) ∧
         (t.grid c lid.toNat).ended = some (g.ended.getD code)) ∧
       ((s.team k).st = .saved → ∃ t, exec (.fqackEndteam o) s = .next t ∧
         ((t.team k).st = .ended ∨ Map.find t.teams k = none)) ∧
       ((∀ j ∈ gridTeams s c lid.toNat, (s.team j).st ≠ .saved) → ∃ t, exec (.fqackEndgrid o) s = .next t ∧
         (∀ j ∈ gridTeams s c lid.toNat, (s.team j).st ≠ .ended → (t.team j).st = .ending) ∧
         (t.grid c lid.toNat).teams = g.placed ∧ (t.grid c lid.toNat).back = [] ∧
         (t.grid c lid.toNat).ended = some (g.ended.getD code) ∧ ∀ q, lid ∉ Map.get [] (t.ctx c).queues q)) ∧
      (∀ g i, x = .notice g i → (s.team g.team).st ≠ .saved →
        ∃ t, exec (.fqackContinue o) s = .next t ∧
          (t.group g).waits = (s.group g).waits.map (fun w =>
            if w.entry = some i then { w with until_ := s.now + 2 ^ 28, noted := false, entry := none } else w)) ∧
      (∀ j, x = .team j → ∃ t, exec (.fqackContinue o) s = .next t ∧ (t.team j).note = none))

/-! ## Integers and predicates (R232 to R236) -/

/-- The integer sums, differences and products of R232 and their clamping: the exact result modulo 2^32, or with SAT clamped to the
type's range, and FPFLAGS.SAT exactly where the clamp changed it. IMUL and IMAD clamp the exact product or sum. -/
def Obligations.IntegerArithmetic : Prop :=
  ∀ (s : State) (r : GRef),
    (∀ o : Alu2,
      let a := fun (t : Thread) => typeVal o.n (t.r o.a)
      let b := fun (I : Iss) (t : Thread) => typeVal o.n (srcI I.gp o.n t o.b)
      let res := fun (x : Int) => (fitted o.n o.sat x, clampFlag o.n o.sat x)
      (clear (.iadd o) s r → GivesF (.iadd o) s r o.d (fun I _ t => res (a t + b I t))) ∧
      (clear (.isub o) s r → GivesF (.isub o) s r o.d (fun I _ t => res (a t - b I t))) ∧
      (clear (.imul o) s r → GivesF (.imul o) s r o.d (fun I _ t => res (a t * b I t))) ∧
      (clear (.imulh o) s r → Gives (.imulh o) s r o.d (fun I _ t => BitVec.ofInt 32 ((a t * b I t) / 2 ^ 32))) ∧
      (clear (.imin o) s r → Gives (.imin o) s r o.d (fun I _ t => BitVec.ofInt 32 (min (a t) (b I t)))) ∧
      (clear (.imax o) s r → Gives (.imax o) s r o.d (fun I _ t => BitVec.ofInt 32 (max (a t) (b I t))))) ∧
    (∀ o : Alu3,
      let a := fun (t : Thread) => typeVal o.n (t.r o.a)
      let b := fun (I : Iss) (t : Thread) => typeVal o.n (srcI I.gp o.n t o.b)
      let c := fun (t : Thread) => typeVal o.n (t.r o.c)
      let res := fun (x : Int) => (fitted o.n o.sat x, clampFlag o.n o.sat x)
      (clear (.iadd3 o) s r → GivesF (.iadd3 o) s r o.d (fun I _ t => res (a t + b I t + c t))) ∧
      (clear (.imad o) s r → GivesF (.imad o) s r o.d (fun I _ t => res (a t * b I t + c t))) ∧
      (clear (.imadw o) s r → Gives2 (.imadw o) s r o.d (fun I _ t => BitVec.ofInt 64 (a t * b I t) + t.rw o.c))) ∧
    (∀ o : Alu1,
      let res := fun (x : Int) => (fitted false o.sat x, clampFlag false o.sat x)
      (clear (.iabs o) s r → GivesF (.iabs o) s r o.d (fun _ _ t => res |(t.r o.a).toInt|)) ∧
      (clear (.ineg o) s r → GivesF (.ineg o) s r o.d (fun _ _ t => res (-(t.r o.a).toInt)))) ∧
    (∀ o : OpIAdd64, clear (.iadd64 o) s r →
      Gives2 (.iadd64 o) s r o.d (fun I _ t => t.rw o.a + srcW I.gp o.n t o.b))

/-- R234: IDIV and IREM interpret a and b by N; division by zero, and the most negative number by −1, have the results of the table, and
neither instruction faults or sets a flag. -/
def Obligations.DivisionTable : Prop :=
  ∀ (s : State) (r : GRef) (o : Alu2),
    let b := fun (I : Iss) (t : Thread) => srcI I.gp o.n t o.b
    (clear (.idiv o) s r → registerFrame (.idiv o) s r ∧ Gives (.idiv o) s r o.d (fun I _ t =>
      let x := t.r o.a
      let y := b I t
      if y = 0 then 0xFFFFFFFF
      else if o.n = false ∧ x = 0x80000000 ∧ y = 0xFFFFFFFF then 0x80000000
      else if o.n then BitVec.ofNat 32 (x.toNat / y.toNat) else BitVec.ofInt 32 (x.toInt.tdiv y.toInt))) ∧
    (clear (.irem o) s r → registerFrame (.irem o) s r ∧ Gives (.irem o) s r o.d (fun I _ t =>
      let x := t.r o.a
      let y := b I t
      if y = 0 then x
      else if o.n = false ∧ x = 0x80000000 ∧ y = 0xFFFFFFFF then 0
      else if o.n then BitVec.ofNat 32 (x.toNat - y.toNat * (x.toNat / y.toNat))
      else BitVec.ofInt 32 (x.toInt - y.toInt * x.toInt.tdiv y.toInt)))

/-- The bitwise operations and moves of R232, and the counts and the bit reversal, bit by bit. ISETP, PLOP3 and PMOV (R235): comparisons
under the type, folded into the destination by ACC; PLOP3's functions after negation; PMOV's 32 predicates at a time. Writes to p127 are
ignored. -/
def Obligations.BitwiseMovesPredicates : Prop :=
  (
    ∀ (s : State) (r : GRef),
      (∀ o : Alu2,
        let b := fun (I : Iss) (t : Thread) => srcI I.gp o.n t o.b
        (clear (.and o) s r → Gives (.and o) s r o.d (fun I _ t => t.r o.a &&& b I t)) ∧
        (clear (.or o) s r → Gives (.or o) s r o.d (fun I _ t => t.r o.a ||| b I t)) ∧
        (clear (.xor o) s r → Gives (.xor o) s r o.d (fun I _ t => t.r o.a ^^^ b I t)) ∧
        (clear (.andn o) s r → Gives (.andn o) s r o.d (fun I _ t => t.r o.a &&& ~~~(b I t)))) ∧
      (∀ o : Alu1,
        (clear (.not o) s r → Gives (.not o) s r o.d (fun _ _ t => ~~~(t.r o.a))) ∧
        (clear (.mov o) s r → Gives (.mov o) s r o.d (fun _ _ t => t.r o.a)) ∧
        (clear (.popc o) s r → Gives (.popc o) s r o.d (fun _ _ t =>
          BitVec.ofNat 32 ((List.range 32).filter (fun j => (t.r o.a).getLsbD j)).length)) ∧
        (clear (.clz o) s r → Leads (.clz o) s (fun t => ∀ l ∈ (enter (.clz o) s r).en,
          let x := ((enter (.clz o) s r).th l).r o.a
          let n := ((t.lane r l).value o.d.toNat).toNat
          n ≤ 32 ∧ (∀ j, 32 - n ≤ j → x.getLsbD j = false) ∧ (n < 32 → x.getLsbD (31 - n) = true))) ∧
        (clear (.ctz o) s r → Leads (.ctz o) s (fun t => ∀ l ∈ (enter (.ctz o) s r).en,
          let x := ((enter (.ctz o) s r).th l).r o.a
          let n := ((t.lane r l).value o.d.toNat).toNat
          n ≤ 32 ∧ (∀ j, j < n → x.getLsbD j = false) ∧ (n < 32 → x.getLsbD n = true))) ∧
        (clear (.brev o) s r → Leads (.brev o) s (fun t => ∀ l ∈ (enter (.brev o) s r).en, ∀ j, j < 32 →
          ((t.lane r l).value o.d.toNat).getLsbD j = (((enter (.brev o) s r).th l).r o.a).getLsbD (31 - j)))) ∧
      (∀ o : OpMovi, clear (.movi o) s r → Gives (.movi o) s r o.d (fun _ _ t =>
        if o.hi then o.imm ++ (t.r o.d).setWidth 16 else if o.n then o.imm.setWidth 32 else o.imm.signExtend 32)) ∧
      (∀ o : OpMovu, clear (.movu o) s r → Gives (.movu o) s r o.d (fun I _ _ =>
        if o.hi then (I.rs o.a >>> 32).setWidth 32 else (I.rs o.a).setWidth 32)) ∧
      (∀ o : OpMovs, clear (.movs o) s r → Gives (.movs o) s r o.d (fun I l _ => specialReg I.s r l o.sr.toNat)) ∧
      (∀ o : OpISel, clear (.isel o) s r →
        Gives (.isel o) s r o.d (fun I _ t => if t.rp o.c.toNat then t.r o.a else srcI I.gp false t o.b))) ∧
  (
    ∀ (s : State) (r : GRef),
      (∀ o : OpSetp, clear (.isetp o) s r → o.cond.toNat < 6 → GivesP (.isetp o) s r o.d (fun I _ t =>
        let a := typeVal o.n (t.r o.a)
        let b := typeVal o.n (srcI I.gp o.n t o.b)
        let cmp : Bool := match o.cond.toNat with
          | 0 => decide (a = b)
          | 1 => decide (a ≠ b)
          | 2 => decide (a < b)
          | 3 => decide (a ≤ b)
          | 4 => decide (b < a)
          | _ => decide (b ≤ a)
        let d := t.rp o.d.toNat
        match o.acc.toNat with
        | 0 => cmp
        | 1 => d && cmp
        | 2 => d || cmp
        | _ => xor d cmp)) ∧
      (∀ o : OpPlop3, clear (.plop3 o) s r → o.fn.toNat < 7 → GivesP (.plop3 o) s r o.d (fun _ _ t =>
        let a := xor (t.rp o.a.toNat) (o.neg.getLsbD 0)
        let b := xor (t.rp o.b.toNat) (o.neg.getLsbD 1)
        let c := xor (t.rp o.c.toNat) (o.neg.getLsbD 2)
        match o.fn.toNat with
        | 0 => a && b && c
        | 1 => a || b || c
        | 2 => xor a (xor b c)
        | 3 => decide (2 ≤ a.toNat + b.toNat + c.toNat)
        | 4 => if a then b else c
        | 5 => (a && b) || c
        | _ => (a || b) && c)) ∧
      (∀ o : OpPmov, clear (.pmov o) s r → Leads (.pmov o) s (fun t => ∀ l ∈ (enter (.pmov o) s r).en, ∀ j, j < 32 →
        let u := (enter (.pmov o) s r).th l
        let n := 32 * o.k.toNat + j
        if o.fromv then (t.lane r l).pvalue n = (decide (n = 127) || (u.r o.r).getLsbD j)
        else ((t.lane r l).value o.r.toNat).getLsbD j = u.rp n)))

/-- R233: shifts, fields, the permute, the dot product and the wide products; with SAT IMUL and IMAD clamp the exact value. -/
def Obligations.ShiftFieldPermute : Prop :=
  ∀ (s : State) (r : GRef),
    (∀ o : Alu2,
      let b := fun (I : Iss) (t : Thread) => srcI I.gp o.n t o.b
      (clear (.shl o) s r → Gives (.shl o) s r o.d (fun I _ t =>
        if 32 ≤ (b I t).toNat then 0 else BitVec.ofNat 32 ((t.r o.a).toNat * 2 ^ (b I t).toNat))) ∧
      (clear (.shr o) s r → Gives (.shr o) s r o.d (fun I _ t =>
        if 32 ≤ (b I t).toNat then 0 else BitVec.ofNat 32 ((t.r o.a).toNat / 2 ^ (b I t).toNat))) ∧
      (clear (.sar o) s r → Gives (.sar o) s r o.d (fun I _ t =>
        if 32 ≤ (b I t).toNat then (if (t.r o.a).getLsbD 31 then 0xFFFFFFFF else 0) else (t.r o.a).sshiftRight (b I t).toNat)) ∧
      (clear (.rotl o) s r → Gives (.rotl o) s r o.d (fun I _ t =>
        let k := (b I t).toNat % 32
        (t.r o.a <<< k) ||| (t.r o.a >>> (32 - k)))) ∧
      (clear (.bfe o) s r → Gives (.bfe o) s r o.d (fun I _ t =>
        let pos := (b I t).toNat % 256
        let len := (b I t).toNat / 256 % 256
        if len = 0 ∨ 32 ≤ pos then 0
        else
          let w := min (pos + len) 32 - pos
          let f : BitVec w := (t.r o.a >>> pos).setWidth w
          if o.n then f.setWidth 32 else f.signExtend 32)) ∧
      (clear (.imulh o) s r → Gives (.imulh o) s r o.d (fun I _ t =>
        let ext := fun (x : Word32) => if o.n then x.setWidth 64 else x.signExtend 64
        ((ext (t.r o.a) * ext (b I t)) >>> 32).setWidth 32)) ∧
      (o.sat = true → clear (.imul o) s r → GivesF (.imul o) s r o.d (fun I _ t =>
        let x := typeVal o.n (t.r o.a) * typeVal o.n (b I t)
        (BitVec.ofInt 32 (max (typeMin o.n) (min (typeMax o.n) x)), if x < typeMin o.n ∨ typeMax o.n < x then fSAT else 0)))) ∧
    (∀ o : Alu3,
      (clear (.bfi o) s r → Leads (.bfi o) s (fun u => ∀ l ∈ (enter (.bfi o) s r).en, ∀ j, j < 32 →
        let I := enter (.bfi o) s r
        let t := I.th l
        let b := srcI I.gp o.n t o.b
        let pos := b.toNat % 256
        let len := b.toNat / 256 % 256
        ((u.lane r l).value o.d.toNat).getLsbD j =
          if pos ≤ j ∧ j < min (pos + len) 32 then (t.r o.a).getLsbD (j - pos) else (t.r o.c).getLsbD j)) ∧
      (clear (.prmt o) s r → Leads (.prmt o) s (fun u => ∀ l ∈ (enter (.prmt o) s r).en, ∀ k, k < 4 →
        let I := enter (.prmt o) s r
        let t := I.th l
        let c := t.r o.c
        let n := ((c >>> (3 * k)) &&& 7).toNat
        let both : Word64 := srcI I.gp o.n t o.b ++ t.r o.a
        (((u.lane r l).value o.d.toNat) >>> (8 * k)) &&& 0xFF =
          if c.getLsbD (12 + k) then 0 else ((both >>> (8 * n)).setWidth 32) &&& 0xFF)) ∧
      (clear (.imadw o) s r → Gives2 (.imadw o) s r o.d (fun I _ t =>
        let ext := fun (x : Word32) => if o.n then x.setWidth 64 else x.signExtend 64
        ext (t.r o.a) * ext (srcI I.gp o.n t o.b) + t.rw o.c)) ∧
      (o.sat = true → clear (.imad o) s r → GivesF (.imad o) s r o.d (fun I _ t =>
        let x := typeVal o.n (t.r o.a) * typeVal o.n (srcI I.gp o.n t o.b) + typeVal o.n (t.r o.c)
        (BitVec.ofInt 32 (max (typeMin o.n) (min (typeMax o.n) x)), if x < typeMin o.n ∨ typeMax o.n < x then fSAT else 0)))) ∧
    (∀ o : OpIdp4, clear (.idp4 o) s r → GivesF (.idp4 o) s r o.d (fun I _ t =>
      let byte := fun (u : Bool) (x : Word32) (k : Nat) =>
        let y : BitVec 8 := (x >>> (8 * k)).setWidth 8
        if u then (y.toNat : Int) else y.toInt
      let b := srcI I.gp false t o.b
      let sum := typeVal (o.ua && o.ub) (t.r o.c) + byte o.ua (t.r o.a) 0 * byte o.ub b 0 + byte o.ua (t.r o.a) 1 * byte o.ub b 1 +
        byte o.ua (t.r o.a) 2 * byte o.ub b 2 + byte o.ua (t.r o.a) 3 * byte o.ub b 3
      (fitted (o.ua && o.ub) o.sat sum, clampFlag (o.ua && o.ub) o.sat sum))) ∧
    (∀ o : OpLea, clear (.lea o) s r → Gives2 (.lea o) s r o.d (fun I _ t =>
      srcW I.gp false t o.b + ((if o.n then (t.r o.a).setWidth 64 else (t.r o.a).signExtend 64) <<< o.sh.toNat)))

/-- R236: the uniform operations on 64-bit s-registers. Results wrap modulo 2^64, a shift of 64 or more gives 0, UFROM reads the lowest
enabled lane. -/
def Obligations.UniformResults : Prop :=
  ∀ (s : State) (r : GRef),
    (∀ o : U2,
      let a := fun (I : Iss) => I.rs o.a
      let b := fun (I : Iss) => match o.b with
        | .s q => I.rs q
        | .imm x => if o.n then x.setWidth 64 else x.signExtend 64
      (clear (.uadd o) s r → GivesS (.uadd o) s r o.d (fun I => a I + b I)) ∧
      (clear (.usub o) s r → GivesS (.usub o) s r o.d (fun I => a I - b I)) ∧
      (clear (.umul o) s r → GivesS (.umul o) s r o.d (fun I => a I * b I)) ∧
      (clear (.uand o) s r → GivesS (.uand o) s r o.d (fun I => a I &&& b I)) ∧
      (clear (.uor o) s r → GivesS (.uor o) s r o.d (fun I => a I ||| b I)) ∧
      (clear (.uxor o) s r → GivesS (.uxor o) s r o.d (fun I => a I ^^^ b I)) ∧
      (clear (.ushl o) s r → GivesS (.ushl o) s r o.d (fun I => if 64 ≤ (b I).toNat then 0 else a I <<< (b I).toNat)) ∧
      (clear (.ushr o) s r → GivesS (.ushr o) s r o.d (fun I => if 64 ≤ (b I).toNat then 0 else a I >>> (b I).toNat))) ∧
    (∀ o : OpSd, clear (.umov o) s r → GivesS (.umov o) s r o.d (fun I => I.rs o.a)) ∧
    (∀ o : OpUmovi, clear (.umovi o) s r → GivesS (.umovi o) s r o.d (fun _ => o.imm)) ∧
    (∀ o : OpUsel, clear (.usel o) s r → GivesS (.usel o) s r o.d (fun I => if I.rs o.c = 0 then I.rs o.b else I.rs o.a)) ∧
    (∀ o : OpUcmp, clear (.ucmp o) s r → o.cond.toNat < 6 → GivesS (.ucmp o) s r o.d (fun I =>
      let y := srcU I.gp o.n o.b
      let a : Int := if o.n then ((I.rs o.a).toNat : Int) else (I.rs o.a).toInt
      let b : Int := if o.n then (y.toNat : Int) else y.toInt
      let cmp : Bool := match o.cond.toNat with
        | 0 => decide (a = b)
        | 1 => decide (a ≠ b)
        | 2 => decide (a < b)
        | 3 => decide (a ≤ b)
        | 4 => decide (b < a)
        | _ => decide (b ≤ a)
      if cmp then 1 else 0)) ∧
    (∀ o : OpUfrom, clear (.ufrom o) s r → GivesS (.ufrom o) s r o.d (fun I =>
      if o.w then (I.th (I.en.headD 0)).rw o.a else ((I.th (I.en.headD 0)).r o.a).setWidth 64)) ∧
    (∀ o : OpUlea, clear (.ulea o) s r → GivesS (.ulea o) s r o.d (fun I => I.rs o.b + (I.rs o.a <<< o.sh.toNat)))

/-! ## Floating point, conversions, cross-lane (R129 to R142, R244 to R257) -/

/-- FP32 arithmetic (R244, R245): one rounding of the exact result by RM, operands and result flushed under FPCTL.FTZ; FMIN, FMAX,
FSETP, FRND and FCLASS set no flags. FMIN and FMAX on codes (R245): a NaN gives way to the other operand, two NaNs give the canonical
NaN, −0 orders below +0, and otherwise the lesser or the greater value results. -/
def Obligations.FloatArithmetic : Prop :=
  (
    ∀ (s : State) (r : GRef),
      (∀ o : F2,
        let rm := Rnd.ofCode o.rm.toNat 0
        let a := fun (I : Iss) (t : Thread) => ftzIn I.gp.ftz (t.r o.a).toNat
        let b := fun (I : Iss) (t : Thread) => ftzIn I.gp.ftz (srcF I.gp t o.b).toNat
        let res := fun (I : Iss) (x y : Nat) (e : Ev) =>
          let q := FP32.enc rm false false e
          let nv := if e.isNan ∧ !(FP32.val x).isNan ∧ !(FP32.val y).isNan then fNV else 0
          toRes (ftzOut I.gp.ftz (q.1, q.2 ||| nv))
        (clear (.fadd o) s r → GivesF (.fadd o) s r o.d (fun I _ t =>
          res I (a I t) (b I t) (Ev.add (decide (rm = .rd)) (FP32.val (a I t)) (FP32.val (b I t))))) ∧
        (clear (.fsub o) s r → GivesF (.fsub o) s r o.d (fun I _ t =>
          res I (a I t) (b I t) (Ev.add (decide (rm = .rd)) (FP32.val (a I t)) (FP32.val (b I t)).neg))) ∧
        (clear (.fmul o) s r → GivesF (.fmul o) s r o.d (fun I _ t =>
          res I (a I t) (b I t) (Ev.mul (FP32.val (a I t)) (FP32.val (b I t))))) ∧
        (clear (.fmin o) s r → Gives (.fmin o) s r o.d (fun I _ t => BitVec.ofNat 32 (FP32.minmax false (a I t) (b I t)))) ∧
        (clear (.fmax o) s r → Gives (.fmax o) s r o.d (fun I _ t => BitVec.ofNat 32 (FP32.minmax true (a I t) (b I t))))) ∧
      (∀ o : F3, clear (.ffma o) s r → GivesF (.ffma o) s r o.d (fun I _ t =>
        fp3 I.gp.ftz (FP32.fmaOp (Rnd.ofCode o.rm.toNat 0)) (t.r o.a) (srcF I.gp t o.b) (t.r o.c))) ∧
      (∀ o : OpSetp, clear (.fsetp o) s r → GivesP (.fsetp o) s r o.d (fun I _ t =>
        let a := FP32.val (ftzIn I.gp.ftz (t.r o.a).toNat)
        let b := FP32.val (ftzIn I.gp.ftz (srcF I.gp t o.b).toNat)
        let nan := a.isNan || b.isNan
        let cmp : Bool := match o.cond.toNat with
          | 0 => Ev.eqv a b
          | 1 => !Ev.eqv a b
          | 2 => Ev.lt a b
          | 3 => Ev.lt a b || Ev.eqv a b
          | 4 => Ev.lt b a
          | 5 => Ev.lt b a || Ev.eqv a b
          | 6 => !nan
          | _ => nan
        let d := t.rp o.d.toNat
        match o.acc.toNat with
        | 0 => cmp
        | 1 => d && cmp
        | 2 => d || cmp
        | _ => xor d cmp)) ∧
      (∀ o : OpFrnd, clear (.frnd o) s r →
        Gives (.frnd o) s r o.d (fun _ _ t => BitVec.ofNat 32 (frnd (Rnd.ofCode o.rm.toNat 0) (t.r o.a).toNat))) ∧
      (∀ o : Un, clear (.fclass o) s r →
        Gives (.fclass o) s r o.d (fun _ _ t => BitVec.ofNat 32 (fclass (t.r o.a).toNat)))) ∧
  (
    ∀ (f : Fmt) (mx : Bool) (a b : Nat),
      let m := f.minmax mx a b
      ((f.val a).isNan → (f.val b).isNan → m = f.cnan) ∧
      ((f.val a).isNan → (f.val b).isNan = false → m = b) ∧
      ((f.val a).isNan = false → (f.val b).isNan → m = a) ∧
      ((f.val a).isNan = false → (f.val b).isNan = false → (m = a ∨ m = b) ∧
        (mx = false → Ev.ltz (f.val a) (f.val m) = false ∧ Ev.ltz (f.val b) (f.val m) = false) ∧
        (mx = true → Ev.ltz (f.val m) (f.val a) = false ∧ Ev.ltz (f.val m) (f.val b) = false)))

/-- The packed instructions act on the two halves independently, each rounded once by round_rne in its format; the flags of both are
ORed (R246). A P word does both halves from the operands before it; each is the F form of its mnemonic with MOD[6:0] = 0, its
destination also its first source (R192, R193). When both name one destination the second half's result stands. -/
def Obligations.PackedAndPairedHalves : Prop :=
  (
    ∀ (s : State) (r : GRef),
      let halves := fun (f : Nat → Nat → Nat × Nat) (x y : Word32) =>
        let lo := f (x.toNat % 65536) (y.toNat % 65536)
        let hi := f (x.toNat / 65536) (y.toNat / 65536)
        (BitVec.ofNat 32 (lo.1 + 65536 * hi.1), lo.2 ||| hi.2)
      let fmt := fun (t : Bool) => if t then FP16 else BF16
      (∀ o : OpH2,
        (clear (.h2add o) s r → GivesF (.h2add o) s r o.d (fun I _ t =>
          halves ((fmt o.t).addOp .rne) (t.r o.a) (srcH I.gp t o.b))) ∧
        (clear (.h2mul o) s r → GivesF (.h2mul o) s r o.d (fun I _ t =>
          halves ((fmt o.t).mulOp .rne) (t.r o.a) (srcH I.gp t o.b))) ∧
        (clear (.h2min o) s r → Gives (.h2min o) s r o.d (fun I _ t =>
          (halves (fun x y => ((fmt o.t).minmax false x y, 0)) (t.r o.a) (srcH I.gp t o.b)).1)) ∧
        (clear (.h2max o) s r → Gives (.h2max o) s r o.d (fun I _ t =>
          (halves (fun x y => ((fmt o.t).minmax true x y, 0)) (t.r o.a) (srcH I.gp t o.b)).1))) ∧
      (∀ o : OpH3, clear (.h2fma o) s r → GivesF (.h2fma o) s r o.d (fun I _ t =>
        let a := t.r o.a
        let b := srcH I.gp t o.b
        let c := t.r o.c
        let lo := (fmt o.t).fmaOp .rne (a.toNat % 65536) (b.toNat % 65536) (c.toNat % 65536)
        let hi := (fmt o.t).fmaOp .rne (a.toNat / 65536) (b.toNat / 65536) (c.toNat / 65536)
        (BitVec.ofNat 32 (lo.1 + 65536 * hi.1), lo.2 ||| hi.2))) ∧
      (∀ o : OpH2Setp, o.d ≠ 127 → clear (.h2setp o) s r → Leads (.h2setp o) s (fun u =>
        ∀ l ∈ (enter (.h2setp o) s r).en,
          let I := enter (.h2setp o) s r
          let t := I.th l
          let cmp := fun (x y : Nat) => condOf o.cond.toNat (Ev.cmp ((fmt o.t).val x) ((fmt o.t).val y))
          (u.lane r l).pvalue o.d.toNat = cmp ((t.r o.a).toNat % 65536) ((srcH I.gp t o.b).toNat % 65536) ∧
          (u.lane r l).pvalue (o.d.toNat + 1) =
            (decide (o.d = 126) || cmp ((t.r o.a).toNat / 65536) ((srcH I.gp t o.b).toNat / 65536))))) ∧
  (
    ∀ (s : State) (r : GRef) (a b : Half), clear (.pWord a b) s r → Leads (.pWord a b) s (fun u =>
      let I := enter (.pWord a b) s r
      (∀ l ∈ I.en,
        (u.lane r l).value b.d.toNat = (halfR I.gp (I.th l) b).1 ∧
        (a.d ≠ b.d → (u.lane r l).value a.d.toNat = (halfR I.gp (I.th l) a).1)) ∧
      flagged I s u (fun l _ => (halfR I.gp (I.th l) a).2 ||| (halfR I.gp (I.th l) b).2)))

/-- The special functions (R247): each completes with its result and flags; the special cases are those of the table. FEXP2, FLOG2,
FSIN, FCOS and FTANH of other operands are the model's free functions of the operand (log entry 4); those of FSIN and FTANH of a finite
operand other than zero are inexact, and set NX, and UF where the exact result lies below 2^−126 (R139). FRCP is correctly rounded (R247):
for a finite operand other than zero whose result is finite, the result has the operand's sign and lies within half a unit of its last
place of the exact reciprocal. -/
def Obligations.SpecialFunctions : Prop :=
  (
    (∀ (s : State) (r : GRef) (o : Un),
      (clear (.frcp o) s r → GivesF (.frcp o) s r o.d (fun _ _ t => toRes (frcp (t.r o.a).toNat))) ∧
      (clear (.frsq o) s r → GivesF (.frsq o) s r o.d (fun _ _ t => toRes (frsq (t.r o.a).toNat))) ∧
      (clear (.fsqrt o) s r → GivesF (.fsqrt o) s r o.d (fun _ _ t => toRes (fsqrt (t.r o.a).toNat))) ∧
      (clear (.fexp2 o) s r → GivesF (.fexp2 o) s r o.d (fun _ _ t => toRes (fexp2 (t.r o.a).toNat))) ∧
      (clear (.flog2 o) s r → GivesF (.flog2 o) s r o.d (fun _ _ t => toRes (flog2 (t.r o.a).toNat))) ∧
      (clear (.fsin o) s r → GivesF (.fsin o) s r o.d (fun _ _ t => toRes (fsin (t.r o.a).toNat))) ∧
      (clear (.fcos o) s r → GivesF (.fcos o) s r o.d (fun _ _ t => toRes (fcos (t.r o.a).toNat))) ∧
      (clear (.ftanh o) s r → GivesF (.ftanh o) s r o.d (fun _ _ t => toRes (ftanh (t.r o.a).toNat)))) ∧
    (let inf := 0x7F800000
     let ninf := 0xFF800000
     let nan := 0x7FC00000
     let nzero := 0x80000000
     frcp 0 = (inf, fDZ) ∧ frcp nzero = (ninf, fDZ) ∧ frcp inf = (0, 0) ∧ frcp ninf = (nzero, 0) ∧
     frsq 0 = (inf, fDZ) ∧ frsq nzero = (ninf, fDZ) ∧ frsq inf = (0, 0) ∧
     fsqrt nzero = (nzero, 0) ∧ fsqrt inf = (inf, 0) ∧
     (∀ a, 0x80000000 < a → a ≤ ninf → frsq a = (nan, fNV) ∧ fsqrt a = (nan, fNV) ∧ flog2 a = (nan, fNV)) ∧
     fexp2 ninf = (0, 0) ∧ fexp2 inf = (inf, 0) ∧ (∀ a, 0x43000000 ≤ a → a < inf → (fexp2 a).1 = inf ∧ (fexp2 a).2 = fOF + fNX) ∧
     flog2 0 = (ninf, fDZ) ∧ flog2 nzero = (ninf, fDZ) ∧ flog2 inf = (inf, 0) ∧ flog2 0x3F800000 = (0, 0) ∧
     fsin inf = (nan, fNV) ∧ fsin ninf = (nan, fNV) ∧ fsin 0 = (0, 0) ∧ fsin nzero = (nzero, 0) ∧
     fcos inf = (nan, fNV) ∧ fcos ninf = (nan, fNV) ∧
     ftanh inf = (0x3F800000, 0) ∧ ftanh ninf = (0xBF800000, 0) ∧ ftanh 0 = (0, 0) ∧ ftanh nzero = (nzero, 0)) ∧
    (∀ a s m e, FP32.val a = .num s m e → m ≠ 0 →
      let fl := fNX + (if a % 2 ^ 31 ≤ 2 ^ 23 then fUF else 0)
      (fsin a).2 = fl ∧ (ftanh a).2 = fl)) ∧
  (
    ∀ a, a < 2 ^ 32 → ∀ s m e s' m' e', FP32.val a = .num s m e → m ≠ 0 → FP32.val (frcp a).1 = .num s' m' e' →
      s' = s ∧
      let x : ℚ := (m : ℚ) * (2 : ℚ) ^ e
      let q : ℚ := (m' : ℚ) * (2 : ℚ) ^ e'
      2 * |1 - q * x| ≤ x * (2 : ℚ) ^ e')

/-- The rounding functions (R135): the multiple n of the unit 2^q that each returns for the magnitude m × 2^e of sign s, and that the
inexact flag says whether it differs from the exact value. R136: stochastic rounding takes the next value of greater magnitude exactly
when the word is below the discarded fraction, scaled by 2^32 and cut off; an exact value is never changed, and the word 0 rounds an
inexact value up whose fraction so scaled is not 0 (one below 2^−32 it leaves, which is the model's reading: log entry 26). R137: sat_to a
float format gives NaN for NaN, the largest finite magnitude with x's sign, and SAT, for an infinity and where the rounded value lies
beyond that magnitude, and otherwise the rounded value, without SAT; sat_to an integer format clamps to its least and greatest values. -/
def Obligations.RoundingAndSaturation : Prop :=
  (
    ∀ (s : Bool) (m : Nat) (e q : Int),
      let x : ℚ := (m : ℚ) * (2 : ℚ) ^ (e - q)
      let n := fun (r : Rnd) => (((roundAt r s m e q false).1 : Nat) : ℚ)
      (|n .rne - x| ≤ 1 / 2 ∧ (|n .rne - x| = 1 / 2 → (roundAt .rne s m e q false).1 % 2 = 0)) ∧
      (n .rz ≤ x ∧ x < n .rz + 1) ∧
      (if s then x ≤ n .rd ∧ n .rd < x + 1 else n .rd ≤ x ∧ x < n .rd + 1) ∧
      (if s then n .ru ≤ x ∧ x < n .ru + 1 else x ≤ n .ru ∧ n .ru < x + 1) ∧
      (∀ r, (roundAt r s m e q false).2 = decide (n r ≠ x))) ∧
  (
    ∀ (s : Bool) (m : Nat) (e q : Int) (w : Nat), w < 2 ^ 32 →
      let x : ℚ := (m : ℚ) * (2 : ℚ) ^ (e - q)
      let lo := (roundAt .rz s m e q false).1
      let sr := fun (w : Nat) => (roundAt (.sr w) s m e q false).1
      let frac := ⌊(x - (lo : ℚ)) * 2 ^ 32⌋
      ((lo : ℚ) = x → sr w = lo) ∧
      ((lo : ℚ) ≠ x → frac ≤ 2 ^ 32 - 1 ∧ sr w = if (w : Int) < frac then lo + 1 else lo) ∧
      ((lo : ℚ) ≠ x → 1 ≤ frac → sr 0 = lo + 1)) ∧
  (
    (∀ (f : Fmt) (r : Rnd) (s : Bool),
      (f.enc r true false .nan).1 = f.cnan ∧ (f.enc r true false (.inf s)).1 = f.signBit s + f.maxCode) ∧
    (∀ (f : IFmt) (x : Int), f.lo ≤ f.hi →
      (f.sat x).1 = max f.lo (min f.hi x) ∧ ((f.sat x).2 = fSAT ↔ (f.sat x).1 ≠ x) ∧ ((f.sat x).2 = 0 ↔ (f.sat x).1 = x)) ∧
    (∀ (r : Rnd) (s : Bool) (m : Nat) (e top : Int), ∀ f ∈ [FP32, FP16, BF16, E4M3, E5M2, E3M2, E2M3, E2M1], ∀ (mm : Nat) (me : Int),
      (2 : ℚ) ^ top ≤ (m : ℚ) * (2 : ℚ) ^ e → (m : ℚ) * (2 : ℚ) ^ e < (2 : ℚ) ^ (top + 1) → f.val f.maxCode = .num false mm me →
      let q : Int := max top (1 - (f.bias : Int)) - f.mb
      let v : ℚ := ((roundAt r s m e q false).1 : ℚ) * (2 : ℚ) ^ q
      let big : ℚ := (mm : ℚ) * (2 : ℚ) ^ me
      let x := f.enc r true false (.num s m e)
      (big < v → x.1 = f.signBit s + f.maxCode ∧ x.2 &&& fSAT = fSAT) ∧
      (v ≤ big → x.2 &&& fSAT = 0 ∧ ∃ n d, f.val x.1 = .num s n d ∧ (n : ℚ) * (2 : ℚ) ^ d = v)) ∧
    (∀ (r : Rnd) (s : Bool) (e : Int) (f : Fmt), f.enc r true false (.num s 0 e) = (f.signBit s, 0)))

/-- R129: an E8M0 scale of code c is 2^(c − 127); code 0xFF is NaN; it has no sign, no zero and no infinity. -/
def Obligations.E8M0Scales : Prop :=
  (∀ c, c < 255 → e8m0 c = .num false 1 ((c : Int) - 127)) ∧ e8m0 255 = .nan ∧
  ∀ c, c < 256 → (e8m0 c).isZero = false ∧ (e8m0 c).isInf = false ∧ (e8m0 c).sign = false

/-- The register conversions (R250 to R253): CVT, CVTQ, CVTDQ and MXDQ encode the exact value, rounded once, in the destination format;
`.sat` leaves a conversion alone that is exact for every value. To an integer format the value is rounded to an integer and clamped; the
flags of a clamp are the model's reading (log entry 25). RNGS is srh of the seed, the stream and the index. CVTQ replaces one element and
keeps every bit outside its position (R251). MXQ gives each participant its element's code and the scale of its block (R142): of 32
values of which one is a NaN or an infinity 0xFF and zero codes, of zeros −127, otherwise the floor of the greatest logarithm less emax,
within −127 to 127, each element being divided by it and encoded; in groups of 16 lanes it is illegal. -/
def Obligations.Conversions : Prop :=
  (
    ∀ (s : State) (r : GRef),
      let flt := fun (k : Nat) => [FP32, FP16, BF16, E4M3, E5M2].getD k FP32
      let int := fun (k : Nat) => [I32, N32, I16, I8, N8, I4].getD k I4
      let fresh := fun (a b x : Ev) => if x.isNan && !a.isNan && !b.isNan then fNV else 0
      (∀ o : OpCvt, clear (.cvt o) s r → GivesF (.cvt o) s r o.d (fun I _ t =>
        let dt := o.dt.toNat
        let st := o.st.toNat
        let a := (t.r o.a).toNat
        if st < 5 then
          let rm := Rnd.ofCode o.rm.toNat (srh I.gp.srseed.toNat 0 (t.r o.c).toNat)
          let x := (flt st).val (a % 2 ^ (flt st).bits)
          if dt < 5 then
            let exact : Bool := decide (dt = 0) || (decide (dt = 2) && (decide (st = 3) || decide (st = 4)))
            let y := (flt dt).enc rm (o.sat && !exact) false x
            (BitVec.ofNat 32 y.1, y.2)
          else
            let y := (int (dt - 5)).enc rm x
            (BitVec.ofInt 32 y.1, y.2)
        else
          let x := (int (st - 5)).val a
          if dt < 5 then
            let y := (flt dt).enc .rne o.sat false (.num (decide (x < 0)) x.natAbs 0)
            (BitVec.ofNat 32 y.1, y.2)
          else
            let y := (int (dt - 5)).sat x
            (BitVec.ofInt 32 y.1, y.2))) ∧
      (∀ o : OpCvtq, clear (.cvtq o) s r → GivesF (.cvtq o) s r o.d (fun I _ t =>
        let f := o.fmt.toNat
        let rm := if o.sr then Rnd.sr (srh I.gp.srseed.toNat 1 (t.r o.c).toNat) else .rne
        let a := FP32.val (t.r o.a).toNat
        let b := FP32.val (srcF I.gp t o.b).toNat
        let x := Ev.mul a b
        let y : Nat × Nat :=
          if f < 4 then ([FP16, BF16, E4M3, E5M2].getD f FP16).enc rm true false x
          else
            let g := [I8, N8].getD (f - 4) I4
            let z := g.enc rm x
            (intBits g.bits z.1, z.2)
        let w := if f < 2 then 16 else if f < 6 then 8 else 4
        let m : Word32 := BitVec.ofNat 32 ((2 ^ w - 1) * 2 ^ (w * o.pos.toNat))
        ((t.r o.d &&& ~~~m) ||| (BitVec.ofNat 32 (y.1 * 2 ^ (w * o.pos.toNat)) &&& m), y.2 ||| fresh a b x))) ∧
      (∀ o : OpCvtdq, clear (.cvtdq o) s r → GivesF (.cvtdq o) s r o.d (fun I _ t =>
        let f := o.fmt.toNat
        let w := if f < 2 then 16 else if f < 6 then 8 else 4
        let code := ((t.r o.a).toNat / 2 ^ (w * o.pos.toNat)) % 2 ^ w
        let e := if f < 4 then ([FP16, BF16, E4M3, E5M2].getD f FP16).val code else Ev.ofInt (([I8, N8].getD (f - 4) I4).val code)
        let b := FP32.val (srcF I.gp t o.b).toNat
        let y := FP32.enc .rne false false (Ev.mul e b)
        (BitVec.ofNat 32 y.1, y.2 ||| fresh e b (Ev.mul e b)))) ∧
      (∀ o : OpMxdq, clear (.mxdq o) s r → GivesF (.mxdq o) s r o.d (fun I _ t =>
        let e := elemVal o.fmt.toNat (extraOf I.gp.fp4x.toNat) ((t.r o.a).toNat % 2 ^ elemBits o.fmt.toNat)
        let x := e8m0 (srcI I.gp true t o.b).toNat
        let y := (if o.bf then BF16 else FP32).enc .rne false false (Ev.mul e x)
        (BitVec.ofNat 32 y.1, y.2 ||| fresh e x (Ev.mul e x)))) ∧
      (∀ (g : IFmt) (rm : Rnd), g.enc rm .nan = (0, fNV) ∧ (∀ b, g.enc rm (.inf b) = (if b then g.lo else g.hi, fSAT + fNX)) ∧
        ∀ b m e, let n := roundAt rm b m e 0 false
          let c := g.sat (if b then -(n.1 : Int) else n.1)
          (g.enc rm (.num b m e)).1 = c.1 ∧
          (g.enc rm (.num b m e)).2 = (if c.2 ≠ 0 then fSAT + fNX else if n.2 then fNX else 0)) ∧
      (∀ o : OpRngs, clear (.rngs o) s r → Gives (.rngs o) s r o.d (fun I _ t =>
        BitVec.ofNat 32 (srh I.gp.srseed.toNat (t.r o.a).toNat (srcI I.gp false t o.b).toNat))) ∧
      (∀ o : OpMxq, clear (.mxq o) s r → (s.team r.team).decl.gw ∈ [32, 64] → (∀ l ∈ (enter (.mxq o) s r).en, l < (s.team r.team).decl.gw) →
        Leads (.mxq o) s (fun u => ∀ l ∈ (enter (.mxq o) s r).en,
          let I := enter (.mxq o) s r
          let b := mxqBlock I o (l / 32)
          (u.lane r l).value o.d.toNat = BitVec.ofNat 32 (b.2.1.getD (l % 32) 0) ∧
          (u.lane r l).value (o.d.toNat + 1) = BitVec.ofNat 32 b.1)) ∧
      (∀ (I : Iss) (o : OpMxq) (j k : Nat), k < 32 →
        let v := fun (k : Nat) => if (32 * j + k) ∈ I.en then FP32.val ((I.th (32 * j + k)).r o.a).toNat else .num false 0 0
        let rm := if o.sr then Rnd.sr (srh I.gp.srseed.toNat 2 ((I.th (32 * j + k)).r o.c).toNat) else .rne
        let b := mxqBlock I o j
        ((∃ i, i < 32 ∧ ((v i).isNan = true ∨ (v i).isInf = true)) → b.1 = 255 ∧ b.2.1.getD k 0 = 0) ∧
        ((∀ i, i < 32 → (v i).isNan = false ∧ (v i).isInf = false) → ∃ x : Int, b.1 = (x + 127).toNat ∧
          ((∀ i, i < 32 → (v i).isZero = true) → x = -127) ∧
          (∀ i, i < 32 → ∀ s m e, v i = .num s m e → m ≠ 0 →
            (∀ i', i' < 32 → ∀ s' m' e', v i' = .num s' m' e' → m' ≠ 0 → floorLog m' e' ≤ floorLog m e) →
            x = min (max (floorLog m e - mxEmax o.fmt.toNat) (-127)) 127) ∧
          ∀ s m e, v k = .num s m e →
            b.2.1.getD k 0 = (encMx o.fmt.toNat rm (extraOf I.gp.fp4x.toNat) (.num s m (e - x))).1)) ∧
      (∀ o : OpMxq, clear (.mxq o) s r → (s.team r.team).decl.gw = 16 →
        Raises (.mxq o) s r { code := cILLENC, info := 0, lanes := (enter (.mxq o) s r).en })) ∧
  (
    ∀ (f pos j : Nat) (rm : Rnd) (d a b : Word32),
      (j < cvtqW f * pos ∨ cvtqW f * (pos + 1) ≤ j) → (cvtqR f pos rm d a b).1.getLsbD j = d.getLsbD j)

/-- The cross-lane instructions (R254 to R257): every source is read before any destination is written; participants are the enabled
lanes. SHFL with VP and an immediate second source is illegal at execution, for its enabled lanes (R394). A reduction of integers is the fold of the operation in ascending lane order (R149, R256). -/
def Obligations.CrossLane : Prop :=
  (
    ∀ (s : State) (r : GRef),
      (∀ o : OpShfl, clear (.shfl o) s r → o.vp = true → o.b.noImm = false →
        Raises (.shfl o) s r { code := cILLENC, info := 0, lanes := (enter (.shfl o) s r).en }) ∧
      (∀ o : OpShfl, clear (.shfl o) s r → (o.vp = true → o.b.noImm = true) → Leads (.shfl o) s (fun u => ∀ l ∈ (enter (.shfl o) s r).en,
        let I := enter (.shfl o) s r
        let gw : Int := (s.team r.team).decl.gw
        let b := (srcI I.gp false (I.th l) o.b).toInt
        let q := if o.rel then (b * gw) / 64 else b
        let off := q % gw
        let j : Int := match o.mode.toNat with
          | 0 => off
          | 1 => ((l : Int) + off) % gw
          | 2 => (l : Int) + q
          | _ => ((l ^^^ off.toNat : Nat) : Int)
        let valid := decide (0 ≤ j) && decide (j < gw) && decide (j.toNat ∈ I.en)
        (u.lane r l).value o.d.toNat = (if valid then (I.th j.toNat).r o.a else (I.th l).r o.a) ∧
        (o.vp = true → (u.lane r l).pvalue o.c.toNat = (decide (o.c = 127) || valid)))) ∧
      (∀ o : OpVote, clear (.vote o) s r → GivesS (.vote o) s r o.d (fun I =>
        let yes := I.en.filter (fun l => (I.th l).rp o.a.toNat)
        match o.mode.toNat with
        | 0 => maskOf yes
        | 1 => BitVec.ofNat 64 yes.length
        | 2 => if yes = [] then 0xFFFFFFFFFFFFFFFF else BitVec.ofNat 64 (yes.headD 0)
        | _ => if yes = [] ∨ yes = I.en then 1 else 0)) ∧
      (∀ o : OpMatch, clear (.matchL o) s r → Gives (.matchL o) s r o.d (fun I _ t =>
        let val := fun (t : Thread) => if o.w then t.rw o.a else (t.r o.a).setWidth 64
        let same := I.en.filter (fun m => decide (val (I.th m) = val t))
        if o.n then BitVec.ofNat 32 same.length else BitVec.ofNat 32 (same.headD 0))) ∧
      (∀ o : OpRedl, clear (.redl o) s r → GivesF (.redl o) s r o.d (fun I _ _ =>
        let v := redAll o.op.toNat o.ty.toNat (I.en.map (fun l => (l, (I.th l).r o.a)))
        ((v.1.getLast?.map (·.2)).getD 0, v.2))) ∧
      (∀ o : OpRedl, clear (.scanl o) s r → o.ex = false → GivesF (.scanl o) s r o.d (fun I l _ =>
        let v := redAll o.op.toNat o.ty.toNat (I.en.map (fun l => (l, (I.th l).r o.a)))
        (Map.get 0 v.1 l, v.2))) ∧
      (∀ o : OpRedl, clear (.scanl o) s r → o.ex = true → Leads (.scanl o) s (fun u => ∀ l ∈ (enter (.scanl o) s r).en,
        let I := enter (.scanl o) s r
        let v := redAll o.op.toNat o.ty.toNat (I.en.map (fun l => (l, (I.th l).r o.a)))
        (u.lane r l).value o.d.toNat =
          exclusive (redId o.op.toNat o.ty.toNat) v.1 l)) ∧
      (∀ o : OpPackl, clear (.packl o) s r → Leads (.packl o) s (fun u =>
        let I := enter (.packl o) s r
        let ts := I.en.filter (fun l => (I.th l).rp o.p.toNat)
        (∀ l ∈ I.en,
          let k := (I.en.filter (fun m => decide (m < l))).length
          (u.lane r l).value o.d.toNat = if k < ts.length then (I.th (ts.getD k 0)).r o.a else (s.lane r l).value o.d.toNat) ∧
        (o.c = true → (u.group r).svalue o.sc.toNat = BitVec.ofNat 64 ts.length)))) ∧
  (
    ∀ (op ty : Nat) (xs : List (Nat × Word32)) (x : Nat × Word32), ty ≠ 2 →
      ((redAll op ty (x :: xs)).1.getLast?.map (·.2)) = some (xs.foldl (fun a y => (redOp op ty a y.2).1) x.2) ∧
      (redAll op ty (x :: xs)).2 = 0 ∧ (redAll op ty (x :: xs)).1.map (·.1) = (x :: xs).map (·.1))

/-- The frame of the instructions that write registers only: integers, predicates, uniform, floating point, conversions, cross-lane, P
words, CLKR, PERFR, NOP, JOIN and ELECT (R232 to R257). SHFL with VP and an immediate second source, which stops, is in `CrossLane`. -/
def Obligations.RegisterOnlyFrame : Prop :=
  ∀ (i : Instr) (s : State) (r : GRef), registerOnly i = true → clear i s r → registerFrame i s r

/-! ## Control flow, threads, convergence, traps (R213 to R222) -/

/-- Transfers of control (R213 to R215): lanes that the guard enables go to the target, the others to the next instruction; BRU takes
the whole issue set. A relative target is PC + 8 + sext(imm16) × 8. CALL reads its target, then writes the return address. A transfer
whose target has bits [63:56] not zero faults with ADDRCANON, otherwise one with bits [2:0] not zero with ALIGN, at the transferring
instruction, for the lanes that fail that check (R177, R213). -/
def Obligations.ControlTransfers : Prop :=
  (
    ∀ (s : State) (r : GRef),
      let goes := fun (i : Instr) (ls : List Nat) (f : Nat → Word64) =>
        Leads i s (fun t => (∀ l ∈ ls, (t.lane r l).pc = f l) ∧
          ∀ l ∈ (enter i s r).set, l ∉ ls → (t.lane r l).pc = BitVec.ofNat 64 (issuePc (s.group r) + instrLen i))
      let rel := fun (x : Imm16) => BitVec.ofInt 64 ((issuePc (s.group r) : Int) + 8 + x.toInt * 8)
      let good := fun (x : Word64) => x.toNat < 2 ^ 56 ∧ x.toNat % 8 = 0
      (∀ o : OpI, clear (.bra o) s r → goes (.bra o) (enter (.bra o) s r).en (fun _ => rel o.imm)) ∧
      (∀ o : OpV, clear (.brx o) s r → (∀ l ∈ (enter (.brx o) s r).en, good (((enter (.brx o) s r).th l).rw o.a)) →
        goes (.brx o) (enter (.brx o) s r).en (fun l => ((enter (.brx o) s r).th l).rw o.a)) ∧
      (∀ o : OpV, clear (.ret o) s r → (∀ l ∈ (enter (.ret o) s r).en, good (((enter (.ret o) s r).th l).rw o.a)) →
        goes (.ret o) (enter (.ret o) s r).en (fun l => ((enter (.ret o) s r).th l).rw o.a)) ∧
      (∀ h x, clear (.bru ⟨h, .imm x⟩) s r → goes (.bru ⟨h, .imm x⟩) (enter (.bru ⟨h, .imm x⟩) s r).set (fun _ => rel x)) ∧
      (∀ h q, clear (.bru ⟨h, .s q⟩) s r → good ((enter (.bru ⟨h, .s q⟩) s r).rs q) →
        goes (.bru ⟨h, .s q⟩) (enter (.bru ⟨h, .s q⟩) s r).set (fun _ => (enter (.bru ⟨h, .s q⟩) s r).rs q)) ∧
      (∀ h d x, clear (.call ⟨h, d, .rel x⟩) s r → goes (.call ⟨h, d, .rel x⟩) (enter (.call ⟨h, d, .rel x⟩) s r).en (fun _ => rel x)) ∧
      (∀ h d q, clear (.call ⟨h, d, .v q⟩) s r → (∀ l ∈ (enter (.call ⟨h, d, .v q⟩) s r).en, good (((enter (.call ⟨h, d, .v q⟩) s r).th l).rw q)) →
        goes (.call ⟨h, d, .v q⟩) (enter (.call ⟨h, d, .v q⟩) s r).en (fun l => ((enter (.call ⟨h, d, .v q⟩) s r).th l).rw q)) ∧
      (∀ o : OpCall, clear (.call o) s r →
        (∀ q, o.t = .v q → ∀ l ∈ (enter (.call o) s r).en, good (((enter (.call o) s r).th l).rw q)) →
        Leads (.call o) s (fun t => ∀ l ∈ (enter (.call o) s r).en,
          (t.lane r l).value2 o.d.toNat = BitVec.ofNat 64 (issuePc (s.group r) + 8)))) ∧
  (
    ∀ (s : State) (r : GRef) (h : Hdr) (q : VReg),
      (∀ d : SReg, clear (.bru ⟨h, .s d⟩) s r →
        let I := enter (.bru ⟨h, .s d⟩) s r
        let x := (I.rs d).toNat
        (2 ^ 56 ≤ x → ∃ f, Raises (.bru ⟨h, .s d⟩) s r f ∧ f.code = cADDRCANON ∧ f.lanes = I.en) ∧
        (x < 2 ^ 56 → x % 8 ≠ 0 → ∃ f, Raises (.bru ⟨h, .s d⟩) s r f ∧ f.code = cALIGN ∧ f.lanes = I.en)) ∧
      ∀ d : VReg, ∀ i ∈ [Instr.brx ⟨h, q⟩, .ret ⟨h, q⟩, .call ⟨h, d, .v q⟩], clear i s r →
        let I := enter i s r
        let far := I.en.filter (fun l => decide (2 ^ 56 ≤ ((I.th l).rw q).toNat))
        let odd := I.en.filter (fun l => decide (((I.th l).rw q).toNat % 8 ≠ 0))
        (far ≠ [] → ∃ f, Raises i s r f ∧ f.code = cADDRCANON ∧ f.lanes = far) ∧
        (far = [] → odd ≠ [] → ∃ f, Raises i s r f ∧ f.code = cALIGN ∧ f.lanes = odd))

/-- The frame of the transfers, EXIT and YIELD: no byte of memory, no other team or group, no register but CALL's destination and no
control register changes. -/
def Obligations.ControlFrame : Prop :=
  ∀ (s t : State) (r : GRef) (i : Instr),
    ((∃ o, i = .bra o) ∨ (∃ o, i = .brx o) ∨ (∃ o, i = .bru o) ∨ (∃ o, i = .call o) ∨ (∃ o, i = .ret o) ∨ (∃ o, i = .exit o) ∨
      ∃ o, i = .yield o) →
    clear i s r → exec i s = .next t → (t.group r).fault = none → (s.team r.team).decl.rqsc = false →
    sameWorld s t ∧ sameCores s t ∧ sameTeams s t r ∧ sameRegs i s t r ∧ sameControls s t r ∧
    (t.group r).fpflags = (s.group r).fpflags

/-- EXIT ends the lanes and their bindings, ELECT picks the lowest enabled lane, YIELD masks its lanes for the next issue; NOP and JOIN
only advance the PC (R35, R38, R216, R217). REFORM and SPAWN (R40, R42, R43): while a register of an enabled lane is awaited they wait;
otherwise each enabled lane in ascending order is filed, or files a new thread, and a lane for which there is no bin or no frame parks
to try again. A REFORM of the group's last threads waits for its counters besides (R41). A filed lane has left its group, its thread
stands last in a bin of the group's sequencer under its PC as key; a spawned thread has the next thread number, its parent's v0 to v7,
and the entry as key. The events of threads and groups (R40, R42, R44, R45, R217): a parked REFORM or SPAWN tries again, a bin whose age
timer has run out is ready, the first ready bin whose team has a free slot launches a group there with its threads as lanes, a group
with no live lane and nothing outstanding ends. -/
def Obligations.ThreadsAndGroups : Prop :=
  (
    ∀ (s : State) (r : GRef) (o : Op0),
      (clear (.nop o) s r → Completes (.nop o) s r (·.s)) ∧
      (clear (.join o) s r → Completes (.join o) s r (·.s)) ∧
      (clear (.exit o) s r → Completes (.exit o) s r (fun I => I.lanewise (fun _ t => t.exit)) ∧
        Leads (.exit o) s (fun t => ∀ l ∈ (enter (.exit o) s r).en,
          (t.lane r l).st = .exited ∧ (t.lane r l).bind = none ∧ (t.lane r l).tid = (s.lane r l).tid)) ∧
      (clear (.yield o) s r → Completes (.yield o) s r (fun I => I.s.updGroup r (fun g => { g with yieldMask := maskOf I.en })) ∧
        Leads (.yield o) s (fun t => ∀ l, l < 64 →
          ((t.group r).yieldMask.getLsbD l = true ↔ l ∈ (enter (.yield o) s r).en))) ∧
      (∀ e : OpP, clear (.elect e) s r → GivesP (.elect e) s r e.d (fun I l _ => decide (l = I.en.headD 0)))) ∧
  (
    ∀ (s : State) (r : GRef),
      (∀ o : Op0, clear (.reform o) s r →
        let I := enter (.reform o) s r
        let others := ∃ e ∈ I.gp.lanes, e.2.st ≠ .exited ∧ e.2.st ≠ .left ∧ e.1 ∉ I.en
        ((∀ l ∈ I.en, laneBusy I.gp l = false) → (I.gp.idle = true ∨ others) →
          Completes (.reform o) s r (fun I => I.en.foldl (reformLane r) I.s)) ∧
        ((∃ l ∈ I.en, laneBusy I.gp l = true) → exec (.reform o) s = .next (keepWaiting I 0 I.s0)) ∧
        (I.gp.idle = false → ¬others → exec (.reform o) s = .next (keepWaiting I 0 I.s0))) ∧
      (∀ o : OpT, clear (.spawn o) s r →
        let I := enter (.spawn o) s r
        let x := (groupTarget I o.t).toNat
        (x < 2 ^ 56 → x % 8 = 0 → (∀ l ∈ I.en, laneBusy I.gp l = false) →
          Completes (.spawn o) s r (fun I => I.en.foldl (spawnLane (groupTarget I o.t) r) I.s)) ∧
        (x < 2 ^ 56 → x % 8 = 0 → (∃ l ∈ I.en, laneBusy I.gp l = true) → exec (.spawn o) s = .next (keepWaiting I 0 I.s0)) ∧
        (2 ^ 56 ≤ x → ∃ f, Raises (.spawn o) s r f ∧ f.code = cADDRCANON ∧ f.lanes = I.en) ∧
        (x < 2 ^ 56 → x % 8 ≠ 0 → ∃ f, Raises (.spawn o) s r f ∧ f.code = cALIGN ∧ f.lanes = I.en)) ∧
      (∀ l entry, (Map.find (s.group r).lanes l).isSome →
        let tm := s.team r.team
        let c := coreOf tm r.gid
        let q := (s.group r).seq
        (framesHeld tm c q ≤ framesUsed s r.team c q ∨ chooseBin (s.core c) q r.team entry tm.decl.gw = none →
          ((spawnLane entry r s l).lane r l).st = .parked (.spawn entry)) ∧
        ∀ b, framesUsed s r.team c q < framesHeld tm c q → chooseBin (s.core c) q r.team entry tm.decl.gw = some b →
          let t := spawnLane entry r s l
          (t.lane r l).st = .live ∧ (t.team r.team).nextTid = tm.nextTid + 1 ∧
          ∃ y, Map.find (t.core c).bins b = some y ∧
            ∃ n, y.threads.getLast? = some n ∧ n.tid = tm.nextTid ∧ n.pc = entry ∧ n.st = .live ∧
              ∀ k, n.rv k = if k < 8 then (s.lane r l).value k else 0) ∧
      (∀ l b, (Map.find (s.group r).lanes l).isSome →
        let c := coreOf (s.team r.team) r.gid
        let key := (s.lane r l).pc
        ((s.core c).bins.map (·.1)).Nodup →
        chooseBin (s.core c) (s.group r).seq r.team key (s.team r.team).decl.gw = some b →
        let t := reformLane r s l
        (t.lane r l).st = .left ∧ b / 16 = (s.group r).seq ∧
        ∃ y, Map.find (t.core c).bins b = some y ∧ y.team = r.team ∧ y.key = key ∧
          y.threads.getLast? = some { (s.lane r l).commitAll with pc := key, st := .live } ∧
          y.threads.length = ((Map.find (s.core c).bins b).map (·.threads.length)).getD 0 + 1) ∧
      (∀ l, (Map.find (s.group r).lanes l).isSome →
        chooseBin (s.core (coreOf (s.team r.team) r.gid)) (s.group r).seq r.team (s.lane r l).pc (s.team r.team).decl.gw = none →
        ((reformLane r s l).lane r l).st = .parked .reform)) ∧
  (
    ∀ (s : State),
      (∀ g l, (s.group g).fault = none → (s.team g.team).st.runs = true →
        ((s.lane g l).st = .parked .reform →
          ((s.group g).idle = true ∨ ∃ e ∈ (s.group g).lanes, e.2.st ≠ .exited ∧ e.2.st ≠ .left ∧ e.1 ≠ l) →
          exec (.filingRetry g l) s = .next (reformLane g s l)) ∧
        (∀ e, (s.lane g l).st = .parked (.spawn e) → exec (.filingRetry g l) s = .next (spawnLane e g s l))) ∧
      (∀ c b x, Map.find (s.core c).bins b = some x → x.expiry ≤ s.now →
        ∃ t, exec (.binAgeExpiry c b) s = .next t ∧ Map.find (t.core c).bins b = some { x with ready := true }) ∧
      (∀ c b x gid, Map.find (s.core c).bins b = some x → x.ready = true → (s.team x.team).st.runs = true →
        freeSlot (s.team x.team) c = some gid → seqGroups s c (b / 16) < 16 →
        (∀ y ∈ seqBins (s.core c) (b / 16), (y.2.first < x.first ∨ (y.2.first = x.first ∧ y.1 < b)) → canLaunch s c y.2 = false) →
        ∃ t, exec (.binLaunch c b) s = .next t ∧ Map.find (t.core c).bins b = none ∧
          (t.group ⟨x.team, gid⟩).live = true ∧
          ∀ j th, x.threads[j]? = some th → j < (s.team x.team).decl.gw →
            t.lane ⟨x.team, gid⟩ j = { th with pc := x.key, st := .live }) ∧
      (∀ g, canEnd (s.group g) = true → (s.team g.team).st.runs = true →
        exec (.groupEnd g) s = .next (endGroup s g) ∧
        ((s.team g.team).decl.nbar = 0 → (s.team g.team).decl.coop = false → Map.erase (s.team g.team).groups g.gid ≠ [] →
          ((endGroup s g).team g.team).groups = Map.erase (s.team g.team).groups g.gid)))

/-- CVSET sets the count and keeps the phase; with a signature in the phase, or a count above the team's frames, it faults with
CVMISMATCH and changes nothing (R47, R218). CVSIGN counts the signatures of its enabled lanes, which go on at once; the signature that
brings the count to C ends the phase: the set empties, the phase number advances, and a command that the register holds issues (R47 to
R49). A lane's signature is refused, and the instruction faults with CVMISMATCH for it, when C is 0, or when its thread has already
signed in the phase; the other lanes' signatures count, and the refused lanes stand at the instruction (R48, R218, R392). The lanes sign
in ascending order (`cvsignLane`), after a release at team scope. -/
def Obligations.ConvergenceRegisters : Prop :=
  (
    ∀ (s : State) (r : GRef) (o : OpCvSet), clear (.cvset o) s r →
      let I := enter (.cvset o) s r
      let c := Map.get {} (s.team r.team).cv o.cv.toNat
      let n := match o.c with
        | .imm x => x.toNat
        | .s q => (I.rs q).toNat % 2 ^ 32
      let d := (s.team r.team).decl
      (c.signed = [] → n ≤ d.team * d.gw →
        Completes (.cvset o) s r (fun I => I.s.updTeam r.team (fun t => { t with cv := Map.put t.cv o.cv.toNat { c with count := n } })) ∧
        Leads (.cvset o) s (fun t =>
          Map.get {} (t.team r.team).cv o.cv.toNat = { c with count := n } ∧ (t.group r).fault = (s.group r).fault)) ∧
      (c.signed ≠ [] → Raises (.cvset o) s r { code := cCVMISMATCH, info := o.cv.toNat + 16 * 4, lanes := I.en }) ∧
      (c.signed = [] → d.team * d.gw < n → Raises (.cvset o) s r { code := cCVMISMATCH, info := o.cv.toNat + 16 * 5, lanes := I.en })) ∧
  (
    ∀ (s : State) (r : GRef) (o : OpCv), clear (.cvsign o) s r →
      let I := enter (.cvsign o) s r
      let c := Map.get {} (s.team r.team).cv o.cv.toNat
      let tids := I.en.map (fun l => (s.lane r l).tid)
      relPending s r 1 = false → tids.Nodup → (∀ x ∈ tids, x ∉ c.signed) → c.signed.length + tids.length ≤ c.count → 0 < c.count →
      (c.signed.length + tids.length < c.count → Leads (.cvsign o) s (fun t =>
        Map.get {} (t.team r.team).cv o.cv.toNat = { c with signed := c.signed ++ tids })) ∧
      (c.signed.length + tids.length = c.count → Leads (.cvsign o) s (fun t =>
        Map.get {} (t.team r.team).cv o.cv.toNat = { c with signed := [], cmd := none, phase := c.phase + 1 })) ∧
      ∀ k cv tid cmd, (Map.get {} (s.team k).cv cv).count = 1 → (Map.get {} (s.team k).cv cv).signed = [] →
        let c := Map.get {} (s.team k).cv cv
        cvSigned s k cv tid (some cmd) =
          startCmd (s.updTeam k (fun t => { t with cv := Map.put t.cv cv { c with signed := [], cmd := none, phase := c.phase + 1 } })) cmd) ∧
  (
    ∀ (s : State) (r : GRef) (o : OpCv), clear (.cvsign o) s r → relPending s r 1 = false →
      let I := enter (.cvsign o) s r
      let c := Map.get {} (s.team r.team).cv o.cv.toNat
      let J := I.released 1
      let f := J.en.foldl (cvsignLane J o.cv.toNat) (J.s, [])
      let tid := fun l => (s.lane r l).tid
      (f.2 = [] → Completes (.cvsign o) s r (fun I => parkDefers I 1 f.1)) ∧
      (∀ p rest, f.2 = p :: rest → ∃ t, exec (.cvsign o) s = .next t ∧ (t.team r.team).cv = (f.1.team r.team).cv ∧
        ∃ h, (t.group r).fault = some h ∧ h.frec.code = 0x25 ∧ h.frec.info = BitVec.ofNat 16 (o.cv.toNat + 16 * p.2) ∧
          h.frec.lanes = maskOf ((f.2.filter (fun x => decide (x.2 = p.2))).map (·.1)) ∧
          ∀ x ∈ f.2, (t.lane r x.1).pc = BitVec.ofNat 64 (issuePc (s.group r))) ∧
      (c.count = 0 → f.2 = I.en.map (fun l => (l, 3)) ∧ f.1 = J.s) ∧
      ((I.en.map tid).Nodup → 0 < c.count →
        let fresh := I.en.filter (fun l => decide (tid l ∉ c.signed))
        c.signed.length + fresh.length < c.count →
        f.2 = (I.en.filter (fun l => decide (tid l ∈ c.signed))).map (fun l => (l, 1)) ∧
        Map.get {} (f.1.team r.team).cv o.cv.toNat = { c with signed := c.signed ++ fresh.map tid }))

/-- TRAP and BKPT take their faults, with the immediate as INFO; TRAPFENCE faults with ARITH when a flag that TRAPCTL.MASK selects is
set, and otherwise does nothing: it has nothing to wait for, since an instruction sets its flags as it issues (log entry 41); PREFI changes nothing that a program sees; IDEMP sets and clears the group's bit (R219 to R222). -/
def Obligations.TrapsAndHints : Prop :=
  ∀ (s : State) (r : GRef),
    (∀ o : OpI, clear (.trap o) s r → Raises (.trap o) s r { code := cSWTRAP, info := o.imm.toNat, lanes := (enter (.trap o) s r).en }) ∧
    (∀ o : OpI, clear (.bkpt o) s r → Raises (.bkpt o) s r { code := cBKPT, info := o.imm.toNat, lanes := (enter (.bkpt o) s r).en }) ∧
    (∀ o : Op0, clear (.trapfence o) s r →
      let f := ((s.group r).fpflags &&& (s.group r).trapctl &&& 63).toNat
      (f = 0 → Completes (.trapfence o) s r (·.s)) ∧
      (f ≠ 0 → Raises (.trapfence o) s r { code := cARITH, info := f, lanes := (enter (.trapfence o) s r).en })) ∧
    (∀ o : OpPrefi, clear (.prefi o) s r → Leads (.prefi o) s (fun t =>
      sameRegs (.prefi o) s t r ∧ sameControls s t r ∧ sameStores s t ∧ sameOthers s t r ∧ sameMemory s t ∧
      (t.group r).fault = (s.group r).fault)) ∧
    (∀ o : Op0, clear (.idempBegin o) s r → Leads (.idempBegin o) s (fun t => (t.group r).idempf = true)) ∧
    (∀ o : Op0, clear (.idempEnd o) s r → Leads (.idempEnd o) s (fun t => (t.group r).idempf = false))

/-! ## System registers, events, mailboxes, barriers, fences (R200 to R203, R223 to R242) -/

/-- The special registers describe a thread's place (R29, R200). PERFR of ISSUE does not count its own instruction (log entry 41), and
SLIP is kept per context and virtual sequencer (log entry 65). MOVC, MOVCW, CLKR and PERFR (R201 to R203, R237 to R239): a control
register is read as it stands once the level slots that hold have latched; MOVCW writes the bits that are not reserved; HOTIDLE is
written in a privileged context and faults with ILLREG in any other; the clocks and the counters are read. The frame of MOVCW: of the
group's control registers only the one named changes; no register of a lane, no s-register, no byte of memory, no other group. (R201,
R203). A write of EVMASK wakes lanes in WAITANY where it makes a slot ready, so here none is parked. -/
def Obligations.SystemRegisters : Prop :=
  (
    ∀ (s : State) (g : GRef) (l : Nat),
      let t := s.team g.team
      let x := s.lane g l
      specialReg s g l 0 = BitVec.ofNat 32 l ∧ specialReg s g l 1 = x.tid ∧ specialReg s g l 2 = BitVec.ofNat 32 g.gid ∧
      specialReg s g l 3 = BitVec.ofNat 32 t.index ∧ specialReg s g l 5 = t.lid ∧ specialReg s g l 6 = 64 ∧
      specialReg s g l 7 = BitVec.ofNat 32 t.decl.gw ∧ specialReg s g l 11 = BitVec.ofNat 32 t.ctx ∧
      specialReg s g l 10 = (if t.decl.pair = true ∧ 32 ≤ g.gid then 1 else 0) ∧
      specialReg s g l 12 = (s.ctx t.ctx).former.step ∧
      (∀ v, (s.ctx t.ctx).vmap.find? (fun e => decide (e.2 = t.core + (if t.decl.pair = true ∧ 32 ≤ g.gid then 1 else 0))) =
          some (v, t.core + (if t.decl.pair = true ∧ 32 ≤ g.gid then 1 else 0)) → specialReg s g l 9 = BitVec.ofNat 32 v) ∧
      (∀ slot rq, t.decl.rqsc = true → x.bind = some (slot, rq) → specialReg s g l 8 = BitVec.ofNat 32 slot) ∧
      (t.decl.rqsc = false ∨ x.bind = none → specialReg s g l 8 = 0xFFFFFFFF) ∧
      specialReg s g l 4 =
        BitVec.ofNat 32 ((List.range t.die).filter (fun d => (s.gridOf t).dieMask.getLsbD d)).length) ∧
  (
    ∀ (s : State) (r : GRef),
      (∀ o : OpMovc, clear (.movc o) s r →
        GivesS (.movc o) s r o.d (fun I => controlReg (latchLevels I.s r) r o.cr.toNat)) ∧
      (∀ o : OpMovcw, clear (.movcw o) s r →
        let I := enter (.movcw o) s r
        let x := srcX I.gp o.x
        (o.cr.toNat ∈ [0, 1, 2, 3, 4, 5, 6, 9] → Leads (.movcw o) s (fun t =>
          (t.group r).fault = (s.group r).fault ∧
          let g := t.group r
          match o.cr.toNat with
          | 0 => g.fpctl = x &&& 1
          | 1 => g.fpflags = x &&& 63
          | 2 => g.srseed = x
          | 3 => g.fp4x = x &&& 0x1FF
          | 4 => g.chkctl = x &&& 1
          | 5 => g.trapctl = x &&& 63
          | 6 => g.binage = x.setWidth 16
          | _ => g.evMask = x.setWidth 16)) ∧
        (o.cr = 10 → (s.ctx (s.team r.team).ctx).priv = true → Leads (.movcw o) s (fun t => t.pkg.hotidle = x.setWidth 16)) ∧
        (o.cr = 10 → (s.ctx (s.team r.team).ctx).priv = false →
          Raises (.movcw o) s r { code := cILLREG, info := 0, lanes := I.en })) ∧
      (∀ o : OpClkr, clear (.clkr o) s r → GivesS (.clkr o) s r o.d (fun _ =>
        if o.pkg then BitVec.ofNat 64 (s.time / 168)
        else BitVec.ofNat 64 (s.now - (s.core (coreOf (s.team r.team) r.gid)).bornAt))) ∧
      (∀ o : OpPerfr, clear (.perfr o) s r → GivesS (.perfr o) s r o.d (fun _ =>
        match o.n.toNat with
        | 0 => (s.group r).issueCnt
        | 1 => (s.team r.team).retired
        | 2 => Map.get 0 (s.ctx (s.team r.team).ctx).slips (4 * s.vcoreRef r + (s.group r).seq)
        | _ => (s.group r).sbwait))) ∧
  (
    ∀ (s t : State) (r : GRef) (o : OpMovcw), clear (.movcw o) s r → exec (.movcw o) s = .next t → (t.group r).fault = none →
      parkedAny (s.group r) = [] →
      sameRegs (.movcw o) s t r ∧ sameLanes s t r ∧ sameStores s t ∧ sameOthers s t r ∧ sameMemory s t ∧
      (∀ n ∈ [0, 1, 2, 3, 4, 5, 6, 7, 9, 11, 12], n ≠ o.cr.toNat → controlReg t r n = controlReg s r n) ∧
      (o.cr ≠ 10 → t.pkg = s.pkg))

/-- ECALL (R240): after a release at `.sys`, two messages join the host mailbox queue (service, group, core and sequence number; then
the argument), the enabled lanes park, the reply register is awaited, and the sequence number advances, skipping 0. Each message waits
for room in the queue by itself: with one place left the first is placed and the group waits; once it is placed the second follows, and
the instruction is over; that other groups' messages may come between the two is the model's reading (log entry 80). A reply wakes the
lanes that wait for its sequence number, with the value in the destination of their ECALL (R240). -/
def Obligations.HostCalls : Prop :=
  (
    ∀ (s : State) (r : GRef) (o : OpEcall), clear (.ecall o) s r →
      let c := (s.team r.team).ctx
      let seq := (s.ctx c).ecallSeq
      let next : BitVec 32 := if seq = 0xFFFFFFFF then 1 else seq + 1
      let first : Word64 :=
        BitVec.ofNat 64 (o.imm.toNat + 2 ^ 16 * (r.gid % 64) + 2 ^ 22 * (s.vcoreRef r % 64) + 2 ^ 32 * seq.toNat)
      let I := enter (.ecall o) s r
      let parked := fun (t : State) (q : BitVec 32) =>
        (t.group r).ecallHalf = none ∧ (∀ l ∈ I.en, (t.lane r l).st = .parked (.ecall q o.d.toNat)) ∧
        (t.group r).busy.any (fun b => decide (b.cls = .s) && decide (b.reg = o.d.toNat)) = true
      relPending s r 4 = false →
      ((s.group r).ecallHalf = none → (s.ctx c).hmq.length ≤ 254 → Leads (.ecall o) s (fun t =>
        (t.ctx c).hmq = (s.ctx c).hmq ++ [first, I.rs o.a] ∧ (t.ctx c).ecallSeq = next ∧ parked t seq)) ∧
      (∀ q, (s.group r).ecallHalf = some q → (s.ctx c).hmq.length ≤ 255 → Leads (.ecall o) s (fun t =>
        (t.ctx c).hmq = (s.ctx c).hmq ++ [I.rs o.a] ∧ (t.ctx c).ecallSeq = seq ∧ parked t q)) ∧
      ((s.group r).ecallHalf = none → (s.ctx c).hmq.length = 255 → Leads (.ecall o) s (fun t =>
        (t.ctx c).hmq = (s.ctx c).hmq ++ [first] ∧ (t.ctx c).ecallSeq = next ∧ (t.group r).ecallHalf = some seq ∧
        (t.group r).hold = some (maskOf I.set) ∧ ∀ l, (t.lane r l).pc = (s.lane r l).pc)) ∧
      (256 ≤ (s.ctx c).hmq.length → exec (.ecall o) s = .next (keepWaiting I 12 (I.released 4).s0))) ∧
  (
    ∀ (s : State) (g : GRef) (seq : BitVec 32) (d : Nat) (x : Word64),
      (∃ l, (Map.find (s.group g).lanes l).isSome ∧ (s.lane g l).st = .parked (.ecall seq d)) →
      (∀ e ∈ (s.group g).lanes, ∀ d', e.2.st = .parked (.ecall seq d') → d' = d) →
      let t := ecallAnswer s g seq x
      (t.group g).svalue d = x ∧
      ∀ l, (Map.find (s.group g).lanes l).isSome → (s.lane g l).st = .parked (.ecall seq d) → (t.lane g l).st = .live)

/-- EVBIND binds a slot to what the binding word names and clears its pending bit; a word that fails its check faults with EVSTATE and
changes nothing. EVMASK, EVCLR and EVPOLL write the mask, clear pending bits and read the ready slots (R68, R69, R224). WAITANY (R72):
with no slot of its list ready its enabled lanes park; otherwise they resume at once at the handler of the lowest ready slot, whose
number is in s63, and whose pending bit is cleared. While lanes of the group are parked in WAITANY it faults. -/
def Obligations.EventSlotsAndWaits : Prop :=
  (
    ∀ (s : State) (r : GRef),
      (∀ o : OpEvBind, clear (.evbind o) s r →
        let I := enter (.evbind o) s r
        let w := I.rs o.a
        let k := evKindOf o.kind
        let bound : EvSlot :=
          { kind := k, obj := w.setWidth 8, ref := (w >>> 32).setWidth 32, handler := relTarget (issuePc (s.group r)) o.imm,
            armed := decide (k ≠ .none), deadline := s.now + (w >>> 32).toNat }
        (bindOk (s.team r.team).decl k w = true → Completes (.evbind o) s r (fun I => evSettle (I.s.updGroup r (fun g =>
          { g with evPend := g.evPend &&& ~~~(1#16 <<< o.ev.toNat), ev := Map.put g.ev o.ev.toNat bound })) r)) ∧
        (bindOk (s.team r.team).decl k w = true → Leads (.evbind o) s (fun t =>
          let e := Map.get {} (t.group r).ev o.ev.toNat
          (t.group r).fault = (s.group r).fault ∧ e.kind = k ∧ e.obj = w.setWidth 8 ∧ e.handler = relTarget (issuePc (s.group r)) o.imm ∧
          (parkedAny (s.group r) = [] → e.ref = (w >>> 32).setWidth 32 ∧ e.armed = decide (k ≠ .none)))) ∧
        (bindOk (s.team r.team).decl k w = false →
          Raises (.evbind o) s r { code := cEVSTATE, info := o.ev.toNat + 16, lanes := I.en })) ∧
      (∀ o : OpEvMask, clear (.evmask o) s r →
        let x := srcX16 (enter (.evmask o) s r) o.x
        let m : BitVec 16 := match o.op.toNat with
          | 0 => x
          | 1 => (s.group r).evMask ||| x
          | _ => (s.group r).evMask &&& ~~~x
        Completes (.evmask o) s r (fun I => evSettle (I.s.updGroup r (fun g => { g with evMask := m })) r) ∧
        Leads (.evmask o) s (fun t => (t.group r).evMask = m)) ∧
      (∀ o : OpX, clear (.evclr o) s r → Completes (.evclr o) s r (fun I =>
        evSettle (I.s.updGroup r (fun g => { g with evPend := g.evPend &&& ~~~(srcX16 I o.x) })) r)) ∧
      (∀ o : OpX, clear (.evclr o) s r → parkedAny (s.group r) = [] → Leads (.evclr o) s (fun t =>
        let I := enter (.evclr o) s r
        ∀ j, j < 16 → ((t.group r).evPend.getLsbD j = true ↔
          ((s.group r).evPend.getLsbD j = true ∧ (srcX16 I o.x).getLsbD j = false) ∨
          ∃ e ∈ (s.group r).ev, e.1 = j ∧ e.2.armed = true ∧ slotHolds I.s r e.2 = true))) ∧
      (∀ o : OpEvPoll, clear (.evpoll o) s r → GivesS (.evpoll o) s r o.d (fun I =>
        (srcX16 I o.x &&& ((latchLevels I.s r).group r).evPend &&& ~~~(s.group r).evMask).setWidth 64) ∧
        Completes (.evpoll o) s r (fun I => (latchLevels I.s r).updGroup r (fun g =>
          g.setS o.d.toNat ((srcX16 I o.x &&& g.evPend &&& ~~~g.evMask).setWidth 64))))) ∧
  (
    ∀ (s : State) (r : GRef) (o : OpWaitAny), clear (.waitany o) s r →
      let I := enter (.waitany o) s r
      let g := (latchLevels I.s r).group r
      (parkedAny (s.group r) ≠ [] → Raises (.waitany o) s r { code := cEVSTATE, info := 48, lanes := I.en }) ∧
      (parkedAny (s.group r) = [] → g.readyEv o.list = 0 → Completes (.waitany o) s r (fun I =>
        (latchLevels I.s r).updGroup r (fun g => g.mapLanes I.en (fun _ t =>
          { t with st := .parked (.waitAny o.list (if o.tmo then some (s.now + o.timeout.toNat) else none)) })))) ∧
      (∀ i, i < 16 → parkedAny (s.group r) = [] → (g.readyEv o.list).getLsbD i = true →
        (∀ j, j < i → (g.readyEv o.list).getLsbD j = false) →
        Completes (.waitany o) s r (fun I => resumeAny (latchLevels I.s r) r I.en i)) ∧
      (parkedAny (s.group r) = [] → g.readyEv o.list = 0 → Leads (.waitany o) s (fun t => ∀ l ∈ I.en,
        (t.lane r l).st = .parked (.waitAny o.list (if o.tmo then some (s.now + o.timeout.toNat) else none)))) ∧
      (∀ i, i < 16 → parkedAny (s.group r) = [] → (g.readyEv o.list).getLsbD i = true →
        (∀ j, j < i → (g.readyEv o.list).getLsbD j = false) → Leads (.waitany o) s (fun t =>
          (∀ l ∈ I.en, (t.lane r l).st = .live ∧ (t.lane r l).pc = (Map.get {} g.ev i).handler) ∧
          (t.group r).svalue 63 = BitVec.ofNat 64 i ∧ (t.group r).svalue 62 = evPayload (latchLevels I.s r) r (Map.get {} g.ev i) ∧
          (t.group r).evPend.getLsbD i = false)))

/-- The events of slots (R68, R69, R72, R225): an armed TIMER slot whose count has run out latches, once for the occurrence; a WAITANY
timeout, when no slot of its list is ready in that cycle, resumes its lanes at the next instruction with 0xFF in s63; a software event latches every armed SW slot of its number with its word. EVRAISE (R225): the
event goes out with the number, the word and the target group, after a release at the narrowest scope that includes the target; a
malformed target word faults with EVSTATE. -/
def Obligations.EventDelivery : Prop :=
  (
    ∀ (s : State) (g : GRef), (s.team g.team).st.runs = true →
      (∀ e, e < 16 → (Map.get {} (s.group g).ev e).kind = .timer → (Map.get {} (s.group g).ev e).armed = true →
        (Map.get {} (s.group g).ev e).fired = false → (Map.get {} (s.group g).ev e).deadline ≤ s.now →
        exec (.eventTimerExpiry g e) s = .next (wakeAny (s.updGroup g (fun x => x.expire e)) g) ∧
        (parkedAny (s.group g) = [] → ∃ t, exec (.eventTimerExpiry g e) s = .next t ∧ (t.group g).evPend.getLsbD e = true ∧
          (Map.get {} (t.group g).ev e).fired = true)) ∧
      (∀ l lst n rest, (s.group g).fault = none → parkedAny (s.group g) = (l, lst, some n) :: rest → n ≤ s.now →
        ((latchLevels (latchTimers s g) g).group g).readyEv lst = 0 →
        ∃ t, exec (.waitanyTimeout g) s = .next t ∧ (t.group g).svalue 63 = 0xFF ∧ (t.group g).svalue 62 = 0 ∧
          (t.lane g l).st = .live ∧ (t.lane g l).pc = (s.lane g l).pc) ∧
      (∀ q, s.swQ.find? (fun p => decide (p.id = q.id)) = some q →
        (∀ p ∈ s.swQ, p.id < q.id → p.own = q.own → p.team = q.team → p.gid ≠ q.gid) →
        teamAt s q.ctx q.lid.toNat q.team = some g.team → q.gid = g.gid → (s.group g).live = true →
        exec (.swEventDelivery q.id) s =
          .next (swLatch { s with swQ := s.swQ.filter (fun p => decide (p.id ≠ q.id)) } g q.num q.word q.scope)) ∧
      (∀ q e, s.swQ = [q] → teamAt s q.ctx q.lid.toNat q.team = some g.team → q.gid = g.gid →
        (s.group g).live = true → e < 16 → (e, Map.get {} (s.group g).ev e) ∈ (s.group g).ev →
        (Map.get {} (s.group g).ev e).kind = .sw → (Map.get {} (s.group g).ev e).armed = true →
        (Map.get {} (s.group g).ev e).obj = q.num → (s.group g).evPend.getLsbD e = false → parkedAny (s.group g) = [] →
        ∃ t, exec (.swEventDelivery q.id) s = .next t ∧ (t.group g).evPend.getLsbD e = true ∧ t.swQ = [])) ∧
  (
    ∀ (s : State) (r : GRef) (o : OpSS), clear (.evraise o) s r →
      let I := enter (.evraise o) s r
      let w := (I.rs o.a).toNat
      let tm := s.team r.team
      let own := bitN w 16
      let idx := if own then tm.index else bitsN w 63 32
      let bad := bitsN w 15 14 ≠ 0 ∨ bitsN w 31 17 ≠ 0 ∨ (own = false ∧ (s.gridOf tm).teams ≤ idx)
      (bad → Raises (.evraise o) s r { code := cEVSTATE, info := bitsN w 13 8 % 16 + 32, lanes := I.en }) ∧
      (¬ bad → relPending s r 3 = false →
        (∀ k, teamAt s tm.ctx tm.lid.toNat idx = some k → (s.team k).st = .saved → ringFull s tm.ctx = false) →
        Leads (.evraise o) s (fun t => ∃ e, t.swQ = s.swQ ++ [e] ∧ e.own = r ∧ e.ctx = tm.ctx ∧ e.lid = tm.lid ∧ e.team = idx ∧
          e.gid = bitsN w 13 8 ∧ e.num = BitVec.ofNat 8 w ∧ e.word = I.rs o.b)))

/-- MBSEND (R77, R226, R399): the message goes out and its token is outstanding; a name that names none ends the command at once with
STATUS ILLENC; while a mailbox of the package is full the instruction waits at issue. MBRECV takes the oldest message, or finds none
(R77). A message that arrives joins its mailbox, if that has room, after the earlier ones (R77, R78); a message to a virtual core that is
not mapped and holds no saved team is dropped (R354); a full host queue ends a thread's send with MBFULL (R399). That a malformed name ends the command at issue is log
entry 42, and that a message to a saved team's core is answered with its ring entry log entry 36: the model's choices. -/
def Obligations.Mailboxes : Prop :=
  (
    ∀ (s : State) (r : GRef),
      (∀ o : OpSSS, clear (.mbsend o) s r →
        let I := enter (.mbsend o) s r
        let n := (I.rs o.a).toNat % 2 ^ 32
        let tm := s.team r.team
        (badName n = true → Completes (.mbsend o) s r (fun I =>
          let c := newCmd I I.s .none (some o.d) none []
          finishCmd c.2 c.1 (statusWord cILLENC 0) 0)) ∧
        let v := bitsN n 13 8
        let far := bitN n 14 || bitN n 15
        (badName n = false → far = false → vMapped s tm.ctx v = true → boxFull s tm.ctx n = true →
          exec (.mbsend o) s = .next (keepWaiting I 11 I.s0)) ∧
        (badName n = false → relPending s r (if far then 4 else 1) = false → bitN n 15 = false →
          (far = false → vMapped s tm.ctx v = true → boxFull s tm.ctx n = false) →
          (far = false → vMapped s tm.ctx v = false → savedOn s tm.ctx v = true → ringFull s tm.ctx = false) →
          Leads (.mbsend o) s (fun t => ∃ m, t.sends = s.sends ++ [m] ∧ m.own = some r ∧ m.name = BitVec.ofNat 32 n ∧ m.msg = I.rs o.b ∧
            m.tok = some o.d.toNat ∧ (o.d.toNat, m.id) ∈ (t.group r).toks)) ∧
        (badName n = false → relPending s r 4 = false → bitN n 15 = true →
          Leads (.mbsend o) s (fun t => ∃ q ∈ t.fabQ, t.fabQ.map (·.id) = s.fabQ.map (·.id) ++ [q.id] ∧ q.own = r ∧ q.kind = .send ∧
            q.chip = bitsN n 25 16 ∧
            q.op = .mbsend (BitVec.ofNat 32 n) (I.rs o.b) ∧ (o.d.toNat, q.id) ∈ (t.group r).toks))) ∧
      (∀ o : OpMbRecv, clear (.mbrecv o) s r →
        let I := enter (.mbrecv o) s r
        let c := (s.team r.team).ctx
        let q := (s.ctx c).box (s.vcoreRef r) o.m.toNat
        (q = [] → Leads (.mbrecv o) s (fun t => (t.group r).svalue o.d.toNat = 0 ∧
          ∀ l ∈ I.en, (t.lane r l).pvalue o.p.toNat = decide (o.p = 127))) ∧
        (∀ m ms, q = m :: ms → Leads (.mbrecv o) s (fun t => (t.group r).svalue o.d.toNat = m.val ∧
          (∀ l ∈ I.en, (t.lane r l).pvalue o.p.toNat = true) ∧ (t.ctx c).box (s.vcoreRef r) o.m.toNat = ms)))) ∧
  (
    ∀ (s : State) (m : Send), s.sends.find? (fun x => decide (x.id = m.id)) = some m →
      (∀ x ∈ s.sends.takeWhile (fun x => decide (x.id ≠ m.id)), goesBefore x m = false) →
      let v := bitsN m.name.toNat 13 8
      let b := m.name.toNat % 32
      (bitN m.name.toNat 14 = false →
        (vMapped s m.ctx v = true → ((s.ctx m.ctx).box v b).length < 16 →
          exec (.mailboxDelivery m.id) s = .next (sendDone (boxPut s m.ctx v b ⟨m.msg, m.scope⟩) m 0) ∧
          (m.own = none → m.post = none → ∃ t, exec (.mailboxDelivery m.id) s = .next t ∧
            t.sends = s.sends.filter (fun x => decide (x.id ≠ m.id)) ∧
            (t.ctx m.ctx).box v b = (s.ctx m.ctx).box v b ++ [⟨m.msg, m.scope⟩])) ∧
        (vMapped s m.ctx v = true → 16 ≤ ((s.ctx m.ctx).box v b).length → exec (.mailboxDelivery m.id) s = .next s) ∧
        (vMapped s m.ctx v = false → savedOn s m.ctx v = false → exec (.mailboxDelivery m.id) s = .next (sendDone s m cDROPPED))) ∧
      (bitN m.name.toNat 14 = true →
        ((s.ctx m.ctx).hmq.length < 256 → exec (.mailboxDelivery m.id) s = .next (sendDone (s.hmqPut m.ctx m.msg) m 0)) ∧
        (256 ≤ (s.ctx m.ctx).hmq.length → m.own ≠ none → exec (.mailboxDelivery m.id) s = .next (sendDone s m cMBFULL))))

/-- Team barriers (R229): BARARV arrives and gives the phase, BARSYNC arrives and parks its lanes, BARWT parks until the phase of the
group's arrival is over and faults with BARMISUSE when the group has not arrived. The arrival of the last live group completes the
phase: the phase number advances and every lane parked for it is live. Die and grid barriers (R230): outside a cooperative grid they
fault with BARMISUSE; inside one the group arrives and its lanes park until the phase is over. -/
def Obligations.Barriers : Prop :=
  (
    ∀ (s : State) (r : GRef),
      (∀ o : OpBarArv, clear (.bararv o) s r → relPending s r 1 = false → Leads (.bararv o) s (fun t =>
        let p := Map.get 0 (s.team r.team).bar o.b.toNat
        (t.group r).svalue o.d.toNat = p.setWidth 64 ∧ Map.find (t.group r).barA o.b.toNat = some p)) ∧
      (∀ o : OpB, clear (.barwt o) s r →
        let p := Map.get 0 (s.team r.team).bar o.b.toNat
        let I := enter (.barwt o) s r
        (Map.find (s.group r).barA o.b.toNat = none →
          Raises (.barwt o) s r { code := cBARMISUSE, info := o.b.toNat, lanes := I.en }) ∧
        (Map.find (s.group r).barA o.b.toNat = some p → Leads (.barwt o) s (fun t =>
          ∀ l ∈ I.en, (t.lane r l).st = .parked (.bar o.b.toNat p))) ∧
        (∀ a, Map.find (s.group r).barA o.b.toNat = some a → a ≠ p → Leads (.barwt o) s (fun t =>
          ∀ l ∈ I.en, (t.lane r l).st = (s.lane r l).st ∧ (t.lane r l).pc = BitVec.ofNat 64 (issuePc (s.group r) + 8)))) ∧
      (∀ o : OpB, clear (.barsync o) s r → relPending s r 1 = false →
        let p := Map.get 0 (s.team r.team).bar o.b.toNat
        ((∃ e ∈ (s.team r.team).groups, e.1 ≠ r.gid ∧ e.2.live = true ∧ Map.find e.2.barA o.b.toNat ≠ some p) →
          Leads (.barsync o) s (fun t => (∀ l ∈ (enter (.barsync o) s r).en, (t.lane r l).st = .parked (.bar o.b.toNat p)) ∧
            Map.get 0 (t.team r.team).bar o.b.toNat = p)) ∧
        (((s.team r.team).groups.map (·.1)).Nodup → (s.group r).live = true → (s.team r.team).st.runs = true →
          (∀ e ∈ (s.team r.team).groups, e.1 ≠ r.gid → e.2.live = true → Map.find e.2.barA o.b.toNat = some p) →
          Leads (.barsync o) s (fun t => (∀ l ∈ (enter (.barsync o) s r).en, (t.lane r l).st = .live) ∧
            Map.get 0 (t.team r.team).bar o.b.toNat = p + 1)))) ∧
  (
    ∀ (s : State) (r : GRef),
      let tm := s.team r.team
      (∀ o : OpDb, clear (.diebar o) s r →
        let I := enter (.diebar o) s r
        let p := Map.get 0 (s.gridOf tm).dieBar (tm.die * 4 + o.db.toNat)
        (tm.decl.coop = false → Raises (.diebar o) s r { code := cBARMISUSE, info := o.db.toNat + 16 + 64, lanes := I.en }) ∧
        (tm.decl.coop = true → relPending s r 2 = false → Leads (.diebar o) s (fun t =>
          Map.find (t.group r).dieA o.db.toNat = some p)) ∧
        (∀ k ∈ gridTeams s tm.ctx tm.lid.toNat, ∀ e ∈ (s.team k).groups, tm.decl.coop = true → relPending s r 2 = false →
          (s.team k).alive = true → (s.team k).die = tm.die → e.2.live = true → (k ≠ r.team ∨ e.1 ≠ r.gid) →
          Map.find e.2.dieA o.db.toNat ≠ some p → Leads (.diebar o) s (fun t =>
            ∀ l ∈ I.en, (t.lane r l).st = .parked (.dieBar o.db.toNat p)))) ∧
      (∀ o : Op0, clear (.gridbar o) s r →
        let I := enter (.gridbar o) s r
        let p := (s.gridOf tm).gridBar
        (tm.decl.coop = false → Raises (.gridbar o) s r { code := cBARMISUSE, info := 32 + 64, lanes := I.en }) ∧
        (tm.decl.coop = true → relPending s r 3 = false → Leads (.gridbar o) s (fun t => (t.group r).gridA = some p)) ∧
        (∀ k ∈ gridTeams s tm.ctx tm.lid.toNat, ∀ e ∈ (s.team k).groups, tm.decl.coop = true → relPending s r 3 = false →
          (s.team k).alive = true → e.2.live = true → (k ≠ r.team ∨ e.1 ≠ r.gid) → e.2.gridA ≠ some p →
          Leads (.gridbar o) s (fun t => ∀ l ∈ I.en, (t.lane r l).st = .parked (.gridBar p)))))

/-- WAITC goes on once the counter of its class is at most n, and waits before that; FENCE completes when nothing that it must wait for
is pending, an acquire alone when every read of the group has been made (R113): a release writes the dirty lines back, an acquire drops the
clean ones, and no register changes (R115, R119, R231). -/
def Obligations.WaitsAndFences : Prop :=
  ∀ (s : State) (r : GRef),
    (∀ o : OpWaitC, clear (.waitc o) s r →
      ((s.group r).counter (cmdClsOf o.cls) ≤ o.n.toNat → Completes (.waitc o) s r (fun I => acqState I.s r 1)) ∧
      (o.n.toNat < (s.group r).counter (cmdClsOf o.cls) → ∃ t, exec (.waitc o) s = .next t ∧
        (∀ l, (t.lane r l).pc = (s.lane r l).pc) ∧ (t.group r).nextIssue = s.now + 1)) ∧
    (∀ o : OpFence, clear (.fence o) s r → o.kind = 2 →
      (atomPending s r = false → Completes (.fence o) s r (fun I => acqState I.s r o.scope.toNat)) ∧
      (atomPending s r = true → exec (.fence o) s = .next (keepWaiting (enter (.fence o) s r) 0 (enter (.fence o) s r).s0))) ∧
    (∀ o : OpFence, clear (.fence o) s r → o.kind ≠ 2 → relPending s r o.scope.toNat = false → Leads (.fence o) s (fun t =>
      let I := enter (.fence o) s r
      sameRegs (.fence o) s t r ∧ sameLanes s t r ∧ sameControls s t r ∧ sameStores s t ∧
      t.mem = (relState I.s r o.scope.toNat).mem)) ∧
    (∀ (w : Who) (sc : Nat), 2 ≤ sc →
      (∀ e ∈ ((fenceAcq s w sc).core w.core).l1, e.2.dirty = true) ∧
      (3 ≤ sc → ∀ e ∈ ((fenceAcq s w sc).die w.die).l2, e.2.dirty = true ∨ pteShx (attrOf s e.1).pte = false)) ∧
    (∀ (w : Who), fenceRel s w 0 = (s, []) ∧ fenceRel s w 1 = (s, []) ∧ fenceAcq s w 0 = s ∧ fenceAcq s w 1 = s)

/-! ## Loads, stores, cache control, atomics (R87 to R101, R107, R258 to R270) -/

/-- A load (R258 to R260): its values are read at issue, each lane's from the bytes at its own address under the page's cache policy; its
registers are awaited, or its lanes wait for their data with SPLIT. A read may be performed anew until it arrives (R110), which the
outside of the model chooses (log entry 29), but no longer once the group has accessed one of its bytes (R107); the arrival writes the
values, a lane with SPLIT taking its own, from another chip with the answer, and going on, a store's only after L1 or L2 has accepted it
(R37, R260). Of LD and ULD it is asked that no atomic of the group still has half a word to change there and that no store of the group to
those bytes waits (R107, R110), and that the caches have room for the lines. ULD reads one address, LDS the scratchpad; LDC gives zero
beyond the bank's size and otherwise each lane its own bytes of the bank (R87, R262). -/
def Obligations.LoadsRead : Prop :=
  ∀ (s : State) (r : GRef),
    (∀ (o : OpMem) (ls : List (Nat × Nat × Leaf)) (t : State), clear (.ld o) s r →
      let I := enter (.ld o) s r
      let n := mfmtSize o.mfmt.toNat o.w
      checkLanes I.s I.who n .read false (I.addrs o.a) = .ok (ls, t) → (∀ p ∈ I.addrs o.a, isFabric p.2 = false) →
      sauHolds t r n ls = false → hasRoom s I.who (reached ls) → (readLanes t I.who n ls).2.1 = [] →
      Leads (.ld o) s (fun u => ∃ ld, (u.group r).loads = ((s.group r).fixReads n (reached ls)).loads ++ [ld] ∧
        ld.mfmt = o.mfmt.toNat ∧ ld.n = n ∧ ld.again = ls.map (fun p => (p.1, p.2.2)) ∧
        ld.dst = o.d.toNat ∧ ld.wide = o.w ∧ ld.store = false ∧ ld.split = opensSplit I o.a ∧ ld.vals.map (·.1) = I.en ∧
        (∀ l va lf, (l, va, lf) ∈ ls → ∃ bs : List Byte, bs.length = n ∧ (l, ldConv o.mfmt.toNat (leNat bs)) ∈ ld.vals ∧
          ∀ k, k < n → bs[k]? = viewByte s I.who (pteCp lf.pte) (lf.pa + k)) ∧
        (ld.split = false → ∀ q, (q = o.d.toNat ∨ (o.w = true ∧ q = o.d.toNat + 1)) → ∀ l ∈ I.en, l < 64 →
          regBusy (u.group r) [l] (.v, q) = true) ∧
        (ld.split = true → ∀ l ∈ I.en, (u.lane r l).st = .splitWait))) ∧
    (∀ (o : OpUld) (ls : List (Nat × Nat × Leaf)) (t u : State) (lf : Leaf) (bs : List Byte), clear (.uld o) s r →
      let I := enter (.uld o) s r
      let n := if o.w then 8 else 4
      let va := I.uldAddr o
      checkLanes I.s I.who n .read false [(I.low, va)] = .ok (ls, t) → isFabric va = false → ls = [(I.low, va, lf)] →
      sauHolds t r n ls = false → hasRoom s I.who [lf.pa] → coreRead t I.who lf n = .ok (bs, u) →
      GivesS (.uld o) s r o.d (fun _ => BitVec.ofNat 64 (leNat bs)) ∧ ∀ k, k < n → bs[k]? = viewByte s I.who (pteCp lf.pte) (lf.pa + k)) ∧
    (∀ o : OpLds, clear (.lds o) s r →
      let I := enter (.lds o) s r
      let n := mfmtSize o.mfmt.toNat o.w
      let x := fun (l : Nat) => ldConv o.mfmt.toNat (leNat ((List.range n).map (fun k =>
        Map.get 0 (s.team r.team).scratch (scrKey (isUpper (s.team r.team) r.gid) (scrAddr (I.th l) o.a o.imm) + k))))
      checkScr I.tm (isUpper I.tm r.gid) n .read (I.en.map (fun l => (l, scrAddr (I.th l) o.a o.imm))) = none →
      Leads (.lds o) s (fun u => (u.group r).fpflags = (s.group r).fpflags ∧ ∀ l ∈ I.en,
        if o.w then (u.lane r l).value2 o.d.toNat = x l else (u.lane r l).value o.d.toNat = (x l).setWidth 32)) ∧
    (∀ o : OpLdc, clear (.ldc o) s r →
      let I := enter (.ldc o) s r
      let n := if o.w then 8 else 4
      let off := fun (l : Nat) => ldcOff (I.th l) o
      let gives := fun (x : Word64) => Leads (.ldc o) s (fun u => ∀ l ∈ I.en,
        if o.w then (u.lane r l).value2 o.d.toNat = x else (u.lane r l).value o.d.toNat = x.setWidth 32)
      (∀ l ∈ I.en, off l % n = 0) →
      ((∀ l ∈ I.en, I.tm.decl.csize.getD o.bank.toNat 0 ≤ off l) → gives 0) ∧
      (ldcAbsent I.s r o.bank.toNat (I.en.map (fun l => (l, off l))) = [] →
        (∀ l x t, I.en = [l] → ldcRead I.s r o.bank.toNat (off l) n = .ok (x, t) → gives (BitVec.ofNat 64 x)) ∧
        ((ldcReads I o I.s).2.1 = [] → Leads (.ldc o) s (fun u => ∀ l ∈ I.en,
          let x := BitVec.ofNat 64 (Map.get 0 (ldcReads I o I.s).1 l)
          if o.w then (u.lane r l).value2 o.d.toNat = x else (u.lane r l).value o.d.toNat = x.setWidth 32)))) ∧
    (∀ (g : GRef) (id l : Nat) (ld : OutLoad) (lf : Leaf) (bs : List Byte) (t : State),
      (s.group g).loads.find? (fun x => decide (x.id = id)) = some ld → Map.find ld.again l = some lf → (s.team g.team).st.runs = true →
      coreRead s (s.who g) lf ld.n = .ok (bs, t) → hasRoom s (s.who g) [lf.pa] → lf.pa % 64 + ld.n ≤ 64 →
      (∀ k, k < ld.n → bs[k]? = viewByte s (s.who g) (pteCp lf.pte) (lf.pa + k)) ∧
      ∃ x, ((readAgain s g id l).group g).loads.find? (fun y => decide (y.id = id)) = some x ∧
        x.vals = ld.vals.map (fun p => if p.1 = l then (l, ldConv ld.mfmt (leNat bs)) else p)) ∧
    (∀ (g : Group) (n : Nat) (pas : List Nat), ∀ ld ∈ (g.fixReads n pas).loads, ∀ p ∈ ld.again, ∀ a ∈ pas,
      p.2.pa + ld.n ≤ a ∨ a + n ≤ p.2.pa) ∧
    (∀ (g : GRef) (id : Nat) (ld : OutLoad), (s.group g).loads.find? (fun l => decide (l.id = id) && !l.split) = some ld →
      ∃ t, exec (.loadDataArrival g id) s = .next t ∧
        (t.group g).loads = (s.group g).loads.filter (fun l => decide (l.id ≠ id)) ∧
        (t.group g).busy = (s.group g).busy.filter (fun b => decide (b.id ≠ id)) ∧
        ∀ l ∈ ld.vals.map (·.1), (Map.find (s.group g).lanes l).isSome →
          t.lane g l = (s.lane g l).putLoaded ld.dst ld.wide (Map.get 0 ld.vals l)) ∧
    (∀ (g : GRef) (l : Nat) (ld : OutLoad),
      (s.group g).loads.find? (fun x => x.split && ((Map.find x.vals l).isSome || decide (l ∈ x.far))) = some ld →
      (s.lane g l).st = .splitWait →
      ((Map.find ld.vals l).isSome → (ld.store = true → l ∉ unaccepted (s.group g)) →
        ∃ t, exec (.splitDataArrival g l) s = .next t ∧ (t.lane g l).st = .live ∧
          (ld.store = false → ld.wide = false → (t.lane g l).value ld.dst = (Map.get 0 ld.vals l).setWidth 32) ∧
          (ld.store = true → ∀ n, (t.lane g l).value n = (s.lane g l).value n)) ∧
      ((Map.find ld.vals l).isSome → ld.store = true → l ∈ unaccepted (s.group g) → exec (.splitDataArrival g l) s = .next s) ∧
      (∀ q d, Map.find ld.vals l = none → fabFind s g ld.pc l = some q → q.ans = some (.ok d) →
        ∃ t, exec (.splitDataArrival g l) s = .next t ∧ (t.lane g l).st = .live ∧
          (ld.store = false → ld.wide = false → (t.lane g l).value ld.dst = (ldConv ld.mfmt (leNat d)).setWidth 32)))

/-- A store (R258 to R261, R107): every lane's bytes, converted, stand at its own address under the page's cache policy once no later
lane has stored over them, where the caches have room for the lines and no line is poisoned. They stand there as soon as the store has
issued, or, where the outside has the core's stores wait, once each place's store is performed (R110, log entry 75): until then memory and
caches are as they were, and the lanes' last store to a place is the one that is performed there. The flags are those of the conversions. STS
stores to the scratchpad. -/
def Obligations.StoresWrite : Prop :=
  ∀ (s : State) (r : GRef),
    (∀ (o : OpMem) (ls : List (Nat × Nat × Leaf)) (t : State), clear (.st o) s r →
      let I := enter (.st o) s r
      let n := mfmtSize o.mfmt.toNat o.w
      let x := fun (l : Nat) => stConv o.mfmt.toNat (stData (I.th l) o.d o.w)
      checkLanes I.s I.who n .write false (I.addrs o.a) = .ok (ls, t) → sauHolds t r n ls = false →
      Leads (.st o) s (fun u => flagged I s u (fun l _ => (x l).2) ∧
        ((s.core I.who.core).slow = true →
          (∀ a, memByte u a = memByte s a) ∧ (u.core I.who.core).l1 = (s.core I.who.core).l1 ∧
          ∃ hs, (u.group r).stq = (s.group r).stq ++ hs ∧ (hs.map (·.leaf.pa)).Nodup ∧
            (∀ h ∈ hs, h.n = n ∧ ∀ l v, (l, v) ∈ h.ys ↔ v = BitVec.ofNat 64 (x l).1 ∧ ∃ va lf, (l, va, lf) ∈ ls ∧ lf.pa = h.leaf.pa) ∧
            ∀ e ∈ ls, ∃ h ∈ hs, h.leaf.pa = e.2.2.pa) ∧
        ((s.core I.who.core).slow = false → u.late = s.late → roomy s I.who (reached ls) → ∀ (a b : List (Nat × Nat × Leaf)) (l va : Nat) (lf : Leaf),
          ls = a ++ (l, va, lf) :: b → (∀ e ∈ b, apart n lf e.2.2) →
          ∀ k, k < n → viewByte u I.who (pteCp lf.pte) (lf.pa + k) = (leBytes (x l).1 n)[k]?))) ∧
    (∀ (h : HeldSt) (l : Nat) (v : Word64), (s.group r).stq.find? (fun x => decide (x.id = h.id)) = some h → (h.ys.map (·.1)).Nodup →
      h.ys.getLast? = some (l, v) → (h.n = 1 ∨ h.n = 2 ∨ h.n = 4 ∨ h.n = 8) → h.leaf.pa % h.n = 0 →
      let u := storeEnter s r h.id
      (∀ x ∈ (u.group r).stq, x.id ≠ h.id) ∧
      (u.late = s.late → roomy s (s.who r) [h.leaf.pa] →
        ∀ k, k < h.n → viewByte u (s.who r) (pteCp h.leaf.pte) (h.leaf.pa + k) = (leBytes v.toNat h.n)[k]?)) ∧
    (∀ o : OpLds, clear (.sts o) s r →
      let I := enter (.sts o) s r
      let n := mfmtSize o.mfmt.toNat o.w
      let x := fun (l : Nat) => stConv o.mfmt.toNat (stData (I.th l) o.d o.w)
      let key := fun (l : Nat) => scrKey (isUpper I.tm r.gid) (scrAddr (I.th l) o.a o.imm)
      checkScr I.tm (isUpper I.tm r.gid) n .write (I.en.map (fun l => (l, scrAddr (I.th l) o.a o.imm))) = none →
      Leads (.sts o) s (fun u => flagged I s u (fun l _ => (x l).2) ∧
        ∀ (a b : List Nat) (l : Nat), I.en = a ++ l :: b → (∀ m ∈ b, key l + n ≤ key m ∨ key m + n ≤ key l) →
          ∀ k, k < n → some (Map.get 0 (u.team r.team).scratch (key l + k)) = (leBytes (x l).1 n)[k]?))

/-- The frames of loads, stores and hints, where the caches have room for the lines that they fetch. A load, LDS, LDC, ULD or PREFD changes no byte of memory, at its home or as any core of the
die reads it; ST changes only the bytes that its lanes store to, and STS only those of the scratchpad. No register changes but the
destinations of LDS, LDC and ULD. -/
def Obligations.LoadStoreFrames : Prop :=
  ∀ (s t : State) (r : GRef) (i : Instr), clear i s r → exec i s = .next t → (t.group r).fault = none →
    (s.team r.team).decl.rqsc = false →
    let I := enter i s r
    let kept := sameRegs i s t r ∧ sameControls s t r ∧ sameOthers s t r ∧
      ∀ k, (t.team k).tiles = (s.team k).tiles ∧ (t.team k).tc = (s.team k).tc ∧ (t.team k).acc = (s.team k).acc
    ((∃ o, i = .ld o ∧ ∀ ls u, checkLanes I.s I.who (mfmtSize o.mfmt.toNat o.w) .read false (I.addrs o.a) = .ok (ls, u) →
          hasRoom s I.who (reached ls)) ∨
        (∃ o, i = .uld o ∧ ∀ ls u, checkLanes I.s I.who (if o.w then 8 else 4) .read false [(I.low, I.uldAddr o)] = .ok (ls, u) →
          hasRoom s I.who (reached ls)) ∨
        (∃ o, i = .prefd o ∧ hasRoom s I.who (hinted I.who o.lvl.toNat (I.en.map (fun l => ((I.th l).rw o.a).toNat)) I.s)) ∨
        (∃ o, i = .lds o) ∨ (∃ o, i = .ldc o) →
      kept ∧ sameStores s t ∧ (t.group r).fpflags = (s.group r).fpflags ∧ (∀ a, memByte t a = memByte s a) ∧ t.lmeta = s.lmeta ∧
      t.poison = s.poison ∧
      ∀ (w : Who) (cp pa : Nat), (w.core ≠ I.who.core ∨ w.die = I.who.die) → viewByte t w cp pa = viewByte s w cp pa) ∧
    (∀ o ls u, i = .st o → checkLanes I.s I.who (mfmtSize o.mfmt.toNat o.w) .write false (I.addrs o.a) = .ok (ls, u) →
      roomy s I.who (reached ls) → t.late = s.late →
      kept ∧ sameStores s t ∧
      ∀ (w : Who) (cp pa : Nat), (∀ e ∈ ls, pa < e.2.2.pa ∨ e.2.2.pa + mfmtSize o.mfmt.toNat o.w ≤ pa) →
        viewByte t w cp pa = viewByte s w cp pa) ∧
    (∀ o, i = .sts o → kept ∧ (∀ (w : Who) (cp pa : Nat), viewByte t w cp pa = viewByte s w cp pa) ∧
      ∀ x, (∀ l ∈ I.en, let k := scrKey (isUpper I.tm r.gid) (scrAddr (I.th l) o.a o.imm)
          x < k ∨ k + mfmtSize o.mfmt.toNat o.w ≤ x) →
        Map.get 0 (t.team r.team).scratch x = Map.get 0 (s.team r.team).scratch x)

/-- The checks of accesses (R79, R260, R261): an address whose bits [63:56] are not zero faults with ADDRCANON, otherwise one that is
not aligned to the access with ALIGN, for the lanes that fail; an offset outside the team's allocation faults with PGPROT. CCTL (R270):
WB leaves no dirty byte of the lines in the L1, INV drops their clean bytes, WBINV leaves nothing of them. PREFD never faults, and a
lane whose address has no local form is passed over. -/
def Obligations.AccessFaultsAndHints : Prop :=
  (
    ∀ (s : State) (r : GRef),
      (∀ (i : Instr) (n : Nat) (a : GAddr),
        ((∃ o, i = .ld o ∧ n = mfmtSize o.mfmt.toNat o.w ∧ a = o.a) ∨ (∃ o, i = .st o ∧ n = mfmtSize o.mfmt.toNat o.w ∧ a = o.a) ∨
          (∃ o, i = .atom o ∧ n = (if o.ty = 2 then 8 else 4) ∧ a = .plain o.a ∧ o.ord.toNat < 2 ∧
            ∀ q ∈ s.sauQ, q.keep = true → q.own ≠ r) ∨
          (∃ o, i = .cas o ∧ n = (if o.w then 8 else 4) ∧ a = .plain o.a ∧ o.ord.toNat < 2) ∨
          (∃ o, i = .redst o ∧ n = (if o.ty = 2 then 8 else 4) ∧ a = .plain o.a) ∨ (∃ o, i = .cctl o ∧ n = 1 ∧ a = .plain o.a)) →
        clear i s r →
        let as := (enter i s r).addrs a
        let far := as.filter (fun p => decide (2 ^ 56 ≤ p.2))
        let odd := as.filter (fun p => decide (p.2 % n ≠ 0))
        (far ≠ [] → ∃ f, Raises i s r f ∧ f.code = cADDRCANON ∧ f.lanes = far.map (·.1)) ∧
        (far = [] → odd ≠ [] → ∃ f, Raises i s r f ∧ f.code = cALIGN ∧ f.lanes = odd.map (·.1))) ∧
      (∀ (i : Instr) (n : Nat) (x : Thread → Nat),
        ((∃ o, (i = .lds o ∨ i = .sts o) ∧ n = mfmtSize o.mfmt.toNat o.w ∧ x = fun t => scrAddr t o.a o.imm) ∨
          (∃ o, i = .atoms o ∧ n = (if o.ty = 2 then 8 else 4) ∧ o.ord.toNat < 2 ∧ x = fun t => (t.r o.a).toNat)) →
        clear i s r →
        let I := enter i s r
        let odd := I.en.filter (fun l => decide (x (I.th l) % n ≠ 0))
        let out := I.en.filter (fun l => !scrIn I.tm.decl (x (I.th l)) n)
        (odd ≠ [] → ∃ f, Raises i s r f ∧ f.code = cALIGN ∧ f.lanes = odd) ∧
        (odd = [] → out ≠ [] → ∃ f, Raises i s r f ∧ f.code = cPGPROT ∧ f.lanes = out))) ∧
  (
    ∀ (s : State) (r : GRef),
      (∀ (o : OpCctl) (ls : List (Nat × Nat × Leaf)) (t : State), clear (.cctl o) s r →
        let I := enter (.cctl o) s r
        checkLanes I.s I.who 1 .read false (I.addrs (.plain o.a)) = .ok (ls, t) →
        Leads (.cctl o) s (fun u => ∀ e ∈ ls, ∀ x ∈ (u.core I.who.core).l1, x.1 / 64 = e.2.2.pa / 64 →
          (o.op = 0 → x.2.dirty = false) ∧ (o.op = 1 → x.2.dirty = true) ∧ o.op ≠ 2)) ∧
      (∀ o : OpPrefd, clear (.prefd o) s r → Leads (.prefd o) s (fun u => (u.group r).fault = (s.group r).fault ∧
        ∀ l ∈ (enter (.prefd o) s r).set, (u.lane r l).pc = BitVec.ofNat 64 (issuePc (s.group r) + 8))))

/-- The operations on one element (R264): i32 (0), n32 (1) and i64 (2); `x` the old value, `y` the operand. Atomics of lanes with one
address (R265 to R268): one operation at the site, after the release of its order, its steps in ascending lane order, each lane getting
the value that its own step found. A packed type makes its low half now and its high half later, as an operation of its own at the site;
an ATOM that returns values or acquires waits for it at issue, and then writes both halves of the old values, or faults with the high
half's failure (R421, R422; log entry 37). CAS writes only where a compare succeeds; REDST goes out and returns nothing. The lanes of one
fabric address share one request (log entry 36). -/
def Obligations.Atomics : Prop :=
  (
    ∀ (ty x y : Nat), ty ≤ 2 →
      let w := if ty = 2 then 64 else 32
      let val := fun (a : Nat) => if ty = 1 then (a : Int) else (BitVec.ofNat w a).toInt
      x < 2 ^ w → y < 2 ^ w →
      atomElem 0 ty x y = (x + y) % 2 ^ w ∧
      atomElem 1 ty x y = (if val y < val x then y else x) ∧
      atomElem 2 ty x y = (if val x < val y then y else x) ∧
      atomElem 3 ty x y = x &&& y ∧ atomElem 4 ty x y = x ||| y ∧ atomElem 5 ty x y = x ^^^ y ∧
      atomElem 6 ty x y = y ∧ atomElem 7 ty x y = (if y ≤ x then 0 else x + 1)) ∧
  (
    ∀ (s : State) (r : GRef),
      (∀ (o : OpAtom) (x0 : Nat), clear (.atoms o) s r → (ordRel o.ord = true → relPending s r o.scope.toNat = false) →
        let I := (enter (.atoms o) s r).ordered o.ord o.scope
        let n := if o.ty = 2 then 8 else 4
        let key := scrKey (isUpper I.tm r.gid) x0
        let y := fun (l : Nat) => if o.ty = 2 then (srcW I.gp false (I.th l) o.b).toNat else (srcH I.gp (I.th l) o.b).toNat
        let old := leNat (Map.getN 0 (s.team r.team).scratch key n)
        let run := fun (ls : List Nat) => (ls.map y).foldl (fabElem o.op.toNat o.ty.toNat) old
        (∀ l ∈ I.en, ((I.th l).r o.a).toNat = x0) →
        checkScr I.tm (isUpper I.tm r.gid) n .atom (I.en.map (fun l => (l, x0))) = none →
        Leads (.atoms o) s (fun u => Map.getN 0 (u.team r.team).scratch key n = leBytes (run I.en) n ∧
          (o.nr = false → ∀ (a b : List Nat) (l : Nat), I.en = a ++ l :: b → l ∉ a →
            if o.ty = 2 then (u.lane r l).value2 o.d.toNat = BitVec.ofNat 64 (run a)
            else (u.lane r l).value o.d.toNat = BitVec.ofNat 32 (run a)))) ∧
      (∀ (o : OpAtom) (ls : List (Nat × Nat × Leaf)) (t v : State) (va old : Nat) (lf : Leaf), clear (.atom o) s r →
        (ordRel o.ord = true → relPending s r o.scope.toNat = false) →
        let I := (enter (.atom o) s r).ordered o.ord o.scope
        let ty := o.ty.toNat
        let n := if o.ty = 2 then 8 else 4
        let m := if o.ty = 2 then 8 else if 4 ≤ ty then 2 else 4
        let y := fun (l : Nat) => if o.ty = 2 then (srcW I.gp false (I.th l) o.b).toNat else (srcH I.gp (I.th l) o.b).toNat
        let run := fun (ls : List Nat) =>
          if 4 ≤ ty then (ls.map (fun l => y l % 65536)).foldl (atomHalf o.op.toNat ty) old
          else (ls.map y).foldl (atomElem o.op.toNat ty) old
        atomKeeps o = false → checkLanes I.s I.who n .atom (atSau o.scope.toNat) (I.addrs (.plain o.a)) = .ok (ls, t) →
        (∀ p ∈ I.addrs (.plain o.a), p.2 = va) → isFabric va = false → byAddr ls = [(va, lf, I.en)] → sauHolds t r n ls = false →
        siteRead t I.who lf (atSau o.scope.toNat) m = .ok (old, v) →
        Leads (.atom o) s (fun u =>
          (ty ≤ 3 → o.nr = false → ∀ (a b : List Nat) (l : Nat), I.en = a ++ l :: b → l ∉ a →
            if o.ty = 2 then (u.lane r l).value2 o.d.toNat = BitVec.ofNat 64 (run a)
            else (u.lane r l).value o.d.toNat = BitVec.ofNat 32 (run a)) ∧
          (4 ≤ ty → ∃ q ∈ u.sauQ, q.own = r ∧ q.keep = false ∧ q.high = true ∧ q.pa = lf.pa + 2 ∧ q.op = o.op ∧ q.ty = o.ty ∧
            q.ys = I.en.map (fun l => (l, BitVec.ofNat 64 (y l / 65536)))) ∧
          (atSau o.scope.toNat = true → linePoisoned v (lineOf lf.pa) = none →
            memBytes u lf.pa m = leBytes (run I.en) m))) ∧
      (∀ (o : OpAtom) (ls : List (Nat × Nat × Leaf)) (t v : State) (va old : Nat) (lf : Leaf), clear (.atom o) s r →
        (ordRel o.ord = true → relPending s r o.scope.toNat = false) → atomKeeps o = true →
        let J := (enter (.atom o) s r).ordered o.ord o.scope
        let I := J.back
        let low := fun (ls : List Nat) => (ls.map (fun l => atomY I o l % 65536)).foldl (atomHalf o.op.toNat o.ty.toNat) old
        atomParts I I.s0 = [] → checkLanes I.s I.who 4 .atom (atSau o.scope.toNat) (I.addrs (.plain o.a)) = .ok (ls, t) →
        (∀ p ∈ I.addrs (.plain o.a), p.2 = va) → isFabric va = false → byAddr ls = [(va, lf, I.en)] → sauHolds t r 4 ls = false →
        siteRead t I.who lf (atSau o.scope.toNat) 2 = .ok (old, v) →
        Leads (.atom o) s (fun u => (∃ q ∈ u.sauQ, q.own = r ∧ q.keep = true ∧ q.ans = none ∧ q.high = true ∧ q.pa = lf.pa + 2 ∧
            q.op = o.op ∧ q.ty = o.ty ∧ q.pc = BitVec.ofNat 64 I.pc ∧
            q.ys = I.en.map (fun l => (l, BitVec.ofNat 64 (atomY I o l / 65536))) ∧
            ∀ (a b : List Nat) (l : Nat), I.en = a ++ l :: b → (l, BitVec.ofNat 64 (low a)) ∈ q.olds) ∧
          (u.group r).hold = some (maskOf I.set) ∧ (∀ l, (u.lane r l).pc = (s.lane r l).pc) ∧
          (atSau o.scope.toNat = true → linePoisoned v (lineOf lf.pa) = none → memBytes u lf.pa 2 = leBytes (low I.en) 2))) ∧
      (∀ (o : OpAtom) (q : SauOp), clear (.atom o) s r → atomKeeps o = true →
        let I := enter (.atom o) s r
        atomParts I I.s0 = [q] → (∀ p ∈ I.addrs (.plain o.a), isFabric p.2 = false) →
        (q.ans = none → exec (.atom o) s = .next (keepWaiting I 0 I.s0)) ∧
        (∀ hs, q.ans = some (.olds hs) → Leads (.atom o) s (fun u => (∀ p ∈ u.sauQ, p.id ≠ q.id) ∧
          (∀ l ∈ I.set, (u.lane r l).pc = BitVec.ofNat 64 (I.pc + 8)) ∧
          (o.nr = false → ∀ l ∈ I.en, l ∈ q.ys.map (·.1) → (u.lane r l).value o.d.toNat =
            BitVec.ofNat 32 ((Map.get 0 q.olds l).toNat % 65536 + 65536 * Map.get 0 hs l)))) ∧
        (∀ e, q.ans = some (.failed e) → q.ys ≠ [] → I.tm.decl.rqsc = false → Leads (.atom o) s (fun u => (∀ p ∈ u.sauQ, p.id ≠ q.id) ∧
          (∀ l ∈ I.en, l ∈ q.ys.map (·.1) → (u.lane r l).pc = BitVec.ofNat 64 I.pc) ∧
          ∃ h, (u.group r).fault = some h ∧ h.frec.code = BitVec.ofNat 8 e.code ∧ h.frec.lanes = maskOf (q.ys.map (·.1))))) ∧
      (∀ (o : OpCas) (ls : List (Nat × Nat × Leaf)) (t v : State) (va old : Nat) (lf : Leaf), clear (.cas o) s r →
        (ordRel o.ord = true → relPending s r o.scope.toNat = false) →
        let I := (enter (.cas o) s r).ordered o.ord o.scope
        let n := if o.w then 8 else 4
        let b := fun (l : Nat) => if o.w then (srcW I.gp false (I.th l) o.b).toNat else (srcH I.gp (I.th l) o.b).toNat
        let c := fun (l : Nat) => (stData (I.th l) o.c o.w).toNat
        let run := fun (ls : List Nat) => ls.foldl (fun x l => if x = b l then c l else x) old
        checkLanes I.s I.who n .atom (atSau o.scope.toNat) (I.addrs (.plain o.a)) = .ok (ls, t) →
        (∀ p ∈ I.addrs (.plain o.a), p.2 = va) → isFabric va = false → byAddr ls = [(va, lf, I.en)] → sauHolds t r n ls = false →
        siteRead t I.who lf (atSau o.scope.toNat) n = .ok (old, v) →
        Leads (.cas o) s (fun u =>
          (∀ (a b : List Nat) (l : Nat), I.en = a ++ l :: b → l ∉ a →
            if o.w then (u.lane r l).value2 o.d.toNat = BitVec.ofNat 64 (run a)
            else (u.lane r l).value o.d.toNat = BitVec.ofNat 32 (run a)) ∧
          (ordAcq o.ord = false → (∀ (a b' : List Nat) (l : Nat), I.en = a ++ l :: b' → run a ≠ b l) →
            u.mem = v.mem ∧ ∀ k, (u.core k).l1 = (v.core k).l1) ∧
          (atSau o.scope.toNat = true → (∃ a l b', I.en = a ++ l :: b' ∧ run a = b l) → linePoisoned v (lineOf lf.pa) = none →
            memBytes u lf.pa n = leBytes (run I.en) n))) ∧
      (∀ (o : OpRedst) (ls : List (Nat × Nat × Leaf)) (t : State), clear (.redst o) s r →
        let I := enter (.redst o) s r
        checkLanes I.s I.who (if o.ty = 2 then 8 else 4) .write true (I.addrs (.plain o.a)) = .ok (ls, t) →
        Leads (.redst o) s (fun u => u.sauQ.length = s.sauQ.length + (byAddr ls).length ∧
          u.fabQ.length = s.fabQ.length + (fabLanes (I.addrs (.plain o.a))).length ∧ u.mem = s.mem ∧ sameRegs (.redst o) s u r ∧
          (∀ q ∈ u.sauQ.drop s.sauQ.length, q.own = r ∧ q.op = o.op ∧ q.ty = o.ty ∧ q.atom = false ∧ q.keep = false))) ∧
      (∀ (q : SauOp) (x : Nat) (t : State), s.sauQ.find? (fun p => decide (p.id = q.id)) = some q → sauBehind s q = false →
        q.l2 = none → q.ans = none →
        let ty := q.ty.toNat
        let n := if q.ty = 2 then 8 else if 4 ≤ ty then 2 else 4
        let ys := q.ys.map (fun p => if 4 ≤ ty ∧ q.high = false then p.2.toNat % 65536 else p.2.toNat)
        siteRead s (s.who q.own) (sauLeaf q s) true n = .ok (x, t) → linePoisoned t (lineOf q.pa) = none →
        ∃ u, exec (.sauApply q.id) s = .next u ∧
          memBytes u q.pa n = leBytes (ys.foldl (if 4 ≤ ty then atomHalf q.op.toNat ty else atomElem q.op.toNat ty) x) n ∧
          (ty ≤ 3 ∨ (q.high = true ∧ q.keep = false) → ∀ p ∈ u.sauQ, p.id ≠ q.id) ∧
          (4 ≤ ty → q.high = false → ∃ p ∈ u.sauQ, p.id = q.id ∧ p.high = true ∧ p.pa = q.pa + 2 ∧ p.own = q.own) ∧
          (4 ≤ ty → q.high = true → q.keep = true → (Map.find (s.team q.own.team).groups q.own.gid).isSome →
            ∃ p ∈ u.sauQ, ∃ hs, p.id = q.id ∧ p.ans = some (.olds hs) ∧ ∀ a b e, q.ys = a ++ e :: b →
              (e.1, (a.map (·.2.toNat)).foldl (atomHalf q.op.toNat ty) x) ∈ hs)))

/-! ## Tiles, accumulators, commands, handles (R119, R120, R227, R249, R271 to R301) -/

/-- The tile instructions (R274 to R276), which wait at issue while a command uses one of their tiles: TCFG sets a valid shape and faults
with ILLENC on any other; TZERO clears the whole tile; TLD and TST copy the image between scratchpad and tile, and fault with ILLENC on a
tile that is not configured; TTRN writes the transpose, element by element, and its shape, and faults with ILLENC when its destination is
its source, or its source is not configured, of another than a plain format, or of more than 4,095 columns. Nothing else of the team
changes: no byte of another tile and no other shape. A tile whose contents are lost faults with ECCU (R417). ACCRD and ACCWR (R285), when no command names the accumulator: a lane reads or writes the
element of its index; an index beyond the accumulator reads 0 and writes nothing; of lanes with one index the last writes. -/
def Obligations.TilesAndAccumulators : Prop :=
  (
    ∀ (s : State) (r : GRef),
      let up := isUpper (s.team r.team) r.gid
      let key := fun (t x : Nat) => tileKey up t * 65536 + x
      let size := fun (w : Nat) => imgSize (shEfmt w) (shRows w) (shCols w)
      let rest := fun (i : Instr) (t : State) => sameWorld s t ∧ sameOthers s t r ∧ sameRegs i s t r ∧ sameLanes s t r ∧ sameControls s t r ∧
        (t.team r.team).acc = (s.team r.team).acc
      (∀ o : OpTcfg, clear (.tcfg o) s r → tilesBusy s r [o.tc.toNat] = false →
        let w := ((enter (.tcfg o) s r).rs o.a).toNat % 2 ^ 32
        (w = 0 ∨ shapeOk w = true → Leads (.tcfg o) s (fun t => rest (.tcfg o) t ∧ t.shapeOf r o.tc.toNat = BitVec.ofNat 64 w ∧
          (∀ k, k < 8 → k ≠ o.tc.toNat → t.shapeOf r k = s.shapeOf r k) ∧ (t.team r.team).tiles = (s.team r.team).tiles ∧
          (t.team r.team).scratch = (s.team r.team).scratch)) ∧
        (w ≠ 0 → shapeOk w = false → Raises (.tcfg o) s r { code := cILLENC, info := 0, lanes := (enter (.tcfg o) s r).en })) ∧
      (∀ o : OpTz, clear (.tzero o) s r → tilesBusy s r [o.t.toNat] = false → Leads (.tzero o) s (fun t => rest (.tzero o) t ∧
        (∀ x, x < 65536 → t.tileByte r o.t.toNat x = 0) ∧
        (∀ y, (y < key o.t.toNat 0 ∨ key o.t.toNat 65536 ≤ y) → Map.get 0 (t.team r.team).tiles y = Map.get 0 (s.team r.team).tiles y) ∧
        (t.team r.team).tc = (s.team r.team).tc ∧ (t.team r.team).scratch = (s.team r.team).scratch)) ∧
      (∀ o : OpTl, clear (.tld o) s r → tilesBusy s r [o.t.toNat] = false →
        let I := enter (.tld o) s r
        let w := (s.shapeOf r o.t.toNat).toNat
        shRows w ≠ 0 → scrRegion I false .read 64 (I.rs o.a).toNat (size w) = none → Leads (.tld o) s (fun t => rest (.tld o) t ∧
          (∀ x, x < size w → t.tileByte r o.t.toNat x = Map.get 0 (s.team r.team).scratch (scrKey up ((I.rs o.a).toNat + x))) ∧
          (∀ y, (y < key o.t.toNat 0 ∨ key o.t.toNat (size w) ≤ y) →
            Map.get 0 (t.team r.team).tiles y = Map.get 0 (s.team r.team).tiles y) ∧
          (t.team r.team).tc = (s.team r.team).tc ∧ (t.team r.team).scratch = (s.team r.team).scratch)) ∧
      (∀ o : OpTl, clear (.tst o) s r → tilesBusy s r [o.t.toNat] = false →
        let I := enter (.tst o) s r
        let w := (s.shapeOf r o.t.toNat).toNat
        let k := fun (x : Nat) => scrKey up ((I.rs o.a).toNat + x)
        shRows w ≠ 0 → scrRegion I false .write 64 (I.rs o.a).toNat (size w) = none → tileBad (s.team r.team) up o.t.toNat = false →
        Leads (.tst o) s (fun t => rest (.tst o) t ∧
          (∀ x, x < size w → (∀ z, x < z → z < size w → k z ≠ k x) →
            Map.get 0 (t.team r.team).scratch (k x) = s.tileByte r o.t.toNat x) ∧
          (∀ y, (∀ x, x < size w → k x ≠ y) → Map.get 0 (t.team r.team).scratch y = Map.get 0 (s.team r.team).scratch y) ∧
          (t.team r.team).tc = (s.team r.team).tc ∧ (t.team r.team).tiles = (s.team r.team).tiles)) ∧
      (∀ (o : OpTl) (f : FInfo),
        let w := (s.shapeOf r o.t.toNat).toNat
        tilesBusy s r [o.t.toNat] = false →
        (shRows w = 0 →
          (clear (.tld o) s r → Raises (.tld o) s r { code := cILLENC, info := 0, lanes := (enter (.tld o) s r).en }) ∧
          (clear (.tst o) s r → Raises (.tst o) s r { code := cILLENC, info := 0, lanes := (enter (.tst o) s r).en })) ∧
        (shRows w ≠ 0 →
          (clear (.tld o) s r → (let I := enter (.tld o) s r; scrRegion I false .read 64 (I.rs o.a).toNat (size w) = some f) →
            Raises (.tld o) s r f) ∧
          (clear (.tst o) s r → let I := enter (.tst o) s r
            let g := scrRegion I false .write 64 (I.rs o.a).toNat (size w)
            (g = some f → Raises (.tst o) s r f) ∧
            (g = none → tileBad (s.team r.team) up o.t.toNat = true → Raises (.tst o) s r (eccTile I))))) ∧
      (∀ (i : Instr) (ts : List Nat), ((∃ o, i = .tcfg o ∧ ts = [o.tc.toNat]) ∨ (∃ o, i = .tzero o ∧ ts = [o.t.toNat]) ∨
          (∃ o, (i = .tld o ∨ i = .tst o) ∧ ts = [o.t.toNat]) ∨ (∃ o, i = .ttrn o ∧ ts = [o.d.toNat, o.a.toNat])) →
        clear i s r → tilesBusy s r ts = true → exec i s = .next (keepWaiting (enter i s r) 0 (enter i s r).s0)) ∧
      (∀ o : OpTt, clear (.ttrn o) s r → tilesBusy s r [o.d.toNat, o.a.toNat] = false →
        let w := (s.shapeOf r o.a.toNat).toNat
        let b := elemBits (shEfmt w) / 8
        let no := o.d = o.a ∨ shRows w = 0 ∨ plainFmt (shEfmt w) = false ∨ 4095 < shCols w
        (no → Raises (.ttrn o) s r { code := cILLENC, info := 0, lanes := (enter (.ttrn o) s r).en }) ∧
        (¬ no → tileBad (s.team r.team) up o.a.toNat = true → Raises (.ttrn o) s r (eccTile (enter (.ttrn o) s r))) ∧
        (¬ no → tileBad (s.team r.team) up o.a.toNat = false → Leads (.ttrn o) s (fun t => rest (.ttrn o) t ∧
          (∀ m c k, m < shRows w → c < shCols w → k < b →
            t.tileByte r o.d.toNat ((c * shRows w + m) * b + k) = s.tileByte r o.a.toNat ((m * shCols w + c) * b + k)) ∧
          t.shapeOf r o.d.toNat = BitVec.ofNat 64 (shEfmt w + 16 * shCols w + 65536 * shRows w) ∧
          (∀ y, (y < key o.d.toNat 0 ∨ key o.d.toNat (shCols w * shRows w * b) ≤ y) →
            Map.get 0 (t.team r.team).tiles y = Map.get 0 (s.team r.team).tiles y) ∧
          (∀ k, k ≠ tileKey up o.d.toNat → Map.get 0 (t.team r.team).tc k = Map.get 0 (s.team r.team).tc k) ∧
          (t.team r.team).scratch = (s.team r.team).scratch)))) ∧
  (
    ∀ (s : State) (r : GRef),
      let elem := fun (x : Word32) => (x.toNat / 65536, x.toNat % 65536)
      let inside := fun (x : Word32) => x.toNat / 65536 < 256 ∧ x.toNat % 65536 < 384
      (∀ o : OpAccrd, clear (.accrd o) s r → accBusy s r o.a.toNat = false →
        accBad (s.team r.team) (isUpper (s.team r.team) r.gid) o.a.toNat = false →
        Gives (.accrd o) s r o.d (fun I _ t =>
          let x := srcI I.gp false t o.b
          if inside x then s.accElem r o.a.toNat (elem x).1 (elem x).2 else 0)) ∧
      (∀ (i : Instr) (a : Nat), ((∃ o, i = .accrd o ∧ a = o.a.toNat) ∨ (∃ o, i = .accwr o ∧ a = o.acc.toNat)) → clear i s r →
        accBusy s r a = true → exec i s = .next (keepWaiting (enter i s r) 0 (enter i s r).s0)) ∧
      (∀ o : OpAccwr, clear (.accwr o) s r → accBusy s r o.acc.toNat = false →
        let I := enter (.accwr o) s r
        let at_ := fun (l : Nat) => (I.th l).r o.a
        Leads (.accwr o) s (fun t =>
          sameWorld s t ∧ sameOthers s t r ∧ sameRegs (.accwr o) s t r ∧ sameLanes s t r ∧ sameControls s t r ∧
          (t.team r.team).scratch = (s.team r.team).scratch ∧ (t.team r.team).tiles = (s.team r.team).tiles ∧
          (t.team r.team).tc = (s.team r.team).tc ∧
          (∀ (a b : List Nat) (l : Nat), I.en = a ++ l :: b → inside (at_ l) → (∀ m ∈ b, at_ m ≠ at_ l) →
            t.accElem r o.acc.toNat (elem (at_ l)).1 (elem (at_ l)).2 = srcI I.gp false (I.th l) o.b) ∧
          (∀ k m n, k < 4 → m < 256 → n < 384 → (k ≠ o.acc.toNat ∨ ∀ l ∈ I.en, elem (at_ l) ≠ (m, n)) →
            t.accElem r k m n = s.accElem r k m n))))

/-- Every asynchronous instruction starts its command when the checks of its execution pass (R119, R120, R227, R271, R278 to R285, R288,
R302, R313 to R326). COLL waits at issue while a word of its descriptor or its arrays is on its way from another chip (R80, R302; log
entry 36). -/
def Obligations.CommandsStart : Prop :=
  ∀ (s : State) (r : GRef),
    (∀ o : OpMma, Starts (.mma o) s r 1 .matrix (some o.tok) (fun J => mmaChecks J o false = none ∧ cvTakes J o.cv)) ∧
    (∀ o : OpMma, Starts (.mmas o) s r 1 .matrix (some o.tok) (fun J => mmaChecks J o true = none ∧ cvTakes J o.cv)) ∧
    (∀ o : OpAcccvt, Starts (.acccvt o) s r 1 .matrix (some o.tok) (fun J => cvTakes J o.cv ∧ (o.mq = 0 ∨ o.nq = 0 ∨
      (accEcc J o.acc.toNat = none ∧
        opndShape J o.asp o.aop o.afmt.toNat (16 * o.mq.toNat) (16 * o.nq.toNat) 1 = none ∧
        opndMem J .write o.asp o.aop o.afmt.toNat (16 * o.mq.toNat) (16 * o.nq.toNat) 1 = none)))) ∧
    (∀ o : OpAccz, Starts (.accz o) s r 1 .matrix (some o.d) (fun _ => True)) ∧
    (∀ o : OpAccst, Starts (.accst o) s r 1 .matrix (some o.d) (fun J =>
      let m := bitsN (J.rs o.c).toNat 8 0
      let n := bitsN (J.rs o.c).toNat 24 16
      scrRegion J true .write 64 (J.rs o.b).toNat (4 * m * n) = none ∧ accEcc J o.a.toNat = none)) ∧
    (∀ o : OpCpy, StartsAfter (cpyAfter .plain o) (.cpy o) s r 1 .copy (some o.tok) (fun J => (∃ x, cpyCheck .plain o J = .ok x) ∧ cvTakes J o.cv)) ∧
    (∀ o : OpCpy, StartsAfter (cpyAfter .gather o) (.cpyg o) s r 1 .copy (some o.tok) (fun J => (∃ x, cpyCheck .gather o J = .ok x) ∧ cvTakes J o.cv)) ∧
    (∀ o : OpCpy, StartsAfter (cpyAfter .expand o) (.cpyx o) s r 1 .copy (some o.tok) (fun J => (∃ x, cpyCheck .expand o J = .ok x) ∧ cvTakes J o.cv)) ∧
    (∀ o : OpCpy, StartsAfter (cpyAfter .compact o) (.cpyc o) s r 1 .copy (some o.tok) (fun J => (∃ x, cpyCheck .compact o J = .ok x) ∧ cvTakes J o.cv)) ∧
    (∀ o : OpCpy, StartsAfter (cpyAfter .fill o) (.cpyf o) s r 1 .copy (some o.tok) (fun J => (∃ x, cpyCheck .fill o J = .ok x) ∧ cvTakes J o.cv)) ∧
    (∀ o : OpCpy, StartsAfter (collAfter o) (.coll o) s r 4 .coll (some o.tok) (fun J =>
      (J.rs o.scrd).toNat % 64 = 0 ∧ (∀ t, collRead J o ≠ .wait t) ∧ cvTakes J o.cv)) ∧
    (∀ o : OpSSS, Starts (.kvmap o) s r 1 .copy (some o.d) (fun J => scrRegion J true .read 64 (J.rs o.b).toNat 64 = none)) ∧
    (∀ o : OpKvapnd, Starts (.kvapnd o) s r 1 .copy (some o.tok) (fun J =>
      kvRegion J (J.rs o.sq) 64 (J.rs o.sa).toNat (fun g => kvRows g o.nrows.toNat) = none)) ∧
    (∀ o : OpSd, Starts (.kvseal o) s r 1 .copy (some o.d) (fun _ => True)) ∧
    (∀ o : OpSd, Starts (.kvfree o) s r 1 .copy (some o.d) (fun _ => True)) ∧
    (∀ o : OpSd, Starts (.kvwashReq o) s r 1 .copy (some o.d) (fun _ => True)) ∧
    (∀ o : OpSd, Starts (.kvwashPage o) s r 1 .copy (some o.d) (fun _ => True)) ∧
    (∀ o : OpSd, Starts (.kvtierHbm o) s r 1 .copy (some o.d) (fun _ => True)) ∧
    (∀ o : OpSd, Starts (.kvtierLp o) s r 1 .copy (some o.d) (fun _ => True)) ∧
    (∀ o : OpSd, Starts (.kvrebld o) s r 1 .copy (some o.d) (fun _ => True)) ∧
    (∀ o : OpKvsel, Starts (.kvsel o) s r 1 .gather (some o.tok) (fun J =>
      kvRegion J (J.rs o.sq) 4 (J.rs o.sa).toNat (fun g => 4 * g.nkvh * g.dh) = none)) ∧
    (∀ o : OpKvpf, Starts (.kvpf o) s r 1 .gather (some o.tok) (fun J =>
      (∀ h ∈ ringOf o, ((J.s.ctx J.tm.ctx).handle (J.s.vcoreRef r) h).size ≠ 0) ∧
      (o.list = true ∨ (J.rs o.sq).toNat % 2 ^ 32 = 0xFFFFFFFF ∨
        (J.rs o.sq).toNat % 2 ^ 32 < (J.s.ctx J.tm.ctx).regs.kvptn.toNat))) ∧
    (∀ o : OpAttn, Starts (.attn o) s r 1 .matrix (some o.tok) (fun J => attnChecks J o false = none ∧ cvTakes J o.cv)) ∧
    (∀ o : OpAttn, Starts (.attnv o) s r 1 .matrix (some o.tok) (fun J => attnChecks J o true = none ∧ cvTakes J o.cv)) ∧
    (∀ o : OpAttnf, Starts (.attnf o) s r 1 .matrix (some o.d) (fun J => attnfChecks J o = none)) ∧
    (∀ o : OpSd, Starts (.actld o) s r 1 .copy (some o.d) (fun J => (J.rs o.a).toNat % 256 = 0 ∧
      (s.group r).actBank = (s.ctx (s.team r.team).ctx).actDef ∧
      bankBound s (s.team r.team).ctx (!(s.ctx (s.team r.team).ctx).actDef) = false ∧ actldPending s (s.team r.team).ctx = false)) ∧
    (∀ o : OpSxsect,
      let J := (enter (.sxsect o) s r).released 1
      let R := sxAll J o J.s J.en
      Starts (.sxsect o) s r 1 .gather none (fun _ =>
        (∀ p ∈ R.1, p.2.ask = none ∧ p.2.pend = false ∧ p.2.fail = none) ∧
        ∀ p ∈ R.1, p.2.outs ≠ [] → ((J.th p.1).rv (o.c.toNat + 1)).toNat % 4 = 0 ∧
          scrIn J.tm.decl ((J.th p.1).rv (o.c.toNat + 1)).toNat (4 * p.2.outs.length) = true))

/-- A command that ends (R119, R120): its status goes to the token register if its group awaits it, and the command, the only one of its
class, leaves with the counter going down by one. ACCZ clears its accumulator; MMA and MMAS leave in every element of the region what
the sums of R280 give, and nothing else changes there (R280, R281, R283). ACCCVT leaves each row of the accumulator converted in its image
(R284), ACCST its words row by row (R283). The array takes its commands in the order of arrival (R282); an attention command reaches it
when its handles are FULL, which then are DRAINING (R300, R319). ATTN leaves in each element its score, −∞ for a failed operand or a token
beyond NTOK, and ATTNV its sums over the operands that have not failed; nothing else of the accumulators changes (R320, R321, R426). ATTNF
adds each row's contribution, rounded to the nearest multiple of 2^−16, ties to even, to the masses of the pages listed (R149, R170, R322).
The copy family (R288 to R297) goes through the rows of its box in turn, reading each and making its writes: a row of the object reads as
the elements inside the object and zeros outside, the written row clips; formats are converted with rounding to nearest even; CPYG takes
its row numbers from the scratchpad; CPYC keeps of each group the elements of greatest magnitude, the lowest of equal ones, and CPYX puts
them back (R293, R294; log entries 70 and 94); CPYF fills; an image row holds its codes and scales. CPY with DIR 4 and 5 moves whole
images. COLL leaves the element-wise reduction in ascending rank, or its own part, and the counts received (R303). SXSECT counts the common
values above its bound and gives the first of them (R269; log entry 96). -/
def Obligations.CommandsEnd : Prop :=
  (
  ∀ (s : State) (c : Cmd), s.cmd c.id = some c →
    let r := c.own
    let live := c.st = .running ∧ (s.team r.team).st ≠ .saved
    let alone := (s.cmds.filter (fun x => decide (x.own = r) && decide (x.cls = c.cls))) = [c] ∧
      (Map.find (s.team r.team).groups r.gid).isSome
    (∀ status flags, alone → let t := finishCmd s c.id status flags
      t.cmd c.id = none ∧ (c.cls ≠ .none → (t.group r).counter c.cls = (s.group r).counter c.cls - 1) ∧
      (t.group r).fpflags = (s.group r).fpflags ||| BitVec.ofNat 64 flags ∧ t.mem = s.mem ∧
      ∀ d, (s.group r).toks.find? (fun p => decide (p.2 = c.id)) = some (d, c.id) → (t.group r).svalue d = status) ∧
    (∀ o, c.instr = .accz o → live → ∃ t, exec (.commandCompletion c.id) s = .next t ∧
      (∀ m n, m < 256 → n < 384 → t.accElem r o.a.toNat m n = 0) ∧
      ∀ k m n, k < 4 → k ≠ o.a.toNat → m < 256 → n < 384 → t.accElem r k m n = s.accElem r k m n) ∧
    (∀ o sparse, (c.instr = .mma o ∧ sparse = false) ∨ (c.instr = .mmas o ∧ sparse = true) → live → 0 < o.mq.toNat → o.mq.toNat ≤ 16 →
      0 < o.nq.toNat → o.nq.toNat ≤ 24 →
      let tm := s.team r.team
      let up := upperOf s r
      (o.kq = 0 ∨
        ((o.asp = true → scrBad tm up (c.s o.aop).toNat (opndSize o.afmt.toNat (mmaM o) (mmaK o / mmaRatio o sparse) (mmaRatio o sparse)) = false) ∧
        (o.bsp = true → scrBad tm up (c.s o.bop).toNat (opndSize o.bfmt.toNat (mmaN o) (mmaK o) 1) = false) ∧
        (o.asp = false → tileBad tm up (o.aop.toNat % 8) = false) ∧ (o.bsp = false → tileBad tm up (o.bop.toNat % 8) = false))) →
      ∃ t, exec (.commandCompletion c.id) s = .next t ∧
        (∀ m n, m < 16 * o.mq.toNat → n < 16 * o.nq.toNat → t.accElem r o.acc.toNat m n =
          BitVec.ofNat 32 (mmaElem o sparse (mmaIn tm up c o sparse) (s.accElem r o.acc.toNat m n).toNat m n).1) ∧
        ∀ k m n, k < 4 → m < 256 → n < 384 → (k ≠ o.acc.toNat ∨ 16 * o.mq.toNat ≤ m ∨ 16 * o.nq.toNat ≤ n) →
          t.accElem r k m n = s.accElem r k m n) ∧
    (∀ core rest, (s.core core).array = none → (s.core core).matrix = c.id :: rest →
      ∃ t, exec (.matrixCommandStart core) s = .next t ∧ (t.core core).array = some c.id ∧ (t.core core).matrix = rest ∧
        t.cmd c.id = some { c with st := .running }) ∧
    (∀ core o v ops, s.cmds.find? (attnReady s core) = some c → attnCmd c = some (o, v) →
      attnOperands s c o v (handleList (c.s o.shm)) = .ok ops → (∀ x ∈ ops, x.dh = (ops.headD x).dh) →
      ∃ t, exec (.attnArrayStart core) s = .next t ∧ (t.core core).matrix = (s.core core).matrix ++ [c.id] ∧
        ∀ h ∈ handleList (c.s o.shm), ((t.ctx c.ctx).handle (s.vcoreRef r) h).st = 3)) ∧
  (
    ∀ (s : State) (c : Cmd), s.cmd c.id = some c → c.st = .running → (s.team c.own.team).st ≠ .saved →
      let r := c.own
      let tm := s.team r.team
      let up := upperOf s r
      (∀ o : OpAcccvt, c.instr = .acccvt o → 0 < o.mq.toNat → o.mq.toNat ≤ 16 → 0 < o.nq.toNat → o.nq.toNat ≤ 24 →
        let ms := 16 * o.mq.toNat
        let ns := 16 * o.nq.toNat
        let fmt := o.afmt.toNat
        let sh := (c.cap.getD 0 0).toNat
        let loc := if o.asp then (c.s o.aop).toNat else o.aop.toNat % 8
        let rows := if o.asp then ms else shRows sh
        let cols := if o.asp then ns else shCols sh
        let rnd := fun (m n : Nat) =>
          if o.pat = 2 then Rnd.sr (srh c.srseed.toNat 3 (m * 384 + n)) else if o.pat = 1 then .rz else .rne
        let out := fun (m : Nat) => cvtRow fmt (rnd m) (extraOf c.fp4x.toNat) ((List.range ns).map (fun n => (s.accElem r o.acc.toNat m n).toNat))
        ms ≤ rows → ns ≤ cols → (isMx fmt = true → ns % 32 = 0 ∧ cols % 32 = 0) → (o.asp = true → loc + imgSize fmt rows cols ≤ 2 * MiB3) →
        ∃ t, exec (.commandCompletion c.id) s = .next t ∧
          (∀ m, m < ms → getRow (t.team r.team) up o.asp loc fmt rows cols m ns =
            ((out m).1.map (fun x => x % 2 ^ elemBits fmt), if isMx fmt then (out m).2.1.map (fun x => x % 256) else [])) ∧
          (t.team r.team).acc = tm.acc ∧ (t.team r.team).tc = tm.tc ∧
          (o.asp = true → (t.team r.team).tiles = tm.tiles ∧ ∀ y, (∀ x, x < imgSize fmt rows cols → scrKey up (loc + x) ≠ y) →
            Map.get 0 (t.team r.team).scratch y = Map.get 0 tm.scratch y) ∧
          (o.asp = false → (t.team r.team).scratch = tm.scratch ∧
            ∀ y, (y < tileKey up loc * 65536 ∨ tileKey up loc * 65536 + imgSize fmt rows cols ≤ y) →
              Map.get 0 (t.team r.team).tiles y = Map.get 0 tm.tiles y)) ∧
      (∀ (o : OpAccst) (M N : Nat), c.instr = .accst o → M ≤ 256 → N ≤ 384 → (c.s o.c).toNat = M + 65536 * N →
        let off := (c.s o.b).toNat
        off + 4 * M * N ≤ 2 * MiB3 → ∃ t, exec (.commandCompletion c.id) s = .next t ∧
          (∀ m n k, m < M → n < N → k < 4 → some (Map.get 0 (t.team r.team).scratch (scrKey up (off + 4 * (m * N + n) + k))) =
            (leBytes (s.accElem r o.a.toNat m n).toNat 4)[k]?) ∧
          (∀ y, (∀ x, x < 4 * M * N → scrKey up (off + x) ≠ y) → Map.get 0 (t.team r.team).scratch y = Map.get 0 tm.scratch y) ∧
          (t.team r.team).acc = tm.acc ∧ (t.team r.team).tiles = tm.tiles ∧ (t.team r.team).tc = tm.tc) ∧
      (∀ (o : OpAttn) (v : Bool), (c.instr = .attn o ∧ v = false) ∨ (c.instr = .attnv o ∧ v = true) →
        handleList (c.s o.shm) ≠ [] → 0 < o.vrows.toNat → o.vrows.toNat ≤ 256 →
        let ops := attnOpsOf (c.cap.drop 1)
        let sh := (c.cap.getD 0 0).toNat
        let q := mkOpnd tm up false (shEfmt sh) (shRows sh) (shCols sh) 1 o.tq.toNat sh
        let dh := (ops.map (fun x => x.dh)).headD 0
        let acc0 := fun (k m n : Nat) => if o.clr then 0 else (s.accElem r k m n).toNat
        tileBad tm up o.tq.toNat = false → (∀ x ∈ ops, attnBufBad s c x = false) →
        (if v then dh ≤ 384 else o.acc.toNat + ceilDiv (64 * ops.length) 384 ≤ 4) →
        ∃ t, exec (.commandCompletion c.id) s = .next t ∧
          (v = false →
            (∀ i x m j, ops[i]? = some x → m < o.vrows.toNat → j < 64 →
              let k := o.acc.toNat + (64 * i + j) / 384
              let n := (64 * i + j) % 384
              t.accElem r k m n = if x.fail ∨ x.ntok ≤ j then 0xFF800000#32
                else BitVec.ofNat 32 (attnScore q.fmt (q.val none m) (attnBuf s c false x) o.head.toNat j (acc0 k m n)).1) ∧
            ∀ k m n, k < 4 → m < 256 → n < 384 → (k < o.acc.toNat ∨ o.vrows.toNat ≤ m ∨ 64 * ops.length ≤ 384 * (k - o.acc.toNat) + n) →
              t.accElem r k m n = s.accElem r k m n) ∧
          (v = true →
            (∀ m d, m < o.vrows.toNat → d < dh → t.accElem r o.acc.toNat m d =
              BitVec.ofNat 32 (((ops.map (attnBuf s c true)).zipIdx).foldl (fun st p => if p.1.op.fail then st
                else attnvPart q.fmt (fun j => q.val none m (64 * p.2 + j)) p.1 o.head.toNat d st) (acc0 o.acc.toNat m d, 0)).1) ∧
            ∀ k m n, k < 4 → m < 256 → n < 384 → (k ≠ o.acc.toNat ∨ o.vrows.toNat ≤ m ∨ dh ≤ n) →
              t.accElem r k m n = s.accElem r k m n) ∧
          (t.team r.team).scratch = tm.scratch ∧ (t.team r.team).tiles = tm.tiles) ∧
      (∀ (o : OpAttnf) (m : Nat × Nat) (u : State), c.instr = .attnf o →
        let x := attnfExt (c.s o.c).toNat
        let sh := (c.cap.getD 0 0).toNat
        let q := mkOpnd tm up false (shEfmt sh) (shRows sh) (shCols sh) 1 o.t.toNat sh
        tileBad tm up o.t.toNat = false → scrBad tm up (c.s o.b).toNat (4 * x.2.1) = false →
        kRun (s.engWho r) (kMass c.ctx q x.1 (c.cap.getD 1 0).toNat (c.cap.drop 2) (attnfList s c o) 0) s = (.ok m, u) →
        exec (.commandCompletion c.id) s = .next (arrayFree (finishCmd u c.id (BitVec.ofNat 64 (m.1 * 2 ^ 16)) m.2) c.id)) ∧
      (∀ o : OpSxsect, c.instr = .sxsect o → ∃ t, exec (.commandCompletion c.id) s = .next t ∧
        ((c.res.map (·.1)).Nodup → ∀ l x, (l, x) ∈ c.res → (Map.find (s.group r).lanes l).isSome →
          (t.lane r l).value o.d.toNat = x.setWidth 32) ∧
        (∀ (a b : List (Nat × Nat)) (off w : Nat), sxPairs c.cap = a ++ (off, w) :: b → (∀ p ∈ (off, w) :: b, p.1 % 4 = 0) →
          (∀ p ∈ b, scrKey up p.1 ≠ scrKey up off) → Map.getN 0 (t.team r.team).scratch (scrKey up off) 4 = leBytes w 4)) ∧
      (∀ o : OpCpy, c.instr = .coll o → 8 ≤ c.cap.length → c.coll.ending = none →
        (collReady c o = false → exec (.commandCompletion c.id) s = .next s) ∧
        (∀ mine t u, collReady c o = true → c.left = [] →
          gRead s c 0 (collSend c o.sub.toNat (clRank (collDesc c))).1 (collSend c o.sub.toNat (clRank (collDesc c))).2 = .ok mine t →
          gWrites t c (collOut c o mine).1 = .ok () u → (u.team r.team).st ≠ .saved →
          exec (.commandCompletion c.id) s =
            .next (arrayFree (finishCmd (cpDrop u c) c.id (statusWord 0 (clTag (collDesc c))) (collOut c o mine).2) c.id))) ∧
      (∀ (k : CpyKind) (o : OpCpy), (k = .plain ∧ c.instr = .cpy o ∧ o.dir ≠ 4 ∧ o.dir ≠ 5) ∨ (k = .gather ∧ c.instr = .cpyg o) ∨
          (k = .expand ∧ c.instr = .cpyx o) ∨ (k = .compact ∧ c.instr = .cpyc o) ∨ (k = .fill ∧ c.instr = .cpyf o) →
        let p := cpyPlan c
        let m := imgRef k o c p
        let tile := (c.s o.sloc).toNat % 8
        let src : Bool := decide (k = .compact) || decide (o.dir = 3)
        c.prog = 0 → c.had = [] → c.left = [] → (∀ x ∈ cpyScr k o c p m, scrBad tm up x.1 x.2 = false) →
        (m.place = 1 → src = true → tileBad tm up tile = false) →
        ∀ (σ τ υ : Nat → State) (fl : Nat → Nat) (ws : Nat → List (Nat × List Byte)),
          σ 0 = (if m.place = 1 ∧ src = false then s.updTeam r.team (fun t => clearTile t up tile) else s) →
          (∀ j, j < bxRows p.b → cpyRow k o c p m (σ j) j = .ok (fl j, ws j) (τ j) ∧ gWrites (τ j) c (ws j) = .ok () (υ j) ∧
            σ (j + 1) = (υ j).updCmd c.id Cmd.fresh) →
          exec (.commandCompletion c.id) s = .next (arrayFree (cpFinish (σ (bxRows p.b)) c 0
            ((List.range (bxRows p.b)).foldl (fun a j => flagOr a (fl j)) c.flags.toNat)) c.id)) ∧
      (∀ o : OpCpy, c.instr = .cpy o →
        let sh := (cpyPlan c).sh
        let n := imgSize (shEfmt sh) (shRows sh) (shCols sh)
        let off := (c.s o.scrd).toNat
        let tile := (c.s o.sloc).toNat % 8
        let key := fun (x : Nat) => scrKey up (off + x)
        (o.dir = 4 → scrBad tm up off n = false → ∃ t, exec (.commandCompletion c.id) s = .next t ∧
          (∀ x, x < n → t.tileByte r tile x = Map.get 0 tm.scratch (key x)) ∧ (t.team r.team).scratch = tm.scratch ∧
          ∀ y, (y < tileKey up tile * 65536 ∨ tileKey up tile * 65536 + n ≤ y) →
            Map.get 0 (t.team r.team).tiles y = Map.get 0 tm.tiles y) ∧
        (o.dir = 5 → tileBad tm up tile = false → ∃ t, exec (.commandCompletion c.id) s = .next t ∧
          (∀ x, x < n → (∀ z, x < z → z < n → key z ≠ key x) → Map.get 0 (t.team r.team).scratch (key x) = s.tileByte r tile x) ∧
          (∀ y, (∀ x, x < n → key x ≠ y) → Map.get 0 (t.team r.team).scratch y = Map.get 0 tm.scratch y) ∧
          (t.team r.team).tiles = tm.tiles))) ∧
  (
    ∀ (s : State) (c : Cmd) (o : OpCpy) (p : CpyPlan) (m : ImgRef) (j : Nat), c.had = [] →
      let b0 := bxBox p.b 0
      let f := oFmt p.e
      let g := fun (d : Nat) => rowIdx p.b j d
      let conv := fun (a b x : Nat) => if a = b then x else (encElem b .rne (elemVal a none x)).1
      let up := upperOf s c.own
      (∀ x y raw u, objRead s c p g = .ok ((x, y), raw) u →
        (cpyReads .plain o.dir.toNat = true → ∃ fl, cpyRow .plain o c p m s j = imgPut u c m j fl (x.map (conv f m.fmt)) y) ∧
        (∀ mb v, let w := b0 * subRatio o.sub.toNat
          let n := metaBytes o.sub.toNat w
          raw.length = objSize p g → farVa (bxAux p.b + j * n) = false → vaRead u (u.who c.own) (bxAux p.b + j * n) n = .ok (mb, v) →
          cpyRow .expand o c p m s j = imgPut v c m j 0 (expandRow o.sub.toNat w x (leNat mb)) [])) ∧
      (∀ x y raw u, let i := leNat (scrRead (s.team c.own.team) up ((c.s o.saux).toNat + 4 * j) 4)
        objRead s c p (fun d => if d = 1 then (i : Int) else g d) = .ok ((x, y), raw) u →
        ∃ fl, cpyRow .gather o c p m s j = imgPut u c m j fl (x.map (conv f m.fmt)) y) ∧
      (∀ x y, imgRead s c m j b0 = (x, y) → cpyReads .plain o.dir.toNat = false →
        ∃ fl, cpyRow .plain o c p m s j = .ok (fl, objOut p g (x.map (conv m.fmt f)) y) s) ∧
      (∀ x y, let w := b0 * subRatio o.sub.toNat
        imgRead s c m j w = (x, y) → cpyRow .compact o c p m s j = .ok (0, objOut p g (compactRow m.fmt o.sub.toNat x).1 [] ++
          [(bxAux p.b + j * metaBytes o.sub.toNat w, (compactRow m.fmt o.sub.toNat x).2)]) s) ∧
      (let x := (c.s o.saux).toNat
       let codes := List.replicate b0 (if isMx m.fmt then x % 256 else x % 2 ^ 32)
       let scales := if isMx m.fmt then List.replicate (b0 / 32) (x / 256 % 256) else []
       (o.dir = 1 → cpyRow .fill o c p m s j = .ok (0, objOut p g codes scales) s) ∧
       (o.dir ≠ 1 → cpyRow .fill o c p m s j = imgPut s c m j 0 codes scales))) ∧
  (
    ∀ (s : State) (c : Cmd) (p : CpyPlan) (g : Nat → Int), c.had = [] →
      let b0 := bxBox p.b 0
      let f := oFmt p.e
      let w := elemBits f
      let org := bxOrg p.b 0
      let inside := fun (i : Nat) => 0 ≤ org + (i : Int) ∧ org + (i : Int) < (oDim p.e 0 : Int)
      let rowIn := ∀ k, 1 ≤ k → k ≤ 4 → 0 ≤ g k ∧ g k < (oDim p.e k : Int)
      (objRun p g = none ↔ ¬ (rowIn ∧ ∃ i, i < b0 ∧ inside i)) ∧
      (objRun p g = none → objRead s c p g = .ok ((List.replicate b0 0, if isMx f then List.replicate (b0 / 32) 0x7F else []), []) s ∧
        ∀ x y, objOut p g x y = []) ∧
      (∀ lo n va sa, objRun p g = some (lo, n, va, sa) →
        let x0 := (org + (lo : Int)).toNat
        let i := fun (k : Nat) => (g k).toNat
        rowIn ∧ 0 < n ∧ lo + n ≤ b0 ∧ (∀ k, k < b0 → (inside k ↔ lo ≤ k ∧ k < lo + n)) ∧
        va = (oBase p.e + 16 * (i 1 * oStr p.e 1 + i 2 * oStr p.e 2 + i 3 * oStr p.e 3 + i 4 * oStr p.e 4) + x0 * w / 8) % 2 ^ 64 ∧
        sa = (oSbase p.e + (((i 4 * oDim p.e 3 + i 3) * oDim p.e 2 + i 2) * oDim p.e 1 + i 1) * oDim p.e 0 / 32 + x0 / 32) % 2 ^ 64 ∧
        (∀ x y, objOut p g x y = (va, pack f ((x.drop lo).take n)) ::
          (if isMx f then [(sa, ((y.drop (lo / 32)).take (n / 32)).map (BitVec.ofNat 8))] else [])) ∧
        ∀ bs u, farVa va = false → vaRead s (s.who c.own) va (n * w / 8) = .ok (bs, u) →
          let elem := fun (k : Nat) => if lo ≤ k ∧ k < lo + n then leNat bs / 2 ^ (w * (k - lo)) % 2 ^ w else 0
          (isMx f = false → objRead s c p g = .ok (((List.range b0).map elem, []), bs) u) ∧
          (∀ ss v, isMx f = true → farVa sa = false → lo % 32 = 0 → n % 32 = 0 → vaRead u (u.who c.own) sa (n / 32) = .ok (ss, v) →
            objRead s c p g = .ok (((List.range b0).map elem, (List.range (b0 / 32)).map (fun k =>
              if lo / 32 ≤ k ∧ k < (lo + n) / 32 then (ss.getD (k - lo / 32) 0).toNat else 0x7F)), bs ++ ss) v))) ∧
  (
    ∀ (s : State) (c : Cmd) (m : ImgRef) (j fl : Nat) (x y : List Nat), m.place ≤ 1 → j < m.rows → x.length ≤ m.cols →
      x.length * elemBits m.fmt % 8 = 0 → (isMx m.fmt = true → x.length % 32 = 0 ∧ m.cols % 32 = 0 ∧ y.length = x.length / 32) →
      (m.place = 0 → m.loc + imgSize m.fmt m.rows m.cols ≤ 2 * MiB3) →
      let up := upperOf s c.own
      ∃ u, imgPut s c m j fl x y = .ok (fl, []) u ∧
        imgRead u c m j x.length = (x.map (fun v => v % 2 ^ elemBits m.fmt), if isMx m.fmt then y.map (fun v => v % 256) else []) ∧
        (∀ i n, i < m.rows → i ≠ j → n ≤ m.cols → imgRead u c m i n = imgRead s c m i n) ∧
        u = { s with teams := u.teams } ∧ (∀ k, k ≠ c.own.team → u.team k = s.team k) ∧
        (∀ z, (∀ i, i < imgSize m.fmt m.rows m.cols → scrKey up (m.loc + i) ≠ z) →
          Map.get 0 (u.team c.own.team).scratch z = Map.get 0 (s.team c.own.team).scratch z) ∧
        (m.place = 0 → (u.team c.own.team).tiles = (s.team c.own.team).tiles) ∧
        (m.place = 1 → (u.team c.own.team).scratch = (s.team c.own.team).scratch ∧
          ∀ z, (z < tileKey up m.loc * 65536 ∨ tileKey up m.loc * 65536 + imgSize m.fmt m.rows m.cols ≤ z) →
            Map.get 0 (u.team c.own.team).tiles z = Map.get 0 (s.team c.own.team).tiles z)) ∧
  (
    ∀ (s : State) (c : Cmd) (va : Nat) (bs : List Byte) (lf : Leaf) (v : State),
      let w := s.who c.own
      farVa va = false → pieceList 256 va bs.length = [(va, bs.length)] → xlate s w va .write false = .ok (lf, v) → lf.win = false →
      ∃ u, gWrites s c [(va, bs)] = .ok () u ∧ (u.late = v.late → roomy v w [lf.pa] → ∀ k, k < bs.length →
        viewByte u w (if pteCp lf.pte = 2 then 2 else 1) (lf.pa + k) = bs[k]?)) ∧
  (
    (∀ (fmt k : Nat) (grp : List Nat), k ≤ grp.length →
      let ps := pickPos fmt grp k []
      ps.length = k ∧ ps.Pairwise (· < ·) ∧ ∀ i ∈ ps, i < grp.length ∧ ∀ j, j < grp.length → j ∉ ps →
        magAbove fmt (grp.getD i 0) (grp.getD j 0) = false ∧ (j < i → magAbove fmt (grp.getD j 0) (grp.getD i 0) = true)) ∧
    (∀ (fmt sub : Nat) (row : List Nat), sub ≤ 2 → row.length % (if sub = 0 then 8 else 16) = 0 →
      let n := subGroup sub
      let grp := fun (i : Nat) => (row.drop (i / n * n)).take n
      let z := compactRow fmt sub row
      z.1.length = row.length / n * subKept sub ∧ z.2.length = metaBytes sub row.length ∧
      expandRow sub row.length z.1 (leNat z.2) =
        (List.range row.length).map (fun i => if i % n ∈ pickPos fmt (grp i) (subKept sub) [] then row.getD i 0 else 0)) ∧
    (∀ (fmt : Nat) (r : Nat → Rnd) (xv : Extra) (row : List Nat),
      let z := cvtRow fmt r xv row
      (fmt = 12 ∨ fmt = 13 → z.1 = row) ∧
      (fmt = 10 ∨ fmt = 11 → z.1 = row.map (fun x =>
        intBits (elemBits fmt) (max (-(2 ^ (elemBits fmt - 1) : Int)) (min (2 ^ (elemBits fmt - 1) - 1) (sext 32 x))))) ∧
      (fmt < 4 → z.1 = (row.zipIdx).map (fun e => (encElem fmt (r e.2) (FP32.val e.1)).1)) ∧
      (isMx fmt = true → row.length % 32 = 0 → ∀ b, b < row.length / 32 →
        let blk := mxBlock fmt (fun i => r (32 * b + i)) xv (((row.drop (32 * b)).take 32).map FP32.val)
        z.2.1.getD b 0 = blk.1 ∧ ∀ i, i < 32 → z.1.getD (32 * b + i) 0 = blk.2.1.getD i 0)) ∧
    (∀ (cde rows m : Nat) (e : Int), 0 < rows → FP32.val cde = .num false m e →
      let x : ℚ := (m : ℚ) * (2 : ℚ) ^ (e + 16) / rows
      let d := (massDelta cde rows).1
      (x < 2 ^ 32 - 1 / 2 → |(d : ℚ) - x| ≤ 1 / 2 ∧ (|(d : ℚ) - x| = 1 / 2 → d % 2 = 0)) ∧ (2 ^ 32 - 1 / 2 ≤ x → d = 0xFFFFFFFF)) ∧
    (∀ (cde rows m : Nat) (e : Int), FP32.val cde = .num true m e ∨ FP32.val cde = .nan ∨ FP32.val cde = .inf true →
      (massDelta cde rows).1 = 0) ∧
    (∀ (k : Nat) (q : Opnd) (rows step h i rec w : Nat) (toks : List Word64) (hs : List Nat) (wh : Who) (d : Nat) (s s1 s2 s3 s4 : State),
      let all := kMass k q rows step toks
      ((s.ctx k).regs.kvptn.toNat ≤ h →
        kRun wh (all (h :: hs) i) s = kRun wh (do let z ← all hs (i + 1); pure (2 ^ i + z.1, z.2)) s) ∧
      (h < (s.ctx k).regs.kvptn.toNat → kRun wh (kDesc k h) s = (.ok d, s1) → dLive d = false →
        kRun wh (all (h :: hs) i) s = kRun wh (do let z ← all hs (i + 1); pure (2 ^ i + z.1, z.2)) s1) ∧
      (h < (s.ctx k).regs.kvptn.toNat → kRun wh (kDesc k h) s = (.ok d, s1) → dLive d = true → kRun wh (kDesc k h) s1 = (.ok d, s2) →
        kRun wh (kRq k (dRq d)) s2 = (.ok rec, s3) → kRun wh (kPolicy k rec) s3 = (.ok w, s4) →
        let sum := massSum q i (min 64 (toks.getD i 0).toNat) rows
        let delta := massDelta sum.1 rows
        kRun wh (all (h :: hs) i) s = kRun wh (do
          kDescUpd k h (massUpd step (wDecay w) delta.1)
          let z ← all hs (i + 1)
          pure (z.1, (sum.2 ||| delta.2) ||| z.2)) s4)) ∧
    (∀ (c : Cmd) (o : OpCpy) (mine : List Byte), o.sub.toNat ≤ 1 → clFmt (collDesc c) ∈ [0, 1, 12, 13] → 0 < clNrank (collDesc c) →
      let d := collDesc c
      let w := elemBits (clFmt d)
      let code := fun (p i : Nat) => leNat (if p = clRank d then mine else Map.get [] c.coll.got p) / 2 ^ (w * i) % 2 ^ w
      ∃ bs, (collOut c o mine).1 = [(clDst d, bs)] ∧ bs.length = clCount d * w / 8 ∧ ∀ i, i < clCount d →
        leNat bs / 2 ^ (w * i) % 2 ^ w =
          (List.range (clNrank d - 1)).foldl (fun a p => (redStep (clFmt d) o.rop.toNat a (code (p + 1) i)).1) (code 0 i) % 2 ^ w) ∧
    (∀ (c : Cmd) (o : OpCpy) (mine : List Byte), 2 ≤ o.sub.toNat → clRank (collDesc c) < clNrank (collDesc c) →
      (∀ p, p < clNrank (collDesc c) → farVa (collDst c p) = false) →
      let d := collDesc c
      let from_ := fun (p : Nat) => if p = clRank d then mine else Map.get [] c.coll.got p
      (collOut c o mine).1 = (collDst c (clRank d), mine) :: (if o.sub = 3 ∧ clRcnt d ≠ 0 then
        [(clRcnt d, (List.range (clNrank d)).flatMap (fun p => leBytes ((from_ p).length / clBytes d) 4))] else [])) ∧
    (∀ (I : Iss) (o : OpSxsect) (s : State) (l : Nat) (A B : List Nat) (P : State → Prop),
      let t := I.th l
      let lens := (t.rv o.c.toNat).toNat
      let low := (t.rv (o.c.toNat + 1)).toNat
      A.length = lens % 65536 → B.length = lens / 65536 → A.Pairwise (· < ·) → B.Pairwise (· < ·) → P s →
      (∀ u i x, P u → A[i]? = some x → ∃ v, sxRead I u (((t.rw o.a).toNat + 4 * i) % 2 ^ 64) = .val x v ∧ P v) →
      (∀ u i x, P u → B[i]? = some x → ∃ v, sxRead I u (((t.rw o.b).toNat + 4 * i) % 2 ^ 64) = .val x v ∧ P v) →
      let hits := A.filter (fun x => decide (x ∈ B) && (!o.lo || decide (low < x)))
      let q := sxLane I o s l
      q.n = hits.length ∧ q.outs = (if o.emit then hits.take (o.m1.toNat + 1) else []) ∧ q.ask = none ∧ q.pend = false ∧ q.fail = none)) ∧
  (
    ∀ (s : State) (r : GRef) (o : OpSxsect), clear (.sxsect o) s r → (s.group r).cGather < 255 → relPending s r 1 = false →
      let J := (enter (.sxsect o) s r).released 1
      let R := (sxAll J o J.s J.en).1
      let off := fun (l : Nat) => ((J.th l).rv (o.c.toNat + 1)).toNat
      (∀ p ∈ R, p.2.ask = none ∧ p.2.pend = false ∧ p.2.fail = none) →
      (∀ p ∈ R, p.2.outs ≠ [] → off p.1 % 4 = 0 ∧ scrIn J.tm.decl (off p.1) (4 * p.2.outs.length) = true) →
      Leads (.sxsect o) s (fun t => ∃ c ∈ t.cmds, c.id = s.fresh ∧ c.instr = .sxsect o ∧ c.own = r ∧ c.st = .running ∧
        c.res = R.map (fun p => (p.1, BitVec.ofNat 64 p.2.n)) ∧
        c.cap = R.flatMap (fun p => (p.2.outs.zipIdx).flatMap (fun q => [BitVec.ofNat 64 (off p.1 + 4 * q.2), BitVec.ofNat 64 q.1])) ∧
        ∀ l ∈ J.en, l < 64 → regBusy (t.group r) [l] (.v, o.d.toNat) = true))

/-- Buffer handles (R298 to R301): HBIND gives a FREE handle its region; HSET moves a handle on from the state before; HWAIT goes on at
the state it names and parks its lanes before; HREL frees a handle that no engine fills or reads. OBJQ reads a handle, an object entry
(reserved bits zero, dimensions above NDM1 as 1: log entry 78) or a tile's shape. A misaligned region faults with ALIGN, one outside the allocation with PGPROT. The activation banks (R248, R249): ACT
evaluates the segment whose left end is the greatest not above the operand, by one subtraction and three fused steps; a bank never
loaded gives free values, the choice of this model (log entry 3). ACTSEL names the default bank; ACTLD of the bank that the group itself
uses faults with ACTBANK. -/
def Obligations.HandlesAndBanks : Prop :=
  (
    ∀ (s : State) (r : GRef),
      let c := (s.team r.team).ctx
      let v := s.vcoreRef r
      let hd := fun (t : State) (h : HReg) => (t.ctx c).handle v h.toNat
      (∀ o : OpHb, clear (.hbind o) s r →
        let I := enter (.hbind o) s r
        let off := (I.rs o.a).toNat % 2 ^ 23
        let size := bitsN (I.rs o.a).toNat 55 32
        (off % 256 ≠ 0 ∨ size % 256 ≠ 0 ∨ size = 0 → ∃ f, Raises (.hbind o) s r f ∧ f.code = cALIGN ∧ f.lanes = I.en) ∧
        (off % 256 = 0 → size % 256 = 0 → size ≠ 0 → scrIn I.tm.decl off size = false →
          ∃ f, Raises (.hbind o) s r f ∧ f.code = cPGPROT ∧ f.lanes = I.en) ∧
        (off % 256 = 0 → size % 256 = 0 → size ≠ 0 → scrIn I.tm.decl off size = true → (hd s o.hd).st = 0 →
          Leads (.hbind o) s (fun t => hd t o.hd = { hd s o.hd with offset := BitVec.ofNat 23 off, size := BitVec.ofNat 24 size, team := r.team }))) ∧
      (∀ o : OpHs, clear (.hset o) s r → (hd s o.hd).st + 1 = o.st → (o.st = 2 → relPending s r 1 = false) →
        Leads (.hset o) s (fun t => (hd t o.hd).st = o.st ∧ (o.st = 0 → (hd t o.hd).snap = none ∧ (hd t o.hd).fail = false))) ∧
      (∀ o : OpHs, clear (.hwait o) s r →
        ((hd s o.hd).st = o.st → Completes (.hwait o) s r (fun I => if o.st = 2 then acqState I.s r 1 else I.s)) ∧
        ((hd s o.hd).st ≠ o.st → Leads (.hwait o) s (fun t => ∀ l ∈ (enter (.hwait o) s r).en,
          (t.lane r l).st = .parked (.hwait o.hd.toNat o.st)))) ∧
      (∀ o : OpHr, clear (.hrel o) s r → (hd s o.hd).st ≠ 1 → handleRead s c v o.hd.toNat = false → Leads (.hrel o) s (fun t =>
        (hd t o.hd).st = 0 ∧ ((hd s o.hd).st ≠ 0 → (hd t o.hd).snap = none))) ∧
      (∀ o : OpObjq, clear (.objq o) s r →
        (o.mode = 0 → GivesS (.objq o) s r o.d (fun _ => BitVec.ofNat 64 (handleWord ((s.ctx c).handle v o.sa.toNat) o.word.toNat))) ∧
        (∀ e t, o.mode = 1 → (let I := enter (.objq o) s r
            let a := (I.gp.rs o.sa.toNat).toNat
            objEntry I false o.bl (a % 65536) (a % 2 ^ 32)) = .ok (e, t) →
          GivesS (.objq o) s r o.d (fun _ => BitVec.ofNat 64 (objShown e / 2 ^ (64 * o.word.toNat)))) ∧
        (2 ≤ o.mode.toNat → GivesS (.objq o) s r o.d (fun _ => if o.word = 0 then s.shapeOf r (o.sa.toNat % 8) else 0)))) ∧
  (
    ∀ (s : State) (r : GRef),
      let c := (s.team r.team).ctx
      (∀ o : Un, clear (.act o) s r → GivesF (.act o) s r o.d (fun I _ t =>
        toRes (actEval (actTab I.s c (s.group r).actBank) (t.r o.a).toNat))) ∧
      (∀ tab a i, i < 256 → (FP32.val a).isNan = false → (FP32.val (tab (8 * i))).isNan = false →
        Ev.lt (FP32.val a) (FP32.val (tab (8 * i))) = false →
        (∀ k, i < k → k < 256 → Ev.lt (FP32.val a) (FP32.val (tab (8 * k))) = true) →
        let t := FP32.subOp .rne a (tab (8 * i))
        let y3 := FP32.fmaOp .rne (tab (8 * i + 4)) t.1 (tab (8 * i + 3))
        let y2 := FP32.fmaOp .rne y3.1 t.1 (tab (8 * i + 2))
        (actEval tab a).1 = (FP32.fmaOp .rne y2.1 t.1 (tab (8 * i + 1))).1) ∧
      (∀ o : OpI, clear (.actsel o) s r → actldPending s c = false → Leads (.actsel o) s (fun t =>
        (t.ctx c).actDef = decide (o.imm ≠ 0) ∧ sameRegs (.actsel o) s t r ∧ sameLanes s t r ∧ sameControls s t r ∧ sameStores s t)) ∧
      (∀ o : OpSd, clear (.actld o) s r → (s.group r).actBank ≠ (s.ctx c).actDef →
        Raises (.actld o) s r { code := cACTBANK, info := b2n (!(s.ctx c).actDef), lanes := (enter (.actld o) s r).en }))

/-! ## Requests and key-value pages (R56 to R67, R151 to R176, R307 to R326, R414, R423 to R429) -/

/-- The request instructions (R307 to R311), while no RQSTEP is in its eviction action: each in the states of the record in which it has
its effect, and RQSTATE with the state and the reason in the others: reason 1 for an index that names no record, 2 for the lanes whose
slot the step table does not list, 3 outside a .rqscope kernel. RQRD reads reserved bits as zero (R6; log entry 78); RQWR writes the fields
of R57 that its state allows, bit by bit, and no other. Two points are the model's (log entry 63): RQRETIRE, RQFLAG and RQEVICT take [12:0]
of their operand, and an RQADMIT whose table cannot be reached ends with the code of R413 in its register. -/
def Obligations.RequestInstructions : Prop :=
  ∀ (s : State) (r : GRef),
    let c := (s.team r.team).ctx
    (∀ o : OpRqrd, clear (.rqrd o) s r →
      let I := enter (.rqrd o) s r
      let k := (I.rs o.a).toNat % 65536
      (k = 0xFFFF → (s.ctx c).former.stage = none →
        GivesS (.rqrd o) s r o.d (fun _ => BitVec.ofNat 64 (formerReg (s.ctx c).former o.off.toNat))) ∧
      (∀ x, I.holdsRec k x → GivesS (.rqrd o) s r o.d (fun _ => BitVec.ofNat 64 (recGet (x &&& recMask) o.off.toNat 63 0))) ∧
      (8192 ≤ k → k ≠ 0xFFFF → Raises (.rqrd o) s r (rqFault I.en 0 1))) ∧
    (∀ o : OpRqwr, clear (.rqwr o) s r →
      let I := enter (.rqwr o) s r
      let k := (I.rs o.a).toNat % 65536
      let v := (I.rs o.b).toNat
      (k = 0xFFFF → (s.ctx c).former.stage = none → Leads (.rqwr o) s (fun t => (t.ctx c).former = formerWr (s.ctx c).former o.off.toNat o.w v)) ∧
      (8192 ≤ k → k ≠ 0xFFFF → Raises (.rqwr o) s r (rqFault I.en 0 1)) ∧
      (∀ x, I.holdsRec k x → Rq.state x = rqFREE → Raises (.rqwr o) s r (rqFault I.en 0 0)) ∧
      (∀ x y, I.holdsRec k x → Rq.state x ≠ rqFREE →
        (∀ b, y.testBit b = if 8 * o.off.toNat ≤ b ∧ b < 8 * o.off.toNat + (if o.w then 64 else 32) ∧
            (rwMask.testBit b = true ∨ (Rq.state x = rqPENDING ∧ rwpMask.testBit b = true))
          then v.testBit (b - 8 * o.off.toNat) else x.testBit b) →
        Rewrites (.rqwr o) s r k y id)) ∧
    (∀ (o : OpSS) (x : Nat), clear (.rqwrEmit o) s r →
      let I := enter (.rqwrEmit o) s r
      let k := (I.rs o.a).toNat % 65536
      I.holdsRec k x →
      (Rq.state x = rqACTIVE → Rewrites (.rqwrEmit o) s r k
        (recSet (recSet x 0x1C 31 0 (min (Rq.emitted x + 1) 0xFFFFFFFF)) 0x40 31 0 (I.rs o.b).toNat) id) ∧
      (Rq.state x ≠ rqACTIVE → Raises (.rqwrEmit o) s r (rqFault I.en (Rq.state x) 0))) ∧
    (∀ (o : OpS) (x : Nat), clear (.rqflagCancel o) s r →
      let I := enter (.rqflagCancel o) s r
      let k := (I.rs o.a).toNat % 8192
      I.holdsRec k x →
      (Rq.state x ∈ [rqACTIVE, rqPENDING, rqEVICTED] → Rewrites (.rqflagCancel o) s r k (recSet x 0 27 27 1) id) ∧
      (Rq.state x ∉ [rqACTIVE, rqPENDING, rqEVICTED] → Raises (.rqflagCancel o) s r (rqFault I.en (Rq.state x) 0))) ∧
    (∀ (o : OpSI) (x : Nat), clear (.rqflagFault o) s r →
      let I := enter (.rqflagFault o) s r
      let k := (I.rs o.a).toNat % 8192
      I.holdsRec k x →
      (Rq.state x = rqACTIVE → Rewrites (.rqflagFault o) s r k (recSet (Rq.setState x rqFAULTED) 4 23 16 o.imm.toNat) id) ∧
      (Rq.state x ≠ rqACTIVE → Raises (.rqflagFault o) s r (rqFault I.en (Rq.state x) 0))) ∧
    (∀ (o : OpS) (x : Nat), clear (.rqevict o) s r →
      let I := enter (.rqevict o) s r
      let k := (I.rs o.a).toNat % 8192
      I.holdsRec k x →
      (Rq.state x = rqACTIVE → Leads (.rqevict o) s (fun t => k ∈ (t.ctx c).former.marks ∧ t.mem = s.mem)) ∧
      (Rq.state x ≠ rqACTIVE → Raises (.rqevict o) s r (rqFault I.en (Rq.state x) 0))) ∧
    (∀ (o : OpSd) (x : Nat), clear (.rqretire o) s r →
      let I := enter (.rqretire o) s r
      let k := (I.rs o.a).toNat % 8192
      I.holdsRec k x →
      (Rq.state x = rqFREE → Raises (.rqretire o) s r (rqFault I.en 0 0)) ∧
      (Rq.state x = rqACTIVE → Rewrites (.rqretire o) s r k (recSet x 0 27 27 1) (fun t => setSIn t r o.d 2)) ∧
      (∀ t, Rq.state x ≠ rqFREE → Rq.state x ≠ rqACTIVE → kRun I.kWho (kRetire c k x) I.s = (.ok (), t) →
        Completes (.rqretire o) s r (fun _ => setSIn t r o.d (Rq.state x)))) ∧
    (∀ o : OpRqbind, clear (.rqbind o) s r →
      let I := enter (.rqbind o) s r
      let slot := fun (l : Nat) => ((I.th l).r o.a).toNat % 65536
      let off := fun (l : Nat) => o.unb = true ∨ (I.th l).r o.a = 0xFFFFFFFF
      (I.tm.decl.rqsc = false → Raises (.rqbind o) s r (rqFault I.en 0 3)) ∧
      (∀ bad, I.tm.decl.rqsc = true → bad = I.en.filter (fun l => !(o.unb || decide ((I.th l).r o.a = 0xFFFFFFFF)) &&
          (s.ctx c).former.table.all (fun e => decide (e.slot ≠ slot l))) → bad ≠ [] → Raises (.rqbind o) s r (rqFault bad 0 2)) ∧
      (I.tm.decl.rqsc = true → (∀ l ∈ I.en, off l ∨ ∃ e ∈ (s.ctx c).former.table, e.slot = slot l) → Leads (.rqbind o) s (fun t =>
        ∀ l ∈ I.en, (off l → (t.lane r l).bind = none) ∧
          (¬ off l → ∃ e ∈ (s.ctx c).former.table, e.slot = slot l ∧ (t.lane r l).bind = some (slot l, e.rq))))) ∧
    (∀ o : OpSd, clear (.rqadmit o) s r →
      let I := enter (.rqadmit o) s r
      let off := (I.rs o.a).toNat
      let img := leNat (scrRead I.tm (isUpper I.tm r.gid) off 128)
      checkScr I.tm (isUpper I.tm r.gid) 128 .read (I.en.map (fun l => (l, off))) = none →
      (Rq.nlg img = 0 ∨ 4096 < Rq.nlg img ∨ Rq.kvroot img % 64 ≠ 0 ∨ Rq.kvroot img = 0 → Raises (.rqadmit o) s r (rqFault I.en 0 0)) ∧
      (∀ x t, 1 ≤ Rq.nlg img → Rq.nlg img ≤ 4096 → Rq.kvroot img % 64 = 0 → Rq.kvroot img ≠ 0 → (s.ctx c).former.stage = none →
        kRun I.kWho (kAdmit c img) I.s = (x, t) →
        (∀ d, x = .ok d → Completes (.rqadmit o) s r (fun _ => setSIn t r o.d d)) ∧
        (∀ e a va, x = .error (.mem e a va) → Completes (.rqadmit o) s r (fun _ => setSIn t r o.d e.code))))

/-- RQSTEP (R60 to R65, R310): the step number goes on by one and is the result, the evict marks and the withheld slots are gone; while
pages of the requests that it evicts or admits are still to be moved the instruction waits at issue (that it waits there, and clears the
marks, is log entry 45, the model's choice). The former's actions: each committed request's POS grows by its tokens, up to 2^32 − 1, and its
PREF falls by them; every ACTIVE request that meets a stop condition leaves its slot as STOPPED with a release entry, in ascending slot
order. The eviction action takes the marked requests first, then the others by descending class and descending ADMSEQ, ends for those not
marked at the watermark, passes over one that is no longer ACTIVE, ends where the LPDDR-6 pool has no room, and otherwise writes the
record EVICTED without a slot and has the pages of TIER 0 moved. A candidate is passed over when cancelled, and admission ends at the first
one without a slot or without pages; an admitted one takes the lowest free slot, and an evicted one's tail pages return. The step table
published holds the header, an entry for each ACTIVE request in ascending slot order, and the release entries (R64). -/
def Obligations.FormerStep : Prop :=
  (∀ (s : State) (r : GRef) (o : OpD), clear (.rqstep o) s r → relPending s r 3 = false →
    let J := (enter (.rqstep o) s r).released 3
    let c := (s.team r.team).ctx
    (((J.s.ctx c).former.stage = none ∧ rqStepCheck J.s c = none) ∨ (J.s.ctx c).former.stage.map (·.own) = some r) →
    (∀ f, (rqStep J.s c r).2 = some f → Leads (.rqstep o) s (fun t =>
      (t.ctx c).former.step = (s.ctx c).former.step + 1 ∧ (t.ctx c).former.stage = none ∧
      (t.group r).svalue o.d.toNat = ((s.ctx c).former.step + 1).setWidth 64 ∧
      ((s.ctx c).former.stage = none → (t.ctx c).former.marks = [] ∧ (t.ctx c).former.withheld = []))) ∧
    ((rqStep J.s c r).2 = none → exec (.rqstep o) s = .next (keepWaiting (enter (.rqstep o) s r) 0 (rqStep J.s0 c r).1))) ∧
  (∀ (table : List StepEnt) (w : StepW) (i : Nat) (q : RqW), (table.map (·.rq)).Nodup → w.rqs[i]? = some q →
    ∃ q', (stepCommit table w).rqs[i]? = some q' ∧ (stepCommit table w).rqs.length = w.rqs.length ∧ q'.idx = q.idx ∧
      (∀ e ∈ table, e.rq = q.idx → Rq.state q.r = rqACTIVE → Rq.pos q'.r = min (Rq.pos q.r + e.ntok) 0xFFFFFFFF ∧
        Rq.pref q'.r = Rq.pref q.r - e.ntok ∧ Rq.state q'.r = rqACTIVE ∧ Rq.slot q'.r = Rq.slot q.r) ∧
      ((∀ e ∈ table, e.rq ≠ q.idx) ∨ Rq.state q.r ≠ rqACTIVE → q' = q)) ∧
  (∀ (w : StepW), (w.rqs.map (·.idx)).Nodup →
    let going := w.rqs.filter (fun q => decide (Rq.state q.r = rqACTIVE) && stops q.r)
    (∀ (i : Nat) q, w.rqs[i]? = some q → ∃ q', (stepStop w).rqs[i]? = some q' ∧ q'.idx = q.idx ∧
      (q ∈ going → Rq.state q'.r = rqSTOPPED ∧ Rq.slot q'.r = 0xFFFF) ∧ (q ∉ going → q' = q)) ∧
    (going = [] → stepStop w = w) ∧
    ∃ l, (stepStop w).rel = w.rel ++ l ∧ l.Perm (going.map (fun q => (q.idx, rqSTOPPED, Rq.slot q.r))) ∧
      l.Pairwise (fun (a b : Nat × Nat × Nat) => a.2.2 ≤ b.2.2)) ∧
  (∀ (marks : List Nat) (rqs : List RqW), (rqs.map (·.idx)).Nodup →
    let l := evictList marks rqs
    (∀ i, i ∈ l ↔ ∃ q ∈ rqs, q.idx = i ∧ Rq.state q.r = rqACTIVE) ∧
    l.Pairwise (fun i j => (i ∈ marks ∨ j ∉ marks) ∧ ((i ∈ marks ↔ j ∈ marks) → ∀ p ∈ rqs, ∀ q ∈ rqs, p.idx = i → q.idx = j →
      Rq.prio q.r < Rq.prio p.r ∨ (Rq.prio q.r = Rq.prio p.r ∧ Rq.admseq q.r ≤ Rq.admseq p.r)))) ∧
  (∀ (s t : State) (c i r : Nat) (is : List Nat) (g : FStage), (s.ctx c).former.stage = some g → rqRead s c i = .ok (r, t) →
    let f := (s.ctx c).former
    let level := if g.started then max f.lowwm.toNat f.highwm.toNat else f.lowwm.toNat
    let moves := ((descsOf t c).filter (fun p => dLive p.2 && decide (dRq p.2 = i) && decide (dTier p.2 = 0))).map (·.1)
    let z := stageEvict c (i :: is) s
    (i ∉ g.marked → level ≤ f.freepg.toNat → z = updStage s c (fun g => { g with todo := [] })) ∧
    ((i ∈ g.marked ∨ f.freepg.toNat < level) → Rq.state r ≠ rqACTIVE → z = stageEvict c is s) ∧
    ((i ∈ g.marked ∨ f.freepg.toNat < level) → Rq.state r = rqACTIVE → lpRoom t c (descsOf t c) < moves.length →
      z = updStage s c (fun g => { g with todo := [] })) ∧
    ((i ∈ g.marked ∨ f.freepg.toNat < level) → Rq.state r = rqACTIVE → moves.length ≤ lpRoom t c (descsOf t c) → moves ≠ [] →
      z.mem = (rqWrite t c i (Rq.setSlot (Rq.setState r rqEVICTED) 0xFFFF)).1.mem ∧ (z.ctx c).evicting = moves ∧
      ∃ g', (z.ctx c).former.stage = some g' ∧ g'.todo = is ∧ g'.rel = g.rel ++ [(i, rqEVICTED, Rq.slot r)] ∧ g'.out = g.out ++ [i])) ∧
  (∀ (step chunk : Nat) (w : StepW), ∃ act, act.Perm (w.rqs.filter (fun q => decide (Rq.state q.r = rqACTIVE))) ∧
    act.Pairwise (fun a b => Rq.slot a.r ≤ Rq.slot b.r) ∧
    let z := tableBytes step chunk w
    let toks := fun (l : List RqW) => l.foldl (fun a q => a + tokens chunk q.r) 0
    z.2 = act.map (fun q => (⟨Rq.slot q.r, q.idx, tokens chunk q.r⟩ : StepEnt)) ∧
    z.1.length = 64 + 16 * act.length + 8 * w.rel.length ∧
    z.1.take 64 = leBytes (step + act.length * 2 ^ 32 + w.rel.length * 2 ^ 48 + toks act % 2 ^ 32 * 2 ^ 64) 64 ∧
    (∀ k q, act[k]? = some q → (z.1.drop (64 + 16 * k)).take 16 = leBytes (Rq.slot q.r + q.idx * 2 ^ 16 +
      (if 0 < Rq.pref q.r then 2 ^ 29 else 0) + (if q.first then 2 ^ 30 else 0) + Rq.pos q.r * 2 ^ 32 + tokens chunk q.r * 2 ^ 64 +
      toks (act.take k) % 2 ^ 32 * 2 ^ 96) 16) ∧
    ∀ k p, w.rel[k]? = some p → (z.1.drop (64 + 16 * act.length + 8 * k)).take 8 = leBytes (p.1 + p.2.1 * 2 ^ 16 + p.2.2 * 2 ^ 32) 8) ∧
  (∀ (s : State) (c : Nat) (g : FStage) (first : List Nat),
    let f := (s.ctx c).former
    let tb := tableBytes (f.step + 1).toNat (chunkOf f)
      { rqs := (rqAll s c).map (fun p => { idx := p.1, r := p.2, first := decide (p.1 ∈ first) }), rel := g.rel, free := 0 }
    let z := (stagePublish s c g first).1
    z.mem = (formerWrite s c (f.steptab.toNat / 256 * 256) tb.1).1.mem ∧ (z.ctx c).former.table = tb.2 ∧
      (z.ctx c).former.step = f.step + 1 ∧ (z.ctx c).former.stage = none) ∧
  (∀ (n chunk low : Nat) (w : StepW) (q : RqW), w.stop = false →
    let need := Rq.nlg q.r * ((tokens chunk q.r + 63) / 64 + 1)
    let free := fun (k : Nat) => k < n ∧ ∀ x ∈ w.rqs, Rq.slot x.r ≠ k
    (Rq.cancel q.r = true → admitOne n chunk low w q = w) ∧
    (Rq.cancel q.r = false → q.out = false → (∀ k, ¬ free k) → (admitOne n chunk low w q).stop = true ∧ (admitOne n chunk low w q).rqs = w.rqs) ∧
    (Rq.cancel q.r = false → q.out = false → w.free < need + low →
      (admitOne n chunk low w q).stop = true ∧ (admitOne n chunk low w q).rqs = w.rqs) ∧
    (∀ k, Rq.cancel q.r = false → q.out = false → need + low ≤ w.free → free k → (∀ j, j < k → ¬ free j) → q ∈ w.rqs → k < 65536 →
      (admitOne n chunk low w q).free = w.free - need ∧
      (admitOne n chunk low w q).back = (if Rq.state q.r = rqEVICTED then w.back ++ q.tails else w.back) ∧
      ∃ q' ∈ (admitOne n chunk low w q).rqs, q'.idx = q.idx ∧ Rq.state q'.r = rqACTIVE ∧ Rq.slot q'.r = k ∧ q'.first = true))

/-- The commands of the key-value engines (R312 to R316, R324, R325, R423): its token carries the work's STATUS and count; work that must
wait leaves everything as it was, or asks for the sealed block that it would write (R176). That each does its work as one is the model's
choice (log entry 43), and so is the division of failures among command, request and group (log entry 46). A chain engine fills the next
free handle of its ring (R167, R317): FULL with the snapshot and the bytes that it read, or held for a rebuild (R425). The background
engines (R62, R170, R172, R175, R176, R424, R425, R428, R429): the page that its die's scan has reached is evaluated, demoted or moved as
its policy says, and the scan goes on past it, waiting at a page that is due (log entry 58) and passing over one that it cannot reach
(R413); evictions and tail returns leave their lists when made; a quiet block's contribution goes out, and its acknowledgement seals it. A
rebuild asks the predella for its blocks, which pulls the other members' blocks and answers with the stripe XOR those, or that the block is
lost (log entry 93: the packets' order is the model's); one that succeeds is told to the commands that wait for it. -/
def Obligations.KvPages : Prop :=
  (
    ∀ (s : State) (c : Cmd), s.cmd c.id = some c → c.st = .running → (s.team c.own.team).st ≠ .saved →
      (∀ (m : K Nat) (x : Except KStop Nat) (t : State), kvWork c = some m → kRun (s.engWho c.own) m s = (x, t) → t.cmd c.id = some c →
        let ends := fun (code hi : Nat) =>
          exec (.commandCompletion c.id) s = .next (arrayFree (finishCmd t c.id (statusWord code hi) 0) c.id) ∧
          exec (.pageAllocation c.id) s = .next (finishCmd t c.id (statusWord code hi) 0)
        (∀ hi, x = .ok hi → ends 0 hi) ∧ (∀ code hi, x = .error (.code code hi) → ends code hi) ∧
        (∀ e a va, x = .error (.mem e a va) → ends e.code 0) ∧
        (x = .error .wait → exec (.commandCompletion c.id) s = .next s ∧ exec (.pageAllocation c.id) s = .next s) ∧
        (∀ b, x = .error (.park b) → exec (.commandCompletion c.id) s = .next (askOut s c.ctx b))) ∧
      (∀ (o : OpKvpf) (soft : Bool) (page i h : Nat) (s1 t : State) (v : Visit) (key : Nat × Nat) (gk : List Word64),
        let ring := ringOf o
        let k := s.vcoreRef c.own
        let hd := fun (u : State) (h : Nat) => (u.ctx c.ctx).handle k h
        c.instr = .kvpf o → c.pf.busyH = none → (s.team c.own.team).st.runs = true →
        (ring.filter (fun r => decide ((hd s r).st = 1) || decide ((hd s r).st = 2))).length ≤ o.dm1.toNat →
        ringFree (hd s) ring c.pf.ring = some (i, h) → pfNextPage s c o = .ok (some page) s1 →
        kRun (s.engWho c.own) (kVisit c o page soft) s1 = (.ok (v, key, gk), t) → t.cmd c.id = some c →
        ∃ u, exec (.chainFill c.id soft) s = .next u ∧ (hd u h).st = (if v.full then 2 else 1) ∧ (hd u h).fail = v.fail ∧
          (hd u h).snap = some v.snap ∧ (hd u h).filled = BitVec.ofNat 32 v.bytes.length ∧
          (u.cmd c.id).map (·.pf.index) = some (c.pf.index + 1))) ∧
  (
    ∀ (s : State) (c h : Nat),
      (∀ s1, kRun (bgWho c) (kWashAt c h) s = (.ok none, s1) → ∀ i ∈ [Instr.washEvaluation c h, .washDemotion c h, .coldMove c h],
        exec i s = .next s1) ∧
      (∀ w die key s1 a t, kRun (bgWho c) (kWashAt c h) s = (.ok (some (w, die, key)), s1) → kRun (bgWho c) (kEval c h w) s1 = (.ok a, t) →
        let past := fun (u : State) => u.updCtx c (fun x => { x with washAt := Map.set 0 x.washAt die (key + 1) })
        exec (.washEvaluation c h) s = .next (if a = .stay then past t else t) ∧
        (∀ b u, a = .demote → kRun (bgWho c) (kDemote c h none) t = (.ok b, u) → exec (.washDemotion c h) s = .next (past u)) ∧
        (∀ e x y u, a = .demote → kRun (bgWho c) (kDemote c h none) t = (.error (.mem e x y), u) →
          exec (.washDemotion c h) s = .next (past u)) ∧
        (∀ e u, a = .cold → kRun (bgWho c) (kMove c h false false none) t = (.ok e, u) → exec (.coldMove c h) s = .next (past u)) ∧
        (∀ e x y u, a = .cold → kRun (bgWho c) (kMove c h false false none) t = (.error (.mem e x y), u) →
          exec (.coldMove c h) s = .next (past u))) ∧
      (∀ w die key s1 e x y t, kRun (bgWho c) (kWashAt c h) s = (.ok (some (w, die, key)), s1) →
        kRun (bgWho c) (kEval c h w) s1 = (.error (.mem e x y), t) → ∀ i ∈ [Instr.washEvaluation c h, .washDemotion c h, .coldMove c h],
        exec i s = .next (t.updCtx c (fun x => { x with washAt := Map.set 0 x.washAt die (key + 1) }))) ∧
      (∀ d s1 e t, kRun (bgWho c) (kDesc c h) s = (.ok d, s1) → dLive d = true →
        (h ∈ (s.ctx c).evicting → dTier d = 0 → kRun (bgWho c) (kMove c h false true none) s1 = (.ok e, t) →
          ∃ u, exec (.evictionMove c h) s = .next u ∧ h ∉ (u.ctx c).evicting ∧ u.mem = t.mem) ∧
        (h ∈ (s.ctx c).returning → dTier d = 1 → e ≠ .noSlot → kRun (bgWho c) (kMove c h true true none) s1 = (.ok e, t) →
          ∃ u, exec (.tailReturnMove c h) s = .next u ∧ h ∉ (u.ctx c).returning ∧ u.mem = t.mem) ∧
        (∀ blocks d2 g s2 s3, (s.ctx c).regs.kvpolyPos.toNat ≤ 7 → dTier d = 2 → h ∉ (s.ctx c).rebuilt → rebuildWanted s c h = true →
          dPblk d ≠ noPage → h ∉ (s.ctx c).parAsked → kRun (bgWho c) (kDesc c h) s1 = (.ok d2, s2) →
          kRun (bgWho c) (kGeo c (dRq d2) (dLg d2)) s2 = (.ok g, s3) →
          ∃ u, exec (.pageRebuild c h blocks true) s = .next u ∧ h ∈ (u.ctx c).parAsked ∧
            (u.ctx c).parPkts = (s3.ctx c).parPkts ++ (bodyBlocks (s3.ctx c) d2 g).map (fun b =>
              ({ chip := (s3.ctx c).regs.kvpolyPred.toNat, block := b, kind := .ask } : ParPkt))) ∧
        (∀ blocks v u, (s.ctx c).regs.kvpolyPos.toNat ≤ 7 → dTier d = 2 → h ∉ (s.ctx c).rebuilt → rebuildWanted s c h = true →
          dPblk d ≠ noPage → h ∈ (s.ctx c).parAsked → dReaders d = 0 → kRun (bgWho c) (kRebuild c h blocks) s1 = (.ok none, v) →
          kRun (bgWho c) (kReborn c h) (v.askEnds c h) = (.ok (), u) →
          exec (.pageRebuild c h blocks true) s = .next (noteRebuild u (rebldsAt s c h) h none))) ∧
      (∀ step decay delta d, step < 2 ^ 32 →
        let n := ((step + 2 ^ 32 - dStamp d) % 2 ^ 32) / 2 ^ decay
        let e := massUpd step decay delta d
        dMass e = min ((if 32 ≤ n then 0 else dMass d / 2 ^ n) + delta) 0xFFFFFFFF ∧ dStamp e = (dStamp d + n * 2 ^ decay) % 2 ^ 32 ∧
        dAddr e = dAddr d ∧ dFmt e = dFmt d ∧ dTier e = dTier d ∧ dSealed e = dSealed d ∧ dLive e = dLive d ∧ dNtok e = dNtok d ∧
        dGen e = dGen d ∧ dReaders e = dReaders d) ∧
      (∀ (b : Nat) (ds : List (Nat × Nat)) (s1 t : State), let x := s.ctx c
        x.regs.kvpolyPos.toNat ≤ 7 → b < blockCount x → b ∉ x.parSealed → b ∉ x.parIn → kRun (bgWho c) (kDescs c) s = (.ok ds, s1) →
        blockQuiet s1 c b ds = true → kRun (bgWho c) (kSendBlock c b .seal) s1 = (.ok (), t) →
        ∃ u, exec (.parityContribution c b) s = .next u ∧ b ∈ (u.ctx c).parIn ∧ b ∉ (u.ctx c).parOut ∧
          (u.ctx c).parPkts = (t.ctx c).parPkts) ∧
      (∀ (b : Nat) (k : ParKind) (bs : List Byte) (t : State), let x := s.ctx c
        kRun (bgWho c) (kRead c (blockVa x b) (blockLen x b)) s = (.ok bs, t) → ∃ u, kRun (bgWho c) (kSendBlock c b k) s = (.ok (), u) ∧
          (u.ctx c).parPkts = (t.ctx c).parPkts ++ [{ chip := x.regs.kvpolyPred.toNat, block := b, kind := k, data := bs }]) ∧
      (∀ (b : Nat) (t : State), let x := s.ctx c
        b ∈ x.parOut → b ∈ x.parSealed → b ∉ x.parSent → kRun (bgWho c) (kSendBlock c b .unseal) s = (.ok (), t) →
        ∃ u, exec (.parityXorOut c b) s = .next u ∧ b ∈ (u.ctx c).parSent) ∧
      (∀ (b m : Nat) (data : List Byte), let x := s.ctx c
        x.regs.kvpolyPos.toNat ≤ 7 → m = x.regs.kvpolyPos.toNat →
        (b ∈ x.parIn → ∃ u, exec (.parityAck c m b false data) s = .next u ∧ b ∈ (u.ctx c).parSealed ∧ b ∉ (u.ctx c).parIn) ∧
        (b ∈ x.parSent → ∃ u, exec (.parityAck c m b true data) s = .next u ∧ b ∉ (u.ctx c).parSealed ∧ b ∉ (u.ctx c).parSent)) ∧
      (∀ (b m : Nat) (out : Bool) (data : List Byte) (t : State), let x := s.ctx c
        x.regs.kvpolyPos = 8 → m ≤ 7 →
        ((∃ j, (j, b) ∈ x.parServe) → exec (.parityAck c m b out data) s = .next s) ∧
        ((∀ j, (j, b) ∉ x.parServe) → kRun (bgWho c) (kParityXor c m b out data) s = (.ok (), t) →
          exec (.parityAck c m b out data) s = .next t)) ∧
      (∀ (b m mask : Nat) (blocks : List (Nat × List Byte)) (s1 : State), let x := s.ctx c
        x.regs.kvpolyPos = 8 → m ≤ 7 → kRun (bgWho c) (kNat c (maskVa x b) 1) s = (.ok mask, s1) →
        let others := (List.range 8).filter (fun j => bitN mask j && decide (j ≠ m))
        let ended := s1.updCtx c (fun y => { y with parServe := y.parServe.filter (· ≠ (m, b)) })
        let answer := fun (k : ParKind) (bs : List Byte) => ({ chip := m, block := b, kind := k, data := bs } : ParPkt)
        let sends := fun (t : State) (l : List ParPkt) => ∃ u, exec (.parityBlockRequest c m b blocks) s = .next u ∧
          (u.ctx c).parPkts = (t.ctx c).parPkts ++ l
        (b ∈ x.parBad ∨ bitN mask m = false → sends s1 [answer .lost []]) ∧
        (b ∉ x.parBad → bitN mask m = true → others ≠ [] → (m, b) ∉ x.parServe →
          sends s1 (others.map (fun j => { chip := j, block := b, kind := .pull }))) ∧
        (b ∉ x.parBad → bitN mask m = true → (others = [] ∨ (m, b) ∈ x.parServe) →
          (∀ st t, blocks.map (·.1) = others → kRun (bgWho c) (kRead c (stripeVa x b) (2 ^ 18)) ended = (.ok st, t) →
            sends t [answer .rebuilt (blocks.foldl (fun a p => xorBytes a p.2) st)]) ∧
          (blocks.map (·.1) ≠ others → sends s1 [answer .lost []]))) ∧
      (∀ (b m : Nat) (blocks : List (Nat × List Byte)) (t : State), let x := s.ctx c
        x.regs.kvpolyPos.toNat ≤ 7 → m = x.regs.kvpolyPos.toNat → b ∈ x.parSealed → kRun (bgWho c) (kSendBlock c b .give) s = (.ok (), t) →
        exec (.parityBlockRequest c m b blocks) s = .next t))

/-! ## The machine's other agents (R84, R89, R90, R97, R330 to R374, R387, R403, R430 to R436) -/

/-- What the memory system does on its own. A missing instruction line arrives and its sequencer goes on (R339); a walk that succeeds
leaves its translation in the core's TLB (R84); a written-back line is left without dirty bytes, an evicted one without any (R89, R90),
and a soft error on the way marks it and is counted (R417, R418); an idle hot bit clears (R97); an allotment with a valid sum waits for
the next turn of its wheel and is in effect from then on (R358). -/
def Obligations.MemoryEvents : Prop :=
  ∀ s : State,
    (∀ core seq line, (Map.get {} (s.core core).seqs seq).frozen = some line →
      Leads (.icacheFill core seq) s (fun t => line ∈ (t.die (core / 16)).ic ∧ (Map.get {} (t.core core).seqs seq).frozen = none ∧
        t.mem = s.mem)) ∧
    (∀ core ctx va, va.toNat < 2 ^ 55 →
      (∀ pte lvl u, leafOf s ⟨core, core / 16, ctx, none, none⟩ va.toNat = .ok (pte, lvl, u) → Leads (.pageWalk core ctx va) s (fun t =>
        t.mem = s.mem ∧ ∃ e, tlbFind (t.core core).tlb ctx va.toNat = some e ∧ e.pte.toNat = pte ∧ e.lvl = lvl)) ∧
      (∀ e, leafOf s ⟨core, core / 16, ctx, none, none⟩ va.toNat = .error e → Leads (.pageWalk core ctx va) s (fun t =>
        (t.core core).tlb = (s.core core).tlb))) ∧
    (∀ core line evict,
      Leads (.lineWriteBack false core line evict .none) s (fun t => line ∉ (t.core core).fifo ∧
        ∀ a, line * 64 ≤ a → a < line * 64 + 64 → (∀ c, Map.find (t.core core).l1 a = some c → c.dirty = false) ∧
          (evict = true → Map.find (t.core core).l1 a = none)) ∧
      (dirtyIn (s.core core).l1 (line * 64) (line * 64 + 64) ≠ [] → Leads (.lineWriteBack false core line evict .data) s (fun t =>
        t.pkg.eccue = s.pkg.eccue + 1 ∧ (line * 64 < 2 ^ 40 → metaOf t (line / 4) = 2)))) ∧
    (∀ die line evict, Leads (.lineWriteBack true die line evict .none) s (fun t =>
      ∀ a, line * 256 ≤ a → a < line * 256 + 256 → (∀ c, Map.find (t.die die).l2 a = some c → c.dirty = false) ∧
        (evict = true → Map.find (t.die die).l2 a = none))) ∧
    (∀ die line last, Map.find (s.die die).hot line = some last →
      (last + max 1 s.pkg.hotidle.toNat ≤ s.now → Leads (.hotLineIdle die line) s (fun t =>
        Map.find (t.die die).hot line = none ∧ t.mem = s.mem ∧ (t.die die).l2 = (s.die die).l2)) ∧
      (s.now < last + max 1 s.pkg.hotidle.toNat → exec (.hotLineIdle die line) s = .next s)) ∧
    (∀ md a, let m := Map.get {} s.mds md
      (m.newHbm = some a → Leads (.wheelTurn md false) s (fun t => Map.get {} t.mds md = { m with bwHbm := a, newHbm := none })) ∧
      (m.newLp = some a → Leads (.wheelTurn md true) s (fun t => Map.get {} t.mds md = { m with bwLp := a, newLp := none }))) ∧
    (∀ off (val : Word64), 0x410 ≤ off → off < 0x490 →
      let f := bwFields val
      let md := (off - 0x410) / 16
      let m := Map.get {} s.mds md
      (off % 16 = 0 → f.foldl (· + ·) 0 = 32 → (∀ x ∈ f, 1 ≤ x) → Leads (.bwAllotmentWrite off val) s (fun t =>
        Map.get {} t.mds md = { m with newHbm := some (val &&& 0x00003F3F3F3F3F3F) })) ∧
      (off % 16 = 8 → f.foldl (· + ·) 0 = 32 → 1 ≤ f.headD 0 → Leads (.bwAllotmentWrite off val) s (fun t =>
        Map.get {} t.mds md = { m with newLp := some (val &&& 0x00003F3F3F3F3F3F) })) ∧
      (f.foldl (· + ·) 0 ≠ 32 → exec (.bwAllotmentWrite off val) s = .next s))

/-- LAUNCH (R241, R242, R332): an accepted launch takes the context's next identifier, joins its queue and gives the identifier in its
token; a refused one gives the reason. Placement (R331, R333 to R337): the first head gets its next team, in the lowest index left, on
the core chosen; every thread of it starts at the kernel's entry with the TID of its place. A starved head that cannot place stops the
later ones; a head becomes starved when it has waited more than STARVE cycles; a dependence word is read, and read again after 1,024
cycles while it is zero. -/
def Obligations.Launches : Prop :=
  (
    ∀ (s : State) (r : GRef) (o : OpLaunch), clear (.launch o) s r →
      let I := enter (.launch o) s r
      let c := (s.team r.team).ctx
      let q : LaunchReq :=
        { kobj := o.kobj.toNat, arg := I.rs o.sarg, teams := (I.rs o.sgrid).toNat % 2 ^ 32, rq := o.rq, mask := o.dieMask,
          prio := o.prio.toNat, queue := o.queue.toNat, dep := o.dep.toNat, depop := I.rs o.sdep, cmpl := o.cmpl, mbox := o.mbox }
      (∀ lid t, tryLaunch I.s c q = .accepted lid t →
        Completes (.launch o) s r (fun I =>
          let n := newCmd I t .none (some o.stok) none []
          finishCmd n.2 n.1 (statusWord 0 lid) 0) ∧
        lid = (s.ctx c).nextLid.toNat ∧ (t.ctx c).nextLid = next32 (s.ctx c).nextLid ∧
        Map.get [] (t.ctx c).queues o.queue.toNat = Map.get [] (s.ctx c).queues o.queue.toNat ++ [(s.ctx c).nextLid] ∧
        (t.grid c lid).arg = I.rs o.sarg ∧ (t.grid c lid).queue = o.queue.toNat ∧ (t.grid c lid).started = false) ∧
      (∀ st t, tryLaunch I.s c q = .refused st t → Completes (.launch o) s r (fun I =>
        let n := newCmd I t .none (some o.stok) none []
        finishCmd n.2 n.1 (statusWord st 0) 0)) ∧
      (tryLaunch I.s c q = .full → ∃ t, exec (.launch o) s = .next t ∧ (∀ l, (t.lane r l).pc = (s.lane r l).pc))) ∧
  (
    ∀ s : State,
      (∀ (h : Nat × Nat) (hs : List (Nat × Nat)) (i core : Nat), heads s = h :: hs →
        let g := s.grid h.1 h.2
        g.rq = false → g.teams ≠ 0 → g.decl.coop = false → (g.started = true ∨ winFits s g = true) →
        resumeSet s h.1 h.2 = [] → nextIndex g = some i → chooseCore s h.1 h.2 g = some core →
        Leads .teamPlacement s (fun t =>
          let tm := t.team s.fresh
          tm.ctx = h.1 ∧ tm.lid = g.lid ∧ tm.index = i ∧ tm.core = core ∧ tm.die = core / 16 ∧ tm.st = .resident ∧ tm.decl = g.decl ∧
          tm.groups.length = g.decl.team ∧
          ∀ gid < g.decl.team, ∀ l < g.decl.gw,
            let x := t.lane ⟨s.fresh, gid⟩ l
            x.pc = g.decl.entry ∧ x.st = .live ∧ x.tid = BitVec.ofNat 32 (gid * g.decl.gw + l))) ∧
      (∀ (h : Nat × Nat) (hs : List (Nat × Nat)), heads s = h :: hs → (s.grid h.1 h.2).starved = true → canAct s h = false →
        exec .teamPlacement s = .next s) ∧
      (∀ (c q a : Nat) (lid : BitVec 32) (l : List (BitVec 32)), Map.get [] (s.ctx c).queues q = lid :: l → (s.ctx c).st = 1 →
        (s.ctx c).busy = false → depOk s c (s.grid c lid.toNat) = true → (s.grid c lid.toNat).headAt = some a →
        (a + max 1 (s.ctx c).regs.sched.toNat < s.now → Leads (.starvationLimit c q) s (fun t => (t.grid c lid.toNat).starved = true)) ∧
        (s.now ≤ a + max 1 (s.ctx c).regs.sched.toNat → exec (.starvationLimit c q) s = .next s)) ∧
      (∀ (c q : Nat) (lid : BitVec 32) (l : List (BitVec 32)) (bs : List Byte) (u : State), let g := s.grid c lid.toNat
        Map.get [] (s.ctx c).queues q = lid :: l → g.dep = 1 → g.depMet = false → g.pollAt ≤ s.now →
        vaReadHome s (bgWho c) g.depop.toNat 8 = .ok (bs, u) → Leads (.depWordPoll c q) s (fun t =>
          (leNat bs ≠ 0 → (t.grid c lid.toNat).depMet = true) ∧
          (leNat bs = 0 → (t.grid c lid.toNat).depMet = false ∧ (t.grid c lid.toNat).pollAt = s.now + 1024))))

/-- Pre-emption (R343 to R354, R405, R406): a team drains where the estimate says that it will soon complete, is flushed where it may be
started again, is saved where its image fits a slot, and otherwise keeps running with one notice. The first head that has waited STARVE cycles and cannot place
takes as many victims as it needs, each once: one that has gone with its COOP grid is not pre-empted again, and a COOP grid of which every team may be flushed is flushed whole. A flushed team's index returns to its grid and the launch to its queue; a saved one keeps its
registers, scratchpad, tiles and accumulators, keeps its launch queued, and resumes with them, when its launch's turn comes, on a core
that has room. -/
def Obligations.Preemption : Prop :=
  ∀ (s : State) (k : Nat), let tm := s.team k
    (∀ again, tm.st = .resident → tm.decl.coop = false →
      let t := preempt again s k
      (again = false → canDrain s tm = true → (t.team k).st = .draining (s.now + max 1 (s.ctx tm.ctx).regs.drainto.toNat * 1024)) ∧
      ((again = true ∨ canDrain s tm = false) → canFlush s tm = true → (t.team k).st = .flushing) ∧
      ((again = true ∨ canDrain s tm = false) → canFlush s tm = false → imageFits s tm = true → (t.team k).st = .saving) ∧
      ((again = true ∨ canDrain s tm = false) → canFlush s tm = false → imageFits s tm = false → (t.team k).st = .resident ∧
        (t.team k).refused = true ∧ ∃ r : FRec, (t.ctx tm.ctx).fqWait = (s.ctx tm.ctx).fqWait ++ [.team k r] ∧ r.code = 0)) ∧
    (∀ h ks, (heads s).find? (fun h => waitedFor s h.1 h.2 (starveOf s h.1) && !canAct s h) = some h →
      enough s h.1 h.2 [] (victims s h.1 h.2) = some ks → exec .autoPreempt s = .next (preemptAll ks [] s)) ∧
    (∀ k l gone, k ∈ gone → preemptAll (k :: l) gone s = preemptAll l gone s) ∧
    (∀ l gone, k ∉ gone → tm.decl.coop = false → preemptAll (k :: l) gone s = preemptAll l (gone ++ [k]) (preempt false s k)) ∧
    (∀ l gone, k ∉ gone → tm.decl.coop = true → preemptAll (k :: l) gone s = preemptAll l (gone ++ gridRunning s tm) (preempt false s k)) ∧
    (tm.st = .resident → tm.decl.coop = true → (∀ j ∈ gridRunning s tm, canFlush s (s.team j) = true) →
      ∀ j ∈ gridRunning s tm, ((preempt false s k).team j).st = .flushing) ∧
    (∀ d, tm.st = .draining d → (d ≤ s.now → exec (.drainDeadline k) s = .next (preempt true s k)) ∧
      (s.now < d → exec (.drainDeadline k) s = .next s)) ∧
    (tm.st = .flushing → (∀ c ∈ s.cmds, c.own.team ≠ k) → teamPending s k = false → Leads (.flushRestart k) s (fun t =>
      let g := t.grid tm.ctx tm.lid.toNat
      Map.find t.teams k = none ∧ tm.index ∈ g.back ∧ g.lid ∈ Map.get [] (t.ctx tm.ctx).queues g.queue)) ∧
    (∀ i, tm.st = .saving → saveReady s k = true → freeImage s tm.ctx = some i → Leads (.teamSave k) s (fun t =>
      (t.team k).st = .saved ∧ (t.team k).slot = some i ∧ (t.team k).scratch = tm.scratch ∧ (t.team k).tiles = tm.tiles ∧
      (t.team k).tc = tm.tc ∧ (t.team k).acc = tm.acc ∧ (t.team k).bar = tm.bar ∧ (t.team k).cv = tm.cv ∧
      (t.grid tm.ctx tm.lid.toNat).lid ∈ Map.get [] (t.ctx tm.ctx).queues (t.grid tm.ctx tm.lid.toNat).queue ∧
      ∀ g, (t.group ⟨k, g⟩).lanes = (s.group ⟨k, g⟩).lanes ∧ (t.group ⟨k, g⟩).sr = (s.group ⟨k, g⟩).sr)) ∧
    (∀ core, turnOf s (heads s) = some (tm.ctx, tm.lid.toNat) → resumeSet s tm.ctx tm.lid.toNat = [k] → resumeCore s tm = some core →
      (s.ctx tm.ctx).ring = [] → (s.ctx tm.ctx).replies = [] → (∀ c ∈ s.cmds, c.own.team ≠ k) → (∀ g, (s.group ⟨k, g⟩).fault = none) → Leads (.teamResume k) s (fun t =>
        (t.team k).st = .resident ∧ (t.team k).core = core ∧ (t.team k).slot = none ∧ (t.team k).scratch = tm.scratch ∧
        (t.team k).tiles = tm.tiles ∧ (t.team k).acc = tm.acc ∧
        ∀ g l, (t.lane ⟨k, g⟩ l).v = (s.lane ⟨k, g⟩ l).v ∧ (t.lane ⟨k, g⟩ l).p = (s.lane ⟨k, g⟩ l).p ∧
          (t.lane ⟨k, g⟩ l).pc = (s.lane ⟨k, g⟩ l).pc ∧ (t.lane ⟨k, g⟩ l).tid = (s.lane ⟨k, g⟩ l).tid))

/-- The package (R357, R369 to R374, R436). The throttle state is the greater of what the thresholds and THRCAP ask, with the causes that
hold, and its changes are counted; a core without a team for 65,536 cycles is gated and keeps nothing; power-on starts at phase 1 with nothing else; each phase
ends in the next, the failures of verification in phase 15 with the cause of the first check that fails (the fused minimum SVN is a constant of the
configuration, log entry 7); GO latches the nonce, and the
report that it starts becomes ready. Model's choices: log entry 56 (what POWER_ON resets, the host links up after phase 5, CAUSE bit 2,
GO in phases 4, 5 and 8, the report's body), 60 (throttle and timing) and 2 (memory empty after power-on). -/
def Obligations.PackageEvents : Prop :=
  ∀ s : State, let p := s.pkg
    (∀ o : ThrOp, Leads (.throttleChange o) s (fun t =>
      let want := if 105 < o.tj.toNat then 4 else if 100 < o.tj.toNat then 3 else if 95 < o.tj.toNat ∨ o.insuff = true then 2
        else if o.power = true then 1 else 0
      t.pkg.thrState.toNat = max want p.thrcap.toNat ∧ t.pkg.tj = o.tj ∧ t.mem = s.mem ∧
      (t.pkg.thrCause.getLsbD 0 = (o.power || o.insuff)) ∧ (t.pkg.thrCause.getLsbD 1 = decide (95 < o.tj.toNat)) ∧
      (t.pkg.thrCause.getLsbD 2 = decide (want < p.thrcap.toNat)) ∧
      t.pkg.thrCount = p.thrCount + (if t.pkg.thrState = p.thrState then 0 else 1))) ∧
    (∀ val : Word64, Leads (.thrcapWrite val) s (fun t => t.pkg.thrcap.toNat = min 4 (val.toNat % 8) ∧ t = { s with pkg := t.pkg })) ∧
    (∀ core, core < 64 → (s.core core).gated = false → (s.core core).ctx = none →
      (∀ e ∈ s.teams, e.2.onCore = true → core ∉ e.2.cores) →
      ((s.core core).idleAt + 65536 ≤ s.now → Leads (.powerGate core) s (fun t =>
        (t.core core).gated = true ∧ (t.core core).l1 = [] ∧ (t.core core).fifo = [] ∧ (t.core core).tlb = [])) ∧
      (s.now < (s.core core).idleAt + 65536 → exec (.powerGate core) s = .next s)) ∧
    Leads .powerOn s (fun t => t.pkg = { phase := 1 } ∧ t.ctxs = [] ∧ t.teams = [] ∧ t.cores = [] ∧ t.dies = [] ∧ t.cmds = [] ∧
      t.mem = [] ∧ t.pcieUp = 0 ∧ t.now = 0) ∧
    (∀ o : BootOp, p.meas.length = 4 → Leads (.bootPhaseComplete o) s (fun t =>
      let q := t.pkg
      let magic : Prop := stageN p 0 8 = 0x53504E4753465731 ∧ 0xD80 + imageLen p ≤ 2 ^ 26
      let sha : Prop := stageN p 0x10 48 = (Config.sha384 (Map.getN 0 p.staging 0xD80 (imageLen p))).toNat
      let fails := fun (c : BitVec 4) => q.phase = 15 ∧ q.cause = c ∧ q.meas = [p.meas.headD 0, 0, 0, 0]
      (p.phase = 1 → q.phase = 2 ∧ q.meas.headD 0 = Config.sha384 (leBytes 0 48 ++ leBytes o.romDigest.toNat 48)) ∧
      (p.phase = 2 → if o.flashOk then q.phase = 3 else fails 1) ∧
      (p.phase = 3 →
        (¬ magic → fails 1) ∧
        (magic → o.ed25519 = false → fails 2) ∧
        (magic → o.ed25519 = true → o.mldsa = false → fails 3) ∧
        (magic → o.ed25519 = true → o.mldsa = true → ¬ sha → fails 4) ∧
        (magic → o.ed25519 = true → o.mldsa = true → sha → imageSvn p < Config.svnMin.toNat → fails 5) ∧
        (magic → o.ed25519 = true → o.mldsa = true → sha → Config.svnMin.toNat ≤ imageSvn p →
          q.phase = 4 ∧ q.cause = 0 ∧ q.svn = BitVec.ofNat 16 (imageSvn p))) ∧
      (p.phase = 4 → p.cause ≠ 7 → if o.trainOk then q.phase = 5 else q.phase = 4 ∧ q.cause = 7) ∧
      (p.phase = 5 → q.phase = 8 ∧ t.pcieUp = 3))) ∧
    ((p.phase = 2 ∨ p.phase = 15) → Leads .attcmdGo s (fun t => t.pkg = { p with phase := 3 })) ∧
    ((p.phase = 4 ∨ p.phase = 5 ∨ p.phase = 8) → p.attGo = false →
      Leads .attcmdGo s (fun t => t.pkg = { p with attGo := true, attNonce := p.nonce })) ∧
    (p.attGo = true → Leads .attestationReportReady s (fun t => t.pkg.attGo = false ∧
      t.pkg.attRpt = reportBody p ++ Config.reportTail (reportBody p)))

/-- Links, ports and the fabric (R366 to R368, R431 to R435). A request through no joined context is refused with reason 0x0D; one that
is served answers its sender, with the data, beyond EXPSIZE with PGPROT; a message that no earlier one of its sender waits ahead of goes to a mailbox
with room that no message of the backing ring waits for. A response ends its
request, a refusal of a store being reported later to the threads that made it; so does the timeout. Pausing and resuming touch one class of a port; a port that
changes counts in LINKEVT. Collectives under way (R304, R434): a sender notices the next piece of at most 4 KiB within the window; a
peer that pulls gets the bytes at its place in the source; what is pulled from a peer is appended; a rank without progress for TMO ends
with FABTIMEOUT. Model's choices: log entries 32 and 53 (fabric accesses act at home, with the background identity), 36 (the kept answer of a
waiting load) and 51 (ranks exchange their parts directly). -/
def Obligations.FabricAndCollectives : Prop :=
  (
    ∀ s : State,
      (∀ r : FabReqOp, joined s r.join = none → Leads (.fabricRequest r) s (fun t => t.mem = s.mem ∧
        answered s t r (.nack 0x0D))) ∧
      (∀ (r : FabReqOp) (c : Nat), joined s r.join = some c → fabAhead s r = false →
        let va := fun (off : Nat) => ((s.ctx c).regs.expbase.toNat + off) % 2 ^ 64
        let size := (s.ctx c).regs.expsize.toNat
        let answers := fun (a : FabAns) (P : State → Prop) =>
          Leads (.fabricRequest r) s (fun t => answered s t r a ∧ P t)
        (∀ off n, r.op = .read off n →
          (size < off + n → answers (.nack 9) (fun t => t.mem = s.mem)) ∧
          (∀ bs u, off + n ≤ size → vaReadHome s (bgWho c) (va off) n = .ok (bs, u) →
            answers (.ok bs) (fun t => t.mem = s.mem))) ∧
        (∀ off bs u, r.op = .write off bs → off + bs.length ≤ size → vaWriteHome s (bgWho c) (va off) bs = (u, none) →
          answers (.ok []) (fun t => t.mem = u.mem)) ∧
        (∀ off op ty ys lf u x v, r.op = .atom off op ty ys → off + tyBytes ty ≤ size → va off % tyBytes ty = 0 →
          xlate s (bgWho c) (va off) .atom true = .ok (lf, u) → siteRead u (bgWho c) lf true (tyBytes ty) = .ok (x, v) →
          answers (.ok (leBytes x (tyBytes ty))) (fun t => t.mem = (siteWrite v (bgWho c) lf true (tyBytes ty)
            ((ys.map (fun y => y.toNat % 2 ^ (8 * tyBytes ty))).foldl (fabElem op.toNat ty.toNat) x)).mem)) ∧
        (∀ (name : BitVec 32) (m : Word64), r.op = .mbsend name m → name.getLsbD 14 = false →
          let v := name.toNat / 256 % 64
          let b := name.toNat % 32
          vMapped s c v = true →
          (((s.ctx c).box v b).length < 16 → boxHeld s c v b = false →
            answers (.ok []) (fun t => (t.ctx c).box v b = (s.ctx c).box v b ++ [⟨m, 4⟩])) ∧
          (16 ≤ ((s.ctx c).box v b).length ∨ boxHeld s c v b = true → answers .full (fun t => (t.ctx c).box v b = (s.ctx c).box v b)))) ∧
      (∀ (id : Nat) (q : FabReq), fabOpenReq s id = some q →
        (q.port = none → ∀ a, exec (.fabricResponse id a) s = .next s) ∧
        (∀ a, q.port.isSome = true → q.kind = .sync → Leads (.fabricResponse id a) s (fun t => t.fabQ.length = s.fabQ.length ∧
          ∀ x ∈ t.fabQ, x.id = id → x.ans = some a)) ∧
        (∀ a, q.port.isSome = true → q.kind ∈ [FabKind.store, .redst, .send] → Leads (.fabricResponse id a) s (fun t =>
          t.fabQ = s.fabQ.filter (fun x => decide (x.id ≠ id)))) ∧
        (∀ w, q.port.isSome = true → q.kind ∈ [FabKind.store, .redst] → (s.team q.own.team).st ≠ .ended →
          Leads (.fabricResponse id (.nack w)) s (fun t => ∃ d : Defer, (t.team q.own.team).defer = (s.team q.own.team).defer ++ [d] ∧
            d.code = 0x18 ∧ d.addr = q.addr ∧ d.tids = q.tids)) ∧
        (let due := q.sentAt + (if s.pkg.fabtmo = 0 then 1000 else s.pkg.fabtmo.toNat) * 168000
         (s.time < due → exec (.fabricTimeout id) s = .next s) ∧
         (due ≤ s.time → q.kind ∈ [FabKind.store, .redst, .send] → Leads (.fabricTimeout id) s (fun t =>
           t.fabQ = s.fabQ.filter (fun x => decide (x.id ≠ id)))))) ∧
      (∀ port cls, port < 48 → cls < 4 →
        let old := Map.get {} s.fports port
        Leads (.pauseFlit port cls) s (fun t => (Map.get {} t.fports port).up = old.up ∧
          ∀ c < 4, (Map.get {} t.fports port).paused.getLsbD c = (old.paused.getLsbD c || decide (c = cls))) ∧
        Leads (.resumeFlit port cls) s (fun t => (Map.get {} t.fports port).up = old.up ∧
          ∀ c < 4, (Map.get {} t.fports port).paused.getLsbD c = (old.paused.getLsbD c && decide (c ≠ cls)))) ∧
      (∀ port, port < 48 → let up := (Map.get {} s.fports port).up
        (up = true → Leads (.linkDown port) s (fun t => (Map.get {} t.fports port).up = false ∧ t.pkg.linkevt = s.pkg.linkevt + 1)) ∧
        (up = false → exec (.linkDown port) s = .next s) ∧
        (up = false → Leads (.linkUp port) s (fun t => (Map.get {} t.fports port).up = true ∧ t.pkg.linkevt = s.pkg.linkevt + 1)) ∧
        (up = true → exec (.linkUp port) s = .next s)) ∧
      (∀ port, port < 2 → Leads (.pcieLinkDown port) s (fun t =>
        (∀ q < 2, t.pcieUp.getLsbD q = (s.pcieUp.getLsbD q && decide (q ≠ port))) ∧
        ∀ c p d, (s.ctx c).takeover = some (p, d) → b2n (s.ctx c).owner = port → b2n p ≠ port →
          (t.ctx c).owner = p ∧ (t.ctx c).takeover = none))) ∧
  (
    ∀ (s : State) (id peer : Nat) (c : Cmd) (o : OpCpy), collOf s id = some (c, o) →
      (let n := Map.get 0 c.coll.noticed peer
       let total := (collSend c o.sub.toNat peer).2
       let k := min 4096 (total - n)
       peer ∈ collPeers c → n < total → n + k - (Map.get [] c.coll.out peer).length ≤ clWin (collDesc c) → collOpen s c peer 2 = true →
        Leads (.collNotice id peer) s (fun t => ∃ d, t.cmd id = some d ∧ Map.get 0 d.coll.noticed peer = n + k ∧ t.mem = s.mem)) ∧
      (∀ bs u, let sent := Map.get [] c.coll.out peer
        let k := min 4096 (Map.get 0 c.coll.noticed peer - sent.length)
        peer ∈ collPeers c → collOpen s c peer 3 = true → k ≠ 0 → c.had = [] →
        farVa ((collSend c o.sub.toNat peer).1 + sent.length) = false →
        vaRead s (s.who c.own) ((collSend c o.sub.toNat peer).1 + sent.length) k = .ok (bs, u) →
        Leads (.collPull id peer false []) s (fun t => ∃ d, t.cmd id = some d ∧ Map.get [] d.coll.out peer = sent ++ bs)) ∧
      (∀ data, let old := Map.get [] c.coll.got peer
        peer ∈ collPeers c → collOpen s c peer 3 = true → peer ∉ c.coll.ended → data ≠ [] → (old ++ data).length < collRecv c →
        Leads (.collPull id peer true data) s (fun t => ∃ d, t.cmd id = some d ∧ Map.get [] d.coll.got peer = old ++ data ∧
          d.coll.ended = c.coll.ended ∧ t.mem = s.mem)) ∧
      ((s.team c.own.team).st ≠ .saved →
        (clTmo (collDesc c) * 168000000 ≤ s.time - c.coll.lastAt →
          exec (.collTimeout id) s = .next (finishCmd (cpDrop s c) id (statusWord 0x19 (clTag (collDesc c))) 0)) ∧
        (s.time - c.coll.lastAt < clTmo (collDesc c) * 168000000 → exec (.collTimeout id) s = .next s)))

/-- Context commands (R361, R364, R430): one that is accepted, no earlier write of its port waiting, sets BUSY, LAST and LASTPORT and has its
effect; its completion clears BUSY. CREATE makes the context afresh for its owner; DESTROY ends it with everything in flight; HOLD pre-empts its teams and is
done when none is resident; RESUME lets it run; INVAL drops the translations that its operand names; a takeover changes the owner when
its time has passed, at once if the owner's link is down, unless DENY ends it; a context that changes its owner is marked as
lost, so that the function that had it keeps its numbering. Model's choices: log entry 52 (DENY accepted although BUSY is set, CTXCMD reads back the accepted
command, a lost context keeps its place) and 58 (LOSE ends every seal). -/
def Obligations.ContextCommands : Prop :=
  ∀ (s : State) (o : CtxOp), let c := s.ctx o.ctx
    let taken := fun (cmd : Nat) (t : State) => (t.ctx o.ctx).busy = true ∧ (t.ctx o.ctx).last.toNat = cmd ∧
      (t.ctx o.ctx).lastPort = decide (o.port = 1)
    (hostWaits s o.port = false → (∀ priv, cmdOk s o [0] false = true → Leads (.create o priv) s (fun t => let x := t.ctx o.ctx
      taken 1 t ∧ x.owner = c.owner ∧ x.priv = priv ∧ x.regs = { c.regs with ctxcmd := BitVec.ofNat 5 (1 + 16 * b2n priv) } ∧ x.grids = [] ∧ x.queues = [] ∧ x.mbox = [] ∧
        x.handles = [] ∧ x.former.freepg = c.regs.kvhn ∧ x.former.step = 0)) ∧
    (cmdOk s o [1, 2] false = true → Leads (.destroy o) s (fun t => taken 2 t ∧ (t.ctx o.ctx).st = 0 ∧ (t.ctx o.ctx).grids = [] ∧
      (∀ e ∈ t.teams, e.2.ctx ≠ o.ctx) ∧ (∀ x ∈ t.cmds, x.ctx ≠ o.ctx) ∧ ∀ x ∈ t.sends, x.ctx ≠ o.ctx)) ∧
    (cmdOk s o [1] false = true → Leads (.hold o) s (fun t => taken 3 t ∧ t = preemptAll (residents s o.ctx) [] (cmdTaken s o 3))) ∧
    (cmdOk s o [2] false = true → Leads (.resume o) s (fun t => taken 4 t ∧ (t.ctx o.ctx).st = 1 ∧ (t.ctx o.ctx).fqStuck = false)) ∧
    (cmdOk s o [1, 2] false = true → let arg := c.regs.ctxarg.toNat
      (arg = 2 ^ 64 - 1 → Leads (.inval o) s (fun t => taken 5 t ∧ (∀ k, ∀ e ∈ (t.core k).tlb, e.ctx ≠ o.ctx) ∧
        ∀ d, ∀ e ∈ (t.die d).tlb, e.ctx ≠ o.ctx)) ∧
      (arg % 4 ≠ 3 → Leads (.inval o) s (fun t => taken 5 t ∧
        ∀ k e, e ∈ (t.core k).tlb ↔ e ∈ (s.core k).tlb ∧ invalHits arg o.ctx e = false))) ∧
    (cmdOk s o [0, 1, 2] true = true →
      (s.pcieUp.getLsbD (b2n c.owner) = true → Leads (.takeover o) s (fun t => taken 6 t ∧ (t.ctx o.ctx).owner = c.owner ∧
        (t.ctx o.ctx).takeover =
          some (decide (o.port = 1), s.time + (if c.regs.ctxarg = 0 then 100000 else c.regs.ctxarg.toNat) * 168000))) ∧
      (s.pcieUp.getLsbD (b2n c.owner) = false → Leads (.takeover o) s (fun t => taken 6 t ∧
        (t.ctx o.ctx).owner = decide (o.port = 1) ∧ (t.ctx o.ctx).takeover = none ∧
        (decide (o.port = 1) ≠ c.owner → (t.ctx o.ctx).lostTo = true)))) ∧
    (s.pkg.phase = 8 → o.ctx < 64 → o.port = b2n c.owner → c.takeover.isSome = true → Leads (.deny o) s (fun t => taken 7 t ∧
      (t.ctx o.ctx).takeover = none ∧ (t.ctx o.ctx).owner = c.owner)) ∧
    (cmdOk s o [2] false = true → Leads (.lose o) s (fun t => let x := t.ctx o.ctx
      taken 8 t ∧ x.parSealed = [] ∧ x.parIn = [] ∧ x.parOut = [] ∧ x.parSent = [] ∧
      ∀ ds s1 p u, kRun (bgWho o.ctx) (kDescs o.ctx) (cmdTaken s o 8) = (.ok ds, s1) →
        ds.filter (fun p => dLive p.2 && decide (dTier p.2 = 0)) = [p] →
        kRun (bgWho o.ctx) (kDescPut o.ctx p.1 (recSet p.2 8 4 3 2)) s1 = (.ok (), u) → t.mem = u.mem)) ∧
    (cmdOk s o [1, 2] false = true → Leads (.reseal o) s (fun t => let x := t.ctx o.ctx
      taken 9 t ∧ (c.regs.kvpolyPos = 8 → x.parBad = []) ∧
      (c.regs.kvpolyPos ≠ 8 → x.parSealed = [] ∧ x.parOut = [] ∧ x.parSent = [])))) ∧
    (∀ k, let y := s.ctx k
      let done := fun (st : BitVec 2) => Leads (.ctxcmdCompletion k) s (fun t => (t.ctx k).busy = false ∧ (t.ctx k).st = st)
      y.busy = true →
      (∀ t, y.last = 1 → writeTable k (List.range 8192) s = (t, none) → done 1) ∧
      (∀ t e, y.last = 1 → writeTable k (List.range 8192) s = (t, some e) → done 0) ∧
      (y.last = 3 → residents s k = [] → done 2) ∧
      (y.last = 3 → residents s k ≠ [] → exec (.ctxcmdCompletion k) s = .next s) ∧
      (y.last ∈ [(2 : BitVec 4), 4, 5, 7, 8] → done y.st) ∧
      (y.last = 6 → y.takeover = none → done y.st) ∧ (y.last = 9 → y.parIn = [] → done y.st)) ∧
    (∀ k p d, (s.ctx k).takeover = some (p, d) →
      (d ≤ s.time → Leads (.takeoverTimeout k) s (fun t => (t.ctx k).owner = p ∧ (t.ctx k).takeover = none ∧
        ((s.ctx k).owner ≠ p → (t.ctx k).lostTo = true))) ∧
      (s.time < d → exec (.takeoverTimeout k) s = .next s))

/-- What hosts do through W0, W1 and W2 (R357 to R365): a launch window's GO leaves its answer; HMQ gives its oldest message, and ones
to a port that does not own the context; a reply goes to the ECALL that waits for it, or is kept for a saved team; a message goes to a
mailbox with room or waits, and later writes of its port, also of registers and commands, behind it; W2 reads and writes the selected
context's memory, a read that fails being marked for the host; a poisoned write is discarded and reported by the port; registers take
what is written where they may be written, and a port that does not own a context writes its CTXARG alone. Model's choices: log entry 53 (W2 acts at home; every
write of a port waits behind its mailbox write), 52 (all ones for a port that does not own the context) and 89 (CTXARG of the other port's contexts). -/
def Obligations.HostAccess : Prop :=
  ∀ s : State,
    (∀ (o : CtxOp) (q : Nat), w1Open s o.port o.ctx = true → q < 8 →
      let c := s.ctx o.ctx
      let w := fun (i : Nat) => (Map.get 0 c.lwin (q * 8 + i)).toNat
      let answer := fun (x : Word64) => Leads (.launchWindowGo o q) s (fun t => Map.get 0 (t.ctx o.ctx).lstat q = x)
      (c.st = 0 → answer 0x1B) ∧
      (c.st ≠ 0 → windowBad w = true → answer 2) ∧
      (c.st ≠ 0 → windowBad w = false → tryLaunch s o.ctx (windowReq q w) = .full → answer 0xFF) ∧
      (∀ st t, c.st ≠ 0 → windowBad w = false → tryLaunch s o.ctx (windowReq q w) = .refused st t → answer (BitVec.ofNat 64 st)) ∧
      (∀ lid t, c.st ≠ 0 → windowBad w = false → tryLaunch s o.ctx (windowReq q w) = .accepted lid t →
        answer (BitVec.ofNat 64 (lid * 2 ^ 32)))) ∧
    (∀ o : CtxOp, s.pkg.phase = 8 → o.ctx < 64 →
      let c := s.ctx o.ctx
      let gives := fun (x : Word64) (P : State → Prop) => Leads (.hmqRead o) s (fun t => t.hostRd = .bytes (leBytes x.toNat 8) ∧ P t)
      (∀ x xs, o.port = b2n c.owner → c.hmq = x :: xs → gives x (fun t => (t.ctx o.ctx).hmq = xs)) ∧
      (o.port = b2n c.owner → c.hmq = [] → gives 0 (fun t => t.ctxs = s.ctxs)) ∧
      (o.port ≠ b2n c.owner → gives (BitVec.allOnes 64) (fun t => t.ctxs = s.ctxs))) ∧
    (∀ (o : CtxOp) (val : Word64), w1Open s o.port o.ctx = true →
      let seq := (s.ctx o.ctx).repseq
      (∀ g, replyTo s o.ctx seq = some g →
        ((s.team g.team).st.runs = true → exec (.ecallReply o val) s = .next (ecallAnswer s g seq val)) ∧
        ((s.team g.team).st.runs = false → Leads (.ecallReply o val) s (fun t =>
          (t.ctx o.ctx).replies = (s.ctx o.ctx).replies ++ [(seq, val)]))) ∧
      (replyTo s o.ctx seq = none → exec (.ecallReply o val) s = .next s)) ∧
    (∀ (o : CtxOp) (v m : Nat) (val : Word64), w1Open s o.port o.ctx = true → v < 64 → m < 32 →
      let box := (s.ctx o.ctx).box v m
      (vMapped s o.ctx v = true → box.length < 16 → boxHeld s o.ctx v m = false → Leads (.hostMailboxWrite o v m val) s (fun t =>
        (t.ctx o.ctx).box v m = box ++ [⟨val, 4⟩])) ∧
      (vMapped s o.ctx v = true → 16 ≤ box.length ∨ boxHeld s o.ctx v m = true → o.port < 2 → Leads (.hostMailboxWrite o v m val) s (fun t =>
        (t.ctx o.ctx).box v m = box ∧ hostWaits t o.port = true)) ∧
      (vMapped s o.ctx v = false → savedOn s o.ctx v = false → exec (.hostMailboxWrite o v m val) s = .next s)) ∧
    (∀ (o : W2Op) (n : Nat), o.off + n ≤ 2 ^ 36 → let staging : Prop := (s.pkg.phase = 2 ∨ s.pkg.phase = 15) ∧ o.fn = 0
      (staging → Leads (.w2Read o n) s (fun t => t.hostRd = .bytes (Map.getN 0 s.pkg.staging o.off n))) ∧
      (s.pkg.phase = 8 → selected s o.port o.fn = none → Leads (.w2Read o n) s (fun t => t.hostRd = .bytes (List.replicate n 0xFF))) ∧
      (∀ c, s.pkg.phase = 8 → selected s o.port o.fn = some c →
        (∀ bs u, vaReadHome s (bgWho c) (w2Va s c o.off) n = .ok (bs, u) → Leads (.w2Read o n) s (fun t =>
          t.hostRd = .bytes bs ∧ t.mem = s.mem)) ∧
        (∀ e a, vaReadHome s (bgWho c) (w2Va s c o.off) n = .error (e, a) → Leads (.w2Read o n) s (fun t =>
          t.hostRd = (if e.code < cECCU then .unsupported else .poisoned) ∧ t.mem = s.mem)))) ∧
    (∀ x : HostWr, hostWaits s x.port = true →
      let queued := fun (i : Instr) => exec i s = .next { s with hostQ := s.hostQ ++ [x] }
      match x with
      | .reg o v => o.port < 2 → queued (.registerWrite ⟨o.port, o.fn⟩ o.win o.off v)
      | .cmd o n =>
        (n = 1 → queued (.create o false)) ∧ (n = 17 → queued (.create o true)) ∧ (n = 2 → queued (.destroy o)) ∧
        (n = 3 → queued (.hold o)) ∧ (n = 4 → queued (.resume o)) ∧ (n = 5 → queued (.inval o)) ∧ (n = 6 → queued (.takeover o)) ∧
        (n = 7 → queued (.deny o)) ∧ (n = 8 → queued (.lose o)) ∧ (n = 9 → queued (.reseal o))
      | .go o q => queued (.launchWindowGo o q)
      | .reply o v => queued (.ecallReply o v)
      | .mbox o v m w => queued (.hostMailboxWrite o v m w)
      | .ack o d =>
        (d = 1 → queued (.fqackReplay o)) ∧ (d = 2 → queued (.fqackSkip o)) ∧ (d = 3 → queued (.fqackExit o)) ∧
        (d = 4 → queued (.fqackEndteam o)) ∧ (d = 5 → queued (.fqackEndgrid o)) ∧ (d = 6 → queued (.fqackContinue o))
      | .w2 o d => o.off + d.length ≤ 2 ^ 36 → stagingOpen s o = false → queued (.w2Write o d false)) ∧
    (∀ (o : W2Op) (data : List Byte),
      (o.port < 2 → Leads (.w2Write o data true) s (fun t =>
        t = { s with pkg := t.pkg } ∧ t.pkg = { s.pkg with aer := t.pkg.aer } ∧
          ∀ q < 2, t.pkg.aer.getLsbD q = (s.pkg.aer.getLsbD q || decide (q = o.port)))) ∧
      ((s.pkg.phase = 2 ∨ s.pkg.phase = 15) → o.fn = 0 → o.off + data.length ≤ 2 ^ 26 → Leads (.w2Write o data false) s (fun t =>
        t.pkg.phase = s.pkg.phase ∧ Map.getN 0 t.pkg.staging o.off data.length = data)) ∧
      (∀ c u lf v, s.pkg.phase = 8 → selected s o.port o.fn = some c → o.off + data.length ≤ 2 ^ 36 → hostWaits s o.port = false →
        let va := w2Va s c o.off
        0 < data.length → va % 256 + data.length ≤ 256 → data.length < 256 → vaCheck s (bgWho c) va data.length .write = .ok u →
        xlate u (bgWho c) va .write false = .ok (lf, v) → linePoisoned v (lineOf lf.pa) = none → metaOf v (lineOf lf.pa) = 0 →
        Leads (.w2Write o data false) s (fun t => memBytes t lf.pa data.length = data))) ∧
    (∀ (o : RegOp) (val : Word64), o.port < 2 → hostWaits s o.port = false →
      let write := fun (P : State → Prop) => Leads (.registerWrite ⟨o.port, o.fn⟩ o.win o.off val) s P
      (o.win = 0 → o.off < 0x10000 →
        (o.fn = 0 → o.off = 0x008 → (∀ c ∈ s.ctxs, c.2.st = 0) → write (fun t => t.pkg.fabid = val.setWidth 10)) ∧
        (o.fn = 0 → o.off = 0x008 → (∃ c ∈ s.ctxs, c.2.st ≠ 0) → write (fun t => t = s)) ∧
        (o.fn = 0 → o.off = 0x400 → write (fun t => t.pkg.fabwt = val.setWidth 32)) ∧
        (o.fn = 0 → o.off = 0x520 → write (fun t => t.pkg.fabtmo = val.setWidth 32)) ∧
        (o.fn ≠ 0 → write (fun t => t = s))) ∧
      (∀ c k, o.win = 0 → o.off = 0x10000 + 4096 * k + o.off % 4096 → (fnCtxs s o.port o.fn ++ otherCtxs s o.port o.fn)[k]? = some c →
        s.pkg.phase = 8 →
        let x := s.ctx c
        let off := o.off % 4096
        (off = 0x008 → write (fun t => (t.ctx c).regs = { x.regs with ctxarg := val })) ∧
        (off ≠ 0x008 → o.port = b2n x.owner → (x.st = 0 ∨ x.st = 2) → write (fun t => (t.ctx c).regs = x.regs.put off val)) ∧
        (off ≠ 0x008 → (o.port ≠ b2n x.owner ∨ (x.st ≠ 0 ∧ x.st ≠ 2)) → write (fun t => t = s))) ∧
      (∀ c k, o.win ≠ 0 → o.off = 65536 * k + o.off % 65536 → (fnCtxs s o.port o.fn)[k]? = some c → s.pkg.phase = 8 →
        let off := o.off % 65536
        (o.port ≠ b2n (s.ctx c).owner → write (fun t => t = s)) ∧
        (o.port = b2n (s.ctx c).owner →
          (off = 0x400 → write (fun t => (t.ctx c).repseq = val.setWidth 32)) ∧
          (off < 0x200 → off % 8 = 0 → off % 64 ≤ 0x20 → write (fun t => Map.get 0 (t.ctx c).lwin (off / 8) = val)))))

/-- The fault queue and the watchdog (R387, R388, R403, R404): the first waiting record goes to the next entry when that is neither
VALID nor held, and its holder holds the entry from then on; a wait of the full interval is noticed once, by kind. -/
def Obligations.FaultQueue : Prop :=
  ∀ s : State,
    (∀ (c : Nat) (x : FqItem) (rest : List FqItem) (r : FRec), let y := s.ctx c
      let n := y.regs.fqn.toNat
      let i := y.fqNext % n
      y.fqWait = x :: rest → itemRec s x = some r → y.fqStuck = false →
      (n = 0 → Leads (.faultRecordWrite c) s (fun t => (t.ctx c).fqerr = true ∧ (t.ctx c).fqWait = y.fqWait)) ∧
      (n ≠ 0 → fqValid s c i = .ok true → exec (.faultRecordWrite c) s = .next s) ∧
      (∀ u, n ≠ 0 → fqValid s c i = .ok false → holderOf s c i = none → formerWrite s c (fqVa s c i) r.bytes = (u, none) →
        Leads (.faultRecordWrite c) s (fun t => t.mem = u.mem ∧ (t.ctx c).fqWait = rest ∧ (t.ctx c).fqNext = (i + 1) % n ∧
          (t.ctx c).fqProd = y.fqProd + 1 ∧
          ∀ g h, x = .group g → (s.group g).fault = some h → (t.group g).fault = some { h with entry := some i }))) ∧
    (∀ (g : GRef) (w : Wait), (s.group g).waits.find? (fun w => !w.noted && decide (w.until_ ≤ s.now)) = some w →
      (s.team g.team).st.runs = true → Leads (.watchdogNotice g) s (fun t =>
        { w with noted := true } ∈ (t.group g).waits ∧ (t.group g).waits.length = (s.group g).waits.length ∧
        ∃ r : FRec, (t.ctx (s.team g.team).ctx).fqWait = (s.ctx (s.team g.team).ctx).fqWait ++ [.notice g r w.born] ∧ r.wdog = true ∧
          r.code = 0 ∧ r.info = BitVec.ofNat 16 w.kind ∧ r.pc = BitVec.ofNat 64 w.pc)) ∧
    (∀ g : GRef, (∀ w ∈ (s.group g).waits, w.noted = true ∨ s.now < w.until_) → exec (.watchdogNotice g) s = .next s)
end

