-- ==== Sys2Proof/Laws/Map.lean ====
section
/-! SUPPORT. Laws of sparse maps: what a key reads as after each operation, and that the canonical form is kept. -/

namespace Sys2Proof.Machine

variable {α : Type}

/-! ## Reading after writing -/

@[simp] theorem Map.find_nil (k : Nat) : Map.find ([] : Map α) k = none := rfl

@[simp] theorem Map.get_nil (d : α) (k : Nat) : Map.get d ([] : Map α) k = d := rfl

theorem Map.find_cons (j : Nat) (w : α) (m : Map α) (k : Nat) :
    Map.find ((j, w) :: m) k = if j = k then some w else Map.find m k := by simp [Map.find]

theorem Map.find_put (m : Map α) (k : Nat) (v : α) (q : Nat) :
    Map.find (Map.put m k v) q = if q = k then some v else Map.find m q := by
  induction m with
  | nil => simp [Map.put, Map.find_cons, eq_comm]
  | cons e m ih =>
    obtain ⟨j, w⟩ := e
    simp only [Map.put]
    split
    · rw [Map.find_cons]; simp [eq_comm]
    · split
      · subst_vars; simp only [Map.find_cons]; by_cases h : q = j <;> simp [h, eq_comm]
      · rename_i h1 h2
        simp only [Map.find_cons, ih]
        by_cases h : j = q
        · subst h; simp [Ne.symm h2]
        · simp [h]

@[simp] theorem Map.find_put_self (m : Map α) (k : Nat) (v : α) : Map.find (Map.put m k v) k = some v := by
  simp [Map.find_put]

theorem Map.find_put_of_ne (m : Map α) {k q : Nat} (v : α) (h : q ≠ k) : Map.find (Map.put m k v) q = Map.find m q := by
  simp [Map.find_put, h]

theorem Map.get_put (d : α) (m : Map α) (k : Nat) (v : α) (q : Nat) :
    Map.get d (Map.put m k v) q = if q = k then v else Map.get d m q := by
  by_cases h : q = k <;> simp [Map.get, Map.find_put, h]

@[simp] theorem Map.get_put_self (d : α) (m : Map α) (k : Nat) (v : α) : Map.get d (Map.put m k v) k = v := by
  simp [Map.get_put]

theorem Map.get_put_of_ne (d : α) (m : Map α) {k q : Nat} (v : α) (h : q ≠ k) :
    Map.get d (Map.put m k v) q = Map.get d m q := by simp [Map.get_put, h]

theorem Map.get_upd (d : α) (m : Map α) (k : Nat) (f : α → α) (q : Nat) :
    Map.get d (Map.upd d m k f) q = if q = k then f (Map.get d m k) else Map.get d m q := Map.get_put ..

@[simp] theorem Map.get_upd_self (d : α) (m : Map α) (k : Nat) (f : α → α) :
    Map.get d (Map.upd d m k f) k = f (Map.get d m k) := by simp [Map.get_upd]

theorem Map.get_upd_of_ne (d : α) (m : Map α) {k q : Nat} (f : α → α) (h : q ≠ k) :
    Map.get d (Map.upd d m k f) q = Map.get d m q := by simp [Map.get_upd, h]

theorem Map.find_erase (m : Map α) (k q : Nat) :
    Map.find (Map.erase m k) q = if q = k then none else Map.find m q := by
  induction m with
  | nil => simp [Map.erase]
  | cons e m ih =>
    obtain ⟨j, w⟩ := e
    simp only [Map.erase]
    split
    · rename_i h0; subst h0; rw [ih, Map.find_cons]; by_cases h : q = j <;> simp [h, eq_comm]
    · rename_i h1
      simp only [Map.find_cons, ih]
      by_cases h : j = q
      · subst h; simp [h1]
      · simp [h]

theorem Map.get_erase (d : α) (m : Map α) (k q : Nat) :
    Map.get d (Map.erase m k) q = if q = k then d else Map.get d m q := by
  by_cases h : q = k <;> simp [Map.get, Map.find_erase, h]

theorem Map.get_set [DecidableEq α] (d : α) (m : Map α) (k : Nat) (v : α) (q : Nat) :
    Map.get d (Map.set d m k v) q = if q = k then v else Map.get d m q := by
  unfold Map.set
  split
  · subst_vars; exact Map.get_erase ..
  · exact Map.get_put ..

@[simp] theorem Map.get_set_self [DecidableEq α] (d : α) (m : Map α) (k : Nat) (v : α) :
    Map.get d (Map.set d m k v) k = v := by simp [Map.get_set]

theorem Map.get_set_of_ne [DecidableEq α] (d : α) (m : Map α) {k q : Nat} (v : α) (h : q ≠ k) :
    Map.get d (Map.set d m k v) q = Map.get d m q := by simp [Map.get_set, h]

theorem Map.get_setN [DecidableEq α] (d : α) (vs : List α) (m : Map α) (k q : Nat) :
    Map.get d (Map.setN d m k vs) q = if k ≤ q then (vs[q - k]?).getD (Map.get d m q) else Map.get d m q := by
  induction vs generalizing m k with
  | nil => simp [Map.setN]
  | cons v vs ih =>
    simp only [Map.setN, ih, Map.get_set]
    by_cases h1 : k + 1 ≤ q
    · have h2 : q ≠ k := by omega
      have h3 : q - k = (q - (k + 1)) + 1 := by omega
      have h4 : k ≤ q := by omega
      simp [h1, h2, h3, h4]
    · by_cases h2 : q = k
      · subst h2; simp
      · have h3 : ¬ k ≤ q := by omega
        simp [h1, h2, h3]

theorem Map.length_getN (d : α) (m : Map α) (k n : Nat) : (Map.getN d m k n).length = n := by
  induction n generalizing k with
  | zero => rfl
  | succ n ih => simp [Map.getN, ih]

theorem Map.getElem?_getN (d : α) (m : Map α) (k n i : Nat) (h : i < n) :
    (Map.getN d m k n)[i]? = some (Map.get d m (k + i)) := by
  induction n generalizing k i with
  | zero => omega
  | succ n ih =>
    cases i with
    | zero => simp [Map.getN]
    | succ i => simp only [Map.getN, List.getElem?_cons_succ]; rw [ih (k + 1) i (by omega)]; congr 2; omega

/-- Bytes outside a span stay as they are. -/
theorem Map.get_setN_outside [DecidableEq α] (d : α) (vs : List α) (m : Map α) {k q : Nat}
    (h : q < k ∨ k + vs.length ≤ q) : Map.get d (Map.setN d m k vs) q = Map.get d m q := by
  rw [Map.get_setN]
  split
  · rw [List.getElem?_eq_none (by omega)]; rfl
  · rfl

/-- What was written over a span is read back from it. -/
theorem Map.getN_setN_self [DecidableEq α] (d : α) (vs : List α) (m : Map α) (k : Nat) :
    Map.getN d (Map.setN d m k vs) k vs.length = vs := by
  apply List.ext_getElem?
  intro i
  by_cases h : i < vs.length
  · rw [Map.getElem?_getN _ _ _ _ _ h, Map.get_setN]; simp [h]
  · rw [List.getElem?_eq_none (by rw [Map.length_getN]; omega), List.getElem?_eq_none (by omega)]

theorem Map.find_clear (m : Map α) (lo hi q : Nat) :
    Map.find (Map.clear m lo hi) q = if lo ≤ q ∧ q < hi then none else Map.find m q := by
  induction m with
  | nil => simp [Map.clear]
  | cons e m ih =>
    obtain ⟨j, w⟩ := e
    have step : Map.clear ((j, w) :: m) lo hi =
        if j < lo ∨ hi ≤ j then (j, w) :: Map.clear m lo hi else Map.clear m lo hi := by
      simp only [Map.clear, List.filter_cons]; split <;> simp_all
    rw [step]
    by_cases hj : j < lo ∨ hi ≤ j
    · rw [if_pos hj, Map.find_cons, Map.find_cons, ih]
      by_cases h : j = q
      · subst h; simp; omega
      · simp [h]
    · rw [if_neg hj, ih, Map.find_cons]
      by_cases h : j = q
      · subst h
        have h2 : lo ≤ j ∧ j < hi := by omega
        simp [h2]
      · simp [h]

/-! ## The canonical form -/

theorem Map.sortedFrom_mono {lo lo' : Nat} (h : lo' ≤ lo) (m : Map α) (hm : Map.sortedFrom lo m = true) :
    Map.sortedFrom lo' m = true := by
  cases m with
  | nil => rfl
  | cons e m => obtain ⟨j, w⟩ := e; simp only [Map.sortedFrom, Bool.and_eq_true, decide_eq_true_eq] at *; exact ⟨by omega, hm.2⟩

theorem Map.sortedFrom_put (m : Map α) (lo k : Nat) (v : α) (hk : lo ≤ k) (hm : Map.sortedFrom lo m = true) :
    Map.sortedFrom lo (Map.put m k v) = true := by
  induction m generalizing lo with
  | nil => simp [Map.put, Map.sortedFrom, hk]
  | cons e m ih =>
    obtain ⟨j, w⟩ := e
    simp only [Map.sortedFrom, Bool.and_eq_true, decide_eq_true_eq] at hm
    simp only [Map.put]
    split
    · rename_i h; simp only [Map.sortedFrom, Bool.and_eq_true, decide_eq_true_eq]; exact ⟨hk, h, hm.2⟩
    · split
      · subst_vars; simp only [Map.sortedFrom, Bool.and_eq_true, decide_eq_true_eq]; exact hm
      · simp only [Map.sortedFrom, Bool.and_eq_true, decide_eq_true_eq]
        exact ⟨hm.1, ih (j + 1) (by omega) hm.2⟩

theorem Map.sortedFrom_filter (p : Nat × α → Bool) (m : Map α) (lo : Nat) (hm : Map.sortedFrom lo m = true) :
    Map.sortedFrom lo (m.filter p) = true := by
  induction m generalizing lo with
  | nil => rfl
  | cons e m ih =>
    obtain ⟨j, w⟩ := e
    simp only [Map.sortedFrom, Bool.and_eq_true, decide_eq_true_eq] at hm
    rw [List.filter_cons]
    split
    · simp only [Map.sortedFrom, Bool.and_eq_true, decide_eq_true_eq]; exact ⟨hm.1, ih _ hm.2⟩
    · exact ih lo (Map.sortedFrom_mono (by omega) m hm.2)

theorem Map.erase_eq_filter (m : Map α) (k : Nat) : Map.erase m k = m.filter (fun e => decide (e.1 ≠ k)) := by
  induction m with
  | nil => rfl
  | cons e m ih => obtain ⟨j, w⟩ := e; simp only [Map.erase, List.filter_cons]; split <;> simp_all

theorem Map.mem_put {m : Map α} {k : Nat} {v : α} {e : Nat × α} (h : e ∈ Map.put m k v) : e = (k, v) ∨ e ∈ m := by
  induction m with
  | nil => simp [Map.put] at h; exact .inl h
  | cons x m ih =>
    obtain ⟨j, w⟩ := x
    simp only [Map.put] at h
    split at h
    · rcases List.mem_cons.1 h with h | h
      · exact .inl h
      · exact .inr h
    · split at h
      · rcases List.mem_cons.1 h with h | h
        · exact .inl h
        · exact .inr (List.mem_cons_of_mem _ h)
      · rcases List.mem_cons.1 h with h | h
        · exact .inr (h ▸ List.mem_cons_self ..)
        · rcases ih h with h | h
          · exact .inl h
          · exact .inr (List.mem_cons_of_mem _ h)

/-- Below its first key a sorted map lists nothing. -/
theorem Map.find_below (m : Map α) (lo k : Nat) (h : Map.sortedFrom lo m = true) (hk : k < lo) : Map.find m k = none := by
  induction m generalizing lo with
  | nil => rfl
  | cons e m ih =>
    obtain ⟨j, w⟩ := e
    simp only [Map.sortedFrom, Bool.and_eq_true, decide_eq_true_eq] at h
    rw [Map.find_cons, if_neg (by omega)]
    exact ih (j + 1) h.2 (by omega)

theorem Map.ext_sorted (d : α) (m n : Map α) (lo : Nat) (hm : Map.sortedFrom lo m = true) (hn : Map.sortedFrom lo n = true)
    (dm : ∀ e ∈ m, e.2 ≠ d) (dn : ∀ e ∈ n, e.2 ≠ d) (h : ∀ k, Map.get d m k = Map.get d n k) : m = n := by
  induction m generalizing n lo with
  | nil =>
    cases n with
    | nil => rfl
    | cons e n =>
      obtain ⟨j, w⟩ := e
      have := h j
      simp [Map.get, Map.find_cons] at this
      exact absurd this.symm (dn (j, w) (List.mem_cons_self ..))
  | cons e m ih =>
    obtain ⟨j, w⟩ := e
    have hj := h j
    simp only [Map.sortedFrom, Bool.and_eq_true, decide_eq_true_eq] at hm
    cases n with
    | nil => simp [Map.get, Map.find_cons] at hj; exact absurd hj (dm (j, w) (List.mem_cons_self ..))
    | cons e' n =>
      obtain ⟨j', w'⟩ := e'
      simp only [Map.sortedFrom, Bool.and_eq_true, decide_eq_true_eq] at hn
      have hjj : j = j' := by
        rcases Nat.lt_trichotomy j j' with hlt | he | hgt
        · have : Map.find ((j', w') :: n) j = none := by
            rw [Map.find_cons, if_neg (by omega)]; exact Map.find_below n (j' + 1) j hn.2 (by omega)
          simp [Map.get, this, Map.find_cons] at hj
          exact absurd hj (dm (j, w) (List.mem_cons_self ..))
        · exact he
        · have hj' := h j'
          have : Map.find ((j, w) :: m) j' = none := by
            rw [Map.find_cons, if_neg (by omega)]; exact Map.find_below m (j + 1) j' hm.2 (by omega)
          simp [Map.get, this, Map.find_cons] at hj'
          exact absurd hj'.symm (dn (j', w') (List.mem_cons_self ..))
      subst hjj
      simp [Map.get, Map.find_cons] at hj
      subst hj
      congr 1
      apply ih n (j + 1) hm.2 hn.2 (fun e he => dm e (List.mem_cons_of_mem _ he)) (fun e he => dn e (List.mem_cons_of_mem _ he))
      intro k
      have hk := h k
      by_cases hjk : j = k
      · subst hjk; simp [Map.get, Map.find_below m (j + 1) j hm.2 (by omega), Map.find_below n (j + 1) j hn.2 (by omega)]
      · simpa [Map.get, Map.find_cons, hjk] using hk

variable [DecidableEq α]

theorem Map.wf_iff (d : α) (m : Map α) : Map.wf d m = true ↔ Map.sortedFrom 0 m = true ∧ ∀ e ∈ m, e.2 ≠ d := by
  simp [Map.wf, List.all_eq_true]

@[simp] theorem Map.wf_nil (d : α) : Map.wf d ([] : Map α) = true := rfl

theorem Map.wf_filter (d : α) (m : Map α) (p : Nat × α → Bool) (h : Map.wf d m = true) : Map.wf d (m.filter p) = true := by
  rw [Map.wf_iff] at *
  exact ⟨Map.sortedFrom_filter p m 0 h.1, fun e he => h.2 e (List.mem_filter.1 he).1⟩

theorem Map.wf_erase (d : α) (m : Map α) (k : Nat) (h : Map.wf d m = true) : Map.wf d (Map.erase m k) = true := by
  rw [Map.erase_eq_filter]; exact Map.wf_filter d m _ h

theorem Map.wf_put (d : α) (m : Map α) (k : Nat) (v : α) (hv : v ≠ d) (h : Map.wf d m = true) :
    Map.wf d (Map.put m k v) = true := by
  rw [Map.wf_iff] at *
  refine ⟨Map.sortedFrom_put m 0 k v (Nat.zero_le k) h.1, fun e he => ?_⟩
  rcases Map.mem_put he with rfl | he
  · exact hv
  · exact h.2 e he

theorem Map.wf_set (d : α) (m : Map α) (k : Nat) (v : α) (h : Map.wf d m = true) : Map.wf d (Map.set d m k v) = true := by
  unfold Map.set
  split
  · exact Map.wf_erase d m k h
  · exact Map.wf_put d m k v ‹_› h

theorem Map.wf_setN (d : α) (vs : List α) (m : Map α) (k : Nat) (h : Map.wf d m = true) :
    Map.wf d (Map.setN d m k vs) = true := by
  induction vs generalizing m k with
  | nil => exact h
  | cons v vs ih => exact ih _ _ (Map.wf_set d m k v h)

theorem Map.wf_clear (d : α) (m : Map α) (lo hi : Nat) (h : Map.wf d m = true) : Map.wf d (Map.clear m lo hi) = true :=
  Map.wf_filter d m _ h

theorem Map.sortedFrom_run (d : α) (vs : List α) (k : Nat) : Map.sortedFrom k (Map.run d k vs) = true := by
  induction vs generalizing k with
  | nil => rfl
  | cons v vs ih =>
    simp only [Map.run]
    split
    · exact Map.sortedFrom_mono (Nat.le_succ k) _ (ih (k + 1))
    · simp [Map.sortedFrom, ih (k + 1)]

theorem Map.mem_run {d : α} {vs : List α} {k : Nat} {e : Nat × α} (h : e ∈ Map.run d k vs) :
    e.2 ≠ d ∧ k ≤ e.1 ∧ e.1 < k + vs.length := by
  induction vs generalizing k with
  | nil => simp [Map.run] at h
  | cons v vs ih =>
    simp only [Map.run] at h
    split at h
    · have := ih h; simp only [List.length_cons]; exact ⟨this.1, by omega, by omega⟩
    · rcases List.mem_cons.1 h with h | h
      · subst h; simp only [List.length_cons]; exact ⟨‹_›, by simp, by omega⟩
      · have := ih h; simp only [List.length_cons]; exact ⟨this.1, by omega, by omega⟩

omit [DecidableEq α] in
theorem Map.sortedFrom_append {m n : Map α} {lo k : Nat} (hm : Map.sortedFrom lo m = true) (hb : ∀ e ∈ m, e.1 < k) (hk : lo ≤ k)
    (hn : Map.sortedFrom k n = true) : Map.sortedFrom lo (m ++ n) = true := by
  induction m generalizing lo with
  | nil => exact Map.sortedFrom_mono hk n hn
  | cons e m ih =>
    obtain ⟨j, w⟩ := e
    simp only [List.cons_append, Map.sortedFrom, Bool.and_eq_true, decide_eq_true_eq] at *
    exact ⟨hm.1, ih hm.2 (fun e he => hb e (List.mem_cons_of_mem _ he)) (hb (j, w) (List.mem_cons_self ..))⟩

omit [DecidableEq α] in
theorem Map.sortedFrom_raise {m : Map α} {lo k : Nat} (hm : Map.sortedFrom lo m = true) (hb : ∀ e ∈ m, k ≤ e.1) :
    Map.sortedFrom k m = true := by
  cases m with
  | nil => rfl
  | cons e m =>
    obtain ⟨j, w⟩ := e
    simp only [Map.sortedFrom, Bool.and_eq_true, decide_eq_true_eq] at *
    exact ⟨hb (j, w) (List.mem_cons_self ..), hm.2⟩

/-- A spliced run keeps the canonical form. -/
theorem Map.wf_splice (d : α) (m : Map α) (k : Nat) (vs : List α) (h : Map.wf d m = true) :
    Map.wf d (Map.splice d m k vs) = true := by
  rw [Map.wf_iff] at *
  constructor
  · refine Map.sortedFrom_append (k := k) (Map.sortedFrom_filter _ m 0 h.1) (fun e he => by simpa using (List.mem_filter.1 he).2)
      (Nat.zero_le k) ?_
    refine Map.sortedFrom_append (k := k + vs.length) (Map.sortedFrom_run d vs k) (fun e he => (Map.mem_run he).2.2)
      (Nat.le_add_right ..) ?_
    exact Map.sortedFrom_raise (Map.sortedFrom_filter _ m 0 h.1) (fun e he => by simpa using (List.mem_filter.1 he).2)
  · intro e he
    rcases List.mem_append.1 he with he | he
    · exact h.2 e (List.mem_filter.1 he).1
    · rcases List.mem_append.1 he with he | he
      · exact (Map.mem_run he).1
      · exact h.2 e (List.mem_filter.1 he).1

/-- Two maps in canonical form that read alike are equal. -/
theorem Map.ext_of_wf (d : α) (m n : Map α) (hm : Map.wf d m = true) (hn : Map.wf d n = true)
    (h : ∀ k, Map.get d m k = Map.get d n k) : m = n := by
  rw [Map.wf_iff] at hm hn
  exact Map.ext_sorted d m n 0 hm.1 hn.1 hm.2 hn.2 h

end Sys2Proof.Machine
end

