-- ==== Sys2Proof/Laws/State.lean ====
section
/-! SUPPORT. What each field of State, and each record in it, holds after the named updates. -/

namespace Sys2Proof.Machine

/-! ## State.updCtx -/

@[simp] theorem State.updCtx_now (s : State) (c : Nat) (f : Ctx → Ctx) : (s.updCtx c f).now = s.now := rfl
@[simp] theorem State.updCtx_time (s : State) (c : Nat) (f : Ctx → Ctx) : (s.updCtx c f).time = s.time := rfl
@[simp] theorem State.updCtx_mem (s : State) (c : Nat) (f : Ctx → Ctx) : (s.updCtx c f).mem = s.mem := rfl
@[simp] theorem State.updCtx_lmeta (s : State) (c : Nat) (f : Ctx → Ctx) : (s.updCtx c f).lmeta = s.lmeta := rfl
@[simp] theorem State.updCtx_poison (s : State) (c : Nat) (f : Ctx → Ctx) : (s.updCtx c f).poison = s.poison := rfl
@[simp] theorem State.updCtx_lattr (s : State) (c : Nat) (f : Ctx → Ctx) : (s.updCtx c f).lattr = s.lattr := rfl
@[simp] theorem State.updCtx_late (s : State) (c : Nat) (f : Ctx → Ctx) : (s.updCtx c f).late = s.late := rfl
@[simp] theorem State.updCtx_ctxs (s : State) (c : Nat) (f : Ctx → Ctx) : (s.updCtx c f).ctxs = Map.upd {} s.ctxs c f := rfl
@[simp] theorem State.updCtx_teams (s : State) (c : Nat) (f : Ctx → Ctx) : (s.updCtx c f).teams = s.teams := rfl
@[simp] theorem State.updCtx_cores (s : State) (c : Nat) (f : Ctx → Ctx) : (s.updCtx c f).cores = s.cores := rfl
@[simp] theorem State.updCtx_dies (s : State) (c : Nat) (f : Ctx → Ctx) : (s.updCtx c f).dies = s.dies := rfl
@[simp] theorem State.updCtx_mds (s : State) (c : Nat) (f : Ctx → Ctx) : (s.updCtx c f).mds = s.mds := rfl
@[simp] theorem State.updCtx_retired (s : State) (c : Nat) (f : Ctx → Ctx) : (s.updCtx c f).retired = s.retired := rfl
@[simp] theorem State.updCtx_pkg (s : State) (c : Nat) (f : Ctx → Ctx) : (s.updCtx c f).pkg = s.pkg := rfl
@[simp] theorem State.updCtx_fports (s : State) (c : Nat) (f : Ctx → Ctx) : (s.updCtx c f).fports = s.fports := rfl
@[simp] theorem State.updCtx_pcieUp (s : State) (c : Nat) (f : Ctx → Ctx) : (s.updCtx c f).pcieUp = s.pcieUp := rfl
@[simp] theorem State.updCtx_cmds (s : State) (c : Nat) (f : Ctx → Ctx) : (s.updCtx c f).cmds = s.cmds := rfl
@[simp] theorem State.updCtx_sauQ (s : State) (c : Nat) (f : Ctx → Ctx) : (s.updCtx c f).sauQ = s.sauQ := rfl
@[simp] theorem State.updCtx_fabQ (s : State) (c : Nat) (f : Ctx → Ctx) : (s.updCtx c f).fabQ = s.fabQ := rfl
@[simp] theorem State.updCtx_swQ (s : State) (c : Nat) (f : Ctx → Ctx) : (s.updCtx c f).swQ = s.swQ := rfl
@[simp] theorem State.updCtx_sends (s : State) (c : Nat) (f : Ctx → Ctx) : (s.updCtx c f).sends = s.sends := rfl
@[simp] theorem State.updCtx_irqs (s : State) (c : Nat) (f : Ctx → Ctx) : (s.updCtx c f).irqs = s.irqs := rfl
@[simp] theorem State.updCtx_fabIn (s : State) (c : Nat) (f : Ctx → Ctx) : (s.updCtx c f).fabIn = s.fabIn := rfl
@[simp] theorem State.updCtx_fabOut (s : State) (c : Nat) (f : Ctx → Ctx) : (s.updCtx c f).fabOut = s.fabOut := rfl
@[simp] theorem State.updCtx_hostQ (s : State) (c : Nat) (f : Ctx → Ctx) : (s.updCtx c f).hostQ = s.hostQ := rfl
@[simp] theorem State.updCtx_hostRd (s : State) (c : Nat) (f : Ctx → Ctx) : (s.updCtx c f).hostRd = s.hostRd := rfl
@[simp] theorem State.updCtx_fresh (s : State) (c : Nat) (f : Ctx → Ctx) : (s.updCtx c f).fresh = s.fresh := rfl
@[simp] theorem State.updCtx_free (s : State) (c : Nat) (f : Ctx → Ctx) : (s.updCtx c f).free = s.free := rfl
@[simp] theorem State.updCtx_cur (s : State) (c : Nat) (f : Ctx → Ctx) : (s.updCtx c f).cur = s.cur := rfl
@[simp] theorem State.updCtx_agenda (s : State) (c : Nat) (f : Ctx → Ctx) : (s.updCtx c f).agenda = s.agenda := rfl

/-! ## State.updCore -/

@[simp] theorem State.updCore_now (s : State) (c : Nat) (f : Core → Core) : (s.updCore c f).now = s.now := rfl
@[simp] theorem State.updCore_time (s : State) (c : Nat) (f : Core → Core) : (s.updCore c f).time = s.time := rfl
@[simp] theorem State.updCore_mem (s : State) (c : Nat) (f : Core → Core) : (s.updCore c f).mem = s.mem := rfl
@[simp] theorem State.updCore_lmeta (s : State) (c : Nat) (f : Core → Core) : (s.updCore c f).lmeta = s.lmeta := rfl
@[simp] theorem State.updCore_poison (s : State) (c : Nat) (f : Core → Core) : (s.updCore c f).poison = s.poison := rfl
@[simp] theorem State.updCore_lattr (s : State) (c : Nat) (f : Core → Core) : (s.updCore c f).lattr = s.lattr := rfl
@[simp] theorem State.updCore_late (s : State) (c : Nat) (f : Core → Core) : (s.updCore c f).late = s.late := rfl
@[simp] theorem State.updCore_ctxs (s : State) (c : Nat) (f : Core → Core) : (s.updCore c f).ctxs = s.ctxs := rfl
@[simp] theorem State.updCore_teams (s : State) (c : Nat) (f : Core → Core) : (s.updCore c f).teams = s.teams := rfl
@[simp] theorem State.updCore_cores (s : State) (c : Nat) (f : Core → Core) : (s.updCore c f).cores = Map.upd {} s.cores c f := rfl
@[simp] theorem State.updCore_dies (s : State) (c : Nat) (f : Core → Core) : (s.updCore c f).dies = s.dies := rfl
@[simp] theorem State.updCore_mds (s : State) (c : Nat) (f : Core → Core) : (s.updCore c f).mds = s.mds := rfl
@[simp] theorem State.updCore_retired (s : State) (c : Nat) (f : Core → Core) : (s.updCore c f).retired = s.retired := rfl
@[simp] theorem State.updCore_pkg (s : State) (c : Nat) (f : Core → Core) : (s.updCore c f).pkg = s.pkg := rfl
@[simp] theorem State.updCore_fports (s : State) (c : Nat) (f : Core → Core) : (s.updCore c f).fports = s.fports := rfl
@[simp] theorem State.updCore_pcieUp (s : State) (c : Nat) (f : Core → Core) : (s.updCore c f).pcieUp = s.pcieUp := rfl
@[simp] theorem State.updCore_cmds (s : State) (c : Nat) (f : Core → Core) : (s.updCore c f).cmds = s.cmds := rfl
@[simp] theorem State.updCore_sauQ (s : State) (c : Nat) (f : Core → Core) : (s.updCore c f).sauQ = s.sauQ := rfl
@[simp] theorem State.updCore_fabQ (s : State) (c : Nat) (f : Core → Core) : (s.updCore c f).fabQ = s.fabQ := rfl
@[simp] theorem State.updCore_swQ (s : State) (c : Nat) (f : Core → Core) : (s.updCore c f).swQ = s.swQ := rfl
@[simp] theorem State.updCore_sends (s : State) (c : Nat) (f : Core → Core) : (s.updCore c f).sends = s.sends := rfl
@[simp] theorem State.updCore_irqs (s : State) (c : Nat) (f : Core → Core) : (s.updCore c f).irqs = s.irqs := rfl
@[simp] theorem State.updCore_fabIn (s : State) (c : Nat) (f : Core → Core) : (s.updCore c f).fabIn = s.fabIn := rfl
@[simp] theorem State.updCore_fabOut (s : State) (c : Nat) (f : Core → Core) : (s.updCore c f).fabOut = s.fabOut := rfl
@[simp] theorem State.updCore_hostQ (s : State) (c : Nat) (f : Core → Core) : (s.updCore c f).hostQ = s.hostQ := rfl
@[simp] theorem State.updCore_hostRd (s : State) (c : Nat) (f : Core → Core) : (s.updCore c f).hostRd = s.hostRd := rfl
@[simp] theorem State.updCore_fresh (s : State) (c : Nat) (f : Core → Core) : (s.updCore c f).fresh = s.fresh := rfl
@[simp] theorem State.updCore_free (s : State) (c : Nat) (f : Core → Core) : (s.updCore c f).free = s.free := rfl
@[simp] theorem State.updCore_cur (s : State) (c : Nat) (f : Core → Core) : (s.updCore c f).cur = s.cur := rfl
@[simp] theorem State.updCore_agenda (s : State) (c : Nat) (f : Core → Core) : (s.updCore c f).agenda = s.agenda := rfl

/-! ## State.updDie -/

@[simp] theorem State.updDie_now (s : State) (d : Nat) (f : Die → Die) : (s.updDie d f).now = s.now := rfl
@[simp] theorem State.updDie_time (s : State) (d : Nat) (f : Die → Die) : (s.updDie d f).time = s.time := rfl
@[simp] theorem State.updDie_mem (s : State) (d : Nat) (f : Die → Die) : (s.updDie d f).mem = s.mem := rfl
@[simp] theorem State.updDie_lmeta (s : State) (d : Nat) (f : Die → Die) : (s.updDie d f).lmeta = s.lmeta := rfl
@[simp] theorem State.updDie_poison (s : State) (d : Nat) (f : Die → Die) : (s.updDie d f).poison = s.poison := rfl
@[simp] theorem State.updDie_lattr (s : State) (d : Nat) (f : Die → Die) : (s.updDie d f).lattr = s.lattr := rfl
@[simp] theorem State.updDie_late (s : State) (d : Nat) (f : Die → Die) : (s.updDie d f).late = s.late := rfl
@[simp] theorem State.updDie_ctxs (s : State) (d : Nat) (f : Die → Die) : (s.updDie d f).ctxs = s.ctxs := rfl
@[simp] theorem State.updDie_teams (s : State) (d : Nat) (f : Die → Die) : (s.updDie d f).teams = s.teams := rfl
@[simp] theorem State.updDie_cores (s : State) (d : Nat) (f : Die → Die) : (s.updDie d f).cores = s.cores := rfl
@[simp] theorem State.updDie_dies (s : State) (d : Nat) (f : Die → Die) : (s.updDie d f).dies = Map.upd {} s.dies d f := rfl
@[simp] theorem State.updDie_mds (s : State) (d : Nat) (f : Die → Die) : (s.updDie d f).mds = s.mds := rfl
@[simp] theorem State.updDie_retired (s : State) (d : Nat) (f : Die → Die) : (s.updDie d f).retired = s.retired := rfl
@[simp] theorem State.updDie_pkg (s : State) (d : Nat) (f : Die → Die) : (s.updDie d f).pkg = s.pkg := rfl
@[simp] theorem State.updDie_fports (s : State) (d : Nat) (f : Die → Die) : (s.updDie d f).fports = s.fports := rfl
@[simp] theorem State.updDie_pcieUp (s : State) (d : Nat) (f : Die → Die) : (s.updDie d f).pcieUp = s.pcieUp := rfl
@[simp] theorem State.updDie_cmds (s : State) (d : Nat) (f : Die → Die) : (s.updDie d f).cmds = s.cmds := rfl
@[simp] theorem State.updDie_sauQ (s : State) (d : Nat) (f : Die → Die) : (s.updDie d f).sauQ = s.sauQ := rfl
@[simp] theorem State.updDie_fabQ (s : State) (d : Nat) (f : Die → Die) : (s.updDie d f).fabQ = s.fabQ := rfl
@[simp] theorem State.updDie_swQ (s : State) (d : Nat) (f : Die → Die) : (s.updDie d f).swQ = s.swQ := rfl
@[simp] theorem State.updDie_sends (s : State) (d : Nat) (f : Die → Die) : (s.updDie d f).sends = s.sends := rfl
@[simp] theorem State.updDie_irqs (s : State) (d : Nat) (f : Die → Die) : (s.updDie d f).irqs = s.irqs := rfl
@[simp] theorem State.updDie_fabIn (s : State) (d : Nat) (f : Die → Die) : (s.updDie d f).fabIn = s.fabIn := rfl
@[simp] theorem State.updDie_fabOut (s : State) (d : Nat) (f : Die → Die) : (s.updDie d f).fabOut = s.fabOut := rfl
@[simp] theorem State.updDie_hostQ (s : State) (d : Nat) (f : Die → Die) : (s.updDie d f).hostQ = s.hostQ := rfl
@[simp] theorem State.updDie_hostRd (s : State) (d : Nat) (f : Die → Die) : (s.updDie d f).hostRd = s.hostRd := rfl
@[simp] theorem State.updDie_fresh (s : State) (d : Nat) (f : Die → Die) : (s.updDie d f).fresh = s.fresh := rfl
@[simp] theorem State.updDie_free (s : State) (d : Nat) (f : Die → Die) : (s.updDie d f).free = s.free := rfl
@[simp] theorem State.updDie_cur (s : State) (d : Nat) (f : Die → Die) : (s.updDie d f).cur = s.cur := rfl
@[simp] theorem State.updDie_agenda (s : State) (d : Nat) (f : Die → Die) : (s.updDie d f).agenda = s.agenda := rfl

/-! ## State.updTeam -/

@[simp] theorem State.updTeam_now (s : State) (k : Nat) (f : Team → Team) : (s.updTeam k f).now = s.now := rfl
@[simp] theorem State.updTeam_time (s : State) (k : Nat) (f : Team → Team) : (s.updTeam k f).time = s.time := rfl
@[simp] theorem State.updTeam_mem (s : State) (k : Nat) (f : Team → Team) : (s.updTeam k f).mem = s.mem := rfl
@[simp] theorem State.updTeam_lmeta (s : State) (k : Nat) (f : Team → Team) : (s.updTeam k f).lmeta = s.lmeta := rfl
@[simp] theorem State.updTeam_poison (s : State) (k : Nat) (f : Team → Team) : (s.updTeam k f).poison = s.poison := rfl
@[simp] theorem State.updTeam_lattr (s : State) (k : Nat) (f : Team → Team) : (s.updTeam k f).lattr = s.lattr := rfl
@[simp] theorem State.updTeam_late (s : State) (k : Nat) (f : Team → Team) : (s.updTeam k f).late = s.late := rfl
@[simp] theorem State.updTeam_ctxs (s : State) (k : Nat) (f : Team → Team) : (s.updTeam k f).ctxs = s.ctxs := rfl
@[simp] theorem State.updTeam_teams (s : State) (k : Nat) (f : Team → Team) : (s.updTeam k f).teams = Map.upd {} s.teams k f := rfl
@[simp] theorem State.updTeam_cores (s : State) (k : Nat) (f : Team → Team) : (s.updTeam k f).cores = s.cores := rfl
@[simp] theorem State.updTeam_dies (s : State) (k : Nat) (f : Team → Team) : (s.updTeam k f).dies = s.dies := rfl
@[simp] theorem State.updTeam_mds (s : State) (k : Nat) (f : Team → Team) : (s.updTeam k f).mds = s.mds := rfl
@[simp] theorem State.updTeam_retired (s : State) (k : Nat) (f : Team → Team) : (s.updTeam k f).retired = s.retired := rfl
@[simp] theorem State.updTeam_pkg (s : State) (k : Nat) (f : Team → Team) : (s.updTeam k f).pkg = s.pkg := rfl
@[simp] theorem State.updTeam_fports (s : State) (k : Nat) (f : Team → Team) : (s.updTeam k f).fports = s.fports := rfl
@[simp] theorem State.updTeam_pcieUp (s : State) (k : Nat) (f : Team → Team) : (s.updTeam k f).pcieUp = s.pcieUp := rfl
@[simp] theorem State.updTeam_cmds (s : State) (k : Nat) (f : Team → Team) : (s.updTeam k f).cmds = s.cmds := rfl
@[simp] theorem State.updTeam_sauQ (s : State) (k : Nat) (f : Team → Team) : (s.updTeam k f).sauQ = s.sauQ := rfl
@[simp] theorem State.updTeam_fabQ (s : State) (k : Nat) (f : Team → Team) : (s.updTeam k f).fabQ = s.fabQ := rfl
@[simp] theorem State.updTeam_swQ (s : State) (k : Nat) (f : Team → Team) : (s.updTeam k f).swQ = s.swQ := rfl
@[simp] theorem State.updTeam_sends (s : State) (k : Nat) (f : Team → Team) : (s.updTeam k f).sends = s.sends := rfl
@[simp] theorem State.updTeam_irqs (s : State) (k : Nat) (f : Team → Team) : (s.updTeam k f).irqs = s.irqs := rfl
@[simp] theorem State.updTeam_fabIn (s : State) (k : Nat) (f : Team → Team) : (s.updTeam k f).fabIn = s.fabIn := rfl
@[simp] theorem State.updTeam_fabOut (s : State) (k : Nat) (f : Team → Team) : (s.updTeam k f).fabOut = s.fabOut := rfl
@[simp] theorem State.updTeam_hostQ (s : State) (k : Nat) (f : Team → Team) : (s.updTeam k f).hostQ = s.hostQ := rfl
@[simp] theorem State.updTeam_hostRd (s : State) (k : Nat) (f : Team → Team) : (s.updTeam k f).hostRd = s.hostRd := rfl
@[simp] theorem State.updTeam_fresh (s : State) (k : Nat) (f : Team → Team) : (s.updTeam k f).fresh = s.fresh := rfl
@[simp] theorem State.updTeam_free (s : State) (k : Nat) (f : Team → Team) : (s.updTeam k f).free = s.free := rfl
@[simp] theorem State.updTeam_cur (s : State) (k : Nat) (f : Team → Team) : (s.updTeam k f).cur = s.cur := rfl
@[simp] theorem State.updTeam_agenda (s : State) (k : Nat) (f : Team → Team) : (s.updTeam k f).agenda = s.agenda := rfl

/-! ## State.updGroup -/

@[simp] theorem State.updGroup_now (s : State) (g : GRef) (f : Group → Group) : (s.updGroup g f).now = s.now := rfl
@[simp] theorem State.updGroup_time (s : State) (g : GRef) (f : Group → Group) : (s.updGroup g f).time = s.time := rfl
@[simp] theorem State.updGroup_mem (s : State) (g : GRef) (f : Group → Group) : (s.updGroup g f).mem = s.mem := rfl
@[simp] theorem State.updGroup_lmeta (s : State) (g : GRef) (f : Group → Group) : (s.updGroup g f).lmeta = s.lmeta := rfl
@[simp] theorem State.updGroup_poison (s : State) (g : GRef) (f : Group → Group) : (s.updGroup g f).poison = s.poison := rfl
@[simp] theorem State.updGroup_lattr (s : State) (g : GRef) (f : Group → Group) : (s.updGroup g f).lattr = s.lattr := rfl
@[simp] theorem State.updGroup_late (s : State) (g : GRef) (f : Group → Group) : (s.updGroup g f).late = s.late := rfl
@[simp] theorem State.updGroup_ctxs (s : State) (g : GRef) (f : Group → Group) : (s.updGroup g f).ctxs = s.ctxs := rfl
@[simp] theorem State.updGroup_cores (s : State) (g : GRef) (f : Group → Group) : (s.updGroup g f).cores = s.cores := rfl
@[simp] theorem State.updGroup_dies (s : State) (g : GRef) (f : Group → Group) : (s.updGroup g f).dies = s.dies := rfl
@[simp] theorem State.updGroup_mds (s : State) (g : GRef) (f : Group → Group) : (s.updGroup g f).mds = s.mds := rfl
@[simp] theorem State.updGroup_retired (s : State) (g : GRef) (f : Group → Group) : (s.updGroup g f).retired = s.retired := rfl
@[simp] theorem State.updGroup_pkg (s : State) (g : GRef) (f : Group → Group) : (s.updGroup g f).pkg = s.pkg := rfl
@[simp] theorem State.updGroup_fports (s : State) (g : GRef) (f : Group → Group) : (s.updGroup g f).fports = s.fports := rfl
@[simp] theorem State.updGroup_pcieUp (s : State) (g : GRef) (f : Group → Group) : (s.updGroup g f).pcieUp = s.pcieUp := rfl
@[simp] theorem State.updGroup_cmds (s : State) (g : GRef) (f : Group → Group) : (s.updGroup g f).cmds = s.cmds := rfl
@[simp] theorem State.updGroup_sauQ (s : State) (g : GRef) (f : Group → Group) : (s.updGroup g f).sauQ = s.sauQ := rfl
@[simp] theorem State.updGroup_fabQ (s : State) (g : GRef) (f : Group → Group) : (s.updGroup g f).fabQ = s.fabQ := rfl
@[simp] theorem State.updGroup_swQ (s : State) (g : GRef) (f : Group → Group) : (s.updGroup g f).swQ = s.swQ := rfl
@[simp] theorem State.updGroup_sends (s : State) (g : GRef) (f : Group → Group) : (s.updGroup g f).sends = s.sends := rfl
@[simp] theorem State.updGroup_irqs (s : State) (g : GRef) (f : Group → Group) : (s.updGroup g f).irqs = s.irqs := rfl
@[simp] theorem State.updGroup_fabIn (s : State) (g : GRef) (f : Group → Group) : (s.updGroup g f).fabIn = s.fabIn := rfl
@[simp] theorem State.updGroup_fabOut (s : State) (g : GRef) (f : Group → Group) : (s.updGroup g f).fabOut = s.fabOut := rfl
@[simp] theorem State.updGroup_hostQ (s : State) (g : GRef) (f : Group → Group) : (s.updGroup g f).hostQ = s.hostQ := rfl
@[simp] theorem State.updGroup_hostRd (s : State) (g : GRef) (f : Group → Group) : (s.updGroup g f).hostRd = s.hostRd := rfl
@[simp] theorem State.updGroup_fresh (s : State) (g : GRef) (f : Group → Group) : (s.updGroup g f).fresh = s.fresh := rfl
@[simp] theorem State.updGroup_free (s : State) (g : GRef) (f : Group → Group) : (s.updGroup g f).free = s.free := rfl
@[simp] theorem State.updGroup_cur (s : State) (g : GRef) (f : Group → Group) : (s.updGroup g f).cur = s.cur := rfl
@[simp] theorem State.updGroup_agenda (s : State) (g : GRef) (f : Group → Group) : (s.updGroup g f).agenda = s.agenda := rfl

/-! ## State.updGrid -/

@[simp] theorem State.updGrid_now (s : State) (c l : Nat) (f : Grid → Grid) : (s.updGrid c l f).now = s.now := rfl
@[simp] theorem State.updGrid_time (s : State) (c l : Nat) (f : Grid → Grid) : (s.updGrid c l f).time = s.time := rfl
@[simp] theorem State.updGrid_mem (s : State) (c l : Nat) (f : Grid → Grid) : (s.updGrid c l f).mem = s.mem := rfl
@[simp] theorem State.updGrid_lmeta (s : State) (c l : Nat) (f : Grid → Grid) : (s.updGrid c l f).lmeta = s.lmeta := rfl
@[simp] theorem State.updGrid_poison (s : State) (c l : Nat) (f : Grid → Grid) : (s.updGrid c l f).poison = s.poison := rfl
@[simp] theorem State.updGrid_lattr (s : State) (c l : Nat) (f : Grid → Grid) : (s.updGrid c l f).lattr = s.lattr := rfl
@[simp] theorem State.updGrid_late (s : State) (c l : Nat) (f : Grid → Grid) : (s.updGrid c l f).late = s.late := rfl
@[simp] theorem State.updGrid_teams (s : State) (c l : Nat) (f : Grid → Grid) : (s.updGrid c l f).teams = s.teams := rfl
@[simp] theorem State.updGrid_cores (s : State) (c l : Nat) (f : Grid → Grid) : (s.updGrid c l f).cores = s.cores := rfl
@[simp] theorem State.updGrid_dies (s : State) (c l : Nat) (f : Grid → Grid) : (s.updGrid c l f).dies = s.dies := rfl
@[simp] theorem State.updGrid_mds (s : State) (c l : Nat) (f : Grid → Grid) : (s.updGrid c l f).mds = s.mds := rfl
@[simp] theorem State.updGrid_retired (s : State) (c l : Nat) (f : Grid → Grid) : (s.updGrid c l f).retired = s.retired := rfl
@[simp] theorem State.updGrid_pkg (s : State) (c l : Nat) (f : Grid → Grid) : (s.updGrid c l f).pkg = s.pkg := rfl
@[simp] theorem State.updGrid_fports (s : State) (c l : Nat) (f : Grid → Grid) : (s.updGrid c l f).fports = s.fports := rfl
@[simp] theorem State.updGrid_pcieUp (s : State) (c l : Nat) (f : Grid → Grid) : (s.updGrid c l f).pcieUp = s.pcieUp := rfl
@[simp] theorem State.updGrid_cmds (s : State) (c l : Nat) (f : Grid → Grid) : (s.updGrid c l f).cmds = s.cmds := rfl
@[simp] theorem State.updGrid_sauQ (s : State) (c l : Nat) (f : Grid → Grid) : (s.updGrid c l f).sauQ = s.sauQ := rfl
@[simp] theorem State.updGrid_fabQ (s : State) (c l : Nat) (f : Grid → Grid) : (s.updGrid c l f).fabQ = s.fabQ := rfl
@[simp] theorem State.updGrid_swQ (s : State) (c l : Nat) (f : Grid → Grid) : (s.updGrid c l f).swQ = s.swQ := rfl
@[simp] theorem State.updGrid_sends (s : State) (c l : Nat) (f : Grid → Grid) : (s.updGrid c l f).sends = s.sends := rfl
@[simp] theorem State.updGrid_irqs (s : State) (c l : Nat) (f : Grid → Grid) : (s.updGrid c l f).irqs = s.irqs := rfl
@[simp] theorem State.updGrid_fabIn (s : State) (c l : Nat) (f : Grid → Grid) : (s.updGrid c l f).fabIn = s.fabIn := rfl
@[simp] theorem State.updGrid_fabOut (s : State) (c l : Nat) (f : Grid → Grid) : (s.updGrid c l f).fabOut = s.fabOut := rfl
@[simp] theorem State.updGrid_hostQ (s : State) (c l : Nat) (f : Grid → Grid) : (s.updGrid c l f).hostQ = s.hostQ := rfl
@[simp] theorem State.updGrid_hostRd (s : State) (c l : Nat) (f : Grid → Grid) : (s.updGrid c l f).hostRd = s.hostRd := rfl
@[simp] theorem State.updGrid_fresh (s : State) (c l : Nat) (f : Grid → Grid) : (s.updGrid c l f).fresh = s.fresh := rfl
@[simp] theorem State.updGrid_free (s : State) (c l : Nat) (f : Grid → Grid) : (s.updGrid c l f).free = s.free := rfl
@[simp] theorem State.updGrid_cur (s : State) (c l : Nat) (f : Grid → Grid) : (s.updGrid c l f).cur = s.cur := rfl
@[simp] theorem State.updGrid_agenda (s : State) (c l : Nat) (f : Grid → Grid) : (s.updGrid c l f).agenda = s.agenda := rfl

/-! ## State.setMem -/

@[simp] theorem State.setMem_now (s : State) (pa : Nat) (bs : List Byte) : (s.setMem pa bs).now = s.now := rfl
@[simp] theorem State.setMem_time (s : State) (pa : Nat) (bs : List Byte) : (s.setMem pa bs).time = s.time := rfl
@[simp] theorem State.setMem_mem (s : State) (pa : Nat) (bs : List Byte) : (s.setMem pa bs).mem = Map.setN Memory.zero s.mem pa bs := rfl
@[simp] theorem State.setMem_lmeta (s : State) (pa : Nat) (bs : List Byte) : (s.setMem pa bs).lmeta = s.lmeta := rfl
@[simp] theorem State.setMem_poison (s : State) (pa : Nat) (bs : List Byte) : (s.setMem pa bs).poison = s.poison := rfl
@[simp] theorem State.setMem_lattr (s : State) (pa : Nat) (bs : List Byte) : (s.setMem pa bs).lattr = s.lattr := rfl
@[simp] theorem State.setMem_late (s : State) (pa : Nat) (bs : List Byte) : (s.setMem pa bs).late = s.late := rfl
@[simp] theorem State.setMem_ctxs (s : State) (pa : Nat) (bs : List Byte) : (s.setMem pa bs).ctxs = s.ctxs := rfl
@[simp] theorem State.setMem_teams (s : State) (pa : Nat) (bs : List Byte) : (s.setMem pa bs).teams = s.teams := rfl
@[simp] theorem State.setMem_cores (s : State) (pa : Nat) (bs : List Byte) : (s.setMem pa bs).cores = s.cores := rfl
@[simp] theorem State.setMem_dies (s : State) (pa : Nat) (bs : List Byte) : (s.setMem pa bs).dies = s.dies := rfl
@[simp] theorem State.setMem_mds (s : State) (pa : Nat) (bs : List Byte) : (s.setMem pa bs).mds = s.mds := rfl
@[simp] theorem State.setMem_retired (s : State) (pa : Nat) (bs : List Byte) : (s.setMem pa bs).retired = s.retired := rfl
@[simp] theorem State.setMem_pkg (s : State) (pa : Nat) (bs : List Byte) : (s.setMem pa bs).pkg = s.pkg := rfl
@[simp] theorem State.setMem_fports (s : State) (pa : Nat) (bs : List Byte) : (s.setMem pa bs).fports = s.fports := rfl
@[simp] theorem State.setMem_pcieUp (s : State) (pa : Nat) (bs : List Byte) : (s.setMem pa bs).pcieUp = s.pcieUp := rfl
@[simp] theorem State.setMem_cmds (s : State) (pa : Nat) (bs : List Byte) : (s.setMem pa bs).cmds = s.cmds := rfl
@[simp] theorem State.setMem_sauQ (s : State) (pa : Nat) (bs : List Byte) : (s.setMem pa bs).sauQ = s.sauQ := rfl
@[simp] theorem State.setMem_fabQ (s : State) (pa : Nat) (bs : List Byte) : (s.setMem pa bs).fabQ = s.fabQ := rfl
@[simp] theorem State.setMem_swQ (s : State) (pa : Nat) (bs : List Byte) : (s.setMem pa bs).swQ = s.swQ := rfl
@[simp] theorem State.setMem_sends (s : State) (pa : Nat) (bs : List Byte) : (s.setMem pa bs).sends = s.sends := rfl
@[simp] theorem State.setMem_irqs (s : State) (pa : Nat) (bs : List Byte) : (s.setMem pa bs).irqs = s.irqs := rfl
@[simp] theorem State.setMem_fabIn (s : State) (pa : Nat) (bs : List Byte) : (s.setMem pa bs).fabIn = s.fabIn := rfl
@[simp] theorem State.setMem_fabOut (s : State) (pa : Nat) (bs : List Byte) : (s.setMem pa bs).fabOut = s.fabOut := rfl
@[simp] theorem State.setMem_hostQ (s : State) (pa : Nat) (bs : List Byte) : (s.setMem pa bs).hostQ = s.hostQ := rfl
@[simp] theorem State.setMem_hostRd (s : State) (pa : Nat) (bs : List Byte) : (s.setMem pa bs).hostRd = s.hostRd := rfl
@[simp] theorem State.setMem_fresh (s : State) (pa : Nat) (bs : List Byte) : (s.setMem pa bs).fresh = s.fresh := rfl
@[simp] theorem State.setMem_free (s : State) (pa : Nat) (bs : List Byte) : (s.setMem pa bs).free = s.free := rfl
@[simp] theorem State.setMem_cur (s : State) (pa : Nat) (bs : List Byte) : (s.setMem pa bs).cur = s.cur := rfl
@[simp] theorem State.setMem_agenda (s : State) (pa : Nat) (bs : List Byte) : (s.setMem pa bs).agenda = s.agenda := rfl

/-! ## State.setMeta -/

@[simp] theorem State.setMeta_now (s : State) (l c : Nat) : (s.setMeta l c).now = s.now := rfl
@[simp] theorem State.setMeta_time (s : State) (l c : Nat) : (s.setMeta l c).time = s.time := rfl
@[simp] theorem State.setMeta_mem (s : State) (l c : Nat) : (s.setMeta l c).mem = s.mem := rfl
@[simp] theorem State.setMeta_lmeta (s : State) (l c : Nat) : (s.setMeta l c).lmeta = Map.set (0 : BitVec 4) s.lmeta l (BitVec.ofNat 4 c) := rfl
@[simp] theorem State.setMeta_poison (s : State) (l c : Nat) : (s.setMeta l c).poison = s.poison := rfl
@[simp] theorem State.setMeta_lattr (s : State) (l c : Nat) : (s.setMeta l c).lattr = s.lattr := rfl
@[simp] theorem State.setMeta_late (s : State) (l c : Nat) : (s.setMeta l c).late = s.late := rfl
@[simp] theorem State.setMeta_ctxs (s : State) (l c : Nat) : (s.setMeta l c).ctxs = s.ctxs := rfl
@[simp] theorem State.setMeta_teams (s : State) (l c : Nat) : (s.setMeta l c).teams = s.teams := rfl
@[simp] theorem State.setMeta_cores (s : State) (l c : Nat) : (s.setMeta l c).cores = s.cores := rfl
@[simp] theorem State.setMeta_dies (s : State) (l c : Nat) : (s.setMeta l c).dies = s.dies := rfl
@[simp] theorem State.setMeta_mds (s : State) (l c : Nat) : (s.setMeta l c).mds = s.mds := rfl
@[simp] theorem State.setMeta_retired (s : State) (l c : Nat) : (s.setMeta l c).retired = s.retired := rfl
@[simp] theorem State.setMeta_pkg (s : State) (l c : Nat) : (s.setMeta l c).pkg = s.pkg := rfl
@[simp] theorem State.setMeta_fports (s : State) (l c : Nat) : (s.setMeta l c).fports = s.fports := rfl
@[simp] theorem State.setMeta_pcieUp (s : State) (l c : Nat) : (s.setMeta l c).pcieUp = s.pcieUp := rfl
@[simp] theorem State.setMeta_cmds (s : State) (l c : Nat) : (s.setMeta l c).cmds = s.cmds := rfl
@[simp] theorem State.setMeta_sauQ (s : State) (l c : Nat) : (s.setMeta l c).sauQ = s.sauQ := rfl
@[simp] theorem State.setMeta_fabQ (s : State) (l c : Nat) : (s.setMeta l c).fabQ = s.fabQ := rfl
@[simp] theorem State.setMeta_swQ (s : State) (l c : Nat) : (s.setMeta l c).swQ = s.swQ := rfl
@[simp] theorem State.setMeta_sends (s : State) (l c : Nat) : (s.setMeta l c).sends = s.sends := rfl
@[simp] theorem State.setMeta_irqs (s : State) (l c : Nat) : (s.setMeta l c).irqs = s.irqs := rfl
@[simp] theorem State.setMeta_fabIn (s : State) (l c : Nat) : (s.setMeta l c).fabIn = s.fabIn := rfl
@[simp] theorem State.setMeta_fabOut (s : State) (l c : Nat) : (s.setMeta l c).fabOut = s.fabOut := rfl
@[simp] theorem State.setMeta_hostQ (s : State) (l c : Nat) : (s.setMeta l c).hostQ = s.hostQ := rfl
@[simp] theorem State.setMeta_hostRd (s : State) (l c : Nat) : (s.setMeta l c).hostRd = s.hostRd := rfl
@[simp] theorem State.setMeta_fresh (s : State) (l c : Nat) : (s.setMeta l c).fresh = s.fresh := rfl
@[simp] theorem State.setMeta_free (s : State) (l c : Nat) : (s.setMeta l c).free = s.free := rfl
@[simp] theorem State.setMeta_cur (s : State) (l c : Nat) : (s.setMeta l c).cur = s.cur := rfl
@[simp] theorem State.setMeta_agenda (s : State) (l c : Nat) : (s.setMeta l c).agenda = s.agenda := rfl

/-! ## State.updCmd -/

@[simp] theorem State.updCmd_now (s : State) (id : Nat) (f : Cmd → Cmd) : (s.updCmd id f).now = s.now := rfl
@[simp] theorem State.updCmd_time (s : State) (id : Nat) (f : Cmd → Cmd) : (s.updCmd id f).time = s.time := rfl
@[simp] theorem State.updCmd_mem (s : State) (id : Nat) (f : Cmd → Cmd) : (s.updCmd id f).mem = s.mem := rfl
@[simp] theorem State.updCmd_lmeta (s : State) (id : Nat) (f : Cmd → Cmd) : (s.updCmd id f).lmeta = s.lmeta := rfl
@[simp] theorem State.updCmd_poison (s : State) (id : Nat) (f : Cmd → Cmd) : (s.updCmd id f).poison = s.poison := rfl
@[simp] theorem State.updCmd_lattr (s : State) (id : Nat) (f : Cmd → Cmd) : (s.updCmd id f).lattr = s.lattr := rfl
@[simp] theorem State.updCmd_late (s : State) (id : Nat) (f : Cmd → Cmd) : (s.updCmd id f).late = s.late := rfl
@[simp] theorem State.updCmd_ctxs (s : State) (id : Nat) (f : Cmd → Cmd) : (s.updCmd id f).ctxs = s.ctxs := rfl
@[simp] theorem State.updCmd_teams (s : State) (id : Nat) (f : Cmd → Cmd) : (s.updCmd id f).teams = s.teams := rfl
@[simp] theorem State.updCmd_cores (s : State) (id : Nat) (f : Cmd → Cmd) : (s.updCmd id f).cores = s.cores := rfl
@[simp] theorem State.updCmd_dies (s : State) (id : Nat) (f : Cmd → Cmd) : (s.updCmd id f).dies = s.dies := rfl
@[simp] theorem State.updCmd_mds (s : State) (id : Nat) (f : Cmd → Cmd) : (s.updCmd id f).mds = s.mds := rfl
@[simp] theorem State.updCmd_retired (s : State) (id : Nat) (f : Cmd → Cmd) : (s.updCmd id f).retired = s.retired := rfl
@[simp] theorem State.updCmd_pkg (s : State) (id : Nat) (f : Cmd → Cmd) : (s.updCmd id f).pkg = s.pkg := rfl
@[simp] theorem State.updCmd_fports (s : State) (id : Nat) (f : Cmd → Cmd) : (s.updCmd id f).fports = s.fports := rfl
@[simp] theorem State.updCmd_pcieUp (s : State) (id : Nat) (f : Cmd → Cmd) : (s.updCmd id f).pcieUp = s.pcieUp := rfl
@[simp] theorem State.updCmd_sauQ (s : State) (id : Nat) (f : Cmd → Cmd) : (s.updCmd id f).sauQ = s.sauQ := rfl
@[simp] theorem State.updCmd_fabQ (s : State) (id : Nat) (f : Cmd → Cmd) : (s.updCmd id f).fabQ = s.fabQ := rfl
@[simp] theorem State.updCmd_swQ (s : State) (id : Nat) (f : Cmd → Cmd) : (s.updCmd id f).swQ = s.swQ := rfl
@[simp] theorem State.updCmd_sends (s : State) (id : Nat) (f : Cmd → Cmd) : (s.updCmd id f).sends = s.sends := rfl
@[simp] theorem State.updCmd_irqs (s : State) (id : Nat) (f : Cmd → Cmd) : (s.updCmd id f).irqs = s.irqs := rfl
@[simp] theorem State.updCmd_fabIn (s : State) (id : Nat) (f : Cmd → Cmd) : (s.updCmd id f).fabIn = s.fabIn := rfl
@[simp] theorem State.updCmd_fabOut (s : State) (id : Nat) (f : Cmd → Cmd) : (s.updCmd id f).fabOut = s.fabOut := rfl
@[simp] theorem State.updCmd_hostQ (s : State) (id : Nat) (f : Cmd → Cmd) : (s.updCmd id f).hostQ = s.hostQ := rfl
@[simp] theorem State.updCmd_hostRd (s : State) (id : Nat) (f : Cmd → Cmd) : (s.updCmd id f).hostRd = s.hostRd := rfl
@[simp] theorem State.updCmd_fresh (s : State) (id : Nat) (f : Cmd → Cmd) : (s.updCmd id f).fresh = s.fresh := rfl
@[simp] theorem State.updCmd_free (s : State) (id : Nat) (f : Cmd → Cmd) : (s.updCmd id f).free = s.free := rfl
@[simp] theorem State.updCmd_cur (s : State) (id : Nat) (f : Cmd → Cmd) : (s.updCmd id f).cur = s.cur := rfl
@[simp] theorem State.updCmd_agenda (s : State) (id : Nat) (f : Cmd → Cmd) : (s.updCmd id f).agenda = s.agenda := rfl

/-! ## State.report -/

@[simp] theorem State.report_now (s : State) (c : Nat) (x : FqItem) : (s.report c x).now = s.now := rfl
@[simp] theorem State.report_time (s : State) (c : Nat) (x : FqItem) : (s.report c x).time = s.time := rfl
@[simp] theorem State.report_mem (s : State) (c : Nat) (x : FqItem) : (s.report c x).mem = s.mem := rfl
@[simp] theorem State.report_lmeta (s : State) (c : Nat) (x : FqItem) : (s.report c x).lmeta = s.lmeta := rfl
@[simp] theorem State.report_poison (s : State) (c : Nat) (x : FqItem) : (s.report c x).poison = s.poison := rfl
@[simp] theorem State.report_lattr (s : State) (c : Nat) (x : FqItem) : (s.report c x).lattr = s.lattr := rfl
@[simp] theorem State.report_late (s : State) (c : Nat) (x : FqItem) : (s.report c x).late = s.late := rfl
@[simp] theorem State.report_teams (s : State) (c : Nat) (x : FqItem) : (s.report c x).teams = s.teams := rfl
@[simp] theorem State.report_cores (s : State) (c : Nat) (x : FqItem) : (s.report c x).cores = s.cores := rfl
@[simp] theorem State.report_dies (s : State) (c : Nat) (x : FqItem) : (s.report c x).dies = s.dies := rfl
@[simp] theorem State.report_mds (s : State) (c : Nat) (x : FqItem) : (s.report c x).mds = s.mds := rfl
@[simp] theorem State.report_retired (s : State) (c : Nat) (x : FqItem) : (s.report c x).retired = s.retired := rfl
@[simp] theorem State.report_pkg (s : State) (c : Nat) (x : FqItem) : (s.report c x).pkg = s.pkg := rfl
@[simp] theorem State.report_fports (s : State) (c : Nat) (x : FqItem) : (s.report c x).fports = s.fports := rfl
@[simp] theorem State.report_pcieUp (s : State) (c : Nat) (x : FqItem) : (s.report c x).pcieUp = s.pcieUp := rfl
@[simp] theorem State.report_cmds (s : State) (c : Nat) (x : FqItem) : (s.report c x).cmds = s.cmds := rfl
@[simp] theorem State.report_sauQ (s : State) (c : Nat) (x : FqItem) : (s.report c x).sauQ = s.sauQ := rfl
@[simp] theorem State.report_fabQ (s : State) (c : Nat) (x : FqItem) : (s.report c x).fabQ = s.fabQ := rfl
@[simp] theorem State.report_swQ (s : State) (c : Nat) (x : FqItem) : (s.report c x).swQ = s.swQ := rfl
@[simp] theorem State.report_sends (s : State) (c : Nat) (x : FqItem) : (s.report c x).sends = s.sends := rfl
@[simp] theorem State.report_irqs (s : State) (c : Nat) (x : FqItem) : (s.report c x).irqs = s.irqs := rfl
@[simp] theorem State.report_fabIn (s : State) (c : Nat) (x : FqItem) : (s.report c x).fabIn = s.fabIn := rfl
@[simp] theorem State.report_fabOut (s : State) (c : Nat) (x : FqItem) : (s.report c x).fabOut = s.fabOut := rfl
@[simp] theorem State.report_hostQ (s : State) (c : Nat) (x : FqItem) : (s.report c x).hostQ = s.hostQ := rfl
@[simp] theorem State.report_hostRd (s : State) (c : Nat) (x : FqItem) : (s.report c x).hostRd = s.hostRd := rfl
@[simp] theorem State.report_fresh (s : State) (c : Nat) (x : FqItem) : (s.report c x).fresh = s.fresh := rfl
@[simp] theorem State.report_free (s : State) (c : Nat) (x : FqItem) : (s.report c x).free = s.free := rfl
@[simp] theorem State.report_cur (s : State) (c : Nat) (x : FqItem) : (s.report c x).cur = s.cur := rfl
@[simp] theorem State.report_agenda (s : State) (c : Nat) (x : FqItem) : (s.report c x).agenda = s.agenda := rfl

/-! ## State.exitLanes -/

@[simp] theorem State.exitLanes_now (s : State) (g : GRef) (ls : List Nat) : (s.exitLanes g ls).now = s.now := rfl
@[simp] theorem State.exitLanes_time (s : State) (g : GRef) (ls : List Nat) : (s.exitLanes g ls).time = s.time := rfl
@[simp] theorem State.exitLanes_mem (s : State) (g : GRef) (ls : List Nat) : (s.exitLanes g ls).mem = s.mem := rfl
@[simp] theorem State.exitLanes_lmeta (s : State) (g : GRef) (ls : List Nat) : (s.exitLanes g ls).lmeta = s.lmeta := rfl
@[simp] theorem State.exitLanes_poison (s : State) (g : GRef) (ls : List Nat) : (s.exitLanes g ls).poison = s.poison := rfl
@[simp] theorem State.exitLanes_lattr (s : State) (g : GRef) (ls : List Nat) : (s.exitLanes g ls).lattr = s.lattr := rfl
@[simp] theorem State.exitLanes_late (s : State) (g : GRef) (ls : List Nat) : (s.exitLanes g ls).late = s.late := rfl
@[simp] theorem State.exitLanes_ctxs (s : State) (g : GRef) (ls : List Nat) : (s.exitLanes g ls).ctxs = s.ctxs := rfl
@[simp] theorem State.exitLanes_cores (s : State) (g : GRef) (ls : List Nat) : (s.exitLanes g ls).cores = s.cores := rfl
@[simp] theorem State.exitLanes_dies (s : State) (g : GRef) (ls : List Nat) : (s.exitLanes g ls).dies = s.dies := rfl
@[simp] theorem State.exitLanes_mds (s : State) (g : GRef) (ls : List Nat) : (s.exitLanes g ls).mds = s.mds := rfl
@[simp] theorem State.exitLanes_retired (s : State) (g : GRef) (ls : List Nat) : (s.exitLanes g ls).retired = s.retired := rfl
@[simp] theorem State.exitLanes_pkg (s : State) (g : GRef) (ls : List Nat) : (s.exitLanes g ls).pkg = s.pkg := rfl
@[simp] theorem State.exitLanes_fports (s : State) (g : GRef) (ls : List Nat) : (s.exitLanes g ls).fports = s.fports := rfl
@[simp] theorem State.exitLanes_pcieUp (s : State) (g : GRef) (ls : List Nat) : (s.exitLanes g ls).pcieUp = s.pcieUp := rfl
@[simp] theorem State.exitLanes_cmds (s : State) (g : GRef) (ls : List Nat) : (s.exitLanes g ls).cmds = s.cmds := rfl
@[simp] theorem State.exitLanes_sauQ (s : State) (g : GRef) (ls : List Nat) : (s.exitLanes g ls).sauQ = s.sauQ := rfl
@[simp] theorem State.exitLanes_fabQ (s : State) (g : GRef) (ls : List Nat) : (s.exitLanes g ls).fabQ = s.fabQ := rfl
@[simp] theorem State.exitLanes_swQ (s : State) (g : GRef) (ls : List Nat) : (s.exitLanes g ls).swQ = s.swQ := rfl
@[simp] theorem State.exitLanes_sends (s : State) (g : GRef) (ls : List Nat) : (s.exitLanes g ls).sends = s.sends := rfl
@[simp] theorem State.exitLanes_irqs (s : State) (g : GRef) (ls : List Nat) : (s.exitLanes g ls).irqs = s.irqs := rfl
@[simp] theorem State.exitLanes_fabIn (s : State) (g : GRef) (ls : List Nat) : (s.exitLanes g ls).fabIn = s.fabIn := rfl
@[simp] theorem State.exitLanes_fabOut (s : State) (g : GRef) (ls : List Nat) : (s.exitLanes g ls).fabOut = s.fabOut := rfl
@[simp] theorem State.exitLanes_hostQ (s : State) (g : GRef) (ls : List Nat) : (s.exitLanes g ls).hostQ = s.hostQ := rfl
@[simp] theorem State.exitLanes_hostRd (s : State) (g : GRef) (ls : List Nat) : (s.exitLanes g ls).hostRd = s.hostRd := rfl
@[simp] theorem State.exitLanes_fresh (s : State) (g : GRef) (ls : List Nat) : (s.exitLanes g ls).fresh = s.fresh := rfl
@[simp] theorem State.exitLanes_free (s : State) (g : GRef) (ls : List Nat) : (s.exitLanes g ls).free = s.free := rfl
@[simp] theorem State.exitLanes_cur (s : State) (g : GRef) (ls : List Nat) : (s.exitLanes g ls).cur = s.cur := rfl
@[simp] theorem State.exitLanes_agenda (s : State) (g : GRef) (ls : List Nat) : (s.exitLanes g ls).agenda = s.agenda := rfl

/-! ## Records after updates -/

@[simp] theorem State.ctx_updCtx_self (s : State) (c : Nat) (f : Ctx → Ctx) : (s.updCtx c f).ctx c = f (s.ctx c) :=
  Map.get_upd_self ..
theorem State.ctx_updCtx_of_ne (s : State) {c q : Nat} (f : Ctx → Ctx) (h : q ≠ c) : (s.updCtx c f).ctx q = s.ctx q :=
  Map.get_upd_of_ne _ _ _ h
@[simp] theorem State.core_updCore_self (s : State) (c : Nat) (f : Core → Core) : (s.updCore c f).core c = f (s.core c) :=
  Map.get_upd_self ..
theorem State.core_updCore_of_ne (s : State) {c q : Nat} (f : Core → Core) (h : q ≠ c) :
    (s.updCore c f).core q = s.core q := Map.get_upd_of_ne _ _ _ h
@[simp] theorem State.die_updDie_self (s : State) (d : Nat) (f : Die → Die) : (s.updDie d f).die d = f (s.die d) :=
  Map.get_upd_self ..
theorem State.die_updDie_of_ne (s : State) {d q : Nat} (f : Die → Die) (h : q ≠ d) : (s.updDie d f).die q = s.die q :=
  Map.get_upd_of_ne _ _ _ h
@[simp] theorem State.team_updTeam_self (s : State) (k : Nat) (f : Team → Team) : (s.updTeam k f).team k = f (s.team k) :=
  Map.get_upd_self ..
theorem State.team_updTeam_of_ne (s : State) {k q : Nat} (f : Team → Team) (h : q ≠ k) :
    (s.updTeam k f).team q = s.team q := Map.get_upd_of_ne _ _ _ h

@[simp] theorem State.team_updGroup_self (s : State) (g : GRef) (f : Group → Group) :
    (s.updGroup g f).team g.team = { s.team g.team with groups := Map.upd {} (s.team g.team).groups g.gid f } :=
  State.team_updTeam_self ..
theorem State.team_updGroup_of_ne (s : State) (g : GRef) (f : Group → Group) {q : Nat} (h : q ≠ g.team) :
    (s.updGroup g f).team q = s.team q := State.team_updTeam_of_ne _ _ h
@[simp] theorem State.group_updGroup_self (s : State) (g : GRef) (f : Group → Group) :
    (s.updGroup g f).group g = f (s.group g) := by
  simp [State.group]

/-- An update of one group leaves every other group as it was. -/
theorem State.group_updGroup_of_ne (s : State) {g q : GRef} (f : Group → Group) (h : q ≠ g) :
    (s.updGroup g f).group q = s.group q := by
  obtain ⟨gt, gg⟩ := g
  obtain ⟨qt, qg⟩ := q
  by_cases ht : qt = gt
  · subst ht
    have hg : qg ≠ gg := fun e => h (by rw [e])
    simp only [State.group]
    rw [State.team_updGroup_self s ⟨qt, gg⟩ f]
    exact Map.get_upd_of_ne _ _ _ hg
  · simp only [State.group]
    rw [State.team_updGroup_of_ne s ⟨gt, gg⟩ f ht]

@[simp] theorem State.grid_updGrid_self (s : State) (c l : Nat) (f : Grid → Grid) :
    (s.updGrid c l f).grid c l = f (s.grid c l) := by
  simp [State.grid, State.updGrid]

/-! An update of one kind of record leaves those of the other kinds. -/

@[simp] theorem State.ctx_updCore (s : State) (c : Nat) (f : Core → Core) (q : Nat) : (s.updCore c f).ctx q = s.ctx q := rfl
@[simp] theorem State.ctx_updDie (s : State) (d : Nat) (f : Die → Die) (q : Nat) : (s.updDie d f).ctx q = s.ctx q := rfl
@[simp] theorem State.ctx_updTeam (s : State) (k : Nat) (f : Team → Team) (q : Nat) : (s.updTeam k f).ctx q = s.ctx q := rfl
@[simp] theorem State.ctx_updGroup (s : State) (g : GRef) (f : Group → Group) (q : Nat) : (s.updGroup g f).ctx q = s.ctx q := rfl
@[simp] theorem State.ctx_setMem (s : State) (pa : Nat) (bs : List Byte) (q : Nat) : (s.setMem pa bs).ctx q = s.ctx q := rfl
@[simp] theorem State.ctx_setMeta (s : State) (l c : Nat) (q : Nat) : (s.setMeta l c).ctx q = s.ctx q := rfl
@[simp] theorem State.ctx_updCmd (s : State) (id : Nat) (f : Cmd → Cmd) (q : Nat) : (s.updCmd id f).ctx q = s.ctx q := rfl
@[simp] theorem State.ctx_exitLanes (s : State) (g : GRef) (ls : List Nat) (q : Nat) : (s.exitLanes g ls).ctx q = s.ctx q := rfl

@[simp] theorem State.core_updCtx (s : State) (c : Nat) (f : Ctx → Ctx) (q : Nat) : (s.updCtx c f).core q = s.core q := rfl
@[simp] theorem State.core_updDie (s : State) (d : Nat) (f : Die → Die) (q : Nat) : (s.updDie d f).core q = s.core q := rfl
@[simp] theorem State.core_updTeam (s : State) (k : Nat) (f : Team → Team) (q : Nat) : (s.updTeam k f).core q = s.core q := rfl
@[simp] theorem State.core_updGroup (s : State) (g : GRef) (f : Group → Group) (q : Nat) : (s.updGroup g f).core q = s.core q := rfl
@[simp] theorem State.core_updGrid (s : State) (c l : Nat) (f : Grid → Grid) (q : Nat) : (s.updGrid c l f).core q = s.core q := rfl
@[simp] theorem State.core_setMem (s : State) (pa : Nat) (bs : List Byte) (q : Nat) : (s.setMem pa bs).core q = s.core q := rfl
@[simp] theorem State.core_setMeta (s : State) (l c : Nat) (q : Nat) : (s.setMeta l c).core q = s.core q := rfl
@[simp] theorem State.core_updCmd (s : State) (id : Nat) (f : Cmd → Cmd) (q : Nat) : (s.updCmd id f).core q = s.core q := rfl
@[simp] theorem State.core_report (s : State) (c : Nat) (x : FqItem) (q : Nat) : (s.report c x).core q = s.core q := rfl
@[simp] theorem State.core_exitLanes (s : State) (g : GRef) (ls : List Nat) (q : Nat) : (s.exitLanes g ls).core q = s.core q := rfl

@[simp] theorem State.die_updCtx (s : State) (c : Nat) (f : Ctx → Ctx) (q : Nat) : (s.updCtx c f).die q = s.die q := rfl
@[simp] theorem State.die_updCore (s : State) (c : Nat) (f : Core → Core) (q : Nat) : (s.updCore c f).die q = s.die q := rfl
@[simp] theorem State.die_updTeam (s : State) (k : Nat) (f : Team → Team) (q : Nat) : (s.updTeam k f).die q = s.die q := rfl
@[simp] theorem State.die_updGroup (s : State) (g : GRef) (f : Group → Group) (q : Nat) : (s.updGroup g f).die q = s.die q := rfl
@[simp] theorem State.die_updGrid (s : State) (c l : Nat) (f : Grid → Grid) (q : Nat) : (s.updGrid c l f).die q = s.die q := rfl
@[simp] theorem State.die_setMem (s : State) (pa : Nat) (bs : List Byte) (q : Nat) : (s.setMem pa bs).die q = s.die q := rfl
@[simp] theorem State.die_setMeta (s : State) (l c : Nat) (q : Nat) : (s.setMeta l c).die q = s.die q := rfl
@[simp] theorem State.die_updCmd (s : State) (id : Nat) (f : Cmd → Cmd) (q : Nat) : (s.updCmd id f).die q = s.die q := rfl
@[simp] theorem State.die_report (s : State) (c : Nat) (x : FqItem) (q : Nat) : (s.report c x).die q = s.die q := rfl
@[simp] theorem State.die_exitLanes (s : State) (g : GRef) (ls : List Nat) (q : Nat) : (s.exitLanes g ls).die q = s.die q := rfl

@[simp] theorem State.team_updCtx (s : State) (c : Nat) (f : Ctx → Ctx) (q : Nat) : (s.updCtx c f).team q = s.team q := rfl
@[simp] theorem State.team_updCore (s : State) (c : Nat) (f : Core → Core) (q : Nat) : (s.updCore c f).team q = s.team q := rfl
@[simp] theorem State.team_updDie (s : State) (d : Nat) (f : Die → Die) (q : Nat) : (s.updDie d f).team q = s.team q := rfl
@[simp] theorem State.team_updGrid (s : State) (c l : Nat) (f : Grid → Grid) (q : Nat) : (s.updGrid c l f).team q = s.team q := rfl
@[simp] theorem State.team_setMem (s : State) (pa : Nat) (bs : List Byte) (q : Nat) : (s.setMem pa bs).team q = s.team q := rfl
@[simp] theorem State.team_setMeta (s : State) (l c : Nat) (q : Nat) : (s.setMeta l c).team q = s.team q := rfl
@[simp] theorem State.team_updCmd (s : State) (id : Nat) (f : Cmd → Cmd) (q : Nat) : (s.updCmd id f).team q = s.team q := rfl
@[simp] theorem State.team_report (s : State) (c : Nat) (x : FqItem) (q : Nat) : (s.report c x).team q = s.team q := rfl

@[simp] theorem State.group_updCtx (s : State) (c : Nat) (f : Ctx → Ctx) (q : GRef) : (s.updCtx c f).group q = s.group q := rfl
@[simp] theorem State.group_updCore (s : State) (c : Nat) (f : Core → Core) (q : GRef) : (s.updCore c f).group q = s.group q := rfl
@[simp] theorem State.group_updDie (s : State) (d : Nat) (f : Die → Die) (q : GRef) : (s.updDie d f).group q = s.group q := rfl
@[simp] theorem State.group_updGrid (s : State) (c l : Nat) (f : Grid → Grid) (q : GRef) : (s.updGrid c l f).group q = s.group q := rfl
@[simp] theorem State.group_setMem (s : State) (pa : Nat) (bs : List Byte) (q : GRef) : (s.setMem pa bs).group q = s.group q := rfl
@[simp] theorem State.group_setMeta (s : State) (l c : Nat) (q : GRef) : (s.setMeta l c).group q = s.group q := rfl
@[simp] theorem State.group_updCmd (s : State) (id : Nat) (f : Cmd → Cmd) (q : GRef) : (s.updCmd id f).group q = s.group q := rfl
@[simp] theorem State.group_report (s : State) (c : Nat) (x : FqItem) (q : GRef) : (s.report c x).group q = s.group q := rfl

/-- A byte of memory outside the bytes written. -/
theorem memByte_setMem_outside (s : State) (pa : Nat) (bs : List Byte) (a : Nat) (h : a < pa ∨ pa + bs.length ≤ a) :
    memByte (s.setMem pa bs) a = memByte s a := Map.get_setN_outside _ _ _ h
theorem memBytes_setMem_self (s : State) (pa : Nat) (bs : List Byte) : memBytes (s.setMem pa bs) pa bs.length = bs :=
  Map.getN_setN_self ..

@[simp] theorem memByte_updCtx (s : State) (c : Nat) (f : Ctx → Ctx) (a : Nat) : memByte (s.updCtx c f) a = memByte s a := rfl
@[simp] theorem memByte_updCore (s : State) (c : Nat) (f : Core → Core) (a : Nat) : memByte (s.updCore c f) a = memByte s a := rfl
@[simp] theorem memByte_updDie (s : State) (d : Nat) (f : Die → Die) (a : Nat) : memByte (s.updDie d f) a = memByte s a := rfl
@[simp] theorem memByte_updTeam (s : State) (k : Nat) (f : Team → Team) (a : Nat) : memByte (s.updTeam k f) a = memByte s a := rfl
@[simp] theorem memByte_updGroup (s : State) (g : GRef) (f : Group → Group) (a : Nat) : memByte (s.updGroup g f) a = memByte s a := rfl
@[simp] theorem memByte_updGrid (s : State) (c l : Nat) (f : Grid → Grid) (a : Nat) : memByte (s.updGrid c l f) a = memByte s a := rfl
@[simp] theorem memByte_setMeta (s : State) (l c : Nat) (a : Nat) : memByte (s.setMeta l c) a = memByte s a := rfl
@[simp] theorem memByte_updCmd (s : State) (id : Nat) (f : Cmd → Cmd) (a : Nat) : memByte (s.updCmd id f) a = memByte s a := rfl
@[simp] theorem memByte_report (s : State) (c : Nat) (x : FqItem) (a : Nat) : memByte (s.report c x) a = memByte s a := rfl
@[simp] theorem memByte_exitLanes (s : State) (g : GRef) (ls : List Nat) (a : Nat) : memByte (s.exitLanes g ls) a = memByte s a := rfl

/-! ## Lanes of a group -/

theorem Map.find_mapLanes (m : Map Thread) (ls : List Nat) (f : Nat → Thread → Thread) (l : Nat) :
    Map.find (m.map (fun e => if e.1 ∈ ls then (e.1, f e.1 e.2) else e)) l =
      (Map.find m l).map (fun t => if l ∈ ls then f l t else t) := by
  induction m with
  | nil => rfl
  | cons e m ih =>
    obtain ⟨j, w⟩ := e
    rw [List.map_cons]
    by_cases hj : j ∈ ls
    · simp only [hj, if_true, Map.find_cons, ih]
      by_cases h : j = l
      · subst h; simp [hj]
      · simp [h]
    · simp only [hj, if_false, Map.find_cons, ih]
      by_cases h : j = l
      · subst h; simp [hj]
      · simp [h]

/-- What an operation on a list of lanes does to each lane that the group has. -/
theorem Group.lane_mapLanes (g : Group) (ls : List Nat) (f : Nat → Thread → Thread) (l : Nat)
    (h : (Map.find g.lanes l).isSome) : (g.mapLanes ls f).lane l = if l ∈ ls then f l (g.lane l) else g.lane l := by
  obtain ⟨t, ht⟩ := Option.isSome_iff_exists.1 h
  simp [Group.lane, Group.mapLanes, Map.get, Map.find_mapLanes, ht]

/-- The lanes that a group lists stay listed. -/
theorem Group.listed_mapLanes (g : Group) (ls : List Nat) (f : Nat → Thread → Thread) (l : Nat) :
    (Map.find (g.mapLanes ls f).lanes l).isSome = (Map.find g.lanes l).isSome := by
  simp [Group.mapLanes, Map.find_mapLanes]

theorem Group.lane_mapLanes_of_not_mem (g : Group) (ls : List Nat) (f : Nat → Thread → Thread) (l : Nat) (h : l ∉ ls) :
    (g.mapLanes ls f).lane l = g.lane l := by
  simp only [Group.lane, Group.mapLanes, Map.get, Map.find_mapLanes]
  cases Map.find g.lanes l <;> simp [h]

@[simp] theorem Group.lane_updLane_self (g : Group) (l : Nat) (f : Thread → Thread) : (g.updLane l f).lane l = f (g.lane l) :=
  Map.get_upd_self ..
theorem Group.lane_updLane_of_ne (g : Group) {l q : Nat} (f : Thread → Thread) (h : q ≠ l) :
    (g.updLane l f).lane q = g.lane q := Map.get_upd_of_ne _ _ _ h

@[simp] theorem Group.mapLanes_live (g : Group) (ls : List Nat) (f : Nat → Thread → Thread) : (g.mapLanes ls f).live = g.live := rfl
@[simp] theorem Group.mapLanes_seq (g : Group) (ls : List Nat) (f : Nat → Thread → Thread) : (g.mapLanes ls f).seq = g.seq := rfl
@[simp] theorem Group.mapLanes_sr (g : Group) (ls : List Nat) (f : Nat → Thread → Thread) : (g.mapLanes ls f).sr = g.sr := rfl
@[simp] theorem Group.mapLanes_spend (g : Group) (ls : List Nat) (f : Nat → Thread → Thread) : (g.mapLanes ls f).spend = g.spend := rfl
@[simp] theorem Group.mapLanes_busy (g : Group) (ls : List Nat) (f : Nat → Thread → Thread) : (g.mapLanes ls f).busy = g.busy := rfl
@[simp] theorem Group.mapLanes_loads (g : Group) (ls : List Nat) (f : Nat → Thread → Thread) : (g.mapLanes ls f).loads = g.loads := rfl
@[simp] theorem Group.mapLanes_toks (g : Group) (ls : List Nat) (f : Nat → Thread → Thread) : (g.mapLanes ls f).toks = g.toks := rfl
@[simp] theorem Group.mapLanes_ev (g : Group) (ls : List Nat) (f : Nat → Thread → Thread) : (g.mapLanes ls f).ev = g.ev := rfl
@[simp] theorem Group.mapLanes_evPend (g : Group) (ls : List Nat) (f : Nat → Thread → Thread) : (g.mapLanes ls f).evPend = g.evPend := rfl
@[simp] theorem Group.mapLanes_evMask (g : Group) (ls : List Nat) (f : Nat → Thread → Thread) : (g.mapLanes ls f).evMask = g.evMask := rfl
@[simp] theorem Group.mapLanes_cCopy (g : Group) (ls : List Nat) (f : Nat → Thread → Thread) : (g.mapLanes ls f).cCopy = g.cCopy := rfl
@[simp] theorem Group.mapLanes_cMatrix (g : Group) (ls : List Nat) (f : Nat → Thread → Thread) : (g.mapLanes ls f).cMatrix = g.cMatrix := rfl
@[simp] theorem Group.mapLanes_cGather (g : Group) (ls : List Nat) (f : Nat → Thread → Thread) : (g.mapLanes ls f).cGather = g.cGather := rfl
@[simp] theorem Group.mapLanes_cColl (g : Group) (ls : List Nat) (f : Nat → Thread → Thread) : (g.mapLanes ls f).cColl = g.cColl := rfl
@[simp] theorem Group.mapLanes_split (g : Group) (ls : List Nat) (f : Nat → Thread → Thread) : (g.mapLanes ls f).split = g.split := rfl
@[simp] theorem Group.mapLanes_yieldMask (g : Group) (ls : List Nat) (f : Nat → Thread → Thread) : (g.mapLanes ls f).yieldMask = g.yieldMask := rfl
@[simp] theorem Group.mapLanes_replay (g : Group) (ls : List Nat) (f : Nat → Thread → Thread) : (g.mapLanes ls f).replay = g.replay := rfl
@[simp] theorem Group.mapLanes_unchecked (g : Group) (ls : List Nat) (f : Nat → Thread → Thread) : (g.mapLanes ls f).unchecked = g.unchecked := rfl
@[simp] theorem Group.mapLanes_fpctl (g : Group) (ls : List Nat) (f : Nat → Thread → Thread) : (g.mapLanes ls f).fpctl = g.fpctl := rfl
@[simp] theorem Group.mapLanes_fpflags (g : Group) (ls : List Nat) (f : Nat → Thread → Thread) : (g.mapLanes ls f).fpflags = g.fpflags := rfl
@[simp] theorem Group.mapLanes_srseed (g : Group) (ls : List Nat) (f : Nat → Thread → Thread) : (g.mapLanes ls f).srseed = g.srseed := rfl
@[simp] theorem Group.mapLanes_fp4x (g : Group) (ls : List Nat) (f : Nat → Thread → Thread) : (g.mapLanes ls f).fp4x = g.fp4x := rfl
@[simp] theorem Group.mapLanes_chkctl (g : Group) (ls : List Nat) (f : Nat → Thread → Thread) : (g.mapLanes ls f).chkctl = g.chkctl := rfl
@[simp] theorem Group.mapLanes_trapctl (g : Group) (ls : List Nat) (f : Nat → Thread → Thread) : (g.mapLanes ls f).trapctl = g.trapctl := rfl
@[simp] theorem Group.mapLanes_binage (g : Group) (ls : List Nat) (f : Nat → Thread → Thread) : (g.mapLanes ls f).binage = g.binage := rfl
@[simp] theorem Group.mapLanes_actBank (g : Group) (ls : List Nat) (f : Nat → Thread → Thread) : (g.mapLanes ls f).actBank = g.actBank := rfl
@[simp] theorem Group.mapLanes_idempf (g : Group) (ls : List Nat) (f : Nat → Thread → Thread) : (g.mapLanes ls f).idempf = g.idempf := rfl
@[simp] theorem Group.mapLanes_spacing (g : Group) (ls : List Nat) (f : Nat → Thread → Thread) : (g.mapLanes ls f).spacing = g.spacing := rfl
@[simp] theorem Group.mapLanes_nextIssue (g : Group) (ls : List Nat) (f : Nat → Thread → Thread) : (g.mapLanes ls f).nextIssue = g.nextIssue := rfl
@[simp] theorem Group.mapLanes_issueCnt (g : Group) (ls : List Nat) (f : Nat → Thread → Thread) : (g.mapLanes ls f).issueCnt = g.issueCnt := rfl
@[simp] theorem Group.mapLanes_sbwait (g : Group) (ls : List Nat) (f : Nat → Thread → Thread) : (g.mapLanes ls f).sbwait = g.sbwait := rfl
@[simp] theorem Group.mapLanes_lastIssue (g : Group) (ls : List Nat) (f : Nat → Thread → Thread) : (g.mapLanes ls f).lastIssue = g.lastIssue := rfl
@[simp] theorem Group.mapLanes_waited (g : Group) (ls : List Nat) (f : Nat → Thread → Thread) : (g.mapLanes ls f).waited = g.waited := rfl
@[simp] theorem Group.mapLanes_resumed (g : Group) (ls : List Nat) (f : Nat → Thread → Thread) : (g.mapLanes ls f).resumed = g.resumed := rfl
@[simp] theorem Group.mapLanes_barA (g : Group) (ls : List Nat) (f : Nat → Thread → Thread) : (g.mapLanes ls f).barA = g.barA := rfl
@[simp] theorem Group.mapLanes_dieA (g : Group) (ls : List Nat) (f : Nat → Thread → Thread) : (g.mapLanes ls f).dieA = g.dieA := rfl
@[simp] theorem Group.mapLanes_gridA (g : Group) (ls : List Nat) (f : Nat → Thread → Thread) : (g.mapLanes ls f).gridA = g.gridA := rfl
@[simp] theorem Group.mapLanes_fault (g : Group) (ls : List Nat) (f : Nat → Thread → Thread) : (g.mapLanes ls f).fault = g.fault := rfl
@[simp] theorem Group.mapLanes_waits (g : Group) (ls : List Nat) (f : Nat → Thread → Thread) : (g.mapLanes ls f).waits = g.waits := rfl
@[simp] theorem Group.mapLanes_hold (g : Group) (ls : List Nat) (f : Nat → Thread → Thread) : (g.mapLanes ls f).hold = g.hold := rfl
@[simp] theorem Group.mapLanes_gone (g : Group) (ls : List Nat) (f : Nat → Thread → Thread) : (g.mapLanes ls f).gone = g.gone := rfl
@[simp] theorem Group.mapLanes_waitedAt (g : Group) (ls : List Nat) (f : Nat → Thread → Thread) : (g.mapLanes ls f).waitedAt = g.waitedAt := rfl
@[simp] theorem Group.mapLanes_ecallHalf (g : Group) (ls : List Nat) (f : Nat → Thread → Thread) : (g.mapLanes ls f).ecallHalf = g.ecallHalf := rfl
@[simp] theorem Group.mapLanes_tokNew (g : Group) (ls : List Nat) (f : Nat → Thread → Thread) : (g.mapLanes ls f).tokNew = g.tokNew := rfl
@[simp] theorem Group.mapLanes_badS (g : Group) (ls : List Nat) (f : Nat → Thread → Thread) : (g.mapLanes ls f).badS = g.badS := rfl

@[simp] theorem Group.updLane_live (g : Group) (l : Nat) (f : Thread → Thread) : (g.updLane l f).live = g.live := rfl
@[simp] theorem Group.updLane_seq (g : Group) (l : Nat) (f : Thread → Thread) : (g.updLane l f).seq = g.seq := rfl
@[simp] theorem Group.updLane_sr (g : Group) (l : Nat) (f : Thread → Thread) : (g.updLane l f).sr = g.sr := rfl
@[simp] theorem Group.updLane_spend (g : Group) (l : Nat) (f : Thread → Thread) : (g.updLane l f).spend = g.spend := rfl
@[simp] theorem Group.updLane_busy (g : Group) (l : Nat) (f : Thread → Thread) : (g.updLane l f).busy = g.busy := rfl
@[simp] theorem Group.updLane_loads (g : Group) (l : Nat) (f : Thread → Thread) : (g.updLane l f).loads = g.loads := rfl
@[simp] theorem Group.updLane_toks (g : Group) (l : Nat) (f : Thread → Thread) : (g.updLane l f).toks = g.toks := rfl
@[simp] theorem Group.updLane_ev (g : Group) (l : Nat) (f : Thread → Thread) : (g.updLane l f).ev = g.ev := rfl
@[simp] theorem Group.updLane_evPend (g : Group) (l : Nat) (f : Thread → Thread) : (g.updLane l f).evPend = g.evPend := rfl
@[simp] theorem Group.updLane_evMask (g : Group) (l : Nat) (f : Thread → Thread) : (g.updLane l f).evMask = g.evMask := rfl
@[simp] theorem Group.updLane_cCopy (g : Group) (l : Nat) (f : Thread → Thread) : (g.updLane l f).cCopy = g.cCopy := rfl
@[simp] theorem Group.updLane_cMatrix (g : Group) (l : Nat) (f : Thread → Thread) : (g.updLane l f).cMatrix = g.cMatrix := rfl
@[simp] theorem Group.updLane_cGather (g : Group) (l : Nat) (f : Thread → Thread) : (g.updLane l f).cGather = g.cGather := rfl
@[simp] theorem Group.updLane_cColl (g : Group) (l : Nat) (f : Thread → Thread) : (g.updLane l f).cColl = g.cColl := rfl
@[simp] theorem Group.updLane_split (g : Group) (l : Nat) (f : Thread → Thread) : (g.updLane l f).split = g.split := rfl
@[simp] theorem Group.updLane_yieldMask (g : Group) (l : Nat) (f : Thread → Thread) : (g.updLane l f).yieldMask = g.yieldMask := rfl
@[simp] theorem Group.updLane_replay (g : Group) (l : Nat) (f : Thread → Thread) : (g.updLane l f).replay = g.replay := rfl
@[simp] theorem Group.updLane_unchecked (g : Group) (l : Nat) (f : Thread → Thread) : (g.updLane l f).unchecked = g.unchecked := rfl
@[simp] theorem Group.updLane_fpctl (g : Group) (l : Nat) (f : Thread → Thread) : (g.updLane l f).fpctl = g.fpctl := rfl
@[simp] theorem Group.updLane_fpflags (g : Group) (l : Nat) (f : Thread → Thread) : (g.updLane l f).fpflags = g.fpflags := rfl
@[simp] theorem Group.updLane_srseed (g : Group) (l : Nat) (f : Thread → Thread) : (g.updLane l f).srseed = g.srseed := rfl
@[simp] theorem Group.updLane_fp4x (g : Group) (l : Nat) (f : Thread → Thread) : (g.updLane l f).fp4x = g.fp4x := rfl
@[simp] theorem Group.updLane_chkctl (g : Group) (l : Nat) (f : Thread → Thread) : (g.updLane l f).chkctl = g.chkctl := rfl
@[simp] theorem Group.updLane_trapctl (g : Group) (l : Nat) (f : Thread → Thread) : (g.updLane l f).trapctl = g.trapctl := rfl
@[simp] theorem Group.updLane_binage (g : Group) (l : Nat) (f : Thread → Thread) : (g.updLane l f).binage = g.binage := rfl
@[simp] theorem Group.updLane_actBank (g : Group) (l : Nat) (f : Thread → Thread) : (g.updLane l f).actBank = g.actBank := rfl
@[simp] theorem Group.updLane_idempf (g : Group) (l : Nat) (f : Thread → Thread) : (g.updLane l f).idempf = g.idempf := rfl
@[simp] theorem Group.updLane_spacing (g : Group) (l : Nat) (f : Thread → Thread) : (g.updLane l f).spacing = g.spacing := rfl
@[simp] theorem Group.updLane_nextIssue (g : Group) (l : Nat) (f : Thread → Thread) : (g.updLane l f).nextIssue = g.nextIssue := rfl
@[simp] theorem Group.updLane_issueCnt (g : Group) (l : Nat) (f : Thread → Thread) : (g.updLane l f).issueCnt = g.issueCnt := rfl
@[simp] theorem Group.updLane_sbwait (g : Group) (l : Nat) (f : Thread → Thread) : (g.updLane l f).sbwait = g.sbwait := rfl
@[simp] theorem Group.updLane_lastIssue (g : Group) (l : Nat) (f : Thread → Thread) : (g.updLane l f).lastIssue = g.lastIssue := rfl
@[simp] theorem Group.updLane_waited (g : Group) (l : Nat) (f : Thread → Thread) : (g.updLane l f).waited = g.waited := rfl
@[simp] theorem Group.updLane_resumed (g : Group) (l : Nat) (f : Thread → Thread) : (g.updLane l f).resumed = g.resumed := rfl
@[simp] theorem Group.updLane_barA (g : Group) (l : Nat) (f : Thread → Thread) : (g.updLane l f).barA = g.barA := rfl
@[simp] theorem Group.updLane_dieA (g : Group) (l : Nat) (f : Thread → Thread) : (g.updLane l f).dieA = g.dieA := rfl
@[simp] theorem Group.updLane_gridA (g : Group) (l : Nat) (f : Thread → Thread) : (g.updLane l f).gridA = g.gridA := rfl
@[simp] theorem Group.updLane_fault (g : Group) (l : Nat) (f : Thread → Thread) : (g.updLane l f).fault = g.fault := rfl
@[simp] theorem Group.updLane_waits (g : Group) (l : Nat) (f : Thread → Thread) : (g.updLane l f).waits = g.waits := rfl
@[simp] theorem Group.updLane_hold (g : Group) (l : Nat) (f : Thread → Thread) : (g.updLane l f).hold = g.hold := rfl
@[simp] theorem Group.updLane_gone (g : Group) (l : Nat) (f : Thread → Thread) : (g.updLane l f).gone = g.gone := rfl
@[simp] theorem Group.updLane_waitedAt (g : Group) (l : Nat) (f : Thread → Thread) : (g.updLane l f).waitedAt = g.waitedAt := rfl
@[simp] theorem Group.updLane_ecallHalf (g : Group) (l : Nat) (f : Thread → Thread) : (g.updLane l f).ecallHalf = g.ecallHalf := rfl
@[simp] theorem Group.updLane_tokNew (g : Group) (l : Nat) (f : Thread → Thread) : (g.updLane l f).tokNew = g.tokNew := rfl
@[simp] theorem Group.updLane_badS (g : Group) (l : Nat) (f : Thread → Thread) : (g.updLane l f).badS = g.badS := rfl

end Sys2Proof.Machine
end

