-- ==== Sys2Proof/Laws/Regs.lean ====
section
/-! SUPPORT. What registers hold for a reader at adequate distance after each way of writing them (R181, R196, R197). -/

namespace Sys2Proof.Machine

/-! ## Plain writes -/

@[simp] theorem Thread.rv_putV_self (t : Thread) (r : Nat) (x : Word32) : (t.putV r x).rv r = x := Map.get_set_self ..
theorem Thread.rv_putV_of_ne (t : Thread) {r n : Nat} (x : Word32) (h : n ≠ r) : (t.putV r x).rv n = t.rv n :=
  Map.get_set_of_ne _ _ _ h
@[simp] theorem Thread.rp_putV (t : Thread) (r n : Nat) (x : Word32) : (t.putV r x).rp n = t.rp n := rfl
@[simp] theorem Thread.pend_putV (t : Thread) (r : Nat) (x : Word32) : (t.putV r x).pend = t.pend := rfl
@[simp] theorem Thread.rv_putP (t : Thread) (r n : Nat) (b : Bool) : (t.putP r b).rv n = t.rv n := by
  unfold Thread.putP; split <;> rfl
@[simp] theorem Thread.pend_putP (t : Thread) (r : Nat) (b : Bool) : (t.putP r b).pend = t.pend := by
  unfold Thread.putP; split <;> rfl

theorem getLsbD_one_shl (r n : Nat) (hr : r < 128) : (1#128 <<< r).getLsbD n = decide (n = r) := by
  rw [BitVec.getLsbD_shiftLeft, BitVec.getLsbD_one]
  by_cases h : n = r
  · subst h; simp [hr]
  · by_cases h2 : n < r
    · simp [h, h2]
    · have h3 : n - r ≠ 0 := by omega
      simp [h, h3]

/-- p127 reads true whatever is written (R181). -/
@[simp] theorem Thread.rp_127 (t : Thread) : t.rp 127 = true := rfl

theorem Thread.rp_putP_self (t : Thread) (r : Nat) (b : Bool) (h : r < 127) : (t.putP r b).rp r = b := by
  have h1 : r ≠ 127 := by omega
  unfold Thread.putP Thread.rp
  cases b <;> simp [h1, getLsbD_one_shl r r (by omega)]

theorem Thread.rp_putP_of_ne (t : Thread) {r n : Nat} (b : Bool) (hr : r < 128) (h : n ≠ r) : (t.putP r b).rp n = t.rp n := by
  unfold Thread.putP
  split
  · rfl
  · unfold Thread.rp
    by_cases hn : n < 128
    · have e := getLsbD_one_shl r n hr
      rw [decide_eq_false h] at e
      cases b
      · rw [if_neg (by decide), BitVec.getLsbD_and, BitVec.getLsbD_not, e]; simp [hn]
      · rw [if_pos rfl, BitVec.getLsbD_or, e]; simp
    · rw [BitVec.getLsbD_of_ge _ _ (by omega), BitVec.getLsbD_of_ge _ _ (by omega)]

@[simp] theorem Group.rs_putS_self (g : Group) (r : Nat) (x : Word64) : (g.putS r x).rs r = x := Map.get_set_self ..
theorem Group.rs_putS_of_ne (g : Group) {r n : Nat} (x : Word64) (h : n ≠ r) : (g.putS r x).rs n = g.rs n :=
  Map.get_set_of_ne _ _ _ h

/-! ## What pending writes come to -/

/-- What a v-register holds once pending writes have arrived in order. -/
def lastV (n : Nat) (ps : List PendW) (x : Word32) : Word32 :=
  ps.foldl (fun a e => if e.cls = .v ∧ e.reg = n then e.val.setWidth 32 else a) x

/-- Likewise of an s-register. -/
def lastS (n : Nat) (ps : List PendW) (x : Word64) : Word64 :=
  ps.foldl (fun a e => if e.reg = n then e.val else a) x

theorem lastV_append (n : Nat) (ps : List PendW) (e : PendW) (x : Word32) :
    lastV n (ps ++ [e]) x = if e.cls = .v ∧ e.reg = n then e.val.setWidth 32 else lastV n ps x := by
  simp [lastV, List.foldl_append]

theorem lastS_append (n : Nat) (ps : List PendW) (e : PendW) (x : Word64) :
    lastS n (ps ++ [e]) x = if e.reg = n then e.val else lastS n ps x := by
  simp [lastS, List.foldl_append]

theorem lastV_drop_self (n : Nat) (ps : List PendW) (x : Word32) : lastV n (pendDrop .v n ps) x = x := by
  induction ps generalizing x with
  | nil => rfl
  | cons e ps ih =>
    unfold pendDrop
    rw [List.filter_cons]
    split
    · rename_i h
      simp only [Bool.not_eq_true', Bool.and_eq_false_iff, decide_eq_false_iff_not] at h
      have hn : ¬ (e.cls = .v ∧ e.reg = n) := by rintro ⟨a, b⟩; rcases h with h | h <;> contradiction
      simp only [lastV, List.foldl_cons, if_neg hn]
      exact ih x
    · exact ih x

theorem lastV_drop_of_ne (n : Nat) (cls : RegCls) (r : Nat) (ps : List PendW) (x : Word32) (h : ¬ (cls = .v ∧ r = n)) :
    lastV n (pendDrop cls r ps) x = lastV n ps x := by
  induction ps generalizing x with
  | nil => rfl
  | cons e ps ih =>
    unfold pendDrop
    rw [List.filter_cons]
    split
    · simp only [lastV, List.foldl_cons]; exact ih _
    · rename_i he
      simp only [Bool.not_eq_true, Bool.not_eq_false', Bool.and_eq_true, decide_eq_true_eq] at he
      have hn : ¬ (e.cls = .v ∧ e.reg = n) := by rw [he.1, he.2]; exact h
      simp only [lastV, List.foldl_cons, if_neg hn]
      exact ih x

theorem Thread.rv_apply (t : Thread) (e : PendW) (n : Nat) :
    (t.apply e).rv n = if e.cls = .v ∧ e.reg = n then e.val.setWidth 32 else t.rv n := by
  unfold Thread.apply
  cases hc : e.cls with
  | v =>
    by_cases h : e.reg = n
    · subst h; simp
    · have h2 : n ≠ e.reg := fun q => h q.symm
      simp [h, Thread.rv_putV_of_ne _ _ h2]
  | p => simp
  | s => simp

/-- One pending write taken or kept. -/
def commitStep (ok : PendW → Bool) (u : Thread) (e : PendW) : Thread :=
  if ok e then { u.apply e with pend := pendDrop e.cls e.reg u.pend } else { u with pend := u.pend ++ [e] }

theorem Thread.commitIf_eq (t : Thread) (ok : PendW → Bool) :
    t.commitIf ok = if t.pend.isEmpty then t else t.pend.foldl (commitStep ok) { t with pend := [] } := rfl

theorem lastV_commitStep (ok : PendW → Bool) (n : Nat) (u : Thread) (e : PendW) :
    lastV n (commitStep ok u e).pend ((commitStep ok u e).rv n) =
      if e.cls = .v ∧ e.reg = n then e.val.setWidth 32 else lastV n u.pend (u.rv n) := by
  unfold commitStep
  split
  · show lastV n (pendDrop e.cls e.reg u.pend) ((u.apply e).rv n) = _
    rw [Thread.rv_apply]
    split
    · rename_i h; rw [h.1, h.2]; exact lastV_drop_self ..
    · rename_i h; exact lastV_drop_of_ne _ _ _ _ _ h
  · exact lastV_append ..

theorem lastV_commits (ok : PendW → Bool) (n : Nat) (ps : List PendW) (u : Thread) :
    lastV n (ps.foldl (commitStep ok) u).pend ((ps.foldl (commitStep ok) u).rv n) = lastV n ps (lastV n u.pend (u.rv n)) := by
  induction ps generalizing u with
  | nil => rfl
  | cons e ps ih => rw [List.foldl_cons, ih, lastV_commitStep]; rfl

theorem pend_commitAll (t : Thread) : t.commitAll.pend = [] := by
  have h : ∀ (ps : List PendW) (u : Thread), u.pend = [] → (ps.foldl (commitStep fun _ => true) u).pend = [] := by
    intro ps
    induction ps with
    | nil => exact fun _ h => h
    | cons e ps ih =>
      intro u hu
      refine ih _ ?_
      simp [commitStep, hu, pendDrop]
  unfold Thread.commitAll
  rw [Thread.commitIf_eq]
  split
  · rename_i he; exact List.isEmpty_iff.1 he
  · exact h _ _ rfl

/-- What a v-register holds at adequate distance: the last pending write of it, else its contents. -/
theorem Thread.value_eq (t : Thread) (n : Nat) : t.value n = lastV n t.pend (t.rv n) := by
  have hp := pend_commitAll t
  unfold Thread.value Thread.commitAll at *
  rw [Thread.commitIf_eq] at *
  split at hp
  · rename_i he; rw [if_pos he, hp]; rfl
  · rename_i he
    rw [if_neg he]
    have h := lastV_commits (fun _ => true) n t.pend { t with pend := [] }
    rw [hp] at h
    exact h

/-- Writes that have come to their distance change nothing for a reader at adequate distance. -/
@[simp] theorem Thread.value_commitIf (t : Thread) (ok : PendW → Bool) (n : Nat) : (t.commitIf ok).value n = t.value n := by
  rw [Thread.value_eq, Thread.value_eq, Thread.commitIf_eq]
  split
  · rfl
  · exact lastV_commits ok n t.pend { t with pend := [] }

@[simp] theorem Thread.value_pendV_self (t : Thread) (due r : Nat) (x : Word32) : (t.pendV due r x).value r = x := by
  rw [Thread.value_eq]
  show lastV r (t.pend ++ [_]) (t.rv r) = x
  rw [lastV_append]
  simp

theorem Thread.value_pendV_of_ne (t : Thread) {due r n : Nat} (x : Word32) (h : n ≠ r) :
    (t.pendV due r x).value n = t.value n := by
  rw [Thread.value_eq, Thread.value_eq]
  show lastV n (t.pend ++ [_]) (t.rv n) = _
  rw [lastV_append]
  simp [Ne.symm h]

@[simp] theorem Thread.value_pendP (t : Thread) (due r n : Nat) (b : Bool) : (t.pendP due r b).value n = t.value n := by
  rw [Thread.value_eq, Thread.value_eq]
  show lastV n (t.pend ++ [_]) (t.rv n) = _
  rw [lastV_append]
  simp

@[simp] theorem Thread.value_setV_self (t : Thread) (r : Nat) (x : Word32) : (t.setV r x).value r = x := by
  rw [Thread.value_eq]
  show lastV r (pendDrop .v r t.pend) ((t.putV r x).rv r) = x
  rw [lastV_drop_self, Thread.rv_putV_self]

theorem Thread.value_setV_of_ne (t : Thread) {r n : Nat} (x : Word32) (h : n ≠ r) : (t.setV r x).value n = t.value n := by
  rw [Thread.value_eq, Thread.value_eq]
  show lastV n (pendDrop .v r t.pend) ((t.putV r x).rv n) = _
  rw [lastV_drop_of_ne _ _ _ _ _ (fun q => h q.2.symm), Thread.rv_putV_of_ne _ _ h]

/-- A 64-bit value is its two halves. -/
theorem halves_join (x : Word64) : (x >>> 32).setWidth 32 ++ x.setWidth 32 = x := by
  apply BitVec.eq_of_getLsbD_eq
  intro i hi
  rw [BitVec.getLsbD_append, BitVec.getLsbD_setWidth, BitVec.getLsbD_setWidth, BitVec.getLsbD_ushiftRight]
  by_cases h : i < 32
  · simp [h]
  · have h2 : i - 32 < 32 := by omega
    have h3 : 32 + (i - 32) = i := by omega
    simp [h, h2, h3]

@[simp] theorem Thread.value2_pendVp (t : Thread) (due r : Nat) (x : Word64) : (t.pendVp due r x).value2 r = x := by
  unfold Thread.value2 Thread.pendVp
  rw [Thread.value_pendV_self, Thread.value_pendV_of_ne _ _ (by omega), Thread.value_pendV_self]
  exact halves_join x

@[simp] theorem Thread.value2_setVp (t : Thread) (r : Nat) (x : Word64) : (t.setVp r x).value2 r = x := by
  unfold Thread.value2 Thread.setVp
  rw [Thread.value_setV_self, Thread.value_setV_of_ne _ _ (by omega), Thread.value_setV_self]
  exact halves_join x

/-! ## Predicates -/

theorem Thread.rp_putP_far (t : Thread) (r n : Nat) (b : Bool) (hr : 128 ≤ r) (hn : n < 128) : (t.putP r b).rp n = t.rp n := by
  have e : (1#128 <<< r).getLsbD n = false := by
    rw [BitVec.getLsbD_shiftLeft]
    have : n < r := by omega
    simp [this]
  unfold Thread.putP
  split
  · rfl
  · unfold Thread.rp
    cases b
    · rw [if_neg (by decide), BitVec.getLsbD_and, BitVec.getLsbD_not, e]; simp [hn]
    · rw [if_pos rfl, BitVec.getLsbD_or, e]; simp

/-- What a predicate below p127 holds once pending writes have arrived in order. -/
def lastP (n : Nat) (ps : List PendW) (x : Bool) : Bool :=
  ps.foldl (fun a e => if e.cls = .p ∧ e.reg = n then e.val != 0 else a) x

theorem lastP_append (n : Nat) (ps : List PendW) (e : PendW) (x : Bool) :
    lastP n (ps ++ [e]) x = if e.cls = .p ∧ e.reg = n then e.val != 0 else lastP n ps x := by
  simp [lastP, List.foldl_append]

theorem lastP_drop_self (n : Nat) (ps : List PendW) (x : Bool) : lastP n (pendDrop .p n ps) x = x := by
  induction ps generalizing x with
  | nil => rfl
  | cons e ps ih =>
    unfold pendDrop
    rw [List.filter_cons]
    split
    · rename_i h
      simp only [Bool.not_eq_true', Bool.and_eq_false_iff, decide_eq_false_iff_not] at h
      have hn : ¬ (e.cls = .p ∧ e.reg = n) := by rintro ⟨a, b⟩; rcases h with h | h <;> contradiction
      simp only [lastP, List.foldl_cons, if_neg hn]
      exact ih x
    · exact ih x

theorem lastP_drop_of_ne (n : Nat) (cls : RegCls) (r : Nat) (ps : List PendW) (x : Bool) (h : ¬ (cls = .p ∧ r = n)) :
    lastP n (pendDrop cls r ps) x = lastP n ps x := by
  induction ps generalizing x with
  | nil => rfl
  | cons e ps ih =>
    unfold pendDrop
    rw [List.filter_cons]
    split
    · simp only [lastP, List.foldl_cons]; exact ih _
    · rename_i he
      simp only [Bool.not_eq_true, Bool.not_eq_false', Bool.and_eq_true, decide_eq_true_eq] at he
      have hn : ¬ (e.cls = .p ∧ e.reg = n) := by rw [he.1, he.2]; exact h
      simp only [lastP, List.foldl_cons, if_neg hn]
      exact ih x

theorem Thread.rp_apply (t : Thread) (e : PendW) (n : Nat) (hn : n < 127) :
    (t.apply e).rp n = if e.cls = .p ∧ e.reg = n then e.val != 0 else t.rp n := by
  unfold Thread.apply
  cases hc : e.cls with
  | v => simp
  | p =>
    by_cases h : e.reg = n
    · subst h; simp [Thread.rp_putP_self _ _ _ hn]
    · have h2 : n ≠ e.reg := fun q => h q.symm
      simp only [true_and, if_neg h]
      by_cases h3 : e.reg < 128
      · exact Thread.rp_putP_of_ne _ _ h3 h2
      · exact Thread.rp_putP_far _ _ _ _ (by omega) (by omega)
  | s => simp

theorem lastP_commitStep (ok : PendW → Bool) (n : Nat) (hn : n < 127) (u : Thread) (e : PendW) :
    lastP n (commitStep ok u e).pend ((commitStep ok u e).rp n) =
      if e.cls = .p ∧ e.reg = n then e.val != 0 else lastP n u.pend (u.rp n) := by
  unfold commitStep
  split
  · show lastP n (pendDrop e.cls e.reg u.pend) ((u.apply e).rp n) = _
    rw [Thread.rp_apply _ _ _ hn]
    split
    · rename_i h; rw [h.1, h.2]; exact lastP_drop_self ..
    · rename_i h; exact lastP_drop_of_ne _ _ _ _ _ h
  · exact lastP_append ..

theorem lastP_commits (ok : PendW → Bool) (n : Nat) (hn : n < 127) (ps : List PendW) (u : Thread) :
    lastP n (ps.foldl (commitStep ok) u).pend ((ps.foldl (commitStep ok) u).rp n) = lastP n ps (lastP n u.pend (u.rp n)) := by
  induction ps generalizing u with
  | nil => rfl
  | cons e ps ih => rw [List.foldl_cons, ih, lastP_commitStep ok n hn]; rfl

/-- What a predicate holds at adequate distance. -/
theorem Thread.pvalue_eq (t : Thread) (n : Nat) (hn : n < 127) : t.pvalue n = lastP n t.pend (t.rp n) := by
  have hp := pend_commitAll t
  unfold Thread.pvalue Thread.commitAll at *
  rw [Thread.commitIf_eq] at *
  split at hp
  · rename_i he; rw [if_pos he, hp]; rfl
  · rename_i he
    rw [if_neg he]
    have h := lastP_commits (fun _ => true) n hn t.pend { t with pend := [] }
    rw [hp] at h
    exact h

@[simp] theorem Thread.pvalue_127 (t : Thread) : t.pvalue 127 = true := rfl

theorem Thread.pvalue_commitIf (t : Thread) (ok : PendW → Bool) (n : Nat) (hn : n < 127) :
    (t.commitIf ok).pvalue n = t.pvalue n := by
  rw [Thread.pvalue_eq _ _ hn, Thread.pvalue_eq _ _ hn, Thread.commitIf_eq]
  split
  · rfl
  · exact lastP_commits ok n hn t.pend { t with pend := [] }

theorem Thread.pvalue_pendP_self (t : Thread) (due r : Nat) (b : Bool) (hr : r < 127) : (t.pendP due r b).pvalue r = b := by
  rw [Thread.pvalue_eq _ _ hr]
  show lastP r (t.pend ++ [_]) (t.rp r) = b
  rw [lastP_append]
  cases b <;> simp

theorem Thread.pvalue_pendP_of_ne (t : Thread) {due r n : Nat} (b : Bool) (hn : n < 127) (h : n ≠ r) :
    (t.pendP due r b).pvalue n = t.pvalue n := by
  rw [Thread.pvalue_eq _ _ hn, Thread.pvalue_eq _ _ hn]
  show lastP n (t.pend ++ [_]) (t.rp n) = _
  rw [lastP_append]
  simp [Ne.symm h]

theorem Thread.pvalue_pendV (t : Thread) (due r n : Nat) (x : Word32) (hn : n < 127) :
    (t.pendV due r x).pvalue n = t.pvalue n := by
  rw [Thread.pvalue_eq _ _ hn, Thread.pvalue_eq _ _ hn]
  show lastP n (t.pend ++ [_]) (t.rp n) = _
  rw [lastP_append]
  simp

theorem Thread.pvalue_setV (t : Thread) (r n : Nat) (x : Word32) (hn : n < 127) : (t.setV r x).pvalue n = t.pvalue n := by
  rw [Thread.pvalue_eq _ _ hn, Thread.pvalue_eq _ _ hn]
  exact lastP_drop_of_ne _ _ _ _ _ (by simp)

theorem Thread.pvalue_setP_self (t : Thread) (r : Nat) (b : Bool) (hr : r < 127) : (t.setP r b).pvalue r = b := by
  rw [Thread.pvalue_eq _ _ hr]
  show lastP r (pendDrop .p r t.pend) ((t.putP r b).rp r) = b
  rw [lastP_drop_self, Thread.rp_putP_self _ _ _ hr]

/-! ## s-registers -/

theorem lastS_drop_self (n : Nat) (ps : List PendW) (x : Word64) : lastS n (spendDrop n ps) x = x := by
  induction ps generalizing x with
  | nil => rfl
  | cons e ps ih =>
    unfold spendDrop
    rw [List.filter_cons]
    split
    · rename_i he
      have hn : e.reg ≠ n := by simpa using he
      simp only [lastS, List.foldl_cons, if_neg hn]
      exact ih x
    · exact ih x

theorem lastS_drop_of_ne (n r : Nat) (ps : List PendW) (x : Word64) (h : r ≠ n) : lastS n (spendDrop r ps) x = lastS n ps x := by
  induction ps generalizing x with
  | nil => rfl
  | cons e ps ih =>
    unfold spendDrop
    rw [List.filter_cons]
    split
    · simp only [lastS, List.foldl_cons]; exact ih _
    · rename_i he
      have he : e.reg = r := by simpa using he
      have hn : e.reg ≠ n := by rw [he]; exact h
      simp only [lastS, List.foldl_cons, if_neg hn]
      exact ih x

/-- One pending s-register write taken or kept. -/
def commitStepS (ok : PendW → Bool) (u : Group) (e : PendW) : Group :=
  if ok e then { u.putS e.reg e.val with spend := spendDrop e.reg u.spend } else { u with spend := u.spend ++ [e] }

theorem Group.commitS_eq (g : Group) (ok : PendW → Bool) :
    g.commitS ok = if g.spend.isEmpty then g else g.spend.foldl (commitStepS ok) { g with spend := [] } := rfl

theorem lastS_commitStep (ok : PendW → Bool) (n : Nat) (u : Group) (e : PendW) :
    lastS n (commitStepS ok u e).spend ((commitStepS ok u e).rs n) = if e.reg = n then e.val else lastS n u.spend (u.rs n) := by
  unfold commitStepS
  split
  · show lastS n (spendDrop e.reg u.spend) ((u.putS e.reg e.val).rs n) = _
    by_cases h : e.reg = n
    · subst h; rw [lastS_drop_self, Group.rs_putS_self, if_pos rfl]
    · rw [lastS_drop_of_ne _ _ _ _ h, Group.rs_putS_of_ne _ _ (Ne.symm h), if_neg h]
  · exact lastS_append ..

theorem lastS_commits (ok : PendW → Bool) (n : Nat) (ps : List PendW) (u : Group) :
    lastS n (ps.foldl (commitStepS ok) u).spend ((ps.foldl (commitStepS ok) u).rs n) = lastS n ps (lastS n u.spend (u.rs n)) := by
  induction ps generalizing u with
  | nil => rfl
  | cons e ps ih => rw [List.foldl_cons, ih, lastS_commitStep]; rfl

theorem spend_commitAll (g : Group) : (g.commitS fun _ => true).spend = [] := by
  have h : ∀ (ps : List PendW) (u : Group), u.spend = [] → (ps.foldl (commitStepS fun _ => true) u).spend = [] := by
    intro ps
    induction ps with
    | nil => exact fun _ h => h
    | cons e ps ih =>
      intro u hu
      refine ih _ ?_
      simp [commitStepS, hu, spendDrop]
  rw [Group.commitS_eq]
  split
  · rename_i he; exact List.isEmpty_iff.1 he
  · exact h _ _ rfl

/-- What an s-register holds at adequate distance. -/
theorem Group.svalue_eq (g : Group) (n : Nat) : g.svalue n = lastS n g.spend (g.rs n) := by
  have hp := spend_commitAll g
  unfold Group.svalue
  rw [Group.commitS_eq] at *
  split at hp
  · rename_i he; rw [if_pos he, hp]; rfl
  · rename_i he
    rw [if_neg he]
    have h := lastS_commits (fun _ => true) n g.spend { g with spend := [] }
    rw [hp] at h
    exact h

@[simp] theorem Group.svalue_commitS (g : Group) (ok : PendW → Bool) (n : Nat) : (g.commitS ok).svalue n = g.svalue n := by
  rw [Group.svalue_eq, Group.svalue_eq, Group.commitS_eq]
  split
  · rfl
  · exact lastS_commits ok n g.spend { g with spend := [] }

@[simp] theorem Group.svalue_pendS_self (g : Group) (due r : Nat) (x : Word64) : (g.pendS due r x).svalue r = x := by
  rw [Group.svalue_eq]
  show lastS r (g.spend ++ [_]) (g.rs r) = x
  rw [lastS_append]
  simp

theorem Group.svalue_pendS_of_ne (g : Group) {due r n : Nat} (x : Word64) (h : n ≠ r) :
    (g.pendS due r x).svalue n = g.svalue n := by
  rw [Group.svalue_eq, Group.svalue_eq]
  show lastS n (g.spend ++ [_]) (g.rs n) = _
  rw [lastS_append]
  simp [Ne.symm h]

@[simp] theorem Group.svalue_setS_self (g : Group) (r : Nat) (x : Word64) : (g.setS r x).svalue r = x := by
  rw [Group.svalue_eq]
  show lastS r (spendDrop r g.spend) ((g.putS r x).rs r) = x
  rw [lastS_drop_self, Group.rs_putS_self]

theorem Group.svalue_setS_of_ne (g : Group) {r n : Nat} (x : Word64) (h : n ≠ r) : (g.setS r x).svalue n = g.svalue n := by
  rw [Group.svalue_eq, Group.svalue_eq]
  show lastS n (spendDrop r g.spend) ((g.putS r x).rs n) = _
  rw [lastS_drop_of_ne _ _ _ _ (Ne.symm h), Group.rs_putS_of_ne _ _ h]

@[simp] theorem Group.svalue_mapLanes (g : Group) (ls : List Nat) (f : Nat → Thread → Thread) (n : Nat) :
    (g.mapLanes ls f).svalue n = g.svalue n := by
  rw [Group.svalue_eq, Group.svalue_eq]; rfl

end Sys2Proof.Machine
end

