-- ==== Sys2Proof/Laws/Issue.lean ====
section
/-! SUPPORT. What the issue of an instruction comes to in each of its outcomes, and what the accounting of an issue, a wait and a
fault change (R33, R182, R196 to R198, R386 to R394). -/

namespace Sys2Proof.Machine

/-! ## The outcomes of an issue -/

/-- An instruction with its registers at hand is attempted. -/
theorem issue_attempt {i : Instr} {s : State} {r : GRef} (body : Iss → Eff) (hc : s.cur = some r)
    (he : (enter i s r).set ≠ []) (hb : sbBlocked (s.group r) (enter i s r).set i = false)
    (hs : stallChk ((enter i s r).s0.group r) (enter i s r).set (enter i s r).en i = none)
    (hl : badLanes ((enter i s r).s0.group r) (enter i s r).set (enter i s r).en i = []) :
    issue i s body = .next ((attempt i s r body).1.finish (attempt i s r body).2) := by
  have hset : (enter i s r).set.isEmpty = false := by simpa using he
  unfold issue
  rw [hc]
  simp only [hset, hb, hs, hl, if_false, Bool.false_eq_true, Bool.not_true, List.isEmpty_nil]

/-- Without a token's first read there is no acquire before the instruction (R120). -/
theorem tokAcq_of_not {i : Instr} {s : State} {r : GRef} (h : firstRead i s r = false) : tokAcq i s r = s := by
  simp [tokAcq, h]

/-- With no lane enabled no token is read. -/
theorem firstRead_disabled {i : Instr} {s : State} {r : GRef} (h : (enter i s r).en = []) : firstRead i s r = false := by
  simp [firstRead, h]

theorem set_ne_nil {i : Instr} {s : State} {r : GRef} (h : (enter i s r).en ≠ []) : (enter i s r).set ≠ [] := by
  intro hx
  apply h
  show (enter i s r).set.filter _ = []
  rw [hx]; rfl

/-- When nothing keeps an instruction from being made, its body decides. -/
theorem issue_clear {i : Instr} {s : State} {r : GRef} (body : Iss → Eff) (h : clear i s r = true) :
    issue i s body = .next ((enter i s r).finish (body (enter i s r))) := by
  simp only [clear, ready, Bool.and_eq_true, decide_eq_true_eq, Bool.not_eq_true', List.isEmpty_iff,
    Option.isNone_iff_eq_none] at h
  obtain ⟨⟨⟨⟨⟨⟨hc, he⟩, hb⟩, hs⟩, hl⟩, hw⟩, hf⟩ := h
  rw [issue_attempt body hc (set_ne_nil (by simpa using he)) hb hs hl]
  simp only [attempt, tokAcq_of_not hf, he, hw, if_false, Bool.false_eq_true]

/-- A group whose registers are awaited waits (R34, R197). -/
theorem issue_blocked {i : Instr} {s : State} {r : GRef} (body : Iss → Eff) (hc : s.cur = some r)
    (he : (enter i s r).set ≠ []) (hb : sbBlocked (s.group r) (enter i s r).set i = true) :
    issue i s body = .next (s.updGroup r (fun g =>
      { g with sbwait := g.sbwait + 1, nextIssue := s.now + 1, hold := some (maskOf (enter i s r).set) })) := by
  have hset : (enter i s r).set.isEmpty = false := by simpa using he
  unfold issue
  rw [hc]
  simp only [hset, hb, if_true, if_false, Bool.false_eq_true]

/-- The checking scoreboard's fault comes before any effect (R198). -/
theorem issue_stalled {i : Instr} {s : State} {r : GRef} {f : FInfo} (body : Iss → Eff) (hc : s.cur = some r)
    (he : (enter i s r).set ≠ []) (hb : sbBlocked (s.group r) (enter i s r).set i = false)
    (hs : stallChk ((enter i s r).s0.group r) (enter i s r).set (enter i s r).en i = some f) :
    issue i s body =
      .next ((takeFault (enter i s r).s0 r (enter i s r).pc f).updGroup r (fun g => { g with nextIssue := s.now + 16 })) := by
  have hset : (enter i s r).set.isEmpty = false := by simpa using he
  unfold issue
  rw [hc]
  simp only [hset, hb, hs, if_false, Bool.false_eq_true]

/-- With no lane enabled the PCs advance and nothing else happens (R33, R182). -/
theorem issue_disabled {i : Instr} {s : State} {r : GRef} (body : Iss → Eff) (hc : s.cur = some r)
    (he : (enter i s r).set ≠ []) (hn : (enter i s r).en = []) (hb : sbBlocked (s.group r) (enter i s r).set i = false)
    (hs : stallChk ((enter i s r).s0.group r) (enter i s r).set (enter i s r).en i = none)
    (hl : badLanes ((enter i s r).s0.group r) (enter i s r).set (enter i s r).en i = []) :
    issue i s body = .next (retire (enter i s r) (enter i s r).s) := by
  rw [issue_attempt body hc he hb hs hl]
  simp only [attempt, tokAcq_of_not (firstRead_disabled hn), hn, List.isEmpty_nil, if_true]
  rfl

/-- Registers read whose contents are lost: the group faults in the lanes that read them, unless a run-time check of the
instruction's own rule comes first (R393, R417). -/
theorem issue_lost {i : Instr} {s : State} {r : GRef} (body : Iss → Eff) (hc : s.cur = some r)
    (he : (enter i s r).set ≠ []) (hb : sbBlocked (s.group r) (enter i s r).set i = false)
    (hs : stallChk ((enter i s r).s0.group r) (enter i s r).set (enter i s r).en i = none)
    (hl : badLanes ((enter i s r).s0.group r) (enter i s r).set (enter i s r).en i ≠ []) :
    issue i s body = .next (takeFault { (enter i s r).s0 with free := s.free + 32768 } r (enter i s r).pc
      ((checkFirst i s r body).getD
        { code := cECCU, info := 7, lanes := badLanes ((enter i s r).s0.group r) (enter i s r).set (enter i s r).en i })) := by
  have hset : (enter i s r).set.isEmpty = false := by simpa using he
  have hl' : (badLanes ((enter i s r).s0.group r) (enter i s r).set (enter i s r).en i).isEmpty = false := by simpa using hl
  unfold issue
  rw [hc]
  simp only [hset, hb, hs, hl', if_false, Bool.false_eq_true, Bool.not_false, if_true]

theorem Iss.finish_ok (I : Iss) (t : State) : I.finish (.ok t) = retire I t := rfl
theorem Iss.finish_wait (I : Iss) (k : Nat) (t : State) : I.finish (.wait k t) = keepWaiting I k t := rfl
theorem Iss.finish_fault (I : Iss) (f : FInfo) (t : State) : I.finish (.fault f t) = takeFault t I.ref I.pc f := rfl

/-! ## Entering an instruction -/

@[simp] theorem enter_ref (i : Instr) (s : State) (r : GRef) : (enter i s r).ref = r := rfl
@[simp] theorem enter_i (i : Instr) (s : State) (r : GRef) : (enter i s r).i = i := rfl
@[simp] theorem enter_set (i : Instr) (s : State) (r : GRef) : (enter i s r).set = issueSet (s.group r) := rfl
@[simp] theorem enter_pc (i : Instr) (s : State) (r : GRef) : (enter i s r).pc = issuePc (s.group r) := rfl
@[simp] theorem enter_mem (i : Instr) (s : State) (r : GRef) : (enter i s r).s.mem = s.mem := rfl
@[simp] theorem enter_mem0 (i : Instr) (s : State) (r : GRef) : (enter i s r).s0.mem = s.mem := rfl
@[simp] theorem enter_ctxs (i : Instr) (s : State) (r : GRef) : (enter i s r).s.ctxs = s.ctxs := rfl
@[simp] theorem enter_cores (i : Instr) (s : State) (r : GRef) : (enter i s r).s.cores = s.cores := rfl
@[simp] theorem enter_dies (i : Instr) (s : State) (r : GRef) : (enter i s r).s.dies = s.dies := rfl
@[simp] theorem enter_cmds (i : Instr) (s : State) (r : GRef) : (enter i s r).s.cmds = s.cmds := rfl
@[simp] theorem enter_cur (i : Instr) (s : State) (r : GRef) : (enter i s r).s.cur = s.cur := rfl

theorem enter_group_of_ne (i : Instr) (s : State) {r q : GRef} (h : q ≠ r) : (enter i s r).s.group q = s.group q := by
  show ((s.updGroup r _).updGroup r _).group q = _
  rw [State.group_updGroup_of_ne _ _ h, State.group_updGroup_of_ne _ _ h]

theorem enter_team_of_ne (i : Instr) (s : State) {r : GRef} {k : Nat} (h : k ≠ r.team) : (enter i s r).s.team k = s.team k := by
  show ((s.updGroup r _).updGroup r _).team k = _
  rw [State.team_updGroup_of_ne _ _ _ h, State.team_updGroup_of_ne _ _ _ h]

/-! ## What retiring, waiting and faulting leave alone -/

@[simp] theorem retire_mem (I : Iss) (s : State) : (retire I s).mem = s.mem := rfl
@[simp] theorem retire_lmeta (I : Iss) (s : State) : (retire I s).lmeta = s.lmeta := rfl
@[simp] theorem retire_poison (I : Iss) (s : State) : (retire I s).poison = s.poison := rfl
@[simp] theorem retire_ctxs (I : Iss) (s : State) : (retire I s).ctxs = s.ctxs := rfl
@[simp] theorem retire_dies (I : Iss) (s : State) : (retire I s).dies = s.dies := rfl
@[simp] theorem retire_cmds (I : Iss) (s : State) : (retire I s).cmds = s.cmds := rfl
@[simp] theorem retire_pkg (I : Iss) (s : State) : (retire I s).pkg = s.pkg := rfl
@[simp] theorem retire_now (I : Iss) (s : State) : (retire I s).now = s.now := rfl

theorem retire_group_of_ne (I : Iss) (s : State) {q : GRef} (h : q ≠ I.ref) : (retire I s).group q = s.group q := by
  show (((s.updTeam I.ref.team _).updGroup I.ref _).updCore _ _).group q = _
  rw [State.group_updCore, State.group_updGroup_of_ne _ _ h]
  obtain ⟨qt, qg⟩ := q
  by_cases ht : qt = I.ref.team
  · subst ht; simp [State.group]
  · simp only [State.group]; rw [State.team_updTeam_of_ne _ _ ht]

theorem retire_team_of_ne (I : Iss) (s : State) {k : Nat} (h : k ≠ I.ref.team) : (retire I s).team k = s.team k := by
  show (((s.updTeam I.ref.team _).updGroup I.ref _).updCore _ _).team k = _
  rw [State.team_updCore, State.team_updGroup_of_ne _ _ _ h, State.team_updTeam_of_ne _ _ h]

/-- What the accounting of an issue makes of the issuing group (R33, R196, R239). -/
def retired (I : Iss) (now : Nat) (g : Group) : Group :=
  let y := { g with
    spacing := g.spacing + (1 + (hdrOf I.i).stall.toNat),
    nextIssue := max g.nextIssue (now + (1 + (hdrOf I.i).stall.toNat)),
    issueCnt := g.issueCnt + 1, lastIssue := now, waited := 0, hold := none, replay := none, unchecked := false,
    waits := parkedWaits g.waits }
  if (hdrOf I.i).stall = 0 then y else y.holdSet

theorem retired_lanes (I : Iss) (n : Nat) (g : Group) : (retired I n g).lanes = g.lanes := by unfold retired; split <;> rfl
theorem retired_sr (I : Iss) (n : Nat) (g : Group) : (retired I n g).sr = g.sr := by unfold retired; split <;> rfl
theorem retired_spend (I : Iss) (n : Nat) (g : Group) : (retired I n g).spend = g.spend := by unfold retired; split <;> rfl
theorem retired_spacing (I : Iss) (n : Nat) (g : Group) :
    (retired I n g).spacing = g.spacing + (1 + (hdrOf I.i).stall.toNat) := by unfold retired; split <;> rfl

/-- Of the issuing group the accounting changes only its own fields: lanes and registers stay (R196, R239). -/
theorem retire_group_self (I : Iss) (s : State) : (retire I s).group I.ref = retired I s.now (s.group I.ref) := by
  show (((s.updTeam I.ref.team _).updGroup I.ref _).updCore _ _).group I.ref = _
  rw [State.group_updCore, State.group_updGroup_self]
  simp only [State.group, State.team_updTeam_self]
  rfl

@[simp] theorem retire_lane (I : Iss) (s : State) (l : Nat) : (retire I s).lane I.ref l = s.lane I.ref l := by
  unfold State.lane Group.lane; rw [retire_group_self, retired_lanes]

@[simp] theorem keepWaiting_mem (I : Iss) (k : Nat) (s : State) : (keepWaiting I k s).mem = s.mem := rfl
@[simp] theorem keepWaiting_ctxs (I : Iss) (k : Nat) (s : State) : (keepWaiting I k s).ctxs = s.ctxs := rfl
@[simp] theorem keepWaiting_cmds (I : Iss) (k : Nat) (s : State) : (keepWaiting I k s).cmds = s.cmds := rfl

/-- A wait at issue leaves the lanes where they are. -/
theorem keepWaiting_lane (I : Iss) (k : Nat) (s : State) (l : Nat) : (keepWaiting I k s).lane I.ref l = s.lane I.ref l := by
  unfold State.lane keepWaiting
  rw [State.group_updGroup_self]
  simp only [State.group, State.team_updTeam_self]
  rfl

/-- The marks on malformed lines are in the lines' metadata alone. -/
@[simp] theorem State.teams_markLines (s : State) (ls : List Nat) : (s.markLines ls).teams = s.teams := by
  unfold State.markLines
  induction ls generalizing s with
  | nil => rfl
  | cons l ls ih => rw [List.foldl_cons, ih]; rfl

@[simp] theorem State.team_markLines (s : State) (ls : List Nat) (k : Nat) : (s.markLines ls).team k = s.team k := by
  simp [State.team]

@[simp] theorem State.group_markLines (s : State) (ls : List Nat) (g : GRef) : (s.markLines ls).group g = s.group g := by
  simp [State.group]

@[simp] theorem State.mem_markLines (s : State) (ls : List Nat) : (s.markLines ls).mem = s.mem := by
  unfold State.markLines
  induction ls generalizing s with
  | nil => rfl
  | cons l ls ih => rw [List.foldl_cons, ih]; rfl

/-- A fault that no request pays for: the group parks and holds the record, which joins the context's queue (R386, R390). -/
theorem takeFault_unbound (s : State) (g : GRef) (pc : Nat) (f : FInfo)
    (h : chargeable f.code = false ∨ ∀ l ∈ f.lanes, boundRq (s.team g.team).decl ((s.group g).lane l) = none) :
    takeFault s g pc f =
      ((s.markLines f.marks).updGroup g (fun x =>
        { x with fault := some { frec := mkRec (s.markLines f.marks) g pc f }, hold := none, waits := parkedWaits x.waits })).report
        (s.team g.team).ctx (.group g) := by
  have hb : (if chargeable f.code then f.lanes.filter (fun l => (boundRq (s.team g.team).decl ((s.group g).lane l)).isSome) else []) = [] := by
    rcases h with h | h
    · rw [h]; rfl
    · split
      · rw [List.filter_eq_nil_iff]; intro l hl; rw [h l hl]; decide
      · rfl
  unfold takeFault
  simp only [State.team_markLines, State.group_markLines, hb]
  simp [chargeAll]

end Sys2Proof.Machine
end

