-- ==== Sys2Proof/Laws/Memory.lean ====
section
/-! SUPPORT. The canonical form of memory is kept by every memory operation, and the state after reset has it. -/

namespace Sys2Proof.Machine

/-- Home memory is in canonical form. -/
def State.canon (s : State) : Prop := Memory.wf s.mem = true

theorem State.canon_reset : State.reset.canon := rfl

/-- States with the same memory agree on its form. -/
theorem State.canon_of_mem {s t : State} (h : s.canon) (e : t.mem = s.mem) : t.canon := by
  unfold State.canon; rw [e]; exact h

theorem State.canon_setMem {s : State} (h : s.canon) (pa : Nat) (bs : List Byte) : (s.setMem pa bs).canon :=
  Map.wf_setN _ _ _ _ h

theorem State.canon_clear {s : State} (h : s.canon) (lo hi : Nat) : State.canon { s with mem := Map.clear s.mem lo hi } :=
  Map.wf_clear _ _ _ _ h

theorem State.canon_setMeta {s : State} (h : s.canon) (l c : Nat) : (s.setMeta l c).canon := h
theorem State.canon_updCore {s : State} (h : s.canon) (c : Nat) (f : Core → Core) : (s.updCore c f).canon := h
theorem State.canon_updDie {s : State} (h : s.canon) (d : Nat) (f : Die → Die) : (s.updDie d f).canon := h
theorem State.canon_updCtx {s : State} (h : s.canon) (c : Nat) (f : Ctx → Ctx) : (s.updCtx c f).canon := h
theorem State.canon_updTeam {s : State} (h : s.canon) (k : Nat) (f : Team → Team) : (s.updTeam k f).canon := h
theorem State.canon_updGroup {s : State} (h : s.canon) (g : GRef) (f : Group → Group) : (s.updGroup g f).canon := h

/-- Byte after byte. -/
theorem State.canon_cells {s : State} (h : s.canon) (bs : List (Nat × Byte)) :
    (bs.foldl (fun (u : State) p => u.setMem p.1 [p.2]) s).canon := by
  induction bs generalizing s with
  | nil => exact h
  | cons b bs ih => exact ih (State.canon_setMem h _ _)

theorem State.mem_markErr (s : State) (e : MErr) : (s.markErr e).mem = s.mem := by
  unfold State.markErr; split <;> rfl

theorem State.mem_markLost (s : State) (l : Nat) : (s.markLost l).mem = s.mem := by
  unfold State.markLost; split <;> rfl

theorem canon_homeWrite {s : State} (h : s.canon) (line : Nat) (bs : List (Nat × Byte)) : (homeWrite s line bs).1.canon := by
  unfold homeWrite
  simp only
  generalize metaOf s line = c
  split
  · exact State.canon_cells h bs
  cases linePoisoned s line with
  | some e => exact h
  | none =>
    simp only
    generalize (if isHbm (line * 256) = true then c else 0) = k
    split
    · exact State.canon_cells h bs
    cases expandLine s line with
    | error e => exact State.canon_of_mem h (State.mem_markErr ..)
    | ok raw => exact State.canon_cells (State.canon_setMeta (State.canon_setMem h _ _) _ _) bs

theorem canon_homeWriteLine {s : State} (h : s.canon) (line : Nat) (bs : List Byte) : (homeWriteLine s line bs).canon :=
  State.canon_setMem h _ _

theorem canon_homeWriteCoded {s : State} (h : s.canon) (line x : Nat) (hot : Bool) (bs : List Byte) :
    (homeWriteCoded s line x hot bs).1.canon := by
  unfold homeWriteCoded
  generalize codecStore x bs = c
  cases linePoisoned s line with
  | some e => exact h
  | none => cases hot <;> exact State.canon_setMeta (State.canon_setMem h _ _) _ _

theorem mem_tlbFill (s : State) (w : Who) (e : TlbE) : (tlbFill s w e).mem = s.mem := rfl

theorem mem_leafTake {s t : State} {w : Who} {va a b : Nat} {r : Except MErr (Nat × Nat)}
    (h : leafTake s w va r = .ok (a, b, t)) : t.mem = s.mem := by
  cases r with
  | error e => cases h
  | ok x => simp only [leafTake, Except.ok.injEq, Prod.mk.injEq] at h; rw [← h.2.2, mem_tlbFill]

theorem mem_leafOf {s t : State} {w : Who} {va a b : Nat} (h : leafOf s w va = .ok (a, b, t)) : t.mem = s.mem := by
  unfold leafOf at h
  generalize tlbFind (s.core w.core).tlb w.ctx va = x, tlbFind (s.die w.die).tlb w.ctx va = y at h
  cases x with
  | some e => simp only [Except.ok.injEq, Prod.mk.injEq] at h; rw [← h.2.2]
  | none =>
    cases y with
    | some e => simp only [Except.ok.injEq, Prod.mk.injEq] at h; rw [← h.2.2, mem_tlbFill]
    | none => exact mem_leafTake h

/-- A translation changes no byte of memory. -/
theorem mem_xlate {s t : State} {w : Who} {va : Nat} {a : Acc} {pkg : Bool} {lf : Leaf} (h : xlate s w va a pkg = .ok (lf, t)) :
    t.mem = s.mem := by
  unfold xlate at h
  simp only at h
  split at h
  · cases h
  split at h
  · cases h
  split at h
  · split at h
    · cases h
    · cases h; rfl
  split at h
  · split at h
    · cases h; rfl
    · cases h
  · split at h
    · cases h
    · rename_i hl
      split at h
      · cases h
      · split at h
        · injection h with h; injection h with _ h; rw [← h]; have e := mem_leafOf hl; exact e
        · cases h

/-- Bytes filled into a line of the L2 come from memory and change none of it. -/
theorem mem_l2Fill {s t : State} {die pa n : Nat} (h : l2Fill s die pa n = .ok t) : t.mem = s.mem := by
  unfold l2Fill at h
  simp only at h
  split at h
  · cases h; rfl
  split at h
  · cases h; rfl
  split at h
  · cases h
  · cases h; rfl

theorem mem_dropLine (s : State) (die line : Nat) : (dropLine s die line).mem = s.mem := rfl

theorem mem_withhold (s : State) (die line : Nat) (e : MErr) : (withhold s die line e).1.mem = s.mem := by
  unfold withhold
  simp only
  split
  · rw [State.mem_markLost]; rfl
  · rw [State.mem_markErr]; rfl

theorem canon_withhold {s : State} (h : s.canon) (die line : Nat) (e : MErr) : (withhold s die line e).1.canon :=
  State.canon_of_mem h (mem_withhold ..)

theorem canon_l2WriteBack {s : State} (h : s.canon) (die line : Nat) (f : LineFail) : (l2WriteBack s die line f).1.canon := by
  unfold l2WriteBack
  simp only
  split
  · exact h
  cases f with
  | data => exact canon_withhold h ..
  | metadata => exact canon_withhold h ..
  | none =>
    simp only
    split
    · have hw := canon_homeWrite h line (dirtyIn (s.die die).l2 (line * 256) (line * 256 + 256))
      split
      · exact hw
      · exact canon_withhold hw ..
    · split
      · exact canon_withhold h ..
      · rename_i t ht
        have hm : t.canon := by
          split at ht
          · cases ht; exact h
          · cases hr : homeRead s (line * 256) 256 with
            | error e => rw [hr] at ht; cases ht
            | ok bs => rw [hr] at ht; cases ht; exact h
        have hw := canon_homeWriteCoded hm line (pteXform (attrOf s (line * 256)).pte) (Map.find (t.die die).hot line).isSome
          (l2Bytes t die (line * 256) 256)
        split
        · exact hw
        · exact canon_withhold hw ..

theorem canon_l2Merge {s : State} (h : s.canon) (die : Nat) (bs : List (Nat × Byte)) : (l2Merge s die bs).1.canon := by
  unfold l2Merge
  split
  · exact h
  · simp only
    split
    · exact State.canon_cells h _
    · split
      · rename_i r hr
        split at hr
        · cases hr; exact canon_withhold h ..
        · cases hr
      · rename_i t ht
        have hm : t.canon := by
          split at ht
          · cases ht
          · rename_i t' ht'
            cases ht
            split at ht'
            · exact State.canon_of_mem h (mem_l2Fill ht')
            · cases ht'; exact h
        split
        · split
          · exact hm
          · exact canon_l2WriteBack hm ..
        · exact hm

theorem canon_l1WriteBack {s : State} (h : s.canon) (core l : Nat) (f : LineFail) : (l1WriteBack s core l f).1.canon := by
  unfold l1WriteBack
  simp only
  split
  · exact h
  · cases f
    · exact canon_l2Merge (s := s.updCore core _) h _ _
    · exact canon_withhold h ..
    · exact canon_withhold h ..

theorem canon_lateAt {s : State} (h : s.canon) (l2 : Bool) (u : Nat) (es : List WbErr) : (s.lateAt l2 u es).canon := h

theorem State.canon_foldl {β : Type} (f : State → β → State) (hf : ∀ (s : State) b, s.canon → (f s b).canon) (l : List β)
    {s : State} (h : s.canon) : (l.foldl f s).canon := by
  induction l generalizing s with
  | nil => exact h
  | cons b l ih => exact ih (hf s b h)

/-- A fold over states beside other results. -/
theorem State.canon_foldl_fst {β γ : Type} (f : State × γ → β → State × γ) (hf : ∀ r b, r.1.canon → (f r b).1.canon) (l : List β)
    {r : State × γ} (h : r.1.canon) : (l.foldl f r).1.canon := by
  induction l generalizing r with
  | nil => exact h
  | cons b l ih => exact ih (hf r b h)

theorem canon_purgeStep (core : Nat) (r : State × List WbErr) (l : Nat) (h : r.1.canon) : (purgeStep core r l).1.canon :=
  State.canon_updCore (canon_l1WriteBack h core l .none) ..

theorem canon_purgeL1s {s : State} (h : s.canon) (line : Nat) (cs : List Nat) : (purgeL1s s line cs).1.canon := by
  induction cs generalizing s with
  | nil => exact h
  | cons c cs ih =>
    have hc := State.canon_foldl_fst (purgeStep c) (canon_purgeStep c) (l1Lines line) (r := (s, [])) h
    rw [purgeL1s]
    generalize List.foldl (purgeStep c) (s, []) (l1Lines line) = r at hc
    exact ih hc

theorem canon_l2Evict {s : State} (h : s.canon) (die line : Nat) (f : LineFail) : (l2Evict s die line f).1.canon :=
  State.canon_of_mem (canon_l2WriteBack (canon_purgeL1s h line (coresOf s die)) die line f) (mem_dropLine ..)

/-- Room made in an L2 writes back the line that leaves, and keeps the form. -/
theorem canon_l2Room {s : State} (h : s.canon) (die line : Nat) : (l2Room s die line).1.canon := by
  unfold l2Room
  split
  · exact h
  · simp only
    split
    · exact h
    · exact State.canon_updDie (canon_l2Evict h ..) ..

theorem canon_l2Fetch {s t : State} (h : s.canon) {die pa n : Nat} (hf : l2Fetch s die pa n = .ok t) : t.canon :=
  State.canon_of_mem (canon_lateAt (canon_l2Room h die (lineOf pa)) true die _) (mem_l2Fill hf)

theorem canon_l2Put {s : State} (h : s.canon) (die : Nat) (bs : List (Nat × Byte)) : (l2Put s die bs).1.canon := by
  unfold l2Put
  split
  · exact h
  · exact canon_l2Merge (canon_l2Room h ..) ..

theorem canon_l1Room {s : State} (h : s.canon) (core l : Nat) : (l1Room s core l).canon := by
  unfold l1Room
  split
  · exact h
  · simp only
    have hr := canon_lateAt (canon_l2Room h (core / 16) (l / 4)) true (core / 16) (l2Room s (core / 16) (l / 4)).2
    generalize State.lateAt _ _ _ _ = t at hr
    split
    · exact hr
    · exact State.canon_of_mem (canon_l1WriteBack hr core _ .none) rfl

theorem canon_l1Put {s : State} (h : s.canon) (core pa : Nat) (bs : List Byte) : (l1Put s core pa bs).canon := by
  have hr := canon_l1Room h core (pa / 64)
  unfold l1Put
  simp only
  split
  · exact hr
  split
  · exact hr
  · exact canon_l1WriteBack hr _ _ _

theorem canon_coreRead {s t : State} (h : s.canon) {w : Who} {lf : Leaf} {n : Nat} {bs : List Byte}
    (hr : coreRead s w lf n = .ok (bs, t)) : t.canon := by
  unfold coreRead at hr
  simp only at hr
  split at hr
  · split at hr
    · cases hr
    · cases hr; exact h
  split at hr
  · split at hr
    · cases hr
    · rename_i hf; cases hr; exact canon_l2Fetch h hf
  split at hr
  · cases hr; exact h
  · split at hr
    · cases hr
    · rename_i hf
      injection hr with hr; injection hr with _ hr; rw [← hr]
      exact State.canon_updCore (canon_l1Room (canon_l2Fetch h hf) ..) ..

theorem canon_coreWrite {s : State} (h : s.canon) (w : Who) (lf : Leaf) (bs : List Byte) : (coreWrite s w lf bs).1.canon := by
  unfold coreWrite
  simp only
  split
  · exact canon_homeWrite h ..
  split
  · exact canon_l2Put h ..
  · exact canon_l1Put h ..

theorem canon_drainL1 {s : State} (h : s.canon) (core : Nat) (ls : List Nat) : (drainL1 s core ls).1.canon := by
  induction ls generalizing s with
  | nil => exact h
  | cons l ls ih => exact ih (canon_l1WriteBack h core l .none)

theorem canon_drainL2 {s : State} (h : s.canon) (die : Nat) (ls : List Nat) : (drainL2 s die ls).1.canon := by
  induction ls generalizing s with
  | nil => exact h
  | cons l ls ih => exact ih (canon_l2WriteBack h die l .none)

theorem canon_fenceRel {s : State} (h : s.canon) (w : Who) (scope : Nat) : (fenceRel s w scope).1.canon := by
  unfold fenceRel
  simp only
  split
  · exact h
  split
  · exact canon_drainL1 h ..
  · exact canon_drainL2 (canon_drainL1 h ..) ..

theorem canon_fenceAcq {s : State} (h : s.canon) (w : Who) (scope : Nat) : (fenceAcq s w scope).canon := by
  unfold fenceAcq
  simp only
  split
  · exact h
  split <;> exact h

theorem canon_l2Site {s : State} (h : s.canon) {w : Who} {lf : Leaf} {n : Nat} {r : List Byte × State × List WbErr}
    (hr : l2Site s w lf n = .ok r) : r.2.1.canon := by
  have h1 : (l1Drop (l1WriteBack s w.core (lf.pa / 64) .none).1 w.core (lf.pa / 64)).canon :=
    State.canon_updCore (canon_l1WriteBack h ..) ..
  unfold l2Site at hr
  simp only at hr
  split at hr
  · split at hr
    · cases hr
    · cases hr; exact h1
  · split at hr
    · cases hr
    · rename_i hf; cases hr; exact canon_l2Fetch h1 hf

theorem canon_l2SiteWrite {s : State} (h : s.canon) (w : Who) (lf : Leaf) (bs : List Byte) :
    (l2SiteWrite s w lf bs).1.canon := by
  unfold l2SiteWrite
  simp only
  split
  · exact canon_homeWrite h ..
  · exact canon_l2Put h ..

theorem canon_purgeL2s {s : State} (h : s.canon) (line : Nat) (ds : List Nat) : (purgeL2s s line ds).1.canon := by
  induction ds generalizing s with
  | nil => exact h
  | cons d ds ih => exact ih (s := dropLine _ _ _) (canon_l2WriteBack h d line .none)

theorem canon_purgeLine {s : State} (h : s.canon) (line : Nat) : (purgeLine s line).1.canon :=
  canon_purgeL2s (canon_purgeL1s h ..) ..

theorem canon_purgeAll {s : State} (h : s.canon) : (purgeAll s).canon := by
  unfold purgeAll
  simp only
  have ha := State.canon_foldl (fun (u : State) (c : Nat × Core) =>
    let q := drainL1 u c.1 (u.core c.1).fifo
    q.1.lateAt false c.1 q.2) (fun u c hu => State.canon_of_mem (canon_drainL1 hu c.1 (u.core c.1).fifo) rfl) s.cores h
  generalize List.foldl _ s s.cores = a at ha ⊢
  have hb := State.canon_foldl (fun (u : State) (d : Nat × Die) =>
    let lines := ((u.die d.1).l2.filter (fun e => e.2.dirty)).map (fun e => lineOf e.1)
    let q := drainL2 u d.1 lines.eraseDups
    q.1.lateAt true d.1 q.2) (fun u d hu => State.canon_of_mem (canon_drainL2 hu d.1 _) rfl) a.dies ha
  exact State.canon_of_mem hb rfl

theorem canon_engRead {s t : State} (h : s.canon) {w : Who} {lf : Leaf} {n : Nat} {bs : List Byte}
    (hr : engRead s w lf n = .ok (bs, t)) : t.canon := by
  unfold engRead at hr
  simp only at hr
  split at hr
  · split at hr
    · cases hr
    · cases hr; exact h
  · split at hr
    · cases hr
    · rename_i hf; cases hr; exact canon_l2Fetch h hf

theorem canon_engWrite {s : State} (h : s.canon) (w : Who) (lf : Leaf) (bs : List Byte) : (engWrite s w lf bs).1.canon := by
  have ht : (l1DropBytes s w.core lf.pa bs.length).canon := State.canon_updCore h ..
  unfold engWrite
  generalize l1DropBytes s w.core lf.pa bs.length = t at ht
  dsimp only
  generalize linePoisoned s (lineOf lf.pa) = e
  split
  · exact canon_homeWriteLine (s := dropLineAll t _) ht ..
  split
  · exact canon_homeWrite ht ..
  · exact canon_l2Put ht ..

theorem canon_homeEngWrite {s : State} (h : s.canon) (w : Who) (lf : Leaf) (bs : List Byte) :
    (homeEngWrite s w lf bs).1.canon := by
  have ht : (dropBytes s w.core w.die lf.pa bs.length).canon := State.canon_updDie (State.canon_updCore h ..) ..
  unfold homeEngWrite
  generalize dropBytes s w.core w.die lf.pa bs.length = t at ht
  dsimp only
  split
  · exact canon_homeWriteLine ht ..
  · exact canon_homeWrite ht ..

/-! ## Accesses by virtual address -/

theorem canon_vaWriteFrom {s : State} (h : s.canon) (home : Bool) (w : Who) (ps : List (Nat × Nat)) (bs : List Byte) (n : Nat) :
    (vaWriteFrom home w ps bs n s).1.canon := by
  induction ps generalizing s bs n with
  | nil => exact h
  | cons p ps ih =>
    obtain ⟨a, k⟩ := p
    rw [vaWriteFrom]
    cases hx : xlate s w a .write false with
    | error e => exact h
    | ok x =>
      obtain ⟨lf, t⟩ := x
      have ht : t.canon := State.canon_of_mem h (mem_xlate hx)
      dsimp only
      split
      · have hw := canon_homeEngWrite ht w lf (bs.take k)
        generalize homeEngWrite t w lf (bs.take k) = r at hw
        cases r.2 with
        | some e => exact hw
        | none => exact ih hw ..
      · have hw := canon_engWrite ht w lf (bs.take k)
        generalize engWrite t w lf (bs.take k) = r at hw
        exact ih (s := r.1.lateAt true w.die r.2) (State.canon_of_mem hw rfl) ..

theorem canon_vaWrite {s : State} (h : s.canon) (w : Who) (va : Nat) (bs : List Byte) : (vaWrite s w va bs).1.canon :=
  canon_vaWriteFrom h ..

theorem canon_vaWriteHome {s : State} (h : s.canon) (w : Who) (va : Nat) (bs : List Byte) : (vaWriteHome s w va bs).1.canon :=
  canon_vaWriteFrom h ..

/-- Copies dropped from L1s change no byte of memory. -/
theorem mem_l1Drops (pa n : Nat) (l : List (Nat × Core)) (u : State) :
    (l.foldl (fun u c => l1DropBytes u c.1 pa n) u).mem = u.mem := by
  induction l generalizing u with
  | nil => rfl
  | cons c l ih => exact (ih _).trans rfl

theorem mem_dropEverywhere (s : State) (pa n : Nat) : (dropEverywhere s pa n).mem = s.mem := by
  have h2 : ∀ (l : List (Nat × Die)) (f : Die → Die) (u : State), (l.foldl (fun u d => u.updDie d.1 f) u).mem = u.mem := by
    intro l f
    induction l with
    | nil => exact fun _ => rfl
    | cons d l ih => exact fun u => (ih _).trans rfl
  exact (h2 _ _ _).trans (mem_l1Drops ..)

theorem canon_formerWritePieces {s : State} (h : s.canon) (w : Who) (ps : List (Nat × Nat)) (bs : List Byte) :
    (formerWritePieces w ps bs s).1.canon := by
  induction ps generalizing s bs with
  | nil => exact h
  | cons p ps ih =>
    obtain ⟨a, k⟩ := p
    rw [formerWritePieces]
    cases hx : xlate s w a .write false with
    | error e => exact ih h ..
    | ok x =>
      obtain ⟨lf, t⟩ := x
      have hu : (dropEverywhere t lf.pa k).canon := State.canon_of_mem (State.canon_of_mem h (mem_xlate hx)) (mem_dropEverywhere ..)
      have hw := canon_homeWrite hu (lineOf lf.pa) (((bs.take k).zipIdx).map (fun p => (lf.pa + p.2, p.1)))
      dsimp only
      split
      · exact ih (canon_homeWriteLine hu ..) ..
      · generalize homeWrite _ _ _ = r at hw ⊢
        exact ih hw ..

theorem canon_formerWrite {s : State} (h : s.canon) (c va : Nat) (bs : List Byte) : (formerWrite s c va bs).1.canon :=
  canon_formerWritePieces h ..

theorem canon_rqWrite {s : State} (h : s.canon) (c i r : Nat) : (rqWrite s c i r).1.canon := canon_formerWrite h ..

theorem canon_putImage {s : State} (h : s.canon) (pa n : Nat) : (putImage s pa n).canon := by
  unfold putImage State.canon
  exact Map.wf_splice _ _ _ _ (State.canon_of_mem h (mem_dropEverywhere ..))

theorem canon_writeImage {s : State} (h : s.canon) (c i n : Nat) : (writeImage s c i n).canon := by
  unfold writeImage
  simp only
  generalize pieceList _ _ _ = ps
  induction ps generalizing s with
  | nil => simpa using h
  | cons p ps ih =>
    rw [List.foldl_cons]
    cases hx : xlate s (bgWho c) p.1 .write false with
    | error e => exact ih h
    | ok r => exact ih (canon_putImage (State.canon_of_mem h (mem_xlate (t := r.2) (lf := r.1) hx)) _ _)

theorem canon_dropWindows {s : State} (h : s.canon) (c : Nat) : (dropWindows s c).canon := by
  unfold dropWindows State.canon
  exact Map.wf_clear _ _ _ _ (State.canon_of_mem h (mem_l1Drops ..))

end Sys2Proof.Machine
end

