-- ==== Sys2Proof/Laws/Results.lean ====
section
/-! SUPPORT. The lanes of an issue, and what the shared ways of writing results leave in their registers. -/

namespace Sys2Proof.Machine

/-! ## Lanes of the issue set -/

theorem Map.find_isSome_of_mem {α : Type} (m : Map α) (e : Nat × α) (h : e ∈ m) : (Map.find m e.1).isSome := by
  induction m with
  | nil => cases h
  | cons x m ih =>
    obtain ⟨j, w⟩ := x
    rw [Map.find_cons]
    split
    · rfl
    · rename_i hne
      rcases List.mem_cons.1 h with h | h
      · exact absurd (by rw [h]) hne
      · exact ih h

theorem listed_of_live {g : Group} {l : Nat} (h : l ∈ liveLanes g) : (Map.find g.lanes l).isSome := by
  simp only [liveLanes, List.mem_map, List.mem_filter] at h
  obtain ⟨e, ⟨he, -⟩, rfl⟩ := h
  exact Map.find_isSome_of_mem _ _ he

theorem live_of_masked {ls : List Nat} {l : Nat} : ∀ {m : Option (BitVec 64)}, l ∈ maskedBy ls m → l ∈ ls
  | some _, h => (List.mem_filter.1 h).1
  | none, h => nomatch h

theorem live_of_elig {g : Group} {l : Nat} (h : l ∈ eligLanes g) : l ∈ liveLanes g := by
  unfold eligLanes at h
  simp only at h
  split_ifs at h
  · exact live_of_masked h
  · exact live_of_masked h
  · exact h
  · exact (List.mem_filter.1 h).1

theorem elig_of_set {g : Group} {l : Nat} (h : l ∈ issueSet g) : l ∈ eligLanes g := (List.mem_filter.1 h).1

theorem listed_of_set {g : Group} {l : Nat} (h : l ∈ issueSet g) : (Map.find g.lanes l).isSome :=
  listed_of_live (live_of_elig (elig_of_set h))

theorem set_of_en {i : Instr} {s : State} {r : GRef} {l : Nat} (h : l ∈ (enter i s r).en) : l ∈ (enter i s r).set :=
  (List.mem_filter.1 h).1

/-! ## The operands -/

/-- The group as the body of an instruction finds it. -/
theorem enter_group (i : Instr) (s : State) (r : GRef) :
    (enter i s r).s.group r =
      { (commitGroup (s.group r) (issueSet (s.group r)) i).mapLanes (issueSet (s.group r))
          (fun _ t => { t with pc := BitVec.ofNat 64 (issuePc (s.group r) + instrLen i) }) with yieldMask := 0 } := by
  show ((s.updGroup r _).updGroup r _).group r = _
  rw [State.group_updGroup_self, State.group_updGroup_self]

/-- The results at their distance, over which a group's lanes read. -/
def dueOk (g : Group) (i : Instr) (e : PendW) : Bool :=
  decide (e.due ≤ g.spacing) || (g.unchecked && decide ((e.cls, e.reg) ∈ guardRef (hdrOf i) ++ (uses i).reads))

theorem Map.find_commitS (g : Group) (ok : PendW → Bool) : (g.commitS ok).lanes = g.lanes := by
  have h : ∀ (ps : List PendW) (u : Group), (ps.foldl (commitStepS ok) u).lanes = u.lanes := by
    intro ps
    induction ps with
    | nil => exact fun _ => rfl
    | cons e ps ih => intro u; rw [List.foldl_cons, ih]; unfold commitStepS; split <;> rfl
  rw [Group.commitS_eq]
  split
  · rfl
  · exact h _ _

@[simp] theorem Group.fixAll_lanes (g : Group) : g.fixAll.lanes = g.lanes := rfl
@[simp] theorem Group.fixReads_lanes (g : Group) (n : Nat) (pas : List Nat) : (g.fixReads n pas).lanes = g.lanes := rfl

/-- Of the lanes, the results at their distance are written, and nothing else. -/
theorem commitGroup_lanes (g : Group) (set : List Nat) (i : Instr) :
    (commitGroup g set i).lanes = (g.mapLanes set (fun _ t => t.commitIf (dueOk g i))).lanes := by
  unfold commitGroup
  dsimp only
  split
  · rw [Group.fixAll_lanes, Map.find_commitS]; rfl
  · rw [Map.find_commitS]; rfl

theorem lane_commitGroup (g : Group) (set : List Nat) (i : Instr) (l : Nat) (hl : (Map.find g.lanes l).isSome) :
    (commitGroup g set i).lane l = if l ∈ set then (g.lane l).commitIf (dueOk g i) else g.lane l := by
  have e : (commitGroup g set i).lane l = (g.mapLanes set (fun _ t => t.commitIf (dueOk g i))).lane l := by
    unfold Group.lane
    rw [commitGroup_lanes]
  rw [e, Group.lane_mapLanes _ _ _ _ hl]

theorem listed_commitGroup (g : Group) (set : List Nat) (i : Instr) (l : Nat) :
    (Map.find (commitGroup g set i).lanes l).isSome = (Map.find g.lanes l).isSome := by
  rw [commitGroup_lanes, Group.listed_mapLanes]

/-- A lane of the issue set: its registers at their distance, its PC at the next instruction. -/
theorem enter_lane (i : Instr) (s : State) (r : GRef) (l : Nat) (h : l ∈ issueSet (s.group r)) :
    (enter i s r).th l = { ((s.group r).lane l).commitIf (dueOk (s.group r) i) with
      pc := BitVec.ofNat 64 (issuePc (s.group r) + instrLen i) } := by
  have hl := listed_of_set h
  show ((enter i s r).s.group r).lane l = _
  rw [enter_group]
  have hc := lane_commitGroup (s.group r) (issueSet (s.group r)) i l hl
  rw [if_pos h] at hc
  have hs : (Map.find (commitGroup (s.group r) (issueSet (s.group r)) i).lanes l).isSome := by
    rw [listed_commitGroup]; exact hl
  have hm := Group.lane_mapLanes (commitGroup (s.group r) (issueSet (s.group r)) i) (issueSet (s.group r))
    (fun _ t => { t with pc := BitVec.ofNat 64 (issuePc (s.group r) + instrLen i) }) l hs
  rw [if_pos h, hc] at hm
  exact hm

/-! ## Results -/

/-- The lanes that a group lists stay listed. -/
theorem listed_enter {i : Instr} {s : State} {r : GRef} {l : Nat} (h : (Map.find (s.group r).lanes l).isSome) :
    (Map.find (enter i s r).gp.lanes l).isSome := by
  show (Map.find ((enter i s r).s.group r).lanes l).isSome
  rw [enter_group]
  have e := (Group.listed_mapLanes (commitGroup (s.group r) (issueSet (s.group r)) i) (issueSet (s.group r))
    (fun _ t => { t with pc := BitVec.ofNat 64 (issuePc (s.group r) + instrLen i) }) l).trans
      ((listed_commitGroup (s.group r) (issueSet (s.group r)) i l).trans h)
  exact e

/-- What an instruction that writes enabled lanes leaves in each of them. -/
theorem lane_lanewise {i : Instr} {s : State} {r : GRef} (f : Nat → Thread → Thread) {l : Nat} (h : l ∈ (enter i s r).en) :
    ((enter i s r).lanewise f).lane r l = f l ((enter i s r).th l) := by
  have hl := listed_enter (i := i) (listed_of_set (set_of_en h))
  show (((enter i s r).s.updGroup r _).group r).lane l = _
  rw [State.group_updGroup_self]
  have e := Group.lane_mapLanes (enter i s r).gp (enter i s r).en f l hl
  rw [if_pos h] at e
  exact e

theorem lane_lanewise_of_not_mem {i : Instr} {s : State} {r : GRef} (f : Nat → Thread → Thread) {l : Nat}
    (h : l ∉ (enter i s r).en) : ((enter i s r).lanewise f).lane r l = (enter i s r).th l := by
  show (((enter i s r).s.updGroup r _).group r).lane l = _
  rw [State.group_updGroup_self, Group.lane_mapLanes_of_not_mem _ _ _ _ h]
  rfl

/-- A fixed-latency v result (R196, R197). -/
theorem value_outV {i : Instr} {s : State} {r : GRef} (d : VReg) (f : Thread → Word32) {l : Nat} (h : l ∈ (enter i s r).en) :
    (((enter i s r).outV d f).lane r l).value d.toNat = f ((enter i s r).th l) := by
  unfold Iss.outV; rw [lane_lanewise _ h, Thread.value_pendV_self]

theorem value_outVp {i : Instr} {s : State} {r : GRef} (d : VReg) (f : Thread → Word64) {l : Nat} (h : l ∈ (enter i s r).en) :
    (((enter i s r).outVp d f).lane r l).value2 d.toNat = f ((enter i s r).th l) := by
  unfold Iss.outVp; rw [lane_lanewise _ h, Thread.value2_pendVp]

theorem pvalue_outP {i : Instr} {s : State} {r : GRef} (d : PReg) (f : Thread → Bool) {l : Nat} (hd : d.toNat < 127)
    (h : l ∈ (enter i s r).en) : (((enter i s r).outP d f).lane r l).pvalue d.toNat = f ((enter i s r).th l) := by
  unfold Iss.outP; rw [lane_lanewise _ h, Thread.pvalue_pendP_self _ _ _ _ hd]

/-- A variable-latency v result (R197). -/
theorem value_setV {i : Instr} {s : State} {r : GRef} (d : VReg) (f : Nat → Thread → Word32) {l : Nat} (h : l ∈ (enter i s r).en) :
    (((enter i s r).setV d f).lane r l).value d.toNat = f l ((enter i s r).th l) := by
  unfold Iss.setV; rw [lane_lanewise _ h, Thread.value_setV_self]

theorem svalue_outS {i : Instr} {s : State} {r : GRef} (d : SReg) (x : Word64) :
    (((enter i s r).outS d x).group r).svalue d.toNat = x := by
  show (((enter i s r).s.updGroup r _).group r).svalue d.toNat = x
  rw [State.group_updGroup_self, Group.svalue_pendS_self]

theorem svalue_setS {i : Instr} {s : State} {r : GRef} (d : SReg) (x : Word64) :
    (((enter i s r).setS d x).group r).svalue d.toNat = x := by
  show (((enter i s r).s.updGroup r _).group r).svalue d.toNat = x
  rw [State.group_updGroup_self, Group.svalue_setS_self]

end Sys2Proof.Machine
end

