-- ==== Sys2Proof/Laws/Words.lean ====
section
/-! SUPPORT. Every instruction of the stream goes through the shared issue operation, with a body of its own (R33, R182). -/

namespace Sys2Proof.Machine

/-- The instruction is issued with some body. -/
def Issued (i : Instr) : Prop := ∃ body : Iss → Eff, ∀ s : State, exec i s = issue i s body

theorem Issued.of {i : Instr} (body : Iss → Eff) (h : ∀ s, exec i s = issue i s body) : Issued i := ⟨body, h⟩

theorem issued_nop o : Issued (.nop o) := .of _ fun s => execNop.eq_1 o s
theorem issued_bra o : Issued (.bra o) := .of _ fun s => execBra.eq_1 o s
theorem issued_brx o : Issued (.brx o) := .of _ fun s => execBrx.eq_1 o s
theorem issued_bru o : Issued (.bru o) := .of _ fun s => execBru.eq_1 o s
theorem issued_call o : Issued (.call o) := .of _ fun s => execCall.eq_1 o s
theorem issued_ret o : Issued (.ret o) := .of _ fun s => execRet.eq_1 o s
theorem issued_exit o : Issued (.exit o) := .of _ fun s => execExit.eq_1 o s
theorem issued_reform o : Issued (.reform o) := .of _ fun s => execReform.eq_1 o s
theorem issued_spawn o : Issued (.spawn o) := .of _ fun s => execSpawn.eq_1 o s
theorem issued_join o : Issued (.join o) := .of _ fun s => execJoin.eq_1 o s
theorem issued_elect o : Issued (.elect o) := .of _ fun s => execElect.eq_1 o s
theorem issued_yield o : Issued (.yield o) := .of _ fun s => execYield.eq_1 o s
theorem issued_cvset o : Issued (.cvset o) := .of _ fun s => execCvset.eq_1 o s
theorem issued_cvsign o : Issued (.cvsign o) := .of _ fun s => execCvsign.eq_1 o s
theorem issued_prefi o : Issued (.prefi o) := .of _ fun s => execPrefi.eq_1 o s
theorem issued_idempBegin o : Issued (.idempBegin o) := .of _ fun s => execIdempBegin.eq_1 o s
theorem issued_idempEnd o : Issued (.idempEnd o) := .of _ fun s => execIdempEnd.eq_1 o s
theorem issued_trap o : Issued (.trap o) := .of _ fun s => execTrap.eq_1 o s
theorem issued_trapfence o : Issued (.trapfence o) := .of _ fun s => execTrapfence.eq_1 o s
theorem issued_bkpt o : Issued (.bkpt o) := .of _ fun s => execBkpt.eq_1 o s
theorem issued_evbind o : Issued (.evbind o) := .of _ fun s => execEvbind.eq_1 o s
theorem issued_evmask o : Issued (.evmask o) := .of _ fun s => execEvmask.eq_1 o s
theorem issued_waitany o : Issued (.waitany o) := .of _ fun s => execWaitany.eq_1 o s
theorem issued_evclr o : Issued (.evclr o) := .of _ fun s => execEvclr.eq_1 o s
theorem issued_evpoll o : Issued (.evpoll o) := .of _ fun s => execEvpoll.eq_1 o s
theorem issued_evraise o : Issued (.evraise o) := .of _ fun s => execEvraise.eq_1 o s
theorem issued_mbsend o : Issued (.mbsend o) := .of _ fun s => execMbsend.eq_1 o s
theorem issued_mbrecv o : Issued (.mbrecv o) := .of _ fun s => execMbrecv.eq_1 o s
theorem issued_bararv o : Issued (.bararv o) := .of _ fun s => execBararv.eq_1 o s
theorem issued_barwt o : Issued (.barwt o) := .of _ fun s => execBarwt.eq_1 o s
theorem issued_barsync o : Issued (.barsync o) := .of _ fun s => execBarsync.eq_1 o s
theorem issued_diebar o : Issued (.diebar o) := .of _ fun s => execDiebar.eq_1 o s
theorem issued_gridbar o : Issued (.gridbar o) := .of _ fun s => execGridbar.eq_1 o s
theorem issued_waitc o : Issued (.waitc o) := .of _ fun s => execWaitc.eq_1 o s
theorem issued_fence o : Issued (.fence o) := .of _ fun s => execFence.eq_1 o s
theorem issued_iadd o : Issued (.iadd o) := .of _ fun s => (execIadd.eq_1 o s).trans (alu2.eq_1 ..)
theorem issued_isub o : Issued (.isub o) := .of _ fun s => (execIsub.eq_1 o s).trans (alu2.eq_1 ..)
theorem issued_iadd3 o : Issued (.iadd3 o) := .of _ fun s => (execIadd3.eq_1 o s).trans (alu3.eq_1 ..)
theorem issued_imul o : Issued (.imul o) := .of _ fun s => (execImul.eq_1 o s).trans (alu2.eq_1 ..)
theorem issued_imulh o : Issued (.imulh o) := .of _ fun s => (execImulh.eq_1 o s).trans (alu2.eq_1 ..)
theorem issued_imad o : Issued (.imad o) := .of _ fun s => (execImad.eq_1 o s).trans (alu3.eq_1 ..)
theorem issued_imadw o : Issued (.imadw o) := .of _ fun s => execImadw.eq_1 o s
theorem issued_idiv o : Issued (.idiv o) := .of _ fun s => execIdiv.eq_1 o s
theorem issued_irem o : Issued (.irem o) := .of _ fun s => execIrem.eq_1 o s
theorem issued_imin o : Issued (.imin o) := .of _ fun s => (execImin.eq_1 o s).trans (alu2.eq_1 ..)
theorem issued_imax o : Issued (.imax o) := .of _ fun s => (execImax.eq_1 o s).trans (alu2.eq_1 ..)
theorem issued_iabs o : Issued (.iabs o) := .of _ fun s => (execIabs.eq_1 o s).trans (alu1.eq_1 ..)
theorem issued_ineg o : Issued (.ineg o) := .of _ fun s => (execIneg.eq_1 o s).trans (alu1.eq_1 ..)
theorem issued_idp4 o : Issued (.idp4 o) := .of _ fun s => execIdp4.eq_1 o s
theorem issued_and o : Issued (.and o) := .of _ fun s => (execAnd.eq_1 o s).trans (alu2.eq_1 ..)
theorem issued_or o : Issued (.or o) := .of _ fun s => (execOr.eq_1 o s).trans (alu2.eq_1 ..)
theorem issued_xor o : Issued (.xor o) := .of _ fun s => (execXor.eq_1 o s).trans (alu2.eq_1 ..)
theorem issued_andn o : Issued (.andn o) := .of _ fun s => (execAndn.eq_1 o s).trans (alu2.eq_1 ..)
theorem issued_not o : Issued (.not o) := .of _ fun s => (execNot.eq_1 o s).trans (alu1.eq_1 ..)
theorem issued_shl o : Issued (.shl o) := .of _ fun s => (execShl.eq_1 o s).trans (alu2.eq_1 ..)
theorem issued_shr o : Issued (.shr o) := .of _ fun s => (execShr.eq_1 o s).trans (alu2.eq_1 ..)
theorem issued_sar o : Issued (.sar o) := .of _ fun s => (execSar.eq_1 o s).trans (alu2.eq_1 ..)
theorem issued_rotl o : Issued (.rotl o) := .of _ fun s => (execRotl.eq_1 o s).trans (alu2.eq_1 ..)
theorem issued_bfe o : Issued (.bfe o) := .of _ fun s => (execBfe.eq_1 o s).trans (alu2.eq_1 ..)
theorem issued_bfi o : Issued (.bfi o) := .of _ fun s => (execBfi.eq_1 o s).trans (alu3.eq_1 ..)
theorem issued_popc o : Issued (.popc o) := .of _ fun s => (execPopc.eq_1 o s).trans (alu1.eq_1 ..)
theorem issued_clz o : Issued (.clz o) := .of _ fun s => (execClz.eq_1 o s).trans (alu1.eq_1 ..)
theorem issued_ctz o : Issued (.ctz o) := .of _ fun s => (execCtz.eq_1 o s).trans (alu1.eq_1 ..)
theorem issued_brev o : Issued (.brev o) := .of _ fun s => (execBrev.eq_1 o s).trans (alu1.eq_1 ..)
theorem issued_prmt o : Issued (.prmt o) := .of _ fun s => (execPrmt.eq_1 o s).trans (alu3.eq_1 ..)
theorem issued_isetp o : Issued (.isetp o) := .of _ fun s => execIsetp.eq_1 o s
theorem issued_isel o : Issued (.isel o) := .of _ fun s => execIsel.eq_1 o s
theorem issued_lea o : Issued (.lea o) := .of _ fun s => execLea.eq_1 o s
theorem issued_iadd64 o : Issued (.iadd64 o) := .of _ fun s => execIadd64.eq_1 o s
theorem issued_mov o : Issued (.mov o) := .of _ fun s => (execMov.eq_1 o s).trans (alu1.eq_1 ..)
theorem issued_movi o : Issued (.movi o) := .of _ fun s => execMovi.eq_1 o s
theorem issued_movs o : Issued (.movs o) := .of _ fun s => execMovs.eq_1 o s
theorem issued_movu o : Issued (.movu o) := .of _ fun s => execMovu.eq_1 o s
theorem issued_plop3 o : Issued (.plop3 o) := .of _ fun s => execPlop3.eq_1 o s
theorem issued_pmov o : Issued (.pmov o) := .of _ fun s => execPmov.eq_1 o s
theorem issued_uadd o : Issued (.uadd o) := .of _ fun s => (execUadd.eq_1 o s).trans (execU2.eq_1 ..)
theorem issued_usub o : Issued (.usub o) := .of _ fun s => (execUsub.eq_1 o s).trans (execU2.eq_1 ..)
theorem issued_umul o : Issued (.umul o) := .of _ fun s => (execUmul.eq_1 o s).trans (execU2.eq_1 ..)
theorem issued_uand o : Issued (.uand o) := .of _ fun s => (execUand.eq_1 o s).trans (execU2.eq_1 ..)
theorem issued_uor o : Issued (.uor o) := .of _ fun s => (execUor.eq_1 o s).trans (execU2.eq_1 ..)
theorem issued_uxor o : Issued (.uxor o) := .of _ fun s => (execUxor.eq_1 o s).trans (execU2.eq_1 ..)
theorem issued_ushl o : Issued (.ushl o) := .of _ fun s => (execUshl.eq_1 o s).trans (execU2.eq_1 ..)
theorem issued_ushr o : Issued (.ushr o) := .of _ fun s => (execUshr.eq_1 o s).trans (execU2.eq_1 ..)
theorem issued_umov o : Issued (.umov o) := .of _ fun s => execUmov.eq_1 o s
theorem issued_umovi o : Issued (.umovi o) := .of _ fun s => execUmovi.eq_1 o s
theorem issued_usel o : Issued (.usel o) := .of _ fun s => execUsel.eq_1 o s
theorem issued_ucmp o : Issued (.ucmp o) := .of _ fun s => execUcmp.eq_1 o s
theorem issued_ufrom o : Issued (.ufrom o) := .of _ fun s => execUfrom.eq_1 o s
theorem issued_ulea o : Issued (.ulea o) := .of _ fun s => execUlea.eq_1 o s
theorem issued_movc o : Issued (.movc o) := .of _ fun s => execMovc.eq_1 o s
theorem issued_movcw o : Issued (.movcw o) := .of _ fun s => execMovcw.eq_1 o s
theorem issued_clkr o : Issued (.clkr o) := .of _ fun s => execClkr.eq_1 o s
theorem issued_perfr o : Issued (.perfr o) := .of _ fun s => execPerfr.eq_1 o s
theorem issued_ecall o : Issued (.ecall o) := .of _ fun s => execEcall.eq_1 o s
theorem issued_launch o : Issued (.launch o) := .of _ fun s => execLaunch.eq_1 o s
theorem issued_fadd o : Issued (.fadd o) := .of _ fun s => (execFadd.eq_1 o s).trans (float2.eq_1 ..)
theorem issued_fsub o : Issued (.fsub o) := .of _ fun s => (execFsub.eq_1 o s).trans (float2.eq_1 ..)
theorem issued_fmul o : Issued (.fmul o) := .of _ fun s => (execFmul.eq_1 o s).trans (float2.eq_1 ..)
theorem issued_ffma o : Issued (.ffma o) := .of _ fun s => execFfma.eq_1 o s
theorem issued_fmin o : Issued (.fmin o) := .of _ fun s => (execFmin.eq_1 o s).trans (float2.eq_1 ..)
theorem issued_fmax o : Issued (.fmax o) := .of _ fun s => (execFmax.eq_1 o s).trans (float2.eq_1 ..)
theorem issued_fsetp o : Issued (.fsetp o) := .of _ fun s => execFsetp.eq_1 o s
theorem issued_frnd o : Issued (.frnd o) := .of _ fun s => execFrnd.eq_1 o s
theorem issued_fclass o : Issued (.fclass o) := .of _ fun s => execFclass.eq_1 o s
theorem issued_h2add o : Issued (.h2add o) := .of _ fun s => (execH2add.eq_1 o s).trans (packed2.eq_1 ..)
theorem issued_h2mul o : Issued (.h2mul o) := .of _ fun s => (execH2mul.eq_1 o s).trans (packed2.eq_1 ..)
theorem issued_h2fma o : Issued (.h2fma o) := .of _ fun s => execH2fma.eq_1 o s
theorem issued_h2min o : Issued (.h2min o) := .of _ fun s => (execH2min.eq_1 o s).trans (packed2.eq_1 ..)
theorem issued_h2max o : Issued (.h2max o) := .of _ fun s => (execH2max.eq_1 o s).trans (packed2.eq_1 ..)
theorem issued_h2setp o : Issued (.h2setp o) := .of _ fun s => execH2setp.eq_1 o s
theorem issued_frcp o : Issued (.frcp o) := .of _ fun s => (execFrcp.eq_1 o s).trans (sfu.eq_1 ..)
theorem issued_frsq o : Issued (.frsq o) := .of _ fun s => (execFrsq.eq_1 o s).trans (sfu.eq_1 ..)
theorem issued_fsqrt o : Issued (.fsqrt o) := .of _ fun s => (execFsqrt.eq_1 o s).trans (sfu.eq_1 ..)
theorem issued_fexp2 o : Issued (.fexp2 o) := .of _ fun s => (execFexp2.eq_1 o s).trans (sfu.eq_1 ..)
theorem issued_flog2 o : Issued (.flog2 o) := .of _ fun s => (execFlog2.eq_1 o s).trans (sfu.eq_1 ..)
theorem issued_fsin o : Issued (.fsin o) := .of _ fun s => (execFsin.eq_1 o s).trans (sfu.eq_1 ..)
theorem issued_fcos o : Issued (.fcos o) := .of _ fun s => (execFcos.eq_1 o s).trans (sfu.eq_1 ..)
theorem issued_ftanh o : Issued (.ftanh o) := .of _ fun s => (execFtanh.eq_1 o s).trans (sfu.eq_1 ..)
theorem issued_act o : Issued (.act o) := .of _ fun s => execAct.eq_1 o s
theorem issued_actld o : Issued (.actld o) := .of _ fun s => execActld.eq_1 o s
theorem issued_actsel o : Issued (.actsel o) := .of _ fun s => execActsel.eq_1 o s
theorem issued_cvt o : Issued (.cvt o) := .of _ fun s => execCvt.eq_1 o s
theorem issued_cvtq o : Issued (.cvtq o) := .of _ fun s => execCvtq.eq_1 o s
theorem issued_cvtdq o : Issued (.cvtdq o) := .of _ fun s => execCvtdq.eq_1 o s
theorem issued_mxq o : Issued (.mxq o) := .of _ fun s => execMxq.eq_1 o s
theorem issued_mxdq o : Issued (.mxdq o) := .of _ fun s => execMxdq.eq_1 o s
theorem issued_rngs o : Issued (.rngs o) := .of _ fun s => execRngs.eq_1 o s
theorem issued_shfl o : Issued (.shfl o) := .of _ fun s => execShfl.eq_1 o s
theorem issued_vote o : Issued (.vote o) := .of _ fun s => execVote.eq_1 o s
theorem issued_redl o : Issued (.redl o) := .of _ fun s => execRedl.eq_1 o s
theorem issued_scanl o : Issued (.scanl o) := .of _ fun s => execScanl.eq_1 o s
theorem issued_matchL o : Issued (.matchL o) := .of _ fun s => execMatch.eq_1 o s
theorem issued_packl o : Issued (.packl o) := .of _ fun s => execPackl.eq_1 o s
theorem issued_ld o : Issued (.ld o) := .of _ fun s => execLd.eq_1 o s
theorem issued_st o : Issued (.st o) := .of _ fun s => execSt.eq_1 o s
theorem issued_lds o : Issued (.lds o) := .of _ fun s => execLds.eq_1 o s
theorem issued_sts o : Issued (.sts o) := .of _ fun s => execSts.eq_1 o s
theorem issued_ldc o : Issued (.ldc o) := .of _ fun s => execLdc.eq_1 o s
theorem issued_uld o : Issued (.uld o) := .of _ fun s => execUld.eq_1 o s
theorem issued_atom o : Issued (.atom o) := .of _ fun s => execAtom.eq_1 o s
theorem issued_atoms o : Issued (.atoms o) := .of _ fun s => execAtoms.eq_1 o s
theorem issued_redst o : Issued (.redst o) := .of _ fun s => execRedst.eq_1 o s
theorem issued_cas o : Issued (.cas o) := .of _ fun s => execCas.eq_1 o s
theorem issued_sxsect o : Issued (.sxsect o) := .of _ fun s => execSxsect.eq_1 o s
theorem issued_cctl o : Issued (.cctl o) := .of _ fun s => execCctl.eq_1 o s
theorem issued_prefd o : Issued (.prefd o) := .of _ fun s => execPrefd.eq_1 o s
theorem issued_tcfg o : Issued (.tcfg o) := .of _ fun s => execTcfg.eq_1 o s
theorem issued_tzero o : Issued (.tzero o) := .of _ fun s => execTzero.eq_1 o s
theorem issued_tld o : Issued (.tld o) := .of _ fun s => execTld.eq_1 o s
theorem issued_tst o : Issued (.tst o) := .of _ fun s => execTst.eq_1 o s
theorem issued_ttrn o : Issued (.ttrn o) := .of _ fun s => execTtrn.eq_1 o s
theorem issued_mma o : Issued (.mma o) := .of _ fun s => (execMma.eq_1 o s).trans (mmaIssue.eq_1 ..)
theorem issued_mmas o : Issued (.mmas o) := .of _ fun s => (execMmas.eq_1 o s).trans (mmaIssue.eq_1 ..)
theorem issued_accz o : Issued (.accz o) := .of _ fun s => execAccz.eq_1 o s
theorem issued_acccvt o : Issued (.acccvt o) := .of _ fun s => execAcccvt.eq_1 o s
theorem issued_accrd o : Issued (.accrd o) := .of _ fun s => execAccrd.eq_1 o s
theorem issued_accwr o : Issued (.accwr o) := .of _ fun s => execAccwr.eq_1 o s
theorem issued_accst o : Issued (.accst o) := .of _ fun s => execAccst.eq_1 o s
theorem issued_cpy o : Issued (.cpy o) := .of _ fun s => (execCpy.eq_1 o s).trans (cpyIssue.eq_1 ..)
theorem issued_cpyg o : Issued (.cpyg o) := .of _ fun s => (execCpyg.eq_1 o s).trans (cpyIssue.eq_1 ..)
theorem issued_cpyx o : Issued (.cpyx o) := .of _ fun s => (execCpyx.eq_1 o s).trans (cpyIssue.eq_1 ..)
theorem issued_cpyc o : Issued (.cpyc o) := .of _ fun s => (execCpyc.eq_1 o s).trans (cpyIssue.eq_1 ..)
theorem issued_cpyf o : Issued (.cpyf o) := .of _ fun s => (execCpyf.eq_1 o s).trans (cpyIssue.eq_1 ..)
theorem issued_hbind o : Issued (.hbind o) := .of _ fun s => execHbind.eq_1 o s
theorem issued_hset o : Issued (.hset o) := .of _ fun s => execHset.eq_1 o s
theorem issued_hwait o : Issued (.hwait o) := .of _ fun s => execHwait.eq_1 o s
theorem issued_hrel o : Issued (.hrel o) := .of _ fun s => execHrel.eq_1 o s
theorem issued_coll o : Issued (.coll o) := .of _ fun s => execColl.eq_1 o s
theorem issued_objq o : Issued (.objq o) := .of _ fun s => execObjq.eq_1 o s
theorem issued_rqadmit o : Issued (.rqadmit o) := .of _ fun s => execRqadmit.eq_1 o s
theorem issued_rqstep o : Issued (.rqstep o) := .of _ fun s => execRqstep.eq_1 o s
theorem issued_rqretire o : Issued (.rqretire o) := .of _ fun s => execRqretire.eq_1 o s
theorem issued_rqrd o : Issued (.rqrd o) := .of _ fun s => execRqrd.eq_1 o s
theorem issued_rqwr o : Issued (.rqwr o) := .of _ fun s => execRqwr.eq_1 o s
theorem issued_rqwrEmit o : Issued (.rqwrEmit o) := .of _ fun s => execRqwrEmit.eq_1 o s
theorem issued_rqbind o : Issued (.rqbind o) := .of _ fun s => execRqbind.eq_1 o s
theorem issued_rqflagCancel o : Issued (.rqflagCancel o) := .of _ fun s => execRqflagCancel.eq_1 o s
theorem issued_rqflagFault o : Issued (.rqflagFault o) := .of _ fun s => execRqflagFault.eq_1 o s
theorem issued_rqevict o : Issued (.rqevict o) := .of _ fun s => execRqevict.eq_1 o s
theorem issued_kvapnd o : Issued (.kvapnd o) := .of _ fun s => execKvapnd.eq_1 o s
theorem issued_kvseal o : Issued (.kvseal o) := .of _ fun s => execKvseal.eq_1 o s
theorem issued_kvsel o : Issued (.kvsel o) := .of _ fun s => execKvsel.eq_1 o s
theorem issued_kvpf o : Issued (.kvpf o) := .of _ fun s => execKvpf.eq_1 o s
theorem issued_attn o : Issued (.attn o) := .of _ fun s => (execAttn.eq_1 o s).trans (attnIssue.eq_1 ..)
theorem issued_attnv o : Issued (.attnv o) := .of _ fun s => (execAttnv.eq_1 o s).trans (attnIssue.eq_1 ..)
theorem issued_attnf o : Issued (.attnf o) := .of _ fun s => execAttnf.eq_1 o s
theorem issued_kvwashReq o : Issued (.kvwashReq o) := .of _ fun s => execKvwashReq.eq_1 o s
theorem issued_kvwashPage o : Issued (.kvwashPage o) := .of _ fun s => execKvwashPage.eq_1 o s
theorem issued_kvtierHbm o : Issued (.kvtierHbm o) := .of _ fun s => execKvtierHbm.eq_1 o s
theorem issued_kvtierLp o : Issued (.kvtierLp o) := .of _ fun s => execKvtierLp.eq_1 o s
theorem issued_kvmap o : Issued (.kvmap o) := .of _ fun s => execKvmap.eq_1 o s
theorem issued_kvrebld o : Issued (.kvrebld o) := .of _ fun s => execKvrebld.eq_1 o s
theorem issued_kvfree o : Issued (.kvfree o) := .of _ fun s => execKvfree.eq_1 o s
theorem issued_pWord a b : Issued (.pWord a b) := .of _ fun s => execPWord.eq_1 a b s

/-- Every instruction of the stream is issued. -/
theorem issued_of_isWord (i : Instr) (h : i.isWord = true) : Issued i := by
  cases i
  case nop o => exact issued_nop o
  case bra o => exact issued_bra o
  case brx o => exact issued_brx o
  case bru o => exact issued_bru o
  case call o => exact issued_call o
  case ret o => exact issued_ret o
  case exit o => exact issued_exit o
  case reform o => exact issued_reform o
  case spawn o => exact issued_spawn o
  case join o => exact issued_join o
  case elect o => exact issued_elect o
  case yield o => exact issued_yield o
  case cvset o => exact issued_cvset o
  case cvsign o => exact issued_cvsign o
  case prefi o => exact issued_prefi o
  case idempBegin o => exact issued_idempBegin o
  case idempEnd o => exact issued_idempEnd o
  case trap o => exact issued_trap o
  case trapfence o => exact issued_trapfence o
  case bkpt o => exact issued_bkpt o
  case evbind o => exact issued_evbind o
  case evmask o => exact issued_evmask o
  case waitany o => exact issued_waitany o
  case evclr o => exact issued_evclr o
  case evpoll o => exact issued_evpoll o
  case evraise o => exact issued_evraise o
  case mbsend o => exact issued_mbsend o
  case mbrecv o => exact issued_mbrecv o
  case bararv o => exact issued_bararv o
  case barwt o => exact issued_barwt o
  case barsync o => exact issued_barsync o
  case diebar o => exact issued_diebar o
  case gridbar o => exact issued_gridbar o
  case waitc o => exact issued_waitc o
  case fence o => exact issued_fence o
  case iadd o => exact issued_iadd o
  case isub o => exact issued_isub o
  case iadd3 o => exact issued_iadd3 o
  case imul o => exact issued_imul o
  case imulh o => exact issued_imulh o
  case imad o => exact issued_imad o
  case imadw o => exact issued_imadw o
  case idiv o => exact issued_idiv o
  case irem o => exact issued_irem o
  case imin o => exact issued_imin o
  case imax o => exact issued_imax o
  case iabs o => exact issued_iabs o
  case ineg o => exact issued_ineg o
  case idp4 o => exact issued_idp4 o
  case and o => exact issued_and o
  case or o => exact issued_or o
  case xor o => exact issued_xor o
  case andn o => exact issued_andn o
  case not o => exact issued_not o
  case shl o => exact issued_shl o
  case shr o => exact issued_shr o
  case sar o => exact issued_sar o
  case rotl o => exact issued_rotl o
  case bfe o => exact issued_bfe o
  case bfi o => exact issued_bfi o
  case popc o => exact issued_popc o
  case clz o => exact issued_clz o
  case ctz o => exact issued_ctz o
  case brev o => exact issued_brev o
  case prmt o => exact issued_prmt o
  case isetp o => exact issued_isetp o
  case isel o => exact issued_isel o
  case lea o => exact issued_lea o
  case iadd64 o => exact issued_iadd64 o
  case mov o => exact issued_mov o
  case movi o => exact issued_movi o
  case movs o => exact issued_movs o
  case movu o => exact issued_movu o
  case plop3 o => exact issued_plop3 o
  case pmov o => exact issued_pmov o
  case uadd o => exact issued_uadd o
  case usub o => exact issued_usub o
  case umul o => exact issued_umul o
  case uand o => exact issued_uand o
  case uor o => exact issued_uor o
  case uxor o => exact issued_uxor o
  case ushl o => exact issued_ushl o
  case ushr o => exact issued_ushr o
  case umov o => exact issued_umov o
  case umovi o => exact issued_umovi o
  case usel o => exact issued_usel o
  case ucmp o => exact issued_ucmp o
  case ufrom o => exact issued_ufrom o
  case ulea o => exact issued_ulea o
  case movc o => exact issued_movc o
  case movcw o => exact issued_movcw o
  case clkr o => exact issued_clkr o
  case perfr o => exact issued_perfr o
  case ecall o => exact issued_ecall o
  case launch o => exact issued_launch o
  case fadd o => exact issued_fadd o
  case fsub o => exact issued_fsub o
  case fmul o => exact issued_fmul o
  case ffma o => exact issued_ffma o
  case fmin o => exact issued_fmin o
  case fmax o => exact issued_fmax o
  case fsetp o => exact issued_fsetp o
  case frnd o => exact issued_frnd o
  case fclass o => exact issued_fclass o
  case h2add o => exact issued_h2add o
  case h2mul o => exact issued_h2mul o
  case h2fma o => exact issued_h2fma o
  case h2min o => exact issued_h2min o
  case h2max o => exact issued_h2max o
  case h2setp o => exact issued_h2setp o
  case frcp o => exact issued_frcp o
  case frsq o => exact issued_frsq o
  case fsqrt o => exact issued_fsqrt o
  case fexp2 o => exact issued_fexp2 o
  case flog2 o => exact issued_flog2 o
  case fsin o => exact issued_fsin o
  case fcos o => exact issued_fcos o
  case ftanh o => exact issued_ftanh o
  case act o => exact issued_act o
  case actld o => exact issued_actld o
  case actsel o => exact issued_actsel o
  case cvt o => exact issued_cvt o
  case cvtq o => exact issued_cvtq o
  case cvtdq o => exact issued_cvtdq o
  case mxq o => exact issued_mxq o
  case mxdq o => exact issued_mxdq o
  case rngs o => exact issued_rngs o
  case shfl o => exact issued_shfl o
  case vote o => exact issued_vote o
  case redl o => exact issued_redl o
  case scanl o => exact issued_scanl o
  case matchL o => exact issued_matchL o
  case packl o => exact issued_packl o
  case ld o => exact issued_ld o
  case st o => exact issued_st o
  case lds o => exact issued_lds o
  case sts o => exact issued_sts o
  case ldc o => exact issued_ldc o
  case uld o => exact issued_uld o
  case atom o => exact issued_atom o
  case atoms o => exact issued_atoms o
  case redst o => exact issued_redst o
  case cas o => exact issued_cas o
  case sxsect o => exact issued_sxsect o
  case cctl o => exact issued_cctl o
  case prefd o => exact issued_prefd o
  case tcfg o => exact issued_tcfg o
  case tzero o => exact issued_tzero o
  case tld o => exact issued_tld o
  case tst o => exact issued_tst o
  case ttrn o => exact issued_ttrn o
  case mma o => exact issued_mma o
  case mmas o => exact issued_mmas o
  case accz o => exact issued_accz o
  case acccvt o => exact issued_acccvt o
  case accrd o => exact issued_accrd o
  case accwr o => exact issued_accwr o
  case accst o => exact issued_accst o
  case cpy o => exact issued_cpy o
  case cpyg o => exact issued_cpyg o
  case cpyx o => exact issued_cpyx o
  case cpyc o => exact issued_cpyc o
  case cpyf o => exact issued_cpyf o
  case hbind o => exact issued_hbind o
  case hset o => exact issued_hset o
  case hwait o => exact issued_hwait o
  case hrel o => exact issued_hrel o
  case coll o => exact issued_coll o
  case objq o => exact issued_objq o
  case rqadmit o => exact issued_rqadmit o
  case rqstep o => exact issued_rqstep o
  case rqretire o => exact issued_rqretire o
  case rqrd o => exact issued_rqrd o
  case rqwr o => exact issued_rqwr o
  case rqwrEmit o => exact issued_rqwrEmit o
  case rqbind o => exact issued_rqbind o
  case rqflagCancel o => exact issued_rqflagCancel o
  case rqflagFault o => exact issued_rqflagFault o
  case rqevict o => exact issued_rqevict o
  case kvapnd o => exact issued_kvapnd o
  case kvseal o => exact issued_kvseal o
  case kvsel o => exact issued_kvsel o
  case kvpf o => exact issued_kvpf o
  case attn o => exact issued_attn o
  case attnv o => exact issued_attnv o
  case attnf o => exact issued_attnf o
  case kvwashReq o => exact issued_kvwashReq o
  case kvwashPage o => exact issued_kvwashPage o
  case kvtierHbm o => exact issued_kvtierHbm o
  case kvtierLp o => exact issued_kvtierLp o
  case kvmap o => exact issued_kvmap o
  case kvrebld o => exact issued_kvrebld o
  case kvfree o => exact issued_kvfree o
  case pWord a b => exact issued_pWord a b
  all_goals cases h

end Sys2Proof.Machine
end

