-- ==== Sys2Proof/Tests/Slice0.lean ====
section
/-! SUPPORT. Tests of the model. Expected values are the spec's: its worked tables and examples, or words and results written out by
hand from its encodings and rules. The witnesses show a state and operands that meet the hypotheses of the statements. -/

namespace Sys2Proof.Tests

open Sys2Proof Sys2Proof.Machine

/-! The tests are checked one after another: each is one long evaluation by the kernel. -/
set_option Elab.async false

/-! ## A small machine: one team of one group on core 0, whose first lane stands at 0x20000 -/

def hd0 : Hdr := ⟨0, false, 127⟩
def r0 : GRef := ⟨1, 0⟩
/-- The state in which the group is selected. -/
def w0 : State := { State.reset.withFetchWord 64 0x0000FE0000000000 with cur := some r0, agenda := [] }
/-- The same with changes to the team, the group, its lane or its context. -/
def wTeam (f : Team → Team) : State := w0.updTeam 1 f
def wDecl (f : Decl → Decl) : State := wTeam (fun t => { t with decl := f t.decl })
def wGroup (f : Group → Group) : State := w0.updGroup r0 f
def wCtx (f : Ctx → Ctx) : State := w0.updCtx 0 f
/-- Lanes 0 to n − 1 live at the same place. -/
def wLanes (n : Nat) (f : Nat → Thread → Thread) : State :=
  wGroup (fun g => { g with lanes := (List.range n).map (fun l => (l, f l { pc := 0x20000, tid := BitVec.ofNat 32 l, st := .live })) })

def a1 : Alu1 := ⟨hd0, 4, 5, false⟩
def a2 : Alu2 := ⟨hd0, 4, 5, .v 6, false, false⟩
def a3 : Alu3 := ⟨hd0, 4, 6, .v 8, 10, false, false⟩
def u2 : U2 := ⟨hd0, 4, 5, .s 6, false⟩
def f2 : F2 := ⟨hd0, 4, 5, .v 6, 0⟩
def un : Un := ⟨hd0, 4, 5⟩
def q2 : OpH2 := ⟨hd0, 4, 5, .v 6, false⟩
def op0 : Op0 := ⟨hd0⟩
def opI : OpI := ⟨hd0, 0⟩
def opV : OpV := ⟨hd0, 4⟩
def sd : OpSd := ⟨hd0, 4, 5⟩
def sss : OpSSS := ⟨hd0, 4, 5, 6⟩
def atomOp : OpAtom := ⟨hd0, 4, 6, .v 8, 0, 0, false, 0, 0⟩
def memOp : OpMem := ⟨hd0, 4, .off 6 0, 0, false⟩
def ldsOp : OpLds := ⟨hd0, 4, 6, 0, 0, false⟩
def mmaOp : OpMma := ⟨hd0, 0, false, 0, false, 1, 1, 1, 1, 0, false, 4, 0, 0, 0, false, false, 0, false, 0, 0, 0⟩
def cpyOp : OpCpy := ⟨hd0, 4, 0, 0, 5, 6, false, 1, 0, 0, 0, 0, 0, 0⟩
def attnOp : OpAttn := ⟨hd0, 0, 0, 5, 1, 0, 0, false, 4, 0, 0⟩
def redlOp : OpRedl := ⟨hd0, 4, 5, 0, 0, false⟩
def setpOp : OpSetp := ⟨hd0, 3, 5, .v 6, false, 0, 0⟩

def wordsA : List Instr := [.nop op0, .bra opI, .brx opV, .bru ⟨hd0, .imm 0⟩, .call ⟨hd0, 4, .rel 0⟩, .ret opV, .exit op0, .reform op0, .spawn ⟨hd0, .imm 0⟩, .join op0, .elect ⟨hd0, 3⟩, .yield op0,
   .cvset ⟨hd0, 0, .imm 1⟩, .cvsign ⟨hd0, 0⟩, .prefi ⟨hd0, 0, 1⟩, .idempBegin op0, .idempEnd op0, .trap opI, .trapfence op0, .bkpt opI,
   .evbind ⟨hd0, 0, 5, 0, 7⟩, .evmask ⟨hd0, 0, .imm 1⟩, .waitany ⟨hd0, 1, false, 0⟩, .evclr ⟨hd0, .imm 1⟩, .evpoll ⟨hd0, 4, .imm 1⟩, .evraise ⟨hd0, 4, 5⟩, .mbsend sss, .mbrecv ⟨hd0, 4, 0, 3⟩,
   .bararv ⟨hd0, 4, 0⟩, .barwt ⟨hd0, 0⟩, .barsync ⟨hd0, 0⟩, .diebar ⟨hd0, 0⟩, .gridbar op0, .waitc ⟨hd0, 0, 0⟩, .fence ⟨hd0, 1, 2⟩]
def wordsB : List Instr := [.iadd a2, .isub a2, .iadd3 a3, .imul a2, .imulh a2, .imad a3, .imadw a3, .idiv a2, .irem a2, .imin a2, .imax a2, .iabs a1, .ineg a1, .idp4 ⟨hd0, 4, 5, .v 6, 7, false, false, false⟩, .and a2, .or a2, .xor a2, .andn a2, .not a1, .shl a2, .shr a2, .sar a2, .rotl a2, .bfe a2, .bfi a3, .popc a1, .clz a1, .ctz a1, .brev a1, .prmt a3, .isetp setpOp, .isel ⟨hd0, 4, 5, .v 6, 3⟩, .lea ⟨hd0, 4, 5, .v 6, false, 3⟩, .iadd64 ⟨hd0, 4, 6, .v 8, false⟩, .mov a1, .movi ⟨hd0, 4, 7, false, false⟩, .movs ⟨hd0, 4, 1⟩, .movu ⟨hd0, 4, 5, false⟩, .plop3 ⟨hd0, 3, 4, 5, 6, 0, 0⟩, .pmov ⟨hd0, 4, false, 0⟩,
   .uadd u2, .usub u2, .umul u2, .uand u2, .uor u2, .uxor u2, .ushl u2, .ushr u2, .umov sd, .umovi ⟨hd0, 4, 5⟩, .usel ⟨hd0, 4, 5, 6, 7⟩, .ucmp ⟨hd0, 4, 5, .s 6, false, 2⟩, .ufrom ⟨hd0, 4, 5, false⟩, .ulea ⟨hd0, 4, 5, 6, 3⟩, .movc ⟨hd0, 4, 0⟩, .movcw ⟨hd0, 0, .imm 1⟩, .clkr ⟨hd0, 4, false⟩, .perfr ⟨hd0, 4, 0⟩, .ecall ⟨hd0, 4, 5, 7⟩,
   .launch ⟨hd0, 5, 6, 4, 0, false, 1, 0, 0, 0, 0, 0, 0⟩]
def wordsC : List Instr := [.fadd f2, .fsub f2, .fmul f2, .ffma ⟨hd0, 4, 5, .v 6, 7, 0⟩, .fmin f2, .fmax f2, .fsetp setpOp, .frnd ⟨hd0, 4, 5, 0⟩, .fclass un, .h2add q2, .h2mul q2, .h2fma ⟨hd0, 4, 5, .v 6, 7, false⟩, .h2min q2, .h2max q2, .h2setp ⟨hd0, 3, 5, .v 6, false, 2⟩, .frcp un, .frsq un, .fsqrt un, .fexp2 un, .flog2 un, .fsin un, .fcos un, .ftanh un, .act un, .actld sd, .actsel opI,
   .cvt ⟨hd0, 4, 5, 1, 0, 0, 0, false⟩, .cvtq ⟨hd0, 4, 5, .v 6, 0, 2, 0, false⟩, .cvtdq ⟨hd0, 4, 5, .v 6, 2, 0⟩, .mxq ⟨hd0, 4, 6, 0, 4, false⟩, .mxdq ⟨hd0, 4, 5, .v 6, 4, false⟩, .rngs ⟨hd0, 4, 5, .v 6⟩, .shfl ⟨hd0, 4, 5, .imm 1, 1, false, false, 0⟩, .vote ⟨hd0, 4, 127, 0⟩, .redl redlOp, .scanl redlOp, .matchL ⟨hd0, 4, 5, false, false⟩, .packl ⟨hd0, 4, 5, 127, true, 7⟩,
   .ld memOp, .st memOp, .lds ldsOp, .sts ldsOp, .ldc ⟨hd0, 4, 6, 0, 0, false⟩, .uld ⟨hd0, 4, 6, 0, false⟩, .atom atomOp, .atoms atomOp, .redst ⟨hd0, 6, .v 8, 0, 0, 3⟩, .cas ⟨hd0, 4, 6, .v 8, 9, false, 0, 0⟩, .sxsect ⟨hd0, 4, 6, 8, 10, false, false, 0⟩, .cctl ⟨hd0, 6, 0, false⟩, .prefd ⟨hd0, 6, 0⟩]
def wordsD : List Instr := [.tcfg ⟨hd0, 0, 5⟩, .tzero ⟨hd0, 0⟩, .tld ⟨hd0, 0, 5⟩, .tst ⟨hd0, 0, 5⟩, .ttrn ⟨hd0, 0, 1⟩, .mma mmaOp, .mmas mmaOp, .accz ⟨hd0, 4, 0⟩, .acccvt ⟨hd0, 0, true, 5, 1, 1, 4, 0, 2, 0⟩, .accrd ⟨hd0, 4, 0, .v 6⟩, .accwr ⟨hd0, 0, 5, .v 6⟩, .accst ⟨hd0, 4, 0, 5, 6⟩,
   .cpy cpyOp, .cpyg cpyOp, .cpyx cpyOp, .cpyc cpyOp, .cpyf cpyOp, .hbind ⟨hd0, 0, 5⟩, .hset ⟨hd0, 3, 2⟩, .hwait ⟨hd0, 3, 2⟩, .hrel ⟨hd0, 3⟩, .coll { cpyOp with sloc := 0, ndm1 := 0 }, .objq ⟨hd0, 4, 5, 0, 0, false⟩,
   .rqadmit sd, .rqstep ⟨hd0, 4⟩, .rqretire sd, .rqrd ⟨hd0, 4, 5, 0x40⟩, .rqwr ⟨hd0, 4, 5, 0x40, false⟩, .rqwrEmit ⟨hd0, 4, 5⟩, .rqbind ⟨hd0, 4, false⟩, .rqflagCancel ⟨hd0, 5⟩, .rqflagFault ⟨hd0, 5, 1⟩, .rqevict ⟨hd0, 5⟩,
   .kvapnd ⟨hd0, 4, 5, 6, 0, 1⟩, .kvseal sd, .kvsel ⟨hd0, 4, 5, 6, 7, 0, false, 0, 0, 0⟩, .kvpf ⟨hd0, 4, 5, 6, 0, 3, 3, true, 0, 3⟩, .attn attnOp, .attnv attnOp, .attnf ⟨hd0, 4, 0, 5, 6⟩, .kvwashReq sd, .kvwashPage sd, .kvtierHbm sd, .kvtierLp sd, .kvmap sss, .kvrebld sd, .kvfree sd,
   .pWord ⟨.iadd, 0, 4, 9, 0⟩ ⟨.fmul, 0, 1, 6, 0⟩]
def allWords : List Instr := wordsA ++ wordsB ++ wordsC ++ wordsD


/-! ## Decoding: a word of every instruction, written from R179 to R194, R204 and the field tables of the instruction chapters -/

/-- STALL 9, guard !p5. -/
def hd1 : Hdr := ⟨9, true, 5⟩
def decodesTo (w0 w1 : Nat) (i : Instr) : Bool := decide (decode Limits.most w0 w1 = .ok i)


def wordsOf1 : List (Nat × Nat × Instr) := [
  (0x130A0000000000, 0x0, .nop ⟨hd1⟩),
  (0x330A0000246900, 0x0, .bra ⟨hd1, 0x1234⟩),
  (0x530A0044000000, 0x0, .brx ⟨hd1, 0x22⟩),
  (0x730A0001000300, 0x0, .bru ⟨hd1, .imm 0x8001⟩),
  (0x730A00004A0080, 0x0, .bru ⟨hd1, .s 37⟩),
  (0x930A1400009B00, 0x0, .call ⟨hd1, 10, .rel 77⟩),
  (0x930A1404000000, 0x0, .call ⟨hd1, 10, .v 2⟩),
  (0xB30A0014000000, 0x0, .ret ⟨hd1, 10⟩),
  (0xD30A0000000000, 0x0, .exit ⟨hd1⟩),
  (0xF30A0000000000, 0x0, .reform ⟨hd1⟩),
  (0x1130A00000A0080, 0x0, .spawn ⟨hd1, .s 5⟩),
  (0x1330A0000000000, 0x0, .join ⟨hd1⟩),
  (0x1530A0400000000, 0x0, .elect ⟨hd1, 2⟩),
  (0x1730A0000000000, 0x0, .yield ⟨hd1⟩),
  (0x1930A0400004300, 0x0, .cvset ⟨hd1, 2, .imm 33⟩),
  (0x1B30A0400000000, 0x0, .cvsign ⟨hd1, 2⟩),
  (0x1D30A1E00000D00, 0x0, .prefi ⟨hd1, 6, 15⟩),
  (0x1F30A0000000000, 0x0, .idempBegin ⟨hd1⟩),
  (0x1F30A0000000001, 0x0, .idempEnd ⟨hd1⟩),
  (0x2130A0000000F00, 0x0, .trap ⟨hd1, 7⟩),
  (0x2330A0000000000, 0x0, .trapfence ⟨hd1⟩),
  (0x2530A0000000700, 0x0, .bkpt ⟨hd1, 3⟩),
  (0x3130A1608001305, 0x0, .evbind ⟨hd1, 11, 4, 9, 5⟩),
  (0x3330A0000000501, 0x0, .evmask ⟨hd1, 1, .imm 2⟩),
  (0x83530A0017000000, 0x1388, .waitany ⟨hd1, 0x000B, true, 5000⟩),
  (0x3730A0000080080, 0x0, .evclr ⟨hd1, .s 4⟩),
  (0x3930A1200001700, 0x0, .evpoll ⟨hd1, 9, .imm 0x000B⟩),
  (0x3B30A00080A0000, 0x0, .evraise ⟨hd1, 4, 5⟩),
  (0x4130A10080A0000, 0x0, .mbsend ⟨hd1, 8, 4, 5⟩),
  (0x4330A1228040000, 0x0, .mbrecv ⟨hd1, 9, 20, 2⟩),
  (0x4930A0E06000000, 0x0, .bararv ⟨hd1, 7, 3⟩),
  (0x4B30A0006000000, 0x0, .barwt ⟨hd1, 3⟩),
  (0x4D30A001A000000, 0x0, .barsync ⟨hd1, 13⟩),
  (0x4F30A0002000000, 0x0, .diebar ⟨hd1, 1⟩),
  (0x5130A0000000000, 0x0, .gridbar ⟨hd1⟩),
  (0x5930A0000000501, 0x0, .waitc ⟨hd1, 1, 2⟩),
  (0x5B30A0000000009, 0x0, .fence ⟨hd1, 1, 2⟩)]

def wordsOf2 : List (Nat × Nat × Instr) := [
  (0x8130B900AD40003, 0x0, .iadd ⟨hd1, 200, 5, .v 106, true, true⟩),
  (0x8330A099BFFFB03, 0x0, .isub ⟨hd1, 4, 205, .imm 0xFFFD, true, true⟩),
  (0x8730A080A7A0083, 0x0, .imul ⟨hd1, 4, 5, .s 61, true, true⟩),
  (0x8930B900AD40001, 0x0, .imulh ⟨hd1, 200, 5, .v 106, true, false⟩),
  (0x8F30A099BFFFB01, 0x0, .idiv ⟨hd1, 4, 205, .imm 0xFFFD, true, false⟩),
  (0x9130A080A7A0081, 0x0, .irem ⟨hd1, 4, 5, .s 61, true, false⟩),
  (0x9330B900AD40001, 0x0, .imin ⟨hd1, 200, 5, .v 106, true, false⟩),
  (0x9530A099BFFFB01, 0x0, .imax ⟨hd1, 4, 205, .imm 0xFFFD, true, false⟩),
  (0xA130A080A7A0080, 0x0, .and ⟨hd1, 4, 5, .s 61, false, false⟩),
  (0xA330B900AD40000, 0x0, .or ⟨hd1, 200, 5, .v 106, false, false⟩),
  (0xA530A099BFFFB00, 0x0, .xor ⟨hd1, 4, 205, .imm 0xFFFD, false, false⟩),
  (0xA730A080A7A0080, 0x0, .andn ⟨hd1, 4, 5, .s 61, false, false⟩),
  (0xAB30B900AD40000, 0x0, .shl ⟨hd1, 200, 5, .v 106, false, false⟩),
  (0xAD30A099BFFFB00, 0x0, .shr ⟨hd1, 4, 205, .imm 0xFFFD, false, false⟩),
  (0xAF30A080A7A0080, 0x0, .sar ⟨hd1, 4, 5, .s 61, false, false⟩),
  (0xB130B900AD40000, 0x0, .rotl ⟨hd1, 200, 5, .v 106, false, false⟩),
  (0xB330A099BFFFB01, 0x0, .bfe ⟨hd1, 4, 205, .imm 0xFFFD, true, false⟩),
  (0x8530A080A0C0E03, 0x0, .iadd3 ⟨hd1, 4, 5, .v 6, 7, true, true⟩),
  (0x8B30A080A0C0E02, 0x0, .imad ⟨hd1, 4, 5, .v 6, 7, false, true⟩),
  (0xB530A080A0C0E00, 0x0, .bfi ⟨hd1, 4, 5, .v 6, 7, false, false⟩),
  (0xBF30A080A0C0E00, 0x0, .prmt ⟨hd1, 4, 5, .v 6, 7, false, false⟩),
  (0x8D30A080C0E1001, 0x0, .imadw ⟨hd1, 4, 6, .v 7, 8, true, false⟩),
  (0x9730A080A000002, 0x0, .iabs ⟨hd1, 4, 5, true⟩),
  (0x9930A080A000000, 0x0, .ineg ⟨hd1, 4, 5, false⟩),
  (0xA930A080A000000, 0x0, .not ⟨hd1, 4, 5, false⟩),
  (0xB730A080A000000, 0x0, .popc ⟨hd1, 4, 5, false⟩),
  (0xB930A080A000000, 0x0, .clz ⟨hd1, 4, 5, false⟩),
  (0xBB30A080A000000, 0x0, .ctz ⟨hd1, 4, 5, false⟩),
  (0xBD30A080A000000, 0x0, .brev ⟨hd1, 4, 5, false⟩),
  (0xC930A080A000000, 0x0, .mov ⟨hd1, 4, 5, false⟩),
  (0x9B30A080A0C0E05, 0x0, .idp4 ⟨hd1, 4, 5, .v 6, 7, true, false, true⟩),
  (0xC130A040A0C0048, 0x0, .isetp ⟨hd1, 2, 5, .v 6, false, 2, 2⟩),
  (0xC330A080A0C0600, 0x0, .isel ⟨hd1, 4, 5, .v 6, 3⟩),
  (0xC530A080C100009, 0x0, .lea ⟨hd1, 4, 6, .v 8, true, 2⟩),
  (0xC730A080C100000, 0x0, .iadd64 ⟨hd1, 4, 6, .v 8, false⟩),
  (0xCB30A0800ACF104, 0x0, .movi ⟨hd1, 4, 0x5678, false, true⟩),
  (0xCD30A0818000000, 0x0, .movs ⟨hd1, 4, 12⟩),
  (0xCF30A080A000004, 0x0, .movu ⟨hd1, 4, 5, true⟩),
  (0xD130A0406080A12, 0x0, .plop3 ⟨hd1, 2, 3, 4, 5, 2, 2⟩),
  (0xD330A0800000008, 0x0, .pmov ⟨hd1, 4, false, 1⟩),
  (0xD330A000800001C, 0x0, .pmov ⟨hd1, 4, true, 3⟩),
  (0x10130A580A0C0000, 0x0, .uadd ⟨hd1, 44, 5, .s 6, false⟩),
  (0x10330A086E01FF01, 0x0, .usub ⟨hd1, 4, 55, .imm 0xFF, true⟩),
  (0x10530A580A0C0000, 0x0, .umul ⟨hd1, 44, 5, .s 6, false⟩),
  (0x10730A086E01FF01, 0x0, .uand ⟨hd1, 4, 55, .imm 0xFF, true⟩),
  (0x10930A580A0C0000, 0x0, .uor ⟨hd1, 44, 5, .s 6, false⟩),
  (0x10B30A086E01FF01, 0x0, .uxor ⟨hd1, 4, 55, .imm 0xFF, true⟩),
  (0x10D30A580A0C0000, 0x0, .ushl ⟨hd1, 44, 5, .s 6, false⟩),
  (0x10F30A086E01FF01, 0x0, .ushr ⟨hd1, 4, 55, .imm 0xFF, true⟩),
  (0x11130A080A000000, 0x0, .umov ⟨hd1, 4, 5⟩),
  (0x91330A0800000000, 0x123456789ABCDEF, .umovi ⟨hd1, 4, 0x0123456789ABCDEF⟩),
  (0x11530A080A0C0E00, 0x0, .usel ⟨hd1, 4, 5, 6, 7⟩),
  (0x11730A080A0C0009, 0x0, .ucmp ⟨hd1, 4, 5, .s 6, true, 2⟩),
  (0x11930A080C000004, 0x0, .ufrom ⟨hd1, 4, 6, true⟩),
  (0x11B30A080A0C000C, 0x0, .ulea ⟨hd1, 4, 5, 6, 3⟩),
  (0x14130A0802000000, 0x0, .movc ⟨hd1, 4, 1⟩),
  (0x14330A0208000000, 0x0, .movcw ⟨hd1, 1, .s 4⟩),
  (0x14330A0800000300, 0x0, .movcw ⟨hd1, 4, .imm 1⟩),
  (0x14530A0800000004, 0x0, .clkr ⟨hd1, 4, true⟩),
  (0x14730A0802000000, 0x0, .perfr ⟨hd1, 4, 1⟩),
  (0x14930A080A002300, 0x0, .ecall ⟨hd1, 4, 5, 17⟩),
  (0x94B30A30E42589D0, 0x81071234, .launch ⟨hd1, 6, 7, 8, 1, false, 5, 2, 9, 3, 2, 0x1234, 0x8107⟩)]

def wordsOf3 : List (Nat × Nat × Instr) := [
  (0x18130A080A0C0001, 0x0, .fadd ⟨hd1, 4, 5, .v 6, 1⟩),
  (0x18330A080A7E0102, 0x0, .fsub ⟨hd1, 4, 5, .imm 0x3F00, 2⟩),
  (0x18530A080A500083, 0x0, .fmul ⟨hd1, 4, 5, .s 40, 3⟩),
  (0x18730A0802040600, 0x0, .ffma ⟨hd1, 4, 1, .v 2, 3, 0⟩),
  (0x18930A080A0C0000, 0x0, .fmin ⟨hd1, 4, 5, .v 6, 0⟩),
  (0x18B30A080A7F0100, 0x0, .fmax ⟨hd1, 4, 5, .imm 0x3F80, 0⟩),
  (0x18D30A040A0C003C, 0x0, .fsetp ⟨hd1, 2, 5, .v 6, false, 7, 1⟩),
  (0x18F30A080A000002, 0x0, .frnd ⟨hd1, 4, 5, 2⟩),
  (0x19130A080A000000, 0x0, .fclass ⟨hd1, 4, 5⟩),
  (0x19930A080A0C0000, 0x0, .h2add ⟨hd1, 4, 5, .v 6, false⟩),
  (0x19B30A080A0C0001, 0x0, .h2mul ⟨hd1, 4, 5, .v 6, true⟩),
  (0x19D30A080A0C0E01, 0x0, .h2fma ⟨hd1, 4, 5, .v 6, 7, true⟩),
  (0x19F30A080A780101, 0x0, .h2min ⟨hd1, 4, 5, .imm 0x3C00, true⟩),
  (0x1A130A080A0C0080, 0x0, .h2max ⟨hd1, 4, 5, .s 6, false⟩),
  (0x1A330A040A0C0014, 0x0, .h2setp ⟨hd1, 2, 5, .v 6, false, 5⟩),
  (0x1A930A080A000000, 0x0, .frcp ⟨hd1, 4, 5⟩),
  (0x1AB30A080A000000, 0x0, .frsq ⟨hd1, 4, 5⟩),
  (0x1AD30A080A000000, 0x0, .fsqrt ⟨hd1, 4, 5⟩),
  (0x1AF30A080A000000, 0x0, .fexp2 ⟨hd1, 4, 5⟩),
  (0x1B130A080A000000, 0x0, .flog2 ⟨hd1, 4, 5⟩),
  (0x1B330A080A000000, 0x0, .fsin ⟨hd1, 4, 5⟩),
  (0x1B530A080A000000, 0x0, .fcos ⟨hd1, 4, 5⟩),
  (0x1B730A080A000000, 0x0, .ftanh ⟨hd1, 4, 5⟩),
  (0x1B930A080A000000, 0x0, .act ⟨hd1, 4, 5⟩),
  (0x1BB30A080A000000, 0x0, .actld ⟨hd1, 4, 5⟩),
  (0x1BD30A0000000300, 0x0, .actsel ⟨hd1, 1⟩),
  (0x1C130A080A040C04, 0x0, .cvt ⟨hd1, 4, 5, 2, 0, 6, 4, false⟩),
  (0x1C330A080A0C0E52, 0x0, .cvtq ⟨hd1, 4, 5, .v 6, 7, 2, 2, true⟩),
  (0x1C530A080A0C003E, 0x0, .cvtdq ⟨hd1, 4, 5, .v 6, 6, 7⟩),
  (0x1C730A080C000E19, 0x0, .mxq ⟨hd1, 4, 6, 7, 9, true⟩),
  (0x1C930A080A0C0019, 0x0, .mxdq ⟨hd1, 4, 5, .v 6, 9, true⟩),
  (0x1CB30A080A0C0000, 0x0, .rngs ⟨hd1, 4, 5, .v 6⟩),
  (0x20130A080A06040A, 0x0, .shfl ⟨hd1, 4, 5, .v 3, 2, false, true, 2⟩),
  (0x20330A0806000001, 0x0, .vote ⟨hd1, 4, 3, 1⟩),
  (0x20530A080A000011, 0x0, .redl ⟨hd1, 4, 5, 1, 2, false⟩),
  (0x20730A0E0C000028, 0x0, .scanl ⟨hd1, 7, 6, 0, 1, true⟩),
  (0x20930A080C000001, 0x0, .matchL ⟨hd1, 4, 6, true, false⟩),
  (0x20B30A080A060C01, 0x0, .packl ⟨hd1, 4, 5, 3, true, 6⟩),
  (0x24130A0804001108, 0x0, .ld ⟨hd1, 4, .off 2 8, 2, false⟩),
  (0x24330A0C0E09F0A3, 0x0, .st ⟨hd1, 6, .idx 4 7 3 0xF8, 0, true⟩),
  (0x24130A0804246840, 0x0, .ld ⟨hd1, 4, .split 2 0x1234, 0, false⟩),
  (0x24530A080A008114, 0x0, .lds ⟨hd1, 4, 5, 0x40, 5, false⟩),
  (0x24730A080A008120, 0x0, .sts ⟨hd1, 4, 5, 0x40, 0, true⟩),
  (0x24930A080A002130, 0x0, .ldc ⟨hd1, 4, 5, 16, 3, false⟩),
  (0x24B30A0804001101, 0x0, .uld ⟨hd1, 4, 2, 8, true⟩),
  (0x25130A1004121020, 0x0, .atom ⟨hd1, 8, 2, .v 9, 0, 4, false, 0, 2⟩),
  (0x25330A000A12024F, 0x0, .atoms ⟨hd1, 0, 5, .v 9, 7, 1, true, 1, 0⟩),
  (0x25530A0004122019, 0x0, .redst ⟨hd1, 2, .v 9, 1, 3, 4⟩),
  (0x25730A08040C101F, 0x0, .cas ⟨hd1, 4, 2, .v 6, 8, true, 3, 3⟩),
  (0x26130A080C10141E, 0x0, .sxsect ⟨hd1, 4, 6, 8, 10, false, true, 7⟩),
  (0x27130A0004000005, 0x0, .cctl ⟨hd1, 2, 1, true⟩),
  (0x27330A0004000001, 0x0, .prefd ⟨hd1, 2, 1⟩)]

def wordsOf4 : List (Nat × Nat × Instr) := [
  (0x2C130A040A000000, 0x0, .tcfg ⟨hd1, 2, 5⟩),
  (0x2C330A0400000000, 0x0, .tzero ⟨hd1, 2⟩),
  (0x2C530A0408000000, 0x0, .tld ⟨hd1, 2, 4⟩),
  (0x2C730A0008040000, 0x0, .tst ⟨hd1, 2, 4⟩),
  (0x2C930A0604000000, 0x0, .ttrn ⟨hd1, 3, 2⟩),
  (0xAD130A82C2880407, 0x2888D2E600000000, .mma ⟨hd1, 1, false, 2, true, 33, 8, 16, 8, 3, true, 10, 2, 2, 3, false, true, 11, true, 12, 0, 0⟩),
  (0xAD330B680A110180, 0xFFEAE00046800000, .mmas ⟨hd1, 2, true, 40, false, 5, 1, 2, 3, 0, false, 63, 15, 10, 11, true, false, 0, false, 0, 2, 13⟩),
  (0x2D530A1402000000, 0x0, .accz ⟨hd1, 10, 1⟩),
  (0xAD730BC4004C0000, 0x28C0000040000000, .acccvt ⟨hd1, 3, true, 4, 4, 24, 10, 3, 0, 2⟩),
  (0x2D930A08020A0000, 0x0, .accrd ⟨hd1, 4, 1, .v 5⟩),
  (0x2DB30A020A0C0080, 0x0, .accwr ⟨hd1, 1, 5, .s 6⟩),
  (0x2DD30A1404080A00, 0x0, .accst ⟨hd1, 10, 2, 4, 5⟩),
  (0xB4130A5111052000, 0x1234030000000000, .cpy ⟨hd1, 10, 2, 1, 4, 5, false, 2, 0, 4660, 0, 12, 0, 0⟩),
  (0xB4330A5101059000, 0x848B00000000, .cpyg ⟨hd1, 10, 2, 0, 4, 5, true, 1, 0, 0, 33, 2, 0, 44⟩),
  (0xB4530A5101051200, 0x7008000000000, .cpyx ⟨hd1, 10, 2, 0, 4, 5, false, 1, 2, 7, 0, 2, 0, 0⟩),
  (0xB4730A5111051100, 0x7008000000000, .cpyc ⟨hd1, 10, 2, 1, 4, 5, false, 1, 1, 7, 0, 2, 0, 0⟩),
  (0xB4930A5121051000, 0x8B00000000, .cpyf ⟨hd1, 10, 2, 2, 4, 5, false, 1, 0, 0, 0, 2, 0, 44⟩),
  (0x35130A0608000000, 0x0, .hbind ⟨hd1, 3, 4⟩),
  (0x35330A0600000002, 0x0, .hset ⟨hd1, 3, 2⟩),
  (0x35530A4200000003, 0x0, .hwait ⟨hd1, 33, 3⟩),
  (0x35730A7E00000000, 0x0, .hrel ⟨hd1, 63⟩),
  (0xB6130A5100050100, 0x2000000000, .coll ⟨hd1, 10, 2, 0, 0, 5, false, 0, 1, 0, 0, 0, 2, 0⟩),
  (0x36330A0806000500, 0x0, .objq ⟨hd1, 4, 3, 2, 0, false⟩),
  (0x38130A080A000000, 0x0, .rqadmit ⟨hd1, 4, 5⟩),
  (0x38330A0800000000, 0x0, .rqstep ⟨hd1, 4⟩),
  (0x38530A080A000000, 0x0, .rqretire ⟨hd1, 4, 5⟩),
  (0x38730A080A00F100, 0x0, .rqrd ⟨hd1, 4, 5, 0x78⟩),
  (0x38930A000A0C9001, 0x0, .rqwr ⟨hd1, 5, 6, 0x48, true⟩),
  (0x38930A000A0C0002, 0x0, .rqwrEmit ⟨hd1, 5, 6⟩),
  (0x38B30A0008000000, 0x0, .rqbind ⟨hd1, 4, false⟩),
  (0x38B30A0000000001, 0x0, .rqbind ⟨hd1, 0, true⟩),
  (0x38D30A000A000000, 0x0, .rqflagCancel ⟨hd1, 5⟩),
  (0x38D30A000A004301, 0x0, .rqflagFault ⟨hd1, 5, 0x21⟩),
  (0x38F30A000A000000, 0x0, .rqevict ⟨hd1, 5⟩),
  (0xBC130A5082808000, 0x100, .kvapnd ⟨hd1, 10, 4, 5, 1, 256⟩),
  (0x3C330A1408000000, 0x0, .kvseal ⟨hd1, 10, 4⟩),
  (0xBC530A50828D0100, 0x333322221111, .kvsel ⟨hd1, 10, 4, 5, 6, 2, true, 0x1111, 0x2222, 0x3333⟩),
  (0xBC730AC8A02FAE00, 0x1E1, .kvpf ⟨hd1, 25, 5, 23, 3, 1, 3, true, 33, 7⟩),
  (0xBC930AA84859CA50, 0x40, .attn ⟨hd1, 1, 2, 33, 4, 44, 3, true, 10, 5, 64⟩),
  (0xBCB30BE220020BF0, 0x100, .attnv ⟨hd1, 3, 6, 8, 16, 1, 0, false, 11, 15, 256⟩),
  (0x3CD30A1404080A00, 0x0, .attnf ⟨hd1, 10, 2, 4, 5⟩),
  (0x3CF30A1408000000, 0x0, .kvwashReq ⟨hd1, 10, 4⟩),
  (0x3CF30A1408000001, 0x0, .kvwashPage ⟨hd1, 10, 4⟩),
  (0x3D130A1408000000, 0x0, .kvtierHbm ⟨hd1, 10, 4⟩),
  (0x3D130A1408000001, 0x0, .kvtierLp ⟨hd1, 10, 4⟩),
  (0x3D330A14080A0000, 0x0, .kvmap ⟨hd1, 10, 4, 5⟩),
  (0x3D530A1408000000, 0x0, .kvrebld ⟨hd1, 10, 4⟩),
  (0x3D730A1408000000, 0x0, .kvfree ⟨hd1, 10, 4⟩),
  (0x4000812020004180, 0x0, .pWord ⟨.iadd, 0, 4, 9, 0⟩ ⟨.fmul, 0, 1, 6, 0⟩),
  (0x43F90420AE80CA02, 0x0, .pWord ⟨.imin, 7, 200, 33, 1⟩ ⟨.h2max, 2, 3, 40, 2⟩),
  (0x4D20401F8A01C140, 0x0, .pWord ⟨.movi, 1, 2, 0, 63⟩ ⟨.and, 0, 7, 5, 0⟩)]

/-- R342: the first record names the second at 16, and says 64 lanes and 64 cores. -/
theorem test_capability_list :
    capListBytes.take 16 = [1, 0, 1, 0, 16, 0, 0, 0, 64, 64, 0, 0, 0, 0, 0, 0] ∧ capListBytes.length = 128 := by decide +kernel

theorem test_decode_control : wordsOf1.all (fun p => decodesTo p.1 p.2.1 p.2.2) = true := by decide +kernel
theorem test_decode_integer_uniform_system : wordsOf2.all (fun p => decodesTo p.1 p.2.1 p.2.2) = true := by decide +kernel
theorem test_decode_float_lane_memory : wordsOf3.all (fun p => decodesTo p.1 p.2.1 p.2.2) = true := by decide +kernel
theorem test_decode_matrix_copy_request_kv : wordsOf4.all (fun p => decodesTo p.1 p.2.1 p.2.2) = true := by decide +kernel


/-! ## Well-formedness: an ill-formed term for each check, refused by it -/

/-- A kernel that declares 32 registers, two tiles, one accumulator, four convergence registers and four barriers. -/
def small : Limits := ⟨32, 2, 1, 4, 4⟩

/-- Fields that must be zero, forms that do not exist (check 4 of R205). -/
def badMods : List Instr := [
  .shl { a2 with n := true }, .imulh { a2 with sat := true }, .popc { a1 with sat := true }, .imad { a3 with b := .imm 1 }, .bfi { a3 with n := true },
  .idp4 ⟨hd0, 4, 5, .imm 6, 7, false, false, false⟩, .fsetp { setpOp with n := true }, .isel ⟨hd0, 4, 5, .imm 6, 3⟩, .lea ⟨hd0, 4, 5, .imm 6, false, 3⟩,
  .waitany ⟨hd0, 1, false, 5⟩, .ffma ⟨hd0, 4, 5, .imm 6, 7, 0⟩, .fmin { f2 with rm := 1 }, .h2fma ⟨hd0, 4, 5, .imm 6, 7, false⟩,
  .cvt ⟨hd0, 4, 5, 1, 0, 6, 0, false⟩, .cvtq ⟨hd0, 4, 5, .v 6, 7, 2, 0, false⟩, .mxq ⟨hd0, 4, 6, 7, 4, false⟩, .mxdq ⟨hd0, 4, 5, .imm 6, 4, false⟩,
  .shfl ⟨hd0, 4, 5, .v 6, 1, false, false, 3⟩, .redl { redlOp with ex := true },
  .packl ⟨hd0, 4, 5, 127, false, 7⟩, .ld { memOp with mfmt := 1, w := true }, .lds { ldsOp with mfmt := 5, w := true },
  .atom { atomOp with b := .imm 1 }, .atoms { atomOp with nr := true }, .redst ⟨hd0, 6, .imm 8, 0, 0, 3⟩, .redst ⟨hd0, 6, .s 8, 0, 0, 3⟩, .cas ⟨hd0, 4, 6, .imm 8, 9, false, 0, 0⟩,
  .sxsect ⟨hd0, 4, 6, 8, 10, false, false, 1⟩, .mma { mmaOp with pat := 1 }, .mma { mmaOp with smeta := 1 }, .mma { mmaOp with sas := 1 },
  .kvsel ⟨hd0, 4, 5, 6, 7, 0, false, 1, 0, 0⟩, .launch ⟨hd0, 5, 6, 4, 0, false, 1, 0, 0, 0, 0, 0, 1⟩,
  .accrd ⟨hd0, 4, 0, .imm 6⟩, .accwr ⟨hd0, 0, 5, .imm 6⟩, .cpy { cpyOp with rop := 1 }, .cpy { cpyOp with sub := 1 }, .cpy { cpyOp with saux := 1 },
  .cpy { cpyOp with dir := 6, sloc := 5 }, .cpy { cpyOp with bl := true, obj := 1 }, .cpy { cpyOp with sbh := 1 }, .cpy { cpyOp with dir := 4, obj := 1 },
  .cpyf { cpyOp with dir := 1 }, .coll cpyOp, .launch ⟨hd0, 5, 6, 4, 0, true, 1, 0, 0, 0, 0, 0, 0⟩, .launch ⟨hd0, 5, 6, 4, 0, false, 1, 0, 3, 0, 0, 0, 0⟩,
  .launch ⟨hd0, 5, 6, 4, 0, false, 1, 0, 0, 2, 0, 0, 0x20⟩, .objq ⟨hd0, 4, 5, 0, 0, true⟩, .rqbind ⟨hd0, 4, true⟩,
  .pWord ⟨.movi, 0, 4, 9, 0⟩ ⟨.fadd, 0, 1, 6, 0⟩, .pWord ⟨.iadd, 0, 4, 9, 2⟩ ⟨.fadd, 0, 1, 6, 0⟩, .pWord ⟨.h2add, 0, 4, 9, 4⟩ ⟨.fadd, 0, 1, 6, 0⟩]

/-- Values outside their range (check 5). -/
def badRange : List Instr := [
  .isetp { setpOp with cond := 6 }, .evbind ⟨hd0, 0, 5, 0, 9⟩, .evmask ⟨hd0, 3, .imm 1⟩, .waitany ⟨hd0, 1, true, 0⟩, .fence ⟨hd0, 3, 0⟩, .fence ⟨hd0, 0, 5⟩,
  .plop3 ⟨hd0, 3, 4, 5, 6, 0, 7⟩, .ucmp ⟨hd0, 4, 5, .s 6, false, 6⟩, .actsel ⟨hd0, 2⟩, .cvt ⟨hd0, 4, 5, 1, 1, 0, 0, false⟩, .cvt ⟨hd0, 4, 5, 11, 0, 0, 0, false⟩,
  .cvt ⟨hd0, 4, 5, 1, 0, 0, 5, false⟩, .cvt ⟨hd0, 4, 5, 5, 0, 0, 4, false⟩, .cvt ⟨hd0, 4, 5, 0, 5, 0, 1, false⟩, .cvtq ⟨hd0, 4, 5, .v 6, 0, 2, 4, false⟩,
  .cvtq ⟨hd0, 4, 5, .imm 6, 0, 2, 0, true⟩, .cvtdq ⟨hd0, 4, 5, .v 6, 7, 0⟩, .mxq ⟨hd0, 4, 6, 0, 3, false⟩, .mxdq ⟨hd0, 4, 5, .v 6, 10, false⟩,
  .redl { redlOp with op := 6 }, .scanl { redlOp with op := 3, ty := 2 }, .scanl { redlOp with ty := 3 }, .ld { memOp with a := .split 6 0 },
  .atom { atomOp with op := 3, ty := 3 }, .atom { atomOp with op := 7 }, .atom { atomOp with scope := 5 }, .redst ⟨hd0, 6, .v 8, 3, 0, 3⟩, .redst ⟨hd0, 6, .v 8, 0, 0, 2⟩,
  .cas ⟨hd0, 4, 6, .v 8, 9, false, 0, 5⟩, .sxsect ⟨hd0, 4, 6, 8, 10, true, true, 0⟩, .cctl ⟨hd0, 6, 3, false⟩,
  .prefd ⟨hd0, 6, 3⟩, .mma { mmaOp with mq := 17 }, .mma { mmaOp with nq := 25 }, .mma { mmaOp with kq := 129 }, .mma { mmaOp with afmt := 2, bfmt := 2, kq := 65 },
  .mma { mmaOp with afmt := 0, bfmt := 2 }, .mma { mmaOp with atyp := true }, .mma { mmaOp with afmt := 4, bfmt := 4, pm1 := 1 }, .mma { mmaOp with saen := true, pm1 := 2 },
  .mmas { mmaOp with pat := 3 }, .acccvt ⟨hd0, 0, true, 5, 1, 1, 4, 0, 4, 0⟩, .acccvt ⟨hd0, 0, true, 5, 1, 2, 4, 0, 4, 1⟩, .acccvt ⟨hd0, 0, true, 5, 17, 1, 4, 0, 2, 0⟩,
  .cpy { cpyOp with dir := 7 }, .cpy { cpyOp with ndm1 := 5 }, .cpy { cpyOp with efmt := 14 }, .cpyx { cpyOp with sub := 3 }, .cpyg { cpyOp with dir := 1 },
  .cpyf { cpyOp with dir := 3 }, .coll { cpyOp with sloc := 0, ndm1 := 0, sub := 4 }, .launch ⟨hd0, 5, 6, 4, 0, false, 0, 0, 0, 0, 0, 0, 0⟩,
  .launch ⟨hd0, 5, 6, 4, 0, false, 1, 3, 0, 0, 0, 0, 0⟩, .launch ⟨hd0, 5, 6, 4, 0, false, 1, 0, 0, 2, 0, 0, 0xC000⟩, .objq ⟨hd0, 4, 5, 0, 3, false⟩, .rqrd ⟨hd0, 4, 5, 0x44⟩,
  .rqwr ⟨hd0, 4, 5, 0x42, false⟩, .rqwr ⟨hd0, 4, 5, 0x44, true⟩, .rqflagFault ⟨hd0, 5, 0⟩, .rqflagFault ⟨hd0, 5, 256⟩, .kvapnd ⟨hd0, 4, 5, 6, 0, 0⟩,
  .kvapnd ⟨hd0, 4, 5, 6, 0, 257⟩, .kvpf ⟨hd0, 4, 5, 6, 0, 0, 3, true, 0, 3⟩, .attn { attnOp with mq := 17 }, .attnv { attnOp with vrows := 17 }]

/-- Registers outside their class, odd pairs, registers beyond the declarations (check 7). -/
def badRegs : List Instr := [
  .brx ⟨hd0, 5⟩, .ret ⟨hd0, 32⟩, .call ⟨hd0, 5, .rel 0⟩, .call ⟨hd0, 4, .v 7⟩, .cvset ⟨hd0, 4, .imm 1⟩, .cvsign ⟨hd0, 5⟩, .bararv ⟨hd0, 4, 4⟩, .barwt ⟨hd0, 4⟩, .barsync ⟨hd0, 15⟩,
  .iadd { a2 with d := 32 }, .isub { a2 with a := 32 }, .and { a2 with b := .v 32 }, .imad { a3 with c := 32 }, .imadw { a3 with c := 9 }, .imadw { a3 with d := 31 },
  .not { a1 with a := 33 }, .isetp { setpOp with a := 32 }, .lea ⟨hd0, 5, 5, .v 6, false, 3⟩, .iadd64 ⟨hd0, 4, 6, .v 9, false⟩, .movi ⟨hd0, 255, 7, false, false⟩, .movs ⟨hd0, 4, 13⟩,
  .movu ⟨hd0, 32, 5, false⟩, .pmov ⟨hd0, 32, true, 0⟩, .ufrom ⟨hd0, 4, 5, true⟩, .movc ⟨hd0, 4, 13⟩, .movcw ⟨hd0, 7, .imm 1⟩, .movcw ⟨hd0, 8, .imm 1⟩, .movcw ⟨hd0, 11, .imm 1⟩,
  .fadd { f2 with b := .v 32 }, .ffma ⟨hd0, 4, 5, .v 6, 32, 0⟩, .frcp ⟨hd0, 4, 32⟩, .h2setp ⟨hd0, 127, 5, .v 6, false, 2⟩, .cvt ⟨hd0, 4, 5, 1, 0, 32, 4, false⟩, .mxq ⟨hd0, 5, 6, 0, 4, false⟩,
  .redl { redlOp with d := 32 }, .matchL ⟨hd0, 4, 5, true, false⟩, .packl ⟨hd0, 32, 5, 127, true, 7⟩, .ld { memOp with a := .off 7 0 }, .st { memOp with w := true, d := 5 },
  .st { memOp with a := .idx 4 32 0 0 }, .lds { ldsOp with a := 32 }, .ldc ⟨hd0, 5, 6, 0, 0, true⟩, .uld ⟨hd0, 4, 7, 0, false⟩, .atom { atomOp with a := 7 }, .atoms { atomOp with ty := 2, d := 5 },
  .redst ⟨hd0, 7, .v 8, 0, 0, 3⟩, .cas ⟨hd0, 4, 6, .v 8, 9, true, 0, 0⟩, .sxsect ⟨hd0, 4, 6, 8, 11, false, false, 0⟩, .cctl ⟨hd0, 7, 0, false⟩, .prefd ⟨hd0, 7, 0⟩,
  .tcfg ⟨hd0, 2, 5⟩, .tzero ⟨hd0, 2⟩, .tld ⟨hd0, 2, 5⟩, .tst ⟨hd0, 2, 5⟩, .ttrn ⟨hd0, 0, 2⟩, .mma { mmaOp with acc := 1 }, .mma { mmaOp with aop := 2 }, .mma { mmaOp with aop := 8 }, .acccvt ⟨hd0, 0, false, 8, 1, 1, 4, 0, 2, 0⟩, .mma { mmaOp with cv := 4 },
  .acccvt ⟨hd0, 1, true, 5, 1, 1, 4, 0, 2, 0⟩, .accz ⟨hd0, 4, 1⟩, .accrd ⟨hd0, 4, 1, .v 6⟩, .accwr ⟨hd0, 1, 5, .v 6⟩, .accst ⟨hd0, 4, 1, 5, 6⟩, .cpy { cpyOp with cv := 4 },
  .coll { cpyOp with sloc := 0, ndm1 := 0, cv := 4 }, .objq ⟨hd0, 4, 5, 0, 2, false⟩, .rqbind ⟨hd0, 32, false⟩, .attn { attnOp with tq := 2 }, .attnv { attnOp with cv := 4 }, .attnf ⟨hd0, 4, 2, 5, 6⟩,
  .pWord ⟨.iadd, 0, 32, 9, 0⟩ ⟨.fmul, 0, 1, 6, 0⟩, .pWord ⟨.iadd, 0, 4, 64, 1⟩ ⟨.fmul, 0, 1, 6, 0⟩]

/-- Two multiplying halves (check 6); destinations, or register sources, of both halves in one bank (check 8). -/
def badPairs : List Instr := [.pWord ⟨.imul, 0, 4, 9, 0⟩ ⟨.fmul, 0, 1, 6, 0⟩, .pWord ⟨.iadd, 0, 4, 9, 0⟩ ⟨.fmul, 0, 8, 6, 0⟩, .pWord ⟨.iadd, 0, 4, 9, 0⟩ ⟨.fmul, 0, 1, 5, 0⟩]

theorem test_wf_mods : badMods.all (fun i => !i.wellFormed Limits.most && !(Wf.checks Limits.most i).mods) = true := by decide +kernel
theorem test_wf_range : badRange.all (fun i => !i.wellFormed Limits.most && !(Wf.checks Limits.most i).range) = true := by decide +kernel
theorem test_wf_regs : badRegs.all (fun i => !i.wellFormed small && !(Wf.checks small i).regs) = true := by decide +kernel
theorem test_wf_pairs : (badPairs.map (fun i => (i.wellFormed small, (Wf.checks small i).mul, (Wf.checks small i).banks))) =
    [(false, false, true), (false, true, false), (false, true, false)] := by decide +kernel

/-- Words that R205 refuses, with the check that refuses each: FMT 3; opcodes that no instruction has; F words of an L opcode and L words
of an F opcode; set reserved bits, I and U misuse; values outside a range; registers outside a class; the pairs of a P word. -/
theorem test_decode_rejects : ([(0xC000FE0000000000, .illenc 1), (0x260FE0000000000, .illop), (0x3D80FE0000000000, .illop), (0x340FE0000000000, .illenc 3), (0x8000FE0000000000, .illenc 3), (0xFE0000000001, .illenc 4), (0x800FE080A0C0180, .illenc 4), (0xFE0200000000, .illenc 4), (0x20FE0000000000, .illenc 4), (0x420FE1240000000, .illenc 4), (0x5A0FE0000000003, .illenc 5), (0x580FE0000020100, .illenc 5), (0x3860FE0000010100, .illenc 5), (0x140FF0000000000, .illreg), (0x1100FE800A000000, .illreg), (0x4A0FE0020000000, .illreg), (0x5300812000004180, .illop), (0x4000812000020180, .pairbank), (0x4200812020004180, .illenc 6)] : List (Nat × DErr)).all
    (fun p => decide (decode Limits.most p.1 0 = .error p.2)) = true := by decide +kernel


/-! ## Results: the spec's worked examples, one step each -/

def ran (i : Instr) (s : State) : State :=
  match exec i s with
  | .next t => t
  | .fault _ => s
  | .refused _ => s
def vAt (t : State) (l n : Nat) : Word32 := (t.lane r0 l).value n
def sAt (t : State) (n : Nat) : Word64 := (t.group r0).svalue n
def wV (rs : List (Nat × Word32)) : State := w0.updGroup r0 (fun g => g.updLane 0 (fun t => { t with v := rs }))
def wS (rs : List (Nat × Word64)) : State := wGroup (fun g => { g with sr := rs })
def faultOf (t : State) : Option (Nat × Nat) := (t.group r0).fault.map (fun h => (h.frec.code.toNat, h.frec.info.toNat))

/-- The table after R235. -/
theorem test_division_table :
    (vAt (ran (.idiv a2) (wV [(5, 7), (6, 0xFFFFFFFE)])) 0 4, vAt (ran (.irem a2) (wV [(5, 7), (6, 0xFFFFFFFE)])) 0 4,
      vAt (ran (.idiv { a2 with n := true }) (wV [(5, 5)])) 0 4, vAt (ran (.irem { a2 with n := true }) (wV [(5, 5)])) 0 4) =
    (0xFFFFFFFD, 1, 0xFFFFFFFF, 5) := by decide +kernel
theorem test_shift_field_permute_table :
    (vAt (ran (.sar a2) (wV [(5, 0x80000000), (6, 40)])) 0 4, vAt (ran (.bfe a2) (wV [(5, 0xF0A0), (6, 0x0808)])) 0 4,
      vAt (ran (.bfe { a2 with n := true }) (wV [(5, 0xF0A0), (6, 0x0808)])) 0 4,
      vAt (ran (.prmt { a3 with a := 5, b := .v 6, c := 7 }) (wV [(5, 0x44332211), (6, 0x88776655), (7, 0x8020)])) 0 4) =
    (0xFFFFFFFF, 0xFFFFFFF0, 0xF0, 0x00115511) := by decide +kernel
theorem test_iadd_sat :
    let t := ran (.iadd { a2 with sat := true }) (wV [(5, 0x7FFFFFF0), (6, 0x20)])
    vAt t 0 4 = 0x7FFFFFFF ∧ (t.group r0).fpflags = BitVec.ofNat 64 fSAT := by decide +kernel
/-- R33, R196: the PC and the spacing count after `iadd ... ^2`. -/
theorem test_issue_accounting :
    let t := ran (.iadd { a2 with h := ⟨2, false, 127⟩ }) w0
    (t.lane r0 0).pc = 0x20008 ∧ (t.group r0).spacing = 3 ∧ (t.group r0).nextIssue = w0.now + 3 ∧ (t.team 1).retired = 1 := by decide +kernel
/-- The example after R253: FP32 0.9 at a factor of 256, E4M3, position 2, round_sr: code 0x77, NX. -/
theorem test_cvtq_example :
    let t := ran (.cvtq ⟨hd0, 4, 5, .v 6, 7, 2, 2, true⟩)
      ((wV [(5, 0x3F666666), (6, 0x43800000), (7, 9)]).updGroup r0 (fun g => { g with srseed := 0x100000009 }))
    vAt t 0 4 = 0x00770000 ∧ (t.group r0).fpflags = BitVec.ofNat 64 fNX := by decide +kernel
/-- The run-length example after R257. -/
def wRle : State :=
  (wLanes 8 (fun l t => { t with v := [(5, ([5, 5, 7, 7, 7, 2, 9, 9] : List Word32).getD l 0), (9, BitVec.ofNat 32 l)].filter (fun e => e.2 ≠ 0)
                                 p := if l ∈ [0, 2, 5, 6] then 8 else 0 }))
theorem test_shfl_example :
    let t := ran (.shfl ⟨hd0, 4, 5, .imm 0xFFFF, 2, false, false, 0⟩) wRle
    (List.range 8).map (fun l => vAt t l 4) = [5, 5, 5, 7, 7, 7, 2, 9] := by decide +kernel
theorem test_packl_example :
    let t := ran (.packl ⟨hd0, 8, 9, 3, true, 6⟩) wRle
    (List.range 8).map (fun l => vAt t l 8) = [0, 2, 5, 6, 0, 0, 0, 0] ∧ sAt t 6 = 4 := by decide +kernel
theorem test_scanl_example :
    let u := ran (.isel ⟨hd0, 6, 10, .v 11, 3⟩) (wRle.updGroup r0 (fun g => g.mapLanes (List.range 8) (fun _ t => { t with v := [(10, 1)] })))
    let w := u.updGroup r0 (fun g => { g with spacing := 10 })
    (List.range 8).map (fun l => vAt (ran (.scanl { redlOp with d := 7, a := 6, ex := true }) w) l 7) = [0, 1, 1, 2, 2, 2, 3, 4] := by
  decide +kernel
/-- The example after R268: the merged addition of three lanes, step by step, and the old values that the lanes get. -/
theorem test_atom_bf16x2_example :
    let s := (w0.setMem 0x1000 (leBytes 0x00013F80 4)).setMem 0x12000 (leBytes 0x41F 8)
    let w := { wLanes 3 (fun l t => { t with v := [(2, 0x1000), (9, ([0x00013B80, 0x00023B80, 0x80013C00] : List Word32).getD l 0)] }) with mem := s.mem }
    let t := ran (.atom ⟨hd0, 8, 2, .v 9, 0, 4, false, 0, 4⟩) w
    let v := t.sauQ.foldl (fun u q => ran (.sauApply q.id) u) t
    let u := ran (.atom ⟨hd0, 8, 2, .v 9, 0, 4, false, 0, 4⟩) v
    leNat (memBytes u 0x1000 4) = 0x00033F81 ∧
      (List.range 3).map (fun l => vAt u l 8) = [0x00013F80, 0x00023F80, 0x00043F80] := by decide +kernel
/-- Two steps of the host's question: the word in memory is fetched, decoded and run. -/
theorem test_step_runs_the_word :
    (match step (State.reset.withFetchWord 64 0x0800FE080BFFFB00) with
      | .next t => (vAt t 0 4, (t.lane r0 0).pc)
      | _ => (0, 0)) = (0xFFFFFFFD, 0x20008) := by decide +kernel

/-- R141's examples after R142: FP32 300.0 to E4M3 is 0x79 with NX; 500.0 is 0x7E with OF, SAT and NX. -/
theorem test_cvt_e4m3_examples :
    let f := fun (x : Word32) => let t := ran (.cvt ⟨hd0, 4, 5, 3, 0, 0, 0, false⟩) (wV [(5, x)]); (vAt t 0 4, (t.group r0).fpflags.toNat)
    f 0x43960000 = (0x79, fNX) ∧ f 0x43FA0000 = (0x7E, fOF + fSAT + fNX) := by decide +kernel
/-- The MXFP4 block after R142: lanes 0 to 3 hold 5.0, 2.75, −0.40625 and 7.0, the other lanes of the group have exited. -/
def wMx (x : Word64) : State :=
  (wLanes 4 (fun l t => { t with v := [(6, ([0x40A00000, 0x40300000, 0xBED00000, 0x40E00000] : List Word32).getD l 0)] })).updTeam 1
    (fun t => { t with decl := { t.decl with gw := 32 }, groups := Map.upd {} t.groups 0 (fun g => { g with fp4x := x }) })
theorem test_mxq_example :
    let t := ran (.mxq ⟨hd0, 4, 6, 0, 9, false⟩) (wMx 0)
    (List.range 4).map (fun l => (vAt t l 4, vAt t l 5)) = [(6, 0x7F), (5, 0x7F), (9, 0x7F), (7, 0x7F)] ∧
      (t.group r0).fpflags.toNat &&& (fNX + fOF + fSAT) = fNX + fOF + fSAT := by decide +kernel
theorem test_mxq_extra_value :
    let t := ran (.mxq ⟨hd0, 4, 6, 0, 9, false⟩) (wMx 0x1AC)
    (List.range 4).map (fun l => vAt t l 4) = [6, 5, 8, 7] := by decide +kernel
/-- Issues 3 and 4 of the trace of R35: YIELD masks lane 0, and lane 1 issues next. -/
theorem test_yield_trace :
    let t := ran (.yield op0) (wLanes 2 (fun l t => { t with pc := if l = 0 then 0x210 else 0x240 }))
    (t.group r0).yieldMask = 1 ∧ issueSet (t.group r0) = [1] ∧ issuePc (t.group r0) = 0x240 := by decide +kernel
/-- The STALLCHK record after R407: FADD reads v4 at distance 3 of 4, PC 0x0000_0050_0000_0110, 32 lanes, TSLOT 1, VCORE 2. -/
theorem test_stallchk_record :
    let s := wGroup (fun g => { g with chkctl := 1, spacing := 3, lanes := (List.range 32).map (fun l => (l, ({ pc := 0x5000000110, st := .live, pend := [⟨.v, 4, 4, 0⟩] } : Thread))) })
    let s := (s.updTeam 1 (fun t => { t with tslot := 1 })).updCtx 0 (fun c => { c with vmap := [(2, 0)] })
    let t := ran (.fadd { f2 with d := 9, a := 4, b := .v 5 }) s
    ((t.group r0).fault.map (fun h => h.frec.bytes)) = some (leBytes 0x10020305 4 ++ leBytes 0x04040000 4 ++ leBytes 0x5000000110 8 ++
      leBytes 0xFFFFFFFF 8 ++ leBytes 0 8) ∧ (t.group r0).nextIssue = w0.now + 16 := by decide +kernel
/-- The attention mass of R170: MASS 4.0, STAMP 100, DECAY 3, STEP 117, Δ = 24,576. -/
theorem test_mass_example :
    let d := massUpd 117 3 24576 (massUpd 100 0 0x40000 (massUpd 100 0 0 0))
    (dMass d, dStamp d) = (0x16000, 116) := by decide +kernel
/-- The throttle of R373: THRCAP = 3 over T2 gives T3, CAUSE 0b110, and T3 remains with CAUSE 0b100 when the temperature falls. -/
theorem test_throttle_example :
    let a := ran (.throttleChange ⟨2, 2, 96⟩) w0
    let b := ran (.throttleChange ⟨2, 2, 96⟩) (ran (.thrcapWrite 3) a)
    let c := ran (.throttleChange ⟨0, 0, 80⟩) b
    (a.pkg.thrState, a.pkg.thrCause, b.pkg.thrState, b.pkg.thrCause, c.pkg.thrState, c.pkg.thrCause) = (2, 2, 3, 6, 3, 4) := by
  decide +kernel
/-- CRC-32C of R156 over the bytes of "123456789". -/
theorem test_crc32c : crc32c [0x31, 0x32, 0x33, 0x34, 0x35, 0x36, 0x37, 0x38, 0x39] = 0xE3069283 := by decide +kernel
/-- TRAP 7 (R219): the record carries SWTRAP and the immediate, and the lane stays at the TRAP. -/
theorem test_trap : faultOf (ran (.trap ⟨hd0, 7⟩) w0) = some (cSWTRAP, 7) ∧ ((ran (.trap ⟨hd0, 7⟩) w0).lane r0 0).pc = 0x20000 := by
  decide +kernel
/-- R226: an empty mailbox gives 0 and false. -/
theorem test_mbrecv_empty : sAt (ran (.mbrecv ⟨hd0, 4, 0, 3⟩) (wS [(4, 9)])) 4 = 0 := by decide +kernel
/-- Two INT8 tiles of 16 rows and 32 columns: row 3 of the one holds 2, row 5 of the other 3. -/
def wMma : State :=
  wTeam (fun t => { t with
    tiles := (List.range 32).map (fun k => (96 + k, 2)) ++ (List.range 32).map (fun k => (65536 + 160 + k, 3))
    tc := [(0, 10 + 16 * 16 + 65536 * 32), (1, 10 + 16 * 16 + 65536 * 32)] })
def mma8 : OpMma := { mmaOp with afmt := 10, bfmt := 10, atyp := true }
def mmaCmd : Cmd :=
  { id := 9, ctx := 0, own := r0, instr := .mma mma8, cls := .matrix, tok := none, lane := 0, pc := 0
    cap := [10 + 16 * 16 + 65536 * 32, 10 + 16 * 16 + 65536 * 32] }
/-- R277: with K = 32 an element of the product is 32 × 2 × 3 = 192. -/
theorem test_mma_int8 : mmaElem mma8 false (mmaIn (wMma.team 1) false mmaCmd mma8 false) 0 3 5 = (192, 0) := by decide +kernel


/-! ## Witnesses: a state and operands that meet the hypotheses of each statement -/

/-- Every instruction of the stream can be made in the small machine: what `clear` asks is met (for all statements per instruction). -/
theorem witness_clear_all : allWords.all (fun i => clear i w0 r0 && i.isWord && i.wellFormed Limits.most && limitsOf FetchWord.decl == Limits.most) = true := by
  decide +kernel

/-- DecodeEncode at the boundary of a kernel's declarations: register 31 of 32; EncodeDecode, FormatSelects at the greatest word. -/
theorem witness_encode_decode :
    ((Instr.iadd ⟨hd0, 31, 31, .v 31, true, true⟩).isWord ∧ (Instr.iadd ⟨hd0, 31, 31, .v 31, true, true⟩).wellFormed small) ∧
    (2 ^ 64 - 1 < 2 ^ 64 ∧ 0x0800FE080BFFFB00 < 2 ^ 64 ∧ (decode small 0x0800FE080BFFFB00 0).toOption.isSome ∧ (2 ^ 64 - 1) / 2 ^ 62 = 3) := by
  decide +kernel

/-- StepRunsDecoded, DecodeFaults: the group named by the outside, and the only one that can issue. -/
def fetched (s : State) (w : Nat) : Bool :=
  let g := r0
  let t := passOver s (rivals s g) g
  decide (chosen s (rivals s g) = some g) && (match fetchInstr t g (issuePc (t.group g)) with
  | .bytes bs _ => decide (ofBytes bs = w)
  | _ => false)
theorem witness_step_named :
    let u := settle (State.reset.withFetchWord 64 0x0800FE080BFFFB00)
    u.agenda = [.issue r0] ∧ fetched { u with agenda := [] } 0x0800FE080BFFFB00 = true := by decide +kernel
/-- The same group, waiting on the scoreboard for the destination of its instruction. -/
theorem witness_step_blocked :
    let s := State.reset.withFetchWord 64 0x0800FE080BFFFB00
    let u := settle (s.updGroup r0 (fun g => { g with busy := [⟨7, 1, .v, 4⟩] }))
    let v := { u with agenda := [] }
    u.agenda = [.issue r0] ∧ canIssue v r0 = true ∧ (match fetchInstr v r0 (issuePc (v.group r0)) with
      | .bytes bs _ => (match decodeBytes (limitsOf (v.team 1).decl) bs with
        | .ok i => sbBlocked (v.group r0) (issueSet (v.group r0)) i
        | .error _ => false)
      | _ => false) = true := by decide +kernel
theorem witness_step_alone :
    let u := settle { State.reset.withFetchWord 64 0x0800FE080BFFFB00 with agenda := [] }
    u.agenda = [] ∧ (hostNext u).isNone = true ∧ (storeNext u).isNone = true ∧ ((dueEvents u).find? (happens u)).isNone = true ∧
      (allGroups u).all (fun q => !canIssue u q || !isBlocked u q) = true ∧ (allGroups u).find? (eligible u) = some r0 ∧
      fetched u 0x0800FE080BFFFB00 = true := by
  decide +kernel
theorem witness_decode_faults :
    let u := settle (State.reset.withFetchWord 64 0xC000FE0000000000)
    u.agenda = [.issue r0] ∧ fetched { u with agenda := [] } 0xC000FE0000000000 = true ∧
      decodeBytes (limitsOf (u.team 1).decl) (leBytes 0xC000FE0000000000 8) = .error (.illenc 1) := by decide +kernel
theorem witness_memory : Memory.wf State.reset.mem = true ∧ Memory.wf (State.reset.withFetchWord 64 0x0800FE080BFFFB00).mem = true ∧
    (match step (State.reset.withFetchWord 64 0x0800FE080BFFFB00) with | .next _ => true | _ => false) = true := by decide +kernel

/-- IssueSetLowestPc: a set selected and none selected, with a yield mask. -/
theorem witness_issue_set :
    let g := (wLanes 3 (fun l t => { t with pc := if l = 0 then 0x20000 else 0x20008 })).group r0
    ({ g with hold := some 6 }.hold = some 6 ∧ liveLanes { g with hold := some 6 } = [0, 1, 2] ∧ eligLanes { g with hold := some 6 } = [1, 2]) ∧
      g.hold = none ∧ g.replay = none ∧ eligLanes { g with yieldMask := 1 } = [1, 2] ∧ eligLanes { g with yieldMask := 7 } = [0, 1, 2] := by decide +kernel
/-- IssueOutcomes: no lane enabled; a register awaited; a lost one; the checking scoreboard off, on and complaining. -/
theorem witness_disabled :
    let i : Instr := .iadd { a2 with h := ⟨0, false, 3⟩ }
    let I := enter i w0 r0
    i.isWord ∧ w0.cur = some r0 ∧ I.set = [0] ∧ I.en = [] ∧ sbBlocked (w0.group r0) I.set i = false ∧ stallChk (I.s0.group r0) I.set I.en i = none ∧
      badLanes (I.s0.group r0) I.set I.en i = [] := by
  decide +kernel
theorem witness_lost :
    let s := wGroup (fun g => g.updLane 0 (fun t => { t with bad := [5] }))
    let I := enter (.iadd a2) s r0
    I.set = [0] ∧ sbBlocked (s.group r0) I.set (.iadd a2) = false ∧ stallChk (I.s0.group r0) I.set I.en (.iadd a2) = none ∧
      badLanes (I.s0.group r0) I.set I.en (.iadd a2) = [0] := by decide +kernel
theorem witness_awaited :
    let s := wGroup (fun g => { g with busy := [⟨7, 1, .v, 5⟩] })
    (enter (.iadd a2) s r0).set = [0] ∧ sbBlocked (s.group r0) [0] (.iadd a2) = true := by decide +kernel
/-- A group whose lane has v5 pending, readable at spacing count 4, seen at count 3. -/
def gShort (chk : Word64) : Group := { chkctl := chk, spacing := 3, lanes := [(0, { st := .live, pend := [⟨.v, 5, 4, 9⟩] })] }
theorem witness_stallchk : (gShort 0).chkctl.getLsbD 0 = false ∧ (gShort 1).chkctl.getLsbD 0 = true ∧ (gShort 1).unchecked = false ∧
    (stallChk (gShort 1) [0] [0] (.iadd a2)).isSome = true ∧ (stallChk (gShort 1) [0] [0] (.iadd { a2 with a := 7 })).isSome = false := by decide +kernel
theorem witness_stallchk_issue :
    let s := wGroup (fun g => { g with chkctl := 1, spacing := 3, lanes := [(0, { pc := 0x20000, st := .live, pend := [⟨.v, 5, 4, 9⟩] })] })
    let I := enter (.iadd a2) s r0
    I.set = [0] ∧ sbBlocked (s.group r0) I.set (.iadd a2) = false ∧ (stallChk (I.s0.group r0) I.set I.en (.iadd a2)).isSome = true := by decide +kernel

/-- TakingFaults: a kernel without `.rqscope`, a code that no request pays for, and a bound lane in a `.rqscope` kernel. -/
def wBound : State := wGroup (fun g => g.updLane 0 (fun t => { t with bind := some (3, 8191) }))
theorem witness_faults :
    (chargeable cILLENC = false ∧ ((wDecl (fun d => { d with rqsc := false })).team r0.team).decl.rqsc = false) ∧
    ((wBound.team r0.team).decl.rqsc = true ∧ chargeable 9 = true ∧ chargeable 24 = true ∧ (wBound.lane r0 0).bind = some (3, 8191)) := by decide +kernel

/-- Dispositions: a group that faulted and holds entry 0, its wait's notice holds entry 1, its team's notice entry 2. -/
def wHeld : State :=
  (wGroup (fun g => { g with
    fault := some { frec := { code := 9, pc := 0x20000, lanes := 1 }, entry := some 0 }
    waits := [{ kind := 3, lanes := [0], pc := 0x20000, born := 1, until_ := 5, noted := true, entry := some 1 }] })).updTeam 1 (fun t => { t with note := some 2 })
theorem witness_dispositions :
    (hostWaits wHeld 0 = false ∧ ackHolder wHeld ⟨0, 0, 0⟩ = some (.fault r0) ∧ (wHeld.group r0).fault.isSome ∧ (wHeld.team 1).st ≠ .saved ∧
      (wHeld.group r0).fault.map (·.frec.defer) = some false ∧ (Map.find (wHeld.group r0).lanes 0).isSome) ∧
    (ackHolder wHeld ⟨0, 0, 1⟩ = some (.notice r0 1) ∧ holderTeam wHeld (.notice r0 1) = some (1, 0) ∧ (wHeld.team 1).st = .resident ∧
      (wHeld.group r0).waits.map (·.entry) = [some 1]) ∧
    (ackHolder wHeld ⟨0, 0, 2⟩ = some (.team 1) ∧ holderTeam wHeld (.team 1) = some (1, 0)) := by decide +kernel


/-- Floats: NaNs and numbers; H2SETP's greatest destination; the ranges of the special functions at their ends; an operand whose
reciprocal is finite. -/
theorem witness_floats :
    (FP32.val 0x7FC00000).isNan = true ∧ (FP32.val 0x3F800000).isNan = false ∧ clear (.h2setp ⟨hd0, 126, 5, .v 6, false, 2⟩) w0 r0 = true ∧
    (0x80000000 < 0x80000001 ∧ 0xFF800000 ≤ 0xFF800000 ∧ 0x43000000 ≤ 0x43000000 ∧ 0x7F7FFFFF < 0x7F800000) ∧
    FP32.val 0x40000000 = .num false 8388608 (-22) ∧ FP32.val (frcp 0x40000000).1 = .num false 8388608 (-24) := by decide +kernel
theorem witness_rounding : 2 ^ 32 - 1 < 2 ^ 32 ∧ (roundAt .rz false 3 0 1 false).1 = 1 ∧ I8.lo ≤ I8.hi ∧
    (E4M3.enc .rne true false (.num false 500 0)).2 &&& fSAT ≠ 0 ∧ e8m0 254 = .num false 1 127 := by decide +kernel
/-- Conversions: MXQ in groups of 32 and 64 and of 16; a bit on each side of an element. CrossLane: SCANL with and without EX. -/
theorem witness_conversions_crosslane :
    (let s := wDecl (fun d => { d with gw := 32 }); clear (.mxq ⟨hd0, 4, 6, 0, 4, false⟩) s r0 = true ∧ (enter (.mxq ⟨hd0, 4, 6, 0, 4, false⟩) s r0).en = [0]) ∧
    (let s := wDecl (fun d => { d with gw := 64 }); clear (.mxq ⟨hd0, 4, 6, 0, 4, false⟩) s r0 = true ∧ (s.team 1).decl.gw = 64) ∧
    (clear (.mxq ⟨hd0, 4, 6, 0, 4, false⟩) w0 r0 = true ∧ (w0.team 1).decl.gw = 16) ∧
    (7 < cvtqW 2 * 1 ∧ cvtqW 2 * (1 + 1) ≤ 16) ∧
    (clear (.scanl redlOp) w0 r0 = true ∧ clear (.scanl { redlOp with ex := true }) w0 r0 = true) := by decide +kernel

/-- ControlTransfers: targets that are good, too far and not aligned. -/
def wTo (x : Word64) : State := w0.updGroup r0 (fun g => { (g.updLane 0 (fun t => { t with v := [(4, x.setWidth 32), (5, (x >>> 32).setWidth 32)] })) with sr := [(4, x)] })
theorem witness_targets :
    (let s := wTo 0xFFFFFFFFFFFFF8
     (∀ l ∈ (enter (.brx opV) s r0).en, ((((enter (.brx opV) s r0).th l).rw 4).toNat < 2 ^ 56 ∧ (((enter (.brx opV) s r0).th l).rw 4).toNat % 8 = 0)) ∧
       clear (.brx opV) s r0 = true ∧ clear (.ret opV) s r0 = true ∧ clear (.call ⟨hd0, 6, .v 4⟩) s r0 = true ∧
       clear (.bru ⟨hd0, .s 4⟩) s r0 = true ∧ (enter (.bru ⟨hd0, .s 4⟩) s r0).rs 4 = 0xFFFFFFFFFFFFF8) ∧
    (let s := wTo 0x100000000000000
     clear (.brx opV) s r0 = true ∧ clear (.call ⟨hd0, 0, .v 4⟩) s r0 = true ∧ (enter (.ret opV) s r0).en.filter (fun l => decide (2 ^ 56 ≤ (((enter (.ret opV) s r0).th l).rw 4).toNat)) = [0]) ∧
    (let s := wTo 4
     clear (.ret opV) s r0 = true ∧ (enter (.ret opV) s r0).en.filter (fun l => decide (2 ^ 56 ≤ (((enter (.ret opV) s r0).th l).rw 4).toNat)) = [] ∧
       (enter (.ret opV) s r0).en.filter (fun l => decide ((((enter (.ret opV) s r0).th l).rw 4).toNat % 8 ≠ 0)) = [0]) := by decide +kernel
def nextOf (i : Instr) (s : State) : Option State :=
  match exec i s with
  | .next t => some t
  | .fault _ => none
  | .refused _ => none
/-- The frames of instructions in a kernel without `.rqscope` that go on without a fault. -/
def wNoRq : State := wDecl (fun d => { d with rqsc := false })
theorem witness_frames :
    ([.bra opI, .brx opV, .bru ⟨hd0, .imm 0⟩, .call ⟨hd0, 4, .rel 0⟩, .ret opV, .exit op0, .yield op0, .ld memOp, .st memOp, .lds ldsOp, .sts ldsOp,
      .ldc ⟨hd0, 4, 6, 0, 0, false⟩, .uld ⟨hd0, 4, 6, 0, false⟩, .prefd ⟨hd0, 6, 0⟩] : List Instr).all (fun i =>
      clear i wNoRq r0 && (match nextOf i wNoRq with
        | some t => (t.group r0).fault.isNone && decide (t.late = wNoRq.late)
        | none => false)) = true ∧ (wNoRq.team r0.team).decl.rqsc = false := by decide +kernel

/-- ThreadsAndGroups: REFORM and SPAWN with nothing awaited; a free bin, a bin that takes a thread, no bin left. -/
def binAt (k : Nat) : Bin := { team := k, key := 0x20000, threads := [{ pc := 0x20000, tid := 7, st := .live }], first := 0, expiry := 0, ready := true }
def wBins (n k : Nat) : State := w0.updCore 0 (fun c => { c with bins := (List.range n).map (fun b => (b, binAt k)) })
theorem witness_reform :
    (let I := enter (.reform op0) w0 r0; clear (.reform op0) w0 r0 = true ∧ (∀ l ∈ I.en, laneBusy I.gp l = false) ∧ I.gp.idle = true) ∧
    (let s := wGroup (fun g => { g with cCopy := 1 })
     let I := enter (.reform op0) s r0
     clear (.reform op0) s r0 = true ∧ I.gp.idle = false ∧ I.gp.lanes.all (fun e => decide (e.1 ∈ I.en)) = true) ∧
    (let s := wGroup (fun g => { g with busy := [⟨7, 1, .v, 9⟩] })
     ([.reform op0, .spawn ⟨hd0, .imm 0⟩] : List Instr).all (fun i => clear i s r0 && (enter i s r0).en.any (laneBusy (enter i s r0).gp)) = true) ∧
    (let s := wS [(5, 0x100000000000000), (6, 4)]
     clear (.spawn ⟨hd0, .s 5⟩) s r0 = true ∧ 2 ^ 56 ≤ (groupTarget (enter (.spawn ⟨hd0, .s 5⟩) s r0) (.s 5)).toNat ∧
     clear (.spawn ⟨hd0, .s 6⟩) s r0 = true ∧ (groupTarget (enter (.spawn ⟨hd0, .s 6⟩) s r0) (.s 6)).toNat = 4) ∧
    (((wBins 3 1).core 0).bins.map (·.1)).Nodup ∧ framesUsed w0 1 0 0 < framesHeld (w0.team 1) 0 0 ∧
    (let I := enter (.spawn ⟨hd0, .imm 0⟩) w0 r0; clear (.spawn ⟨hd0, .imm 0⟩) w0 r0 = true ∧ (groupTarget I (.imm 0)).toNat % 8 = 0 ∧ (groupTarget I (.imm 0)).toNat < 2 ^ 56) ∧
    (Map.find (w0.group r0).lanes 0).isSome ∧ chooseBin (w0.core (coreOf (w0.team 1) 0)) 0 1 (w0.lane r0 0).pc 16 = some 0 ∧
    chooseBin ((wBins 3 1).core 0) 0 1 (w0.lane r0 0).pc 16 = some 0 ∧ (Map.find ((wBins 3 1).core 0).bins 0).map (fun x => (x.team, x.key)) = some (1, 0x20000) ∧
    chooseBin ((wBins 16 9).core 0) 0 1 (w0.lane r0 0).pc 16 = none := by decide +kernel
theorem witness_thread_events :
    (let s := wGroup (fun g => g.updLane 0 (fun t => { t with st := .parked .reform }))
     (s.group r0).fault = none ∧ (s.team 1).st.runs = true ∧ (s.lane r0 0).st = .parked .reform ∧ (s.group r0).idle = true) ∧
    ((wGroup (fun g => g.updLane 0 (fun t => { t with st := .parked (.spawn 0x20000) }))).lane r0 0).st = .parked (.spawn 0x20000) ∧
    (let s := wBins 1 1
     (binAt 1).expiry ≤ s.now ∧ Map.find (s.core 0).bins 0 = some (binAt 1) ∧ (binAt 1).ready = true) ∧
    (let s := (wBins 1 1).updTeam 1 (fun t => { t with decl := { t.decl with team := 2 } })
     freeSlot (s.team 1) 0 = some 1 ∧ seqGroups s 0 0 < 16 ∧ Map.find (s.core 0).bins 0 = some (binAt 1) ∧ (s.team 1).st.runs = true ∧
       (seqBins (s.core 0) 0).all (fun y => !canLaunch s 0 y.2 || !decide (y.2.first < (binAt 1).first) && !(decide (y.2.first = (binAt 1).first) && decide (y.1 < 0))) = true) ∧
    (let s := (wDecl (fun d => { d with nbar := 0, coop := false })).updTeam 1 (fun t => { t with groups := [(0, { live := true }), (1, { live := true })] })
     canEnd (s.group r0) = true ∧ (s.team 1).st.runs = true ∧ (s.team 1).decl.nbar = 0 ∧ (s.team 1).decl.coop = false ∧ Map.erase (s.team 1).groups 0 ≠ []) := by
  decide +kernel

/-- ConvergenceRegisters: an empty phase and one with signatures, counts at the frame count and above it; signatures below the count,
completing it, refused. -/
def wCv (c : Machine.CvReg) : State := wTeam (fun t => { t with cv := [(0, c)] })
theorem witness_cvset :
    (clear (.cvset ⟨hd0, 0, .imm 16⟩) w0 r0 = true ∧ (w0.team 1).decl.team * (w0.team 1).decl.gw = 16 ∧ (Map.get ({} : Machine.CvReg) (w0.team 1).cv 0).signed = []) ∧
    clear (.cvset ⟨hd0, 0, .imm 17⟩) w0 r0 = true ∧
    (clear (.cvset ⟨hd0, 0, .imm 1⟩) (wCv { count := 2, signed := [5] }) r0 = true ∧ (Map.get ({} : Machine.CvReg) ((wCv { count := 2, signed := [5] }).team 1).cv 0).signed = [5]) := by
  decide +kernel
theorem witness_cvsign :
    ([2, 1, 0] : List Nat).all (fun n => clear (.cvsign ⟨hd0, 0⟩) (wCv { count := n }) r0 && !relPending (wCv { count := n }) r0 1 &&
      decide ((enter (.cvsign ⟨hd0, 0⟩) (wCv { count := n }) r0).en = [0])) = true ∧
    (let s := wCv { count := 2, signed := [0] }
     clear (.cvsign ⟨hd0, 0⟩) s r0 = true ∧ relPending s r0 1 = false ∧ (s.lane r0 0).tid = 0 ∧
       (let J := (enter (.cvsign ⟨hd0, 0⟩) s r0).released 1; (J.en.foldl (cvsignLane J 0) (J.s, [])).2 = [(0, 1)])) ∧
    (let s := wCv { count := 2 }
     let J := (enter (.cvsign ⟨hd0, 0⟩) s r0).released 1
     (J.en.foldl (cvsignLane J 0) (J.s, [])).2 = [] ∧ J.en.map (fun l => (s.lane r0 l).tid) = [0] ∧ 0 + 1 < 2) ∧
    (Map.get ({} : Machine.CvReg) ((wCv { count := 1 }).team 1).cv 0) = { count := 1 } := by decide +kernel
theorem witness_traps :
    ((w0.group r0).fpflags &&& (w0.group r0).trapctl &&& 63).toNat = 0 ∧
    (let s := wGroup (fun g => { g with fpflags := 32, trapctl := 63 })
     clear (.trapfence op0) s r0 = true ∧ ((s.group r0).fpflags &&& (s.group r0).trapctl &&& 63).toNat ≠ 0) := by decide +kernel


/-- SystemRegisters: a bound lane and one that is not; every writable register; HOTIDLE with and without PRIV; a write that goes on. -/
theorem witness_system :
    ((wBound.team 1).decl.rqsc = true ∧ (wBound.lane r0 0).bind = some (3, 8191)) ∧ (w0.lane r0 0).bind = none ∧
    ([0, 1, 2, 3, 4, 5, 6, 9, 10] : List Nat).all (fun n => let i : Instr := .movcw ⟨hd0, BitVec.ofNat 8 n, .imm 1⟩
      clear i w0 r0 && clear i (wCtx (fun c => { c with priv := true })) r0 && (n = 10 || (match nextOf i w0 with
        | some t => (t.group r0).fault.isNone
        | none => false))) = true ∧
    (w0.ctx 0).priv = false ∧ ((wCtx (fun c => { c with priv := true })).ctx 0).priv = true ∧ parkedAny (w0.group r0) = [] := by decide +kernel
/-- HostCalls: a queue with room for two more words, for one, for one with the first word placed, for none; a lane that awaits the
reply. -/
def wCall : State := wGroup (fun g => g.updLane 0 (fun t => { t with st := .parked (.ecall 1 4) }))
theorem witness_host_calls :
    (let s := wCtx (fun c => { c with hmq := List.replicate 254 5 })
     clear (.ecall ⟨hd0, 4, 5, 7⟩) s r0 = true ∧ (s.ctx 0).hmq.length = 254 ∧ relPending s r0 4 = false ∧ (s.group r0).ecallHalf = none) ∧
    ([255, 256] : List Nat).all (fun n => let s := wCtx (fun c => { c with hmq := List.replicate n 5 })
      clear (.ecall ⟨hd0, 4, 5, 7⟩) s r0 && decide ((s.ctx 0).hmq.length = n) && !relPending s r0 4) = true ∧
    (let s := (wCtx (fun c => { c with hmq := List.replicate 255 5 })).updGroup r0 (fun g => { g with ecallHalf := some 1 })
     clear (.ecall ⟨hd0, 4, 5, 7⟩) s r0 = true ∧ (s.group r0).ecallHalf = some 1 ∧ (s.ctx 0).hmq.length ≤ 255 ∧ relPending s r0 4 = false) ∧
    ((Map.find (wCall.group r0).lanes 0).isSome ∧ (wCall.lane r0 0).st = .parked (.ecall 1 4) ∧ (wCall.group r0).lanes.length = 1) := by decide +kernel

/-- Event slots: words that bind and words that do not, for each kind; nothing parked. -/
theorem witness_bindings :
    (bindOk FetchWord.decl .bar 0xFFFF0000000F = true ∧ bindOk FetchWord.decl .bar 0x10 = false ∧ bindOk FetchWord.decl .dbar 3 = true ∧
      bindOk FetchWord.decl .tok 63 = true ∧ bindOk FetchWord.decl .hnd 0x30000003F = true ∧ bindOk FetchWord.decl .mbx 32 = false ∧
      bindOk FetchWord.decl .timer 0 = false ∧ bindOk FetchWord.decl .timer 0x100000000 = true ∧ bindOk FetchWord.decl .sw 0x100 = false) ∧
    clear (.evbind ⟨hd0, 0, 5, 0, 8⟩) (wS [(5, 0x100000000)]) r0 = true ∧ clear (.evbind ⟨hd0, 0, 5, 0, 8⟩) w0 r0 = true := by decide +kernel
/-- WAITANY: lanes parked in one, no slot ready, the last slot of the sixteen ready. -/
def wParkAny (d : Option Nat) : State := wLanes 2 (fun l t => { t with st := if l = 0 then .live else .parked (.waitAny 1 d) })
theorem witness_waitany :
    (clear (.waitany ⟨hd0, 1, false, 0⟩) (wParkAny none) r0 = true ∧ parkedAny ((wParkAny none).group r0) = [(1, 1, none)]) ∧
    (let g := (latchLevels (enter (.waitany ⟨hd0, 1, false, 0⟩) w0 r0).s r0).group r0; parkedAny (w0.group r0) = [] ∧ g.readyEv 1 = 0) ∧
    (let s := wGroup (fun g => { g with ev := [(15, { kind := .sw, armed := true, handler := 0x20000 })], evPend := 0x8000 })
     let g := (latchLevels (enter (.waitany ⟨hd0, 0x8001, true, 5⟩) s r0).s r0).group r0
     clear (.waitany ⟨hd0, 0x8001, true, 5⟩) s r0 = true ∧ parkedAny (s.group r0) = [] ∧ (g.readyEv 0x8001).getLsbD 15 = true ∧
       (List.range 15).all (fun j => !(g.readyEv 0x8001).getLsbD j) = true) := by decide +kernel
/-- EventDelivery: a TIMER that has run out, a WAITANY whose timeout has come, a software event for an armed slot. -/
theorem witness_event_delivery :
    (w0.team 1).st.runs = true ∧
    (let s := wGroup (fun g => { g with ev := [(15, { kind := .timer, armed := true, deadline := 0 })] })
     let e := Map.get {} (s.group r0).ev 15
     e.kind = .timer ∧ e.armed = true ∧ e.fired = false ∧ e.deadline ≤ s.now ∧ parkedAny (s.group r0) = []) ∧
    (let s := wParkAny (some 0)
     (s.group r0).fault = none ∧ parkedAny (s.group r0) = [(1, 1, some 0)] ∧ ((latchLevels (latchTimers s r0) r0).group r0).readyEv 1 = 0) ∧
    (let s := { wGroup (fun g => { g with ev := [(3, { kind := .sw, armed := true, obj := 9 })] }) with
        swQ := [⟨7, r0, 0, 1, 0, 0, 9, 5, 0, 3⟩] }
     let e := Map.get {} (s.group r0).ev 3
     teamAt s 0 1 0 = some 1 ∧ (s.team 1).alive = true ∧ (s.group r0).live = true ∧ (3, e) ∈ (s.group r0).ev ∧ e.kind = .sw ∧ e.armed = true ∧ e.obj = 9 ∧
      (s.group r0).evPend.getLsbD 3 = false ∧ parkedAny (s.group r0) = []) := by decide +kernel
theorem witness_evraise :
    (clear (.evraise ⟨hd0, 4, 5⟩) (wS [(4, 0x4000)]) r0 = true ∧ bitsN 0x4000 15 14 ≠ 0) ∧ (clear (.evraise ⟨hd0, 4, 5⟩) (wS [(4, 0x100000000)]) r0 = true ∧ (w0.gridOf (w0.team 1)).teams ≤ 1) ∧
    (let s := wS [(4, 0x10005)]
     clear (.evraise ⟨hd0, 4, 5⟩) s r0 = true ∧ bitsN 0x10005 15 14 = 0 ∧ bitsN 0x10005 31 17 = 0 ∧ bitN 0x10005 16 = true ∧ relPending s r0 3 = false ∧
      teamAt s 0 1 0 = some 1 ∧ (s.team 1).st ≠ .saved) := by decide +kernel

/-- Mailboxes: names of no mailbox, of one here with room, of a host's, of another chip's; full and empty boxes; a core not mapped. -/
def wBox (n : Nat) : State := wCtx (fun c => { c with mbox := [(mbKey 0 31, List.replicate n ⟨5, 1⟩)] })
def sendTo (name : BitVec 32) : Send := { id := 7, own := none, tok := none, ctx := 0, name := name, msg := 5, scope := 4 }
theorem witness_mailboxes :
    (badName 0x20 = true ∧ badName 0xC000 = true ∧ clear (.mbsend sss) (wS [(5, 0x20)]) r0 = true) ∧
    (badName 0x1F = false ∧ bitN 0x1F 15 = false ∧ bitN 0x1F 14 = false ∧ vMapped (wBox 15) 0 0 = true ∧ boxFull (wBox 15) 0 0x1F = false ∧
      boxFull (wBox 16) 0 0x1F = true ∧ vMapped (wBox 16) 0 0 = true ∧ (((wBox 15).ctx 0).box 0 31).length < 16 ∧ relPending w0 r0 1 = false ∧ relPending w0 r0 4 = false) ∧
    (badName 0x4000 = false ∧ bitN 0x4000 14 = true) ∧ (badName 0x3FF8000 = false ∧ bitN 0x3FF8000 15 = true ∧ clear (.mbsend sss) (wS [(5, 0x3FF8000)]) r0 = true) ∧
    (clear (.mbrecv ⟨hd0, 4, 31, 3⟩) (wBox 1) r0 = true ∧ ((wBox 1).ctx 0).box (w0.vcoreRef r0) 31 = [⟨5, 1⟩] ∧ ((wBox 1).ctx 0).box (w0.vcoreRef r0) 0 = []) ∧
    (bitN (sendTo 0x1F).name.toNat 14 = false ∧ bitsN (sendTo 0x1F).name.toNat 13 8 = 0 ∧ 16 ≤ (((wBox 16).ctx 0).box 0 31).length ∧
      vMapped w0 0 (bitsN (sendTo 0x13F).name.toNat 13 8) = false ∧ savedOn w0 0 1 = false) ∧
    (let s := { wBox 15 with sends := [{ sendTo 0x1E with id := 6 }, sendTo 0x1F] }
     s.sends.find? (fun x => decide (x.id = 7)) = some (sendTo 0x1F) ∧
       (s.sends.takeWhile (fun x => decide (x.id ≠ 7))).all (fun x => !goesBefore x (sendTo 0x1F)) = true) ∧
    (bitN (sendTo 0x4000).name.toNat 14 = true ∧ (w0.ctx 0).hmq.length < 256) := by decide +kernel

/-- Barriers: not arrived, arrived in this phase, arrived in an earlier one; another group still to come, and none; die and grid barriers
outside and inside a cooperative grid, with another group to come. -/
def wBar (a : Option (BitVec 16)) : State :=
  (wGroup (fun g => { g with barA := (a.map (fun p => [(0, p)])).getD [] })).updTeam 1 (fun t => { t with bar := [(0, 3)] })
def wTwo : State := wTeam (fun t => { t with groups := Map.put t.groups 1 { live := true, lanes := [(0, { st := .live })] } })
theorem witness_barriers :
    (Map.find ((wBar none).group r0).barA 0 = none ∧ Map.find ((wBar (some 3)).group r0).barA 0 = some 3 ∧ Map.find ((wBar (some 2)).group r0).barA 0 = some 2 ∧
      Map.get 0 ((wBar none).team 1).bar 0 = 3 ∧ ([none, some 3, some 2] : List (Option (BitVec 16))).all (fun a => clear (.barwt ⟨hd0, 0⟩) (wBar a) r0) = true) ∧
    (clear (.barsync ⟨hd0, 0⟩) wTwo r0 = true ∧ ∃ e ∈ (wTwo.team 1).groups, e.1 ≠ 0 ∧ e.2.live = true ∧ Map.find e.2.barA 0 ≠ some 0) ∧
    ((w0.team 1).groups.map (·.1) = [0] ∧ ((w0.team 1).groups.map (·.1)).Nodup ∧ (w0.group r0).live = true ∧ (w0.team 1).st.runs = true ∧ relPending w0 r0 1 = false) ∧
    (clear (.diebar ⟨hd0, 3⟩) (wDecl (fun d => { d with coop := false })) r0 = true ∧ clear (.gridbar op0) (wDecl (fun d => { d with coop := false })) r0 = true ∧
      ((wDecl (fun d => { d with coop := false })).team 1).decl.coop = false) ∧
    (clear (.diebar ⟨hd0, 3⟩) wTwo r0 = true ∧ clear (.gridbar op0) wTwo r0 = true ∧ (wTwo.team 1).decl.coop = true ∧ gridTeams wTwo 0 1 = [1] ∧ (wTwo.team 1).alive = true ∧
      ∃ e ∈ (wTwo.team 1).groups, e.1 ≠ 0 ∧ e.2.live = true ∧ Map.find e.2.dieA 3 = none ∧ e.2.gridA = none) := by decide +kernel
/-- A half that waits at the SAU: of lane 0's packed ATOM, or a REDST. -/
def sauOp (op ty : BitVec 3) (atom : Bool) : SauOp :=
  { id := 9, own := r0, tids := [0], atom := atom, l2 := none, pa := 0x1000, va := 0x1000, op := op, ty := ty, high := atom, ys := [(0, 5)], olds := [], pc := 0x20000 }
theorem witness_waits_fences :
    ((w0.group r0).counter (cmdClsOf 0) ≤ 0) ∧ (let s := wGroup (fun g => { g with cColl := 255 }); clear (.waitc ⟨hd0, 3, 254⟩) s r0 = true ∧ 254 < (s.group r0).counter (cmdClsOf 3)) ∧
    (clear (.fence ⟨hd0, 2, 4⟩) w0 r0 = true ∧ atomPending w0 r0 = false) ∧
    (let s := { w0 with sauQ := [sauOp 0 4 true] }
     clear (.fence ⟨hd0, 2, 4⟩) s r0 = true ∧ atomPending s r0 = true) ∧ (clear (.fence ⟨hd0, 0, 4⟩) w0 r0 = true ∧ relPending w0 r0 4 = false) ∧
    (let s := w0.updCore 0 (fun c => { c with l1 := [(64, ⟨1, true⟩)] }); (fenceAcq s (s.who r0) 2).core 0 = s.core 0) := by decide +kernel


theorem eraseDups_short {α} [BEq α] : ∀ (n : Nat) (l : List α), l.length ≤ n → l.eraseDups.length ≤ l.length
  | 0, l, h => by cases l <;> simp_all
  | _, [], _ => by simp
  | n + 1, a :: l, h => by
    rw [List.eraseDups_cons]
    have h1 : (l.filter (fun b => !b == a)).length ≤ l.length := List.length_filter_le ..
    have h2 := eraseDups_short n (l.filter (fun b => !b == a)) (by simp at h; omega)
    simp only [List.length_cons]
    omega
theorem places_empty {sets n : Nat} {ls : List Nat} (h : ls.length ≤ n) : hasPlaces [] sets n ls := by
  intro c
  refine Nat.le_trans (Nat.add_le_add_left (eraseDups_short _ _ (Nat.le_refl _)) _) ?_
  simp only [List.filter_nil, List.length_nil, Nat.zero_add]
  exact Nat.le_trans (List.length_filter_le ..) h
/-- Empty caches have room for up to eight lines. -/
theorem room_empty {s : State} {w : Who} {pas : List Nat} (h1 : (s.core w.core).ways = []) (h2 : (s.die w.die).ways = [])
    (h4 : winLines s w.die = 0) (h3 : pas.length ≤ 8) : hasRoom s w pas := by
  unfold hasRoom
  rw [h1, h2]
  exact ⟨places_empty (by simpa using h3), places_empty (by simp [h4]; omega)⟩
/-- The lanes of an access translate and can be read; what else is asked of them is `p`. -/
def accessed (i : Instr) (s : State) (n : Nat) (a : Acc) (sau : Bool) (g : GAddr) (p : Iss → List (Nat × Nat × Leaf) → State → Bool) : Bool :=
  let I := enter i s r0
  clear i s r0 && (match checkLanes I.s I.who n a sau (I.addrs g) with
    | .ok (ls, t) => p I ls t
    | .error _ => false)
def at4096 : State := wLanes 2 (fun l t => { t with v := [(6, 0x1000 + 8 * BitVec.ofNat 32 l)] })
/-- LoadsRead: LD of two lanes, at the top of the mapped region too; ULD; an offset at the end of the scratchpad; a bank beyond its size
and inside it; a load that arrives. -/
theorem witness_loads :
    accessed (.ld memOp) at4096 4 .read false (.off 6 0) (fun I ls t => decide (ls.length = 2) && !sauHolds t r0 4 ls && (readLanes t I.who 4 ls).2.1.isEmpty && (I.addrs (.off 6 0)).all (fun p => !isFabric p.2)) = true ∧
    accessed (.ld { memOp with a := .off 6 0xFFFC }) (wV [(6, 0x20000000)]) 4 .read false (.off 6 0xFFFC) (fun I ls t => (readLanes t I.who 4 ls).2.1.isEmpty) = true ∧
    accessed (.uld ⟨hd0, 4, 6, 0, true⟩) (wV [(6, 0x1000)]) 8 .read false (.off 6 0) (fun I ls t => match ls with
      | [(0, 0x1000, lf)] => decide (I.uldAddr ⟨hd0, 4, 6, 0, true⟩ = 0x1000) && !sauHolds t r0 8 ls && (match coreRead t I.who lf 8 with
        | .ok _ => true
        | .error _ => false)
      | _ => false) = true ∧
    (let s := wV [(6, 3 * 2 ^ 20 - 8)]; let I := enter (.lds { ldsOp with w := true }) s r0
     clear (.lds { ldsOp with w := true }) s r0 = true ∧ checkScr I.tm (isUpper I.tm 0) 8 .read (I.en.map (fun l => (l, scrAddr (I.th l) 6 0))) = none) ∧
    (let s := (wV [(6, 4)]).updTeam 1 (fun t => { t with decl := { t.decl with csize := [8], caddr := [0x1000] } })
     clear (.ldc ⟨hd0, 4, 6, 0, 0, false⟩) s r0 = true ∧ (enter (.ldc ⟨hd0, 4, 6, 0, 0, false⟩) s r0).en = [0] ∧
       ldcOff ((enter (.ldc ⟨hd0, 4, 6, 0, 0, false⟩) s r0).th 0) ⟨hd0, 4, 6, 0, 0, false⟩ = 4 ∧
       ldcAbsent (enter (.ldc ⟨hd0, 4, 6, 0, 0, false⟩) s r0).s r0 0 [(0, 4)] = [] ∧
       (ldcReads (enter (.ldc ⟨hd0, 4, 6, 0, 0, false⟩) s r0) ⟨hd0, 4, 6, 0, 0, false⟩ (enter (.ldc ⟨hd0, 4, 6, 0, 0, false⟩) s r0).s).2.1 = [] ∧
       (match ldcRead (enter (.ldc ⟨hd0, 4, 6, 0, 0, false⟩) s r0).s r0 0 4 4 with
        | .ok _ => true
        | .error _ => false) = true) ∧
    (let s := wV [(6, 8)]; clear (.ldc ⟨hd0, 4, 6, 0, 0, false⟩) s r0 = true ∧ (s.team 1).decl.csize.getD 0 0 ≤ 8) := by decide +kernel
theorem witness_room :
    hasRoom at4096 (at4096.who r0) [0x1000, 0x1008] ∧ (let s := wV [(6, 0x1000)]; hasRoom s (s.who r0) [0x1000]) ∧
      (accessed (.ld memOp) at4096 4 .read false (.off 6 0) (fun _ ls _ => decide (reached ls = [0x1000, 0x1008]))) = true ∧
      hinted ((wV [(6, 0x1000)]).who r0) 0 [0x1000] (wV [(6, 0x1000)]) = [0x1000] :=
  ⟨room_empty (by decide +kernel) (by decide +kernel) (by decide +kernel) (by decide),
    room_empty (by decide +kernel) (by decide +kernel) (by decide +kernel) (by decide), by decide +kernel⟩
theorem witness_arrivals :
    (let s := wGroup (fun g => { g with loads := [⟨9, 4, false, false, false, [(0, 5)], 0, 4, [], [], 0⟩], busy := [⟨9, 1, .v, 4⟩] })
     (s.group r0).loads.find? (fun l => decide (l.id = 9) && !l.split) = some ⟨9, 4, false, false, false, [(0, 5)], 0, 4, [], [], 0⟩ ∧ (Map.find (s.group r0).lanes 0).isSome) ∧
    (let ld : OutLoad := ⟨9, 4, false, false, true, [(0, 5)], 0, 4, [], [], 0⟩
     let s := wGroup (fun g => { g with loads := [ld], lanes := [(0, { pc := 0x20008, st := .splitWait })] })
     (s.group r0).loads.find? (fun x => x.split && (Map.find x.vals 0).isSome) = some ld ∧ (s.lane r0 0).st = .splitWait) := by decide +kernel
/-- StoresWrite: two lanes apart and no late failure; STS at the end of the scratchpad. -/
theorem witness_stores :
    accessed (.st memOp) at4096 4 .write false (.off 6 0) (fun _ ls t => !sauHolds t r0 4 ls && match ls, nextOf (.st memOp) at4096 with
      | [(0, _, x), (1, _, y)], some u => decide (x.pa + 4 ≤ y.pa ∨ y.pa + 4 ≤ x.pa) && decide (u.late = at4096.late)
      | _, _ => false) = true ∧
    (let s := wV [(6, 3 * 2 ^ 20 - 4)]; let I := enter (.sts ldsOp) s r0
     clear (.sts ldsOp) s r0 = true ∧ I.en = [0] ∧ checkScr I.tm (isUpper I.tm 0) 4 .write (I.en.map (fun l => (l, scrAddr (I.th l) 6 0))) = none) := by decide +kernel
/-- Where the core's stores wait, ST leaves both places' stores behind it, and one of them is performed on its own; an outstanding read is
performed anew (R110). -/
theorem witness_late :
    (let s := at4096.updCore 0 (fun c => { c with slow := true })
     accessed (.st memOp) s 4 .write false (.off 6 0) (fun _ ls t => !sauHolds t r0 4 ls) = true ∧
       (match nextOf (.st memOp) s with
         | some u => decide ((u.group r0).stq.map (fun h => (h.leaf.pa, h.n, h.ys.length)) = [(0x1000, 4, 1), (0x1008, 4, 1)]) && decide ((u.core 0).l1 = []) &&
           (u.group r0).stq.all (fun h => let v := storeEnter u r0 h.id
             decide ((v.group r0).stq.length = 1) && decide ((v.core 0).fifo = [64]) && decide (v.late = u.late))
         | none => false) = true) ∧
    (match nextOf (.ld memOp) at4096 with
      | some u => (u.group r0).loads.all (fun ld =>
          (Map.find ld.again 0).isSome && decide (ld.vals = [(0, 0), (1, 0)]) &&
            ((readAgain (u.updCore 0 (fun c => { c with l1 := [(0x1000, ⟨7, true⟩), (0x1001, ⟨0, true⟩), (0x1002, ⟨0, true⟩), (0x1003, ⟨0, true⟩)] })) r0 ld.id 0).group r0).loads.all
              (fun x => decide (x.vals = [(0, 7), (1, 0)])))
      | none => false) = true := by decide +kernel
theorem witness_roomy : roomy at4096 (at4096.who r0) [0x1000, 0x1008] := by
  refine ⟨by decide +kernel, fun c => ?_, witness_room.1⟩
  have h : (at4096.die (at4096.who r0).die).shx = [] := by decide +kernel
  rw [h]
  exact Nat.le_of_ble_eq_true rfl
/-- AccessFaultsAndHints: addresses too far and not aligned, offsets not aligned and beyond the allocation. -/
theorem witness_access_faults :
    (let s := wV [(6, 0), (7, 0x01000000)]
     ([.ld memOp, .st memOp, .atom atomOp, .cas ⟨hd0, 4, 6, .v 8, 9, false, 0, 0⟩, .redst ⟨hd0, 6, .v 8, 0, 0, 3⟩, .cctl ⟨hd0, 6, 0, false⟩] : List Instr).all (fun i => clear i s r0) = true ∧
       ((enter (.ld memOp) s r0).addrs (.plain 6)).filter (fun p => decide (2 ^ 56 ≤ p.2)) = [(0, 2 ^ 56)]) ∧
    (let s := wV [(6, 2)]
     clear (.st memOp) s r0 = true ∧ ((enter (.st memOp) s r0).addrs (.plain 6)).filter (fun p => decide (2 ^ 56 ≤ p.2)) = [] ∧
       ((enter (.st memOp) s r0).addrs (.plain 6)).filter (fun p => decide (p.2 % 4 ≠ 0)) = [(0, 2)] ∧
       (enter (.sts ldsOp) s r0).en.filter (fun l => decide (scrAddr ((enter (.sts ldsOp) s r0).th l) 6 0 % 4 ≠ 0)) = [0]) ∧
    (let s := wV [(6, 3 * 2 ^ 20)]
     clear (.lds ldsOp) s r0 = true ∧ clear (.atoms atomOp) s r0 = true ∧ (enter (.lds ldsOp) s r0).en.filter (fun l => decide (scrAddr ((enter (.lds ldsOp) s r0).th l) 6 0 % 4 ≠ 0)) = [] ∧
       (enter (.lds ldsOp) s r0).en.filter (fun l => !scrIn (s.team 1).decl (scrAddr ((enter (.lds ldsOp) s r0).th l) 6 0) 4) = [0]) ∧
    (let s := (wV [(6, 0x1000)]).updCore 0 (fun c => { c with l1 := [(0x1000, ⟨1, true⟩)], fifo := [64] })
     accessed (.cctl ⟨hd0, 6, 0, false⟩) s 1 .read false (.plain 6) (fun _ ls t => ls.any (fun e => (t.core 0).l1.any (fun x => decide (x.1 / 64 = e.2.2.pa / 64)))) = true) := by decide +kernel
/-- Atomics: lanes with one address, at the L2 and at the SAU, for a plain and a packed type, with each order; compares that succeed and
that fail; plain and packed operations queued at their site. -/
def wAtom : State := { (wLanes 2 (fun _ t => { t with v := [(6, 0x1000)] })) with mem := (w0.setMem 0x12000 (leBytes 0x41F 8)).mem }
theorem witness_atomics :
    (0xFFFFFFFF < 2 ^ 32 ∧ 2 ^ 63 < 2 ^ 64) ∧
    (let s := wLanes 2 (fun _ t => { t with v := [(6, 3 * 2 ^ 20 - 4)] }); let I := enter (.atoms atomOp) s r0
     clear (.atoms atomOp) s r0 = true ∧ (∀ l ∈ I.en, ((I.th l).r 6).toNat = 3 * 2 ^ 20 - 4) ∧ I.en = [0, 1] ∧
       checkScr I.tm (isUpper I.tm 0) 4 .atom (I.en.map (fun l => (l, 3 * 2 ^ 20 - 4))) = none) ∧
    ([2, 4] : List (BitVec 3)).all (fun sc => ([0, 1, 2, 3] : List (BitVec 2)).all (fun od =>
      [(Instr.atom { atomOp with scope := sc, ord := od }, 4), (.atom { atomOp with scope := sc, ord := od, ty := 4 }, 2),
        (.cas ⟨hd0, 4, 6, .v 8, 9, false, od, sc⟩, 4)].all (fun e =>
        let I := (enter e.1 wAtom r0).ordered od sc
        clear e.1 wAtom r0 && !relPending wAtom r0 sc.toNat && (match checkLanes I.s I.who 4 .atom (atSau sc.toNat) (I.addrs (.plain 6)) with
        | .ok (ls, t) => (I.addrs (.plain 6)).all (fun p => decide (p.2 = 0x1000) && !isFabric p.2) && !sauHolds t r0 4 ls &&
          (match byAddr ls with
          | [(0x1000, lf, ks)] => decide (ks = I.en) && (match siteRead t I.who lf (atSau sc.toNat) e.2 with
            | .ok (old, v) => decide (old = 0) && (linePoisoned v (lineOf lf.pa)).isNone
            | .error _ => false)
          | _ => false)
        | .error _ => false)))) = true ∧
    (let s := wLanes 2 (fun _ t => { t with v := [(6, 0x1000), (8, 7)] })
     let I := enter (.cas ⟨hd0, 4, 6, .v 8, 9, false, 0, 4⟩) s r0
     (I.en.map (fun l => (srcH I.gp (I.th l) (.v 8)).toNat)) = [7, 7] ∧ ordAcq 0 = false) ∧
    accessed (.redst ⟨hd0, 6, .v 8, 0, 0, 3⟩) wAtom 4 .write true (.plain 6) (fun _ ls _ => decide ((byAddr ls).length = 1)) = true ∧
    ([(0, false), (4, false), (4, true)] : List (BitVec 3 × Bool)).all (fun p =>
     let q : SauOp := { sauOp 0 p.1 false with high := p.2 }
     let s := { wAtom with sauQ := [q] }
     decide (s.sauQ.find? (fun p => decide (p.id = 9)) = some q) && !sauBehind s q && (match siteRead s (s.who q.own) (sauLeaf q s) true (if p.1 = 4 then 2 else 4) with
      | .ok (_, t) => (linePoisoned t (lineOf q.pa)).isNone
      | .error _ => false)) = true := by decide +kernel


/-- TilesAndAccumulators: shapes 16 by 16 of BF16 in every tile; a shape word that is good, zero and bad. -/
def shape16 : Word64 := 0x100100
def wTile : State := (wS [(5, 0x100)]).updTeam 1 (fun t => { t with tc := (List.range 8).map (fun k => (k, shape16)) })
theorem witness_tiles :
    ([0, 0x100100, 0x000F] : List Word64).all (fun w => clear (.tcfg ⟨hd0, 0, 5⟩) (wS [(5, w)]) r0 && !tilesBusy (wS [(5, w)]) r0 [0] && decide ((enter (.tcfg ⟨hd0, 0, 5⟩) (wS [(5, w)]) r0).rs 5 = w)) = true ∧
    shapeOk 0x100100 = true ∧ shapeOk 0xF = false ∧ clear (.tzero ⟨hd0, 7⟩) w0 r0 = true ∧
    (let w := (wTile.shapeOf r0 7).toNat
     clear (.tld ⟨hd0, 7, 5⟩) wTile r0 = true ∧ clear (.tst ⟨hd0, 7, 5⟩) wTile r0 = true ∧ clear (.ttrn ⟨hd0, 0, 7⟩) wTile r0 = true ∧ tilesBusy wTile r0 [0, 7] = false ∧
     shRows w = 16 ∧ shCols w = 16 ∧ plainFmt (shEfmt w) = true ∧ tileBad (wTile.team 1) false 7 = false ∧
     scrRegion (enter (.tld ⟨hd0, 7, 5⟩) wTile r0) false .read 64 0x100 (imgSize (shEfmt w) 16 16) = none ∧
     scrRegion (enter (.tst ⟨hd0, 7, 5⟩) wTile r0) false .write 64 0x100 (imgSize (shEfmt w) 16 16) = none) := by decide +kernel
theorem witness_accumulators :
    (let s := wLanes 3 (fun l t => { t with v := [(5, ([0x00FF017F, 0x00FF017F, 0x01000000] : List Word32).getD l 0)] })
     clear (.accrd ⟨hd0, 4, 3, .v 5⟩) s r0 = true ∧ accBusy s r0 3 = false ∧ accBad (s.team 1) false 3 = false ∧ clear (.accwr ⟨hd0, 3, 5, .v 6⟩) s r0 = true ∧
      (enter (.accwr ⟨hd0, 3, 5, .v 6⟩) s r0).en = [0, 1, 2] ∧ 0x00FF017F / 65536 < 256 ∧ 0x00FF017F % 65536 < 384 ∧ ¬ 0x01000000 / 65536 < 256) := by decide +kernel

/-- CommandsStart: convergence registers of one signature, shapes in every tile, object entry 0 and a box of 16 elements, handles with
buffers. -/
def box16 : List Byte := leBytes ((16 + 2 ^ 16 + 2 ^ 32 + 2 ^ 48 + 2 ^ 64) * 2 ^ 160) 64
def object0 : Nat := 0x70020 * 2 ^ 64 + 16 * 2 ^ 128 + 16 * 2 ^ 160
def wCmds : State :=
  let s := wTile.updTeam 1 (fun t => { t with
    cv := [(0, { count := 1 }), (1, { count := 1 })]
    tc := Map.put t.tc 6 0x400010
    scratch := Map.setN 0 t.scratch 0 box16 })
  let s := s.updCtx 0 (fun c => { c with
    regs := { c.regs with objt := 0x100000, objn := 1 }
    handles := [3, 4, 5, 6].map (fun h => (h, { offset := 0x1000, size := 0x1000, team := 1 })) })
  (s.setMem 0x100000 (leBytes object0 64)).updGroup r0 (fun g => { g with sr := [(5, 0x100), (8, 0x10001)] })
def starts (i : Instr) (s : State) (cls : CmdCls) (sc : Nat) (ok : Iss → Bool) : Bool :=
  clear i s r0 && decide ((s.group r0).counter cls < 255) && !relPending s r0 sc && ok ((enter i s r0).released sc) &&
    (match nextOf i s with
      | some t => decide (t.cmds.length = s.cmds.length + 1) && decide ((t.group r0).counter cls = (s.group r0).counter cls + 1)
      | none => false)
def cvOk (J : Iss) (cv : BitVec 4) : Bool := (cvRefused (Map.get {} (J.s.team J.ref.team).cv cv.toNat) (J.th J.low).tid true).isNone
def cpyOk (k : CpyKind) (o : OpCpy) (J : Iss) : Bool := (cpyCheck k o J).toOption.isSome && cvOk J o.cv
theorem witness_matrix_starts :
    starts (.mma mmaOp) wCmds .matrix 1 (fun J => (mmaChecks J mmaOp false).isNone && cvOk J mmaOp.cv) = true ∧
    starts (.mmas mmaOp) wCmds .matrix 1 (fun J => (mmaChecks J mmaOp true).isNone && cvOk J mmaOp.cv) = true ∧
    starts (.acccvt ⟨hd0, 0, true, 5, 1, 1, 4, 0, 2, 0⟩) wCmds .matrix 1 (fun J => cvOk J 0 && (accEcc J 0).isNone && (opndShape J true 5 2 16 16 1).isNone && (opndMem J .write true 5 2 16 16 1).isNone) = true ∧
    starts (.accz ⟨hd0, 4, 3⟩) wCmds .matrix 1 (fun _ => true) = true ∧
    starts (.accst ⟨hd0, 4, 3, 5, 8⟩) wCmds .matrix 1 (fun J => (scrRegion J true .write 64 0x100 4).isNone && (accEcc J 3).isNone) = true ∧
    starts (.attn attnOp) wCmds .matrix 1 (fun J => (attnChecks J attnOp false).isNone && cvOk J attnOp.cv) = true ∧
    starts (.attnv { attnOp with shm := 0 }) wCmds .matrix 1 (fun J => (attnChecks J { attnOp with shm := 0 } true).isNone && cvOk J attnOp.cv) = true ∧
    starts (.attnf ⟨hd0, 4, 6, 5, 8⟩) wCmds .matrix 1 (fun J => (attnfChecks J ⟨hd0, 4, 6, 5, 8⟩).isNone) = true := by decide +kernel
theorem witness_copy_starts :
    starts (.cpy cpyOp) wCmds .copy 1 (cpyOk .plain cpyOp) = true ∧
    starts (.cpyg { cpyOp with saux := 0 }) wCmds .copy 1 (cpyOk .gather { cpyOp with saux := 0 }) = true ∧
    starts (.cpyx cpyOp) wCmds .copy 1 (cpyOk .expand cpyOp) = true ∧
    starts (.cpyc { cpyOp with dir := 1 }) wCmds .copy 1 (cpyOk .compact { cpyOp with dir := 1 }) = true ∧
    starts (.cpyf cpyOp) wCmds .copy 1 (cpyOk .fill cpyOp) = true ∧
    starts (.coll cpyOp) wCmds .coll 4 (fun J => cvOk J cpyOp.cv && decide ((J.rs cpyOp.scrd).toNat % 64 = 0) &&
      (match collRead J cpyOp with
        | .wait _ => false
        | _ => true)) = true := by decide +kernel
theorem witness_kv_starts :
    starts (.kvmap sss) wCmds .copy 1 (fun J => (scrRegion J true .read 64 (J.rs 6).toNat 64).isNone) = true ∧
    starts (.kvapnd ⟨hd0, 4, 6, 6, 0, 256⟩) wCmds .copy 1 (fun J => (kvRegion J (J.rs 6) 64 (J.rs 6).toNat (fun g => kvRows g 256)).isNone) = true ∧
    ([.kvseal sd, .kvfree sd, .kvwashReq sd, .kvwashPage sd, .kvtierHbm sd, .kvtierLp sd, .kvrebld sd] : List Instr).all (fun i => starts i wCmds .copy 1 (fun _ => true)) = true ∧
    starts (.kvsel ⟨hd0, 4, 6, 6, 7, 0, false, 0, 0, 0⟩) wCmds .gather 1 (fun J => (kvRegion J (J.rs 6) 4 (J.rs 6).toNat (fun g => 4 * g.nkvh * g.dh)).isNone) = true ∧
    starts (.kvpf ⟨hd0, 4, 6, 6, 0, 3, 3, true, 3, 3⟩) wCmds .gather 1 (fun J => (ringOf ⟨hd0, 4, 6, 6, 0, 3, 3, true, 3, 3⟩).all (fun h => decide (((J.s.ctx 0).handle (J.s.vcoreRef J.ref) h).size ≠ 0))) = true ∧
    starts (.actld ⟨hd0, 4, 5⟩) wCmds .copy 1 (fun J => decide ((J.rs 5).toNat % 256 = 0) && !bankBound wCmds 0 true && !actldPending wCmds 0 && decide ((wCmds.group r0).actBank = (wCmds.ctx 0).actDef)) = true ∧
    (let o : OpSxsect := { h := hd0, d := 4, a := 6, b := 8, c := 10, lo := false, emit := true, m1 := 3 }
     let s := (wV [(6, 0x1000), (8, 0x1000), (10, 0x10001), (11, 8)])
     starts (.sxsect o) s .gather 1 (fun J => (sxAll J o J.s J.en).1.all (fun p => p.2.ask.isNone && !p.2.pend && p.2.fail.isNone && decide (p.2.outs.length = 1)) &&
       scrIn J.tm.decl 8 4) = true) := by decide +kernel

/-- CommandsEnd: a command alone of its class, running; the array's queue; an attention command whose handles are FULL. -/
def cmdOf (i : Instr) (cls : CmdCls) (st : CmdSt) : Cmd := { id := 50, ctx := 0, own := r0, instr := i, cls := cls, tok := some 4, lane := 0, pc := 0x20000, st := st }
def wEnd (c : Cmd) : State :=
  { wCmds.updGroup r0 (fun g => { g with toks := [(4, 50)], cMatrix := 1 }) with cmds := [c] }
def endOk (c : Cmd) : Bool :=
  (match (wEnd c).cmd 50 with
    | some d => decide (d = c)
    | none => false) && decide (((wEnd c).cmds.filter (fun x => decide (x.own = c.own) && decide (x.cls = c.cls))) = [c]) &&
  (Map.find ((wEnd c).team 1).groups 0).isSome && decide (((wEnd c).team 1).st ≠ .saved) && decide (((wEnd c).group r0).toks.find? (fun p => decide (p.2 = 50)) = some (4, 50))
theorem witness_commands_end :
    ([.accz ⟨hd0, 4, 3⟩, .mma mmaOp, .mmas mmaOp, .mma { mmaOp with kq := 0, mq := 16, nq := 24 }] : List Instr).all (fun i => endOk (cmdOf i .matrix .running)) = true ∧
    (0 < mmaOp.mq.toNat ∧ mmaOp.nq.toNat ≤ 24 ∧ tileBad (wCmds.team 1) (upperOf wCmds r0) (mmaOp.aop.toNat % 8) = false ∧ tileBad (wCmds.team 1) (upperOf wCmds r0) (mmaOp.bop.toNat % 8) = false) ∧
    (let s := (wEnd (cmdOf (.accz ⟨hd0, 4, 3⟩) .matrix .queued)).updCore 0 (fun c => { c with matrix := [50] })
     endOk (cmdOf (.accz ⟨hd0, 4, 3⟩) .matrix .queued) = true ∧ (s.core 0).array = none ∧ (s.core 0).matrix = [50]) ∧
    (let c : Cmd := { cmdOf (.attn attnOp) .matrix .waiting with sv := [(5, 0)], cap := [shape16] }
     endOk c = true ∧ (wEnd c).cmds.find? (attnReady (wEnd c) 0) = some c ∧ attnCmd c = some (attnOp, false) ∧
      (match attnOperands (wEnd c) c attnOp false (handleList (c.s attnOp.shm)) with
        | .ok l => l.isEmpty
        | .error _ => false) = true) := by decide +kernel

/-! ### What reads and writes of whole ranges come to, for the witnesses below -/

/-- Every piece of a range starts inside it. -/
theorem pieces_in (blk : Nat) : ∀ (f a n : Nat), ∀ p ∈ pieces blk f a n, p.1 < a + n
  | 0, _, _ => by simp [pieces]
  | f + 1, a, n => by
    intro p hp
    unfold pieces at hp
    split at hp
    · simp at hp
    · rcases List.mem_cons.1 hp with rfl | hp
      · simp; omega
      · have h := pieces_in blk f _ _ p hp
        have hk : min n (blk - a % blk) ≤ n := Nat.min_le_left ..
        omega
theorem pieces_from (blk : Nat) : ∀ (f a n : Nat), ∀ p ∈ pieces blk f a n, a ≤ p.1
  | 0, _, _ => by simp [pieces]
  | f + 1, a, n => by
    intro p hp
    unfold pieces at hp
    split at hp
    · simp at hp
    · rcases List.mem_cons.1 hp with rfl | hp
      · simp
      · exact Nat.le_trans (Nat.le_add_right ..) (pieces_from blk f _ _ p hp)
theorem pieces_le (blk : Nat) : ∀ (f a n : Nat), ∀ p ∈ pieces blk f a n, p.2 ≤ n
  | 0, _, _ => by simp [pieces]
  | f + 1, a, n => by
    intro p hp
    unfold pieces at hp
    split at hp
    · simp at hp
    · rcases List.mem_cons.1 hp with rfl | hp
      · exact Nat.min_le_left ..
      · exact Nat.le_trans (pieces_le blk f _ _ p hp) (Nat.sub_le ..)
/-- A range below 512 MiB reads at home through the identity translation of the engines, where no line has a metadata code. -/
theorem reads_identity (s : State) (c va n : Nat) (hT : (s.core 64).tlb = [⟨c, 0, 2, 0x41F⟩]) (hm : s.lmeta = []) (hp : s.poison = [])
    (hC : (s.ctx c).capHead = none) (hn : va + n ≤ 2 ^ 29) : ∃ bs t, vaReadHome s (bgWho c) va n = .ok (bs, t) := by
  have main : ∀ (ps : List (Nat × Nat)), (∀ p ∈ ps, p.1 < 2 ^ 29) → ∀ (bs : List Byte) (t : State),
      (t.core 64).tlb = [⟨c, 0, 2, 0x41F⟩] → t.lmeta = [] → t.poison = [] → (t.ctx c).capHead = none → ∃ cs u, (ps.foldl (fun acc p =>
        match acc with
        | .error e => .error e
        | .ok (bs, t) =>
          match xlate t (bgWho c) p.1 .read false with
          | .error e => .error (e, p.1)
          | .ok (lf, u) =>
            match homeReadUnder u (bgWho c) lf.pa p.2 with
            | .error e => .error (e, p.1)
            | .ok xs => .ok (bs ++ xs, u)) (.ok (bs, t) : Except (MErr × Nat) (List Byte × State))) = .ok (cs, u) := by
    intro ps
    induction ps with
    | nil => exact fun _ bs t _ _ _ _ => ⟨bs, t, rfl⟩
    | cons p ps ih =>
      intro hps bs t h1 h2 h3 h4
      have hv : p.1 < 2 ^ 29 := hps p (List.mem_cons_self ..)
      have hf : tlbFind (t.core (bgWho c).core).tlb (bgWho c).ctx p.1 = some ⟨c, 0, 2, 0x41F⟩ := by
        have h0 : p.1 / 536870912 = 0 := by omega
        simp [bgWho, h1, tlbFind, lvlShift, h0]
      have hx : xlate t (bgWho c) p.1 .read false = .ok ({ pa := p.1, pte := 0x41F, lvl := 2 },
          { t with lattr := Map.put t.lattr (lineOf p.1) ⟨0x41F, c⟩ }) := by
        have b : bitN p.1 55 = false := by simp [bitN]; omega
        have hb : pteBase 0x41F = 0 := by decide
        have hmr : inMetaRegion p.1 = false := by simp [inMetaRegion]; intro _; omega
        have hmod : p.1 % 536870912 = p.1 := by omega
        have hr : rightsOk 1055 .read false = true := by decide
        have hcp : capPa t (bgWho c).ctx p.1 = none := by simp [capPa, bgWho, h4]
        simp only [xlate, leafOf, hf, hcp]
        simp [b, hb, lvlShift, hmod, hmr, hr, bgWho]
        omega
      have hh : ∀ k, ∃ ys, homeReadUnder { t with lattr := Map.put t.lattr (lineOf p.1) ⟨0x41F, c⟩ } (bgWho c) p.1 k = .ok ys := by
        intro k
        have hw : ¬ winRegion ≤ p.1 := by simp [winRegion]; omega
        have h0 : homeRead { t with lattr := Map.put t.lattr (lineOf p.1) ⟨0x41F, c⟩ } p.1 k =
            .ok (memBytes { t with lattr := Map.put t.lattr (lineOf p.1) ⟨0x41F, c⟩ } p.1 k) := by
          simp [homeRead, hw, metaOf, h2, readPoisoned, poisoned, h3, Map.get, Map.find]
        exact ⟨_, by rw [homeReadUnder, h0]; rfl⟩
      obtain ⟨ys, hy⟩ := hh p.2
      simp only [List.foldl_cons, hx, hy]
      exact ih (fun q hq => hps q (List.mem_cons_of_mem _ hq)) _ _ h1 h2 h3 h4
  exact main _ (fun p hq => Nat.lt_of_lt_of_le (pieces_in 64 _ va n p hq) hn) [] s hT hm hp hC
theorem kRead_of_read {s t : State} {c va n : Nat} {bs : List Byte} (h : vaReadHome s (bgWho c) va n = .ok (bs, t)) :
    kRun (bgWho c) (kRead c va n) s = (.ok bs, t) := by
  have h' : vaReadHome s { bgWho c with ctx := c } va n = .ok (bs, t) := h
  simp [kRun, kRead, h', ReaderT.run, ReaderT.bind, read, readThe, MonadReaderOf.read, ReaderT.read, ReaderT.pure, ExceptT.run, bind, ExceptT.bind, ExceptT.mk, ExceptT.bindCont, StateT.bind, get, getThe, MonadStateOf.get,
    liftM, monadLift, MonadLift.monadLift, ExceptT.lift, StateT.get, StateT.run, set, MonadStateOf.set, StateT.set, pure, ExceptT.pure,
    StateT.pure, Functor.map, StateT.map, Id.run]

/-- Nothing is cached, no line has a metadata code, and the engines' translation of context `c` is the identity, but for the region that
holds the capability list. -/
def Plain (c : Nat) (cs : Map Ctx) (s : State) : Prop :=
  s.cores = [(64, { tlb := [⟨c, 0, 2, 0x41F⟩] })] ∧ s.dies = [] ∧ s.lmeta = [] ∧ s.poison = [] ∧ s.ctxs = cs
theorem put_plain {c : Nat} {cs : Map Ctx} {s : State} (bs : List (Nat × Byte)) (h : Plain c cs s) :
    Plain c cs (bs.foldl (fun u p => u.setMem p.1 [p.2]) s) := by
  induction bs generalizing s with
  | nil => exact h
  | cons b bs ih => exact ih h
/-- The address lies outside the capability list of the context. -/
def offList (c : Nat) (cs : Map Ctx) (a : Nat) : Prop :=
  ∀ h, (Map.get {} cs c).capHead = some h → ¬ (h.toNat ≤ a ∧ a < h.toNat + 128)
theorem pieces_written {c : Nat} {cs : Map Ctx} : ∀ (ps : List (Nat × Nat)) (bs : List Byte) (s : State), Plain c cs s →
    (∀ p ∈ ps, p.1 < 2 ^ 29 ∧ offList c cs p.1 ∧ p.2 < 256) →
    Plain c cs (formerWritePieces (bgWho c) ps bs s).1 ∧ (formerWritePieces (bgWho c) ps bs s).2 = none
  | [], _, _, h, _ => ⟨h, rfl⟩
  | (pa, pk) :: ps, bs, s, h, hp => by
    obtain ⟨hv, hL, hk⟩ : pa < 2 ^ 29 ∧ offList c cs pa ∧ pk < 256 := hp (pa, pk) (List.mem_cons_self ..)
    have hne : ¬ pk = 256 := by omega
    obtain ⟨h1, h2, h3, h4, h5⟩ := h
    have hc : (s.core 64).tlb = [⟨c, 0, 2, 0x41F⟩] := by simp [State.core, h1, Map.get, Map.find]
    have hf : tlbFind (s.core (bgWho c).core).tlb (bgWho c).ctx pa = some ⟨c, 0, 2, 0x41F⟩ := by
      have h0 : pa / 536870912 = 0 := by omega
      simp [bgWho, hc, tlbFind, lvlShift, h0]
    have hx : xlate s (bgWho c) pa .write false = .ok ({ pa := pa, pte := 0x41F, lvl := 2 },
        { s with lattr := Map.put s.lattr (lineOf pa) ⟨0x41F, c⟩ }) := by
      have b : bitN pa 55 = false := by simp [bitN]; omega
      have hb : pteBase 0x41F = 0 := by decide
      have hmr : inMetaRegion pa = false := by simp [inMetaRegion]; intro _; omega
      have hmod : pa % 536870912 = pa := by omega
      have hr : rightsOk 1055 .write false = true := by decide
      have hcp : capPa s (bgWho c).ctx pa = none := by
        have e : (s.ctx c).capHead = (Map.get {} cs c).capHead := by simp [State.ctx, h5]
        simp only [capPa, bgWho, e]
        cases hh : (Map.get {} cs c).capHead with
        | none => rfl
        | some h => exact if_neg (hL h hh)
      simp only [xlate, leafOf, hf, hcp]
      simp [b, hb, lvlShift, hmod, hmr, hr, bgWho]
      omega
    have hd : ∀ t : State, t.cores = s.cores → t.dies = [] → dropEverywhere t pa pk = t := by
      intro t e1 e2
      rcases t with ⟨⟩
      simp only at e1 e2
      subst e1 e2
      simp [dropEverywhere, h1, l1DropBytes, State.updCore, Map.upd, Map.get, Map.find, Map.put, Map.clear]
    have hw : ∀ t : State, Plain c cs t → ∀ xs : List (Nat × Byte), Plain c cs (homeWrite t (lineOf pa) xs).1 ∧ (homeWrite t (lineOf pa) xs).2 = none := by
      intro t ht xs
      have ht' := ht
      obtain ⟨_, _, e3, e4, _⟩ := ht'
      have w0 : ¬ winRegion ≤ lineOf pa * 256 := by simp [winRegion, lineOf]; omega
      have hl : linePoisoned t (lineOf pa) = none := by simp [linePoisoned, poisoned, metaOf, e3, e4, Map.get, Map.find]
      have hm : (if isHbm (lineOf pa * 256) = true then metaOf t (lineOf pa) else 0) = 0 := by simp [metaOf, e3, Map.get, Map.find]
      simp only [homeWrite, w0, hl, if_false]
      rw [if_pos hm]
      exact ⟨put_plain xs ht, rfl⟩
    have hq : Plain c cs { s with lattr := Map.put s.lattr (lineOf pa) ⟨0x41F, c⟩ } := ⟨h1, h2, h3, h4, h5⟩
    have ih := pieces_written ps (bs.drop pk) _ (hw _ hq (((bs.take pk).zipIdx).map (fun q => (pa + q.2, q.1)))).1
      (fun q hq => hp q (List.mem_cons_of_mem _ hq))
    have hn := (hw _ hq (((bs.take pk).zipIdx).map (fun q => (pa + q.2, q.1)))).2
    have hd1 := hd { s with lattr := Map.put s.lattr (lineOf pa) ⟨0x41F, c⟩ } rfl h2
    simp only [formerWritePieces, hx]
    rw [hd1, if_neg hne, hn]
    exact ih
/-- A request table below 512 MiB can be written. -/
theorem table_written {c : Nat} {cs : Map Ctx} (hr : (Map.get {} cs c).regs.rqtab.toNat + 8192 * 128 ≤ 2 ^ 29)
    (hL : ∀ a, (Map.get {} cs c).regs.rqtab.toNat ≤ a → a < (Map.get {} cs c).regs.rqtab.toNat + 8192 * 128 → offList c cs a) : ∀ (is : List Nat) (s : State),
    Plain c cs s → (∀ i ∈ is, i < 8192) → (writeTable c is s).2 = none
  | [], _, _, _ => rfl
  | i :: is, s, h, hi => by
    have hx : Plain c cs (rqWrite s c i (freeRecord i)).1 ∧ (rqWrite s c i (freeRecord i)).2 = none := by
      have h5 := h.2.2.2.2
      refine pieces_written _ _ s h (fun p hp => ?_)
      have hq := pieces_in 256 _ _ _ p hp
      have hl : (leBytes (freeRecord i) 128).length = 128 := by simp [leBytes]
      have h0 := hi i (List.mem_cons_self ..)
      have ha : rqAddr s c i = (Map.get {} cs c).regs.rqtab.toNat + 128 * i := by simp [rqAddr, State.ctx, h5]
      have hg := pieces_from 256 _ _ _ p hp
      rw [ha] at hg
      rw [ha, hl] at hq
      have hs := pieces_le 256 _ _ _ p hp
      rw [hl] at hs
      exact ⟨by omega, hL p.1 (by omega) (by omega), by omega⟩
    simp only [writeTable, hx.2]
    exact table_written hr hL is _ hx.1 (fun j hj => hi j (List.mem_cons_of_mem _ hj))


/-- HandlesAndBanks: regions that are good, misaligned and too far; handles in each state; an object entry. -/
def wHand (st : BitVec 2) : State := wCmds.updCtx 0 (fun c => { c with handles := [(63, { st := st, offset := 0, size := 0x100, team := 1 })] })
theorem witness_handles :
    ([0x100002FFF00, 0x80, 0x10000300000, 0] : List Word64).all (fun x => clear (.hbind ⟨hd0, 63, 5⟩) (wS [(5, x)]) r0) = true ∧
    (0x100002FFF00 % 2 ^ 23 = 0x2FFF00 ∧ bitsN 0x100002FFF00 55 32 = 0x100 ∧ scrIn FetchWord.decl 0x2FFF00 0x100 = true ∧ (((wHand 0).ctx 0).handle 0 63).st = 0 ∧
      scrIn FetchWord.decl 0x300000 0x100 = false ∧ 0x80 % 256 ≠ 0) ∧
    ([0, 1, 2, 3] : List (BitVec 2)).all (fun st => let s := wHand st
      clear (.hset ⟨hd0, 63, st + 1⟩) s r0 && clear (.hwait ⟨hd0, 63, st⟩) s r0 && clear (.hwait ⟨hd0, 63, st + 1⟩) s r0 && clear (.hrel ⟨hd0, 63⟩) s r0 &&
      !relPending s r0 1 && !handleRead s 0 (s.vcoreRef r0) 63 && decide (((s.ctx 0).handle (s.vcoreRef r0) 63).st = st)) = true ∧
    ([0, 1, 2, 3] : List (BitVec 2)).all (fun m => clear (.objq ⟨hd0, 4, 0, 7, m, false⟩) wCmds r0) = true ∧
    (let I := enter (.objq ⟨hd0, 4, 0, 7, 1, false⟩) wCmds r0
     (match objEntry I false false 0 0 with
      | .ok (e, _) => decide (e = object0)
      | .error _ => false) = true) := by decide +kernel
/-- The banks: a table of which only segment 5 begins below 1.0; a bank that the group itself uses. -/
def bank5 (k : Nat) : Nat := if k = 40 then 0x3F000000 else if k % 8 = 0 then 0x40000000 else 0
theorem witness_banks :
    clear (.act un) w0 r0 = true ∧ clear (.actsel opI) w0 r0 = true ∧ actldPending w0 0 = false ∧
    (FP32.val 0x3F800000).isNan = false ∧ (FP32.val (bank5 40)).isNan = false ∧ Ev.lt (FP32.val 0x3F800000) (FP32.val (bank5 40)) = false ∧
    (List.range 256).all (fun k => decide (k ≤ 5) || Ev.lt (FP32.val 0x3F800000) (FP32.val (bank5 (8 * k)))) = true ∧
    (let s := wGroup (fun g => { g with actBank := true }); clear (.actld sd) s r0 = true ∧ (s.group r0).actBank ≠ (s.ctx 0).actDef) := by decide +kernel

/-- A context with requests and pages: record 0 with an entry of one page, record 8191; two descriptors; pools of four slots; the
translation that the engines use. A body has 64 elements. -/
def rec0 (st : Nat) : Nat := st * 2 ^ 16 + (if st = 2 then 0 else 0xFFFF) * 2 ^ 32 + 100 * 2 ^ 160 + 100 * 2 ^ 192 + 0x400000 * 2 ^ 576 + 2 ^ 688
def entry0 : Nat := 1 * 2 ^ 64 + 5 * 2 ^ 96 + 2 ^ 104 + 64 * 2 ^ 192
def desc0 (fmt tier sealed : Nat) : Nat := 0x500000 + (fmt + 8 * tier + 32 * sealed + 64 + 256 * 5) * 2 ^ 64 + one32 * 2 ^ 96
def wKv (st fmt tier sealed : Nat) : State :=
  let s := (w0.updCtx 0 (fun c => { c with
    regs := { c.regs with
      rqtab := 0x100000, kvpt := 0x300000, kvptn := 1, kvslot := 0x5000, kvhpool := 0x500000, kvhn := 4, kvlpool := 0x600000, kvln := 4,
      kvsk := 0x700000, kvsksz := 0x100, kvwpol := 0x480000, kvpar := 0x1000000, kvparm := 0x800000 }
    former := { c.former with steptab := 0x200000, nslot := 4, table := [⟨0, 0, 1⟩] } })).updCore 64 (fun c => { c with tlb := [⟨0, 0, 2, 0x41F⟩] })
  let s := (s.setMem 0x12000 (leBytes 0x41F 8)).setMem 0x100000 (leBytes (rec0 st) 128)
  let s := (s.setMem 0x300000 (leBytes (desc0 fmt tier sealed) 64)).setMem 0x400000 (leBytes entry0 64)
  let s := (s.setMem 0x480000 (leBytes (1 + (2 ^ 32 - 1) * 2 ^ (8 * (0x14 + 4 * fmt))) 64)).setMem 0x500000 (leBytes noPage 64)
  s.updTeam 1 (fun t => { t with scratch := Map.setN 0 t.scratch 0 (leBytes (rec0 0) 128) })
def recIs (i : Instr) (s : State) (k x : Nat) : Bool :=
  clear i s r0 && decide (k < 8192) && (s.ctx 0).former.stage.isNone && (match (kRun (enter i s r0).kWho (kRq 0 k) (enter i s r0).s).1 with
    | .ok y => decide (y = x)
    | .error _ => false)
def putOk (i : Instr) (s : State) (k y : Nat) : Bool :=
  match (kRun (enter i s r0).kWho (kRqPut 0 k y) (enter i s r0).s).1 with
  | .ok _ => true
  | .error _ => false
theorem witness_record_reads :
    recIs (.rqrd ⟨hd0, 4, 5, 0⟩) (wKv 2 0 0 1) 0 (rec0 2) = true ∧
    recIs (.rqrd ⟨hd0, 4, 5, 120⟩) ((wKv 1 0 0 1).updGroup r0 (fun g => { g with sr := [(5, 8191)] })) 8191 0 = true ∧
    ([0xFFFF, 8192, 0xFFFE] : List Word64).all (fun x => clear (.rqrd ⟨hd0, 4, 5, 0⟩) (wS [(5, x)]) r0 && clear (.rqwr ⟨hd0, 5, 5, 0, true⟩) (wS [(5, x)]) r0) = true := by decide +kernel
theorem witness_record_writes :
    recIs (.rqwr ⟨hd0, 5, 5, 0x40, false⟩) (wKv 0 0 0 1) 0 (rec0 0) = true ∧ recIs (.rqwr ⟨hd0, 5, 5, 0x78, true⟩) (wKv 1 0 0 1) 0 (rec0 1) = true ∧
    recIs (.rqwrEmit ⟨hd0, 5, 5⟩) (wKv 2 0 0 1) 0 (rec0 2) = true ∧ recIs (.rqwrEmit ⟨hd0, 5, 5⟩) (wKv 4 0 0 1) 0 (rec0 4) = true ∧
    putOk (.rqrd ⟨hd0, 4, 5, 0⟩) (wKv 2 0 0 1) 0 (rec0 2) = true := by decide +kernel
theorem witness_record_flags :
    recIs (.rqflagCancel ⟨hd0, 5⟩) (wKv 3 0 0 1) 0 (rec0 3) = true ∧ recIs (.rqflagCancel ⟨hd0, 5⟩) (wKv 5 0 0 1) 0 (rec0 5) = true ∧
    recIs (.rqflagFault ⟨hd0, 5, 1⟩) (wKv 2 0 0 1) 0 (rec0 2) = true ∧ recIs (.rqflagFault ⟨hd0, 5, 1⟩) (wKv 1 0 0 1) 0 (rec0 1) = true ∧
    recIs (.rqevict ⟨hd0, 5⟩) (wKv 2 0 0 1) 0 (rec0 2) = true ∧ recIs (.rqevict ⟨hd0, 5⟩) (wKv 5 0 0 1) 0 (rec0 5) = true := by decide +kernel
theorem witness_record_retired :
    recIs (.rqretire ⟨hd0, 4, 5⟩) (wKv 0 0 0 1) 0 (rec0 0) = true ∧ recIs (.rqretire ⟨hd0, 4, 5⟩) (wKv 2 0 0 1) 0 (rec0 2) = true ∧
    recIs (.rqretire ⟨hd0, 4, 5⟩) (wKv 4 0 0 1) 0 (rec0 4) = true ∧ (List.range 6).all (fun st => decide (Rq.state (rec0 st) = st)) = true ∧
    (let I := enter (.rqretire ⟨hd0, 4, 5⟩) (wKv 4 0 0 1) r0
     match (kRun I.kWho (kRetire 0 0 (rec0 4)) I.s).1 with
      | .ok _ => true
      | .error _ => false) = true := by decide +kernel
theorem witness_binding_admission :
    (let s := wDecl (fun d => { d with rqsc := false }); clear (.rqbind ⟨hd0, 5, false⟩) s r0 = true ∧ (s.team 1).decl.rqsc = false) ∧
    (let s := wKv 2 0 0 1; (s.team 1).decl.rqsc = true ∧ clear (.rqbind ⟨hd0, 5, false⟩) s r0 = true ∧ (enter (.rqbind ⟨hd0, 5, false⟩) s r0).en = [0] ∧ (s.ctx 0).former.table = [⟨0, 0, 1⟩]) ∧
    (let s := wKv 2 0 0 1
     let I := enter (.rqadmit ⟨hd0, 4, 6⟩) s r0
     let img := leNat (scrRead I.tm false 0 128)
     clear (.rqadmit ⟨hd0, 4, 6⟩) s r0 = true ∧ checkScr I.tm false 128 .read (I.en.map (fun l => (l, 0))) = none ∧ Rq.nlg img = 1 ∧ Rq.kvroot img = 0x400000 ∧
      (match (kRun I.kWho (kAdmit 0 img) I.s).1 with
        | .ok d => decide (d = 1)
        | .error _ => false) = true ∧
      (let u := s.updCtx 0 (fun c => { c with regs := { c.regs with rqtab := 0x40000000000 } })
       let J := enter (.rqadmit ⟨hd0, 4, 6⟩) u r0
       clear (.rqadmit ⟨hd0, 4, 6⟩) u r0 = true ∧ checkScr J.tm false 128 .read (J.en.map (fun l => (l, 0))) = none ∧
        (match (kRun J.kWho (kAdmit 0 img) J.s).1 with
        | .error (.mem e _ _) => decide (e.code = cPGNP)
        | _ => false) = true)) ∧
    (clear (.rqadmit ⟨hd0, 4, 6⟩) w0 r0 = true ∧ Rq.nlg (leNat (scrRead (w0.team 1) false 0 128)) = 0) := by decide +kernel
/-- FormerStep: a step of a context without requests, and one that its group has left in its eviction action; requests that stop and do not; candidates passed over, without slot, without
pages, admitted to the lowest slot. -/
def cand (cancel : Nat) : RqW := { idx := 1, r := 0x10000 + cancel * 2 ^ 27 + 0xFFFF * 2 ^ 32 + 2 ^ 688 }
def stepW (free : Nat) (c : Nat) : StepW := { rqs := [{ idx := 0, r := rec0 2 }, cand c], free := free }
/-- A context whose request records cannot be read, so that none is worked on. -/
def wStep : State :=
  { State.reset with
    cur := some r0
    ctxs := [(0, { st := 1, regs := { rqtab := 0x100000 }, former := { steptab := 0x200000, nslot := 4 } })]
    teams := [(1, { lid := 1, st := .resident, decl := FetchWord.decl, groups := [(0, FetchWord.group)] })]
    cores := [(64, { tlb := [⟨0, 0, 2, 0x41B⟩] })] }
theorem witness_former :
    (let I := enter (.rqstep ⟨hd0, 4⟩) wStep r0
     let J := I.released 3
     clear (.rqstep ⟨hd0, 4⟩) wStep r0 = true ∧ relPending wStep r0 3 = false ∧ (J.s.ctx 0).former.stage = none ∧ (rqStepCheck J.s 0).isNone = true ∧
       (rqStep J.s 0 r0).2.isSome = true) ∧
    ([([], true), ([3], false)] : List (List Nat × Bool)).all (fun e =>
      let s := wStep.updCtx 0 (fun c => { c with evicting := e.1, former := { c.former with stage := some { own := r0, todo := [], marked := [], rel := [] } } })
      let J := (enter (.rqstep ⟨hd0, 4⟩) s r0).released 3
      clear (.rqstep ⟨hd0, 4⟩) s r0 && !relPending s r0 3 && decide ((J.s.ctx 0).former.stage.map (·.own) = some r0) &&
        decide ((rqStep J.s 0 r0).2.isSome = e.2)) = true := by decide +kernel
theorem witness_former_actions :
    (Rq.state (rec0 2) = rqACTIVE ∧ stops (rec0 2) = false ∧ stops (rec0 2 + 2 ^ 27) = true ∧ Rq.state (rec0 2 + 2 ^ 27) = rqACTIVE) ∧
    (Rq.cancel (cand 1).r = true ∧ Rq.cancel (cand 0).r = false ∧ (cand 0).out = false ∧ (stepW 9 0).stop = false ∧ cand 0 ∈ (stepW 9 0).rqs) ∧
    (Rq.nlg (cand 0).r * ((tokens 512 (cand 0).r + 63) / 64 + 1) = 2 ∧ (stepW 1 0).free < 2 ∧ 2 ≤ (stepW 2 0).free) ∧
    ((∀ k, ¬ k < 0) ∧ ((stepW 2 0).rqs.map (fun x => Rq.slot x.r) = [0, 0xFFFF]) ∧ 1 < 4) := by decide +kernel


/-- KvPages: commands whose work ends, fails with a code, cannot reach the page table, waits, asks for a sealed block; a chain engine with a free handle. -/
def kvCmd (i : Instr) (cls : CmdCls) : Cmd := { cmdOf i cls .running with sv := [(5, 0)], cap := [0] }
def withCmd (s : State) (c : Cmd) : State := { s with cmds := [c] }
def kvCtx (s : State) (f : Ctx → Ctx) : State := s.updCtx 0 f
/-- Where the work of a command stops: 0 done, 1 a code, 2 a failed access, 3 a wait; its state still holds the command. -/
def workEnds (c : Cmd) (s : State) : Option Nat :=
  let u := withCmd s c
  if (u.team 1).st = .saved ∨ u.cmd 50 ≠ some c ∨ c.st ≠ .running then none
  else match kvWork c with
    | none => none
    | some m =>
      let r := kRun (u.engWho c.own) m u
      if r.2.cmd 50 ≠ some c then none
      else match r.1 with
        | .ok _ => some 0
        | .error (.code _ _) => some 1
        | .error (.mem _ _ _) => some 2
        | .error .wait => some 3
        | .error (.park _) => some 4
theorem witness_kv_work :
    workEnds (kvCmd (.kvtierHbm sd) .copy) (wKv 2 0 0 1) = some 0 ∧ workEnds (kvCmd (.kvtierHbm sd) .copy) (wKv 2 0 2 1) = some 1 ∧
    workEnds (kvCmd (.kvtierHbm sd) .copy) ((wKv 2 0 0 1).updCore 64 (fun c => { c with tlb := [⟨0, 0, 2, 0x1F⟩] })) = some 2 ∧
    workEnds (kvCmd (.kvseal sd) .copy) (kvCtx (wKv 2 0 0 0) (fun c => { c with evicting := [0], regs := { c.regs with kvhn := 0, kvptn := 2 } })) = some 3 ∧
    workEnds (kvCmd (.kvtierHbm sd) .copy) ((kvCtx (wKv 2 3 1 1) (fun c => { c with regs := { c.regs with kvpolyPos := 0 }, parSealed := [0] })).setMem
      0x50003C (leBytes 0x74357830 4)) = some 4 := by
  decide +kernel
def pfOp : OpKvpf := ⟨hd0, 4, 6, 6, 0, 1, 3, false, 3, 0⟩
def wPf : State := kvCtx (withCmd (wKv 2 3 0 1) (kvCmd (.kvpf pfOp) .gather)) (fun c => { c with handles := [(3, { size := 0x10000, team := 1 })] })
theorem witness_chain_fill :
    (let c := kvCmd (.kvpf pfOp) .gather
     let hd := fun h => (wPf.ctx 0).handle (wPf.vcoreRef r0) h
     wPf.cmd 50 = some c ∧ c.pf.busyH = none ∧ (wPf.team 1).st.runs = true ∧
      ((ringOf pfOp).filter (fun r => decide ((hd r).st = 1) || decide ((hd r).st = 2))).length ≤ pfOp.dm1.toNat ∧ ringFree hd (ringOf pfOp) c.pf.ring = some (0, 3) ∧
      (match pfNextPage wPf c pfOp with
        | .ok (some p) s1 => decide (p = 0) && (match kRun (wPf.engWho r0) (kVisit c pfOp p false) s1 with
          | (.ok _, t) => decide (t.cmd 50 = some c)
          | _ => false)
        | _ => false) = true) := by decide +kernel
/-- The engines on a page whose body cannot be read: due for a demotion, due for a cold move, to be evicted, to be returned. -/
def lostBody (s : State) : State := { s with lmeta := [(0x500000 / 256, 2)] }
def kvGives {α : Type} (m : K α) (s : State) (p : α → State → Bool) : Bool :=
  match kRun (bgWho 0) m s with
  | (.ok x, t) => p x t
  | (.error _, _) => false
theorem witness_washing :
    kvGives (kWashAt 0 0) (lostBody (wKv 2 0 0 1)) (fun w s1 => match w with
      | some w => kvGives (kEval 0 0 w.1) s1 (fun a t => decide (a = .demote) && kvGives (kDemote 0 0 none) t (fun b _ => !b))
      | none => false) = true ∧
    kvGives (kWashAt 0 1) (wKv 2 0 0 1) (fun w _ => w.isNone) = true ∧
    kvGives (kWashAt 0 0) (lostBody (wKv 2 3 0 1)) (fun w s1 => match w with
      | some w => kvGives (kEval 0 0 w.1) s1 (fun a t => decide (a = .cold) && kvGives (kMove 0 0 false false none) t (fun e _ => decide (e = .lost)))
      | none => false) = true := by decide +kernel
theorem witness_moves :
    (let s := kvCtx (lostBody (wKv 2 0 0 1)) (fun c => { c with evicting := [0] })
     0 ∈ (s.ctx 0).evicting ∧ kvGives (kDesc 0 0) s (fun d s1 => dLive d && decide (dTier d = 0) && kvGives (kMove 0 0 false true none) s1 (fun _ _ => true)) = true) ∧
    (let s := kvCtx (lostBody (wKv 2 0 1 1)) (fun c => { c with returning := [0] })
     0 ∈ (s.ctx 0).returning ∧ kvGives (kDesc 0 0) s (fun d s1 => dLive d && decide (dTier d = 1) &&
      kvGives (kMove 0 0 true true none) s1 (fun e _ => decide (e ≠ .noSlot))) = true) := by decide +kernel
/-- A lost page of MX4 zeros with its CRC, in block 0 of a member's pool; a KVREBLD that waits for it. -/
def wLost : State :=
  let s := kvCtx (withCmd (wKv 2 3 2 1) { kvCmd (.kvrebld sd) .copy with cap := [] }) (fun c => { c with regs := { c.regs with kvpolyPos := 0 }, parAsked := [0] })
  s.setMem 0x50003C (leBytes 0x74357830 4)
theorem witness_rebuild :
    kvGives (kDesc 0 0) wLost (fun d s1 => dLive d && decide (dTier d = 2) && rebuildWanted wLost 0 0 && decide (dPblk d ≠ noPage) && decide (dReaders d = 0) &&
      kvGives (kRebuild 0 0 []) s1 (fun x v => x.isNone && kvGives (kReborn 0 0) (v.askEnds 0 0) (fun _ _ => true))) = true ∧
    (wLost.ctx 0).regs.kvpolyPos.toNat ≤ 7 ∧ 0 ∉ (wLost.ctx 0).rebuilt ∧ 0 ∈ (wLost.ctx 0).parAsked := by decide +kernel
/-- Parity: a member's block that is quiet, one to be XORed out, acknowledged ones; a predella's stripe with two members. -/
theorem witness_parity :
    (let s := kvCtx (wKv 2 0 0 1) (fun c => { c with regs := { c.regs with kvpolyPos := 7, kvslot := 0x100 } })
     0 < blockCount (s.ctx 0) ∧ (s.ctx 0).parSealed = [] ∧ (s.ctx 0).parIn = [] ∧ (s.ctx 0).parOut = [] ∧
      kvGives (kDescs 0) s (fun ds s1 => blockQuiet s1 0 0 ds && kvGives (kSendBlock 0 0 .seal) s1 (fun _ _ => true)) = true) ∧
    (let s := kvCtx (wKv 2 0 0 1) (fun c => { c with regs := { c.regs with kvpolyPos := 7, kvslot := 0x100 }, parOut := [0], parSealed := [0], parIn := [1], parSent := [2] })
     0 ∈ (s.ctx 0).parOut ∧ 0 ∈ (s.ctx 0).parSealed ∧ 0 ∉ (s.ctx 0).parSent ∧ kvGives (kSendBlock 0 0 .unseal) s (fun _ _ => true) = true ∧
      (s.ctx 0).regs.kvpolyPos.toNat = 7 ∧ 1 ∈ (s.ctx 0).parIn ∧ 2 ∈ (s.ctx 0).parSent) ∧
    (let s := kvCtx ((wKv 2 0 0 1).setMem 0x800000 [3]) (fun c => { c with regs := { c.regs with kvpolyPos := 8 } })
     0 ∉ (s.ctx 0).parBad ∧ kvGives (kNat 0 (maskVa (s.ctx 0) 0) 1) s (fun m _ => bitN m 0 &&
      decide (([(1, [])] : List (Nat × List Byte)).map (·.1) = (List.range 8).filter (fun j => bitN m j && decide (j ≠ 0)))) = true) := by decide +kernel
theorem witness_stripe : ∃ st t, kRun (bgWho 0) (kRead 0 (stripeVa ((wKv 2 0 0 1).ctx 0) 0) (2 ^ 18)) (wKv 2 0 0 1) = (.ok st, t) := by
  have hv : stripeVa ((wKv 2 0 0 1).ctx 0) 0 = 0x1000000 := by decide +kernel
  obtain ⟨bs, t, h⟩ := reads_identity (wKv 2 0 0 1) 0 0x1000000 (2 ^ 18) (by decide +kernel) (by decide +kernel) (by decide +kernel)
    (by decide +kernel) (by decide)
  exact ⟨bs, t, by rw [hv, kRead_of_read h]⟩


/-- MemoryEvents: a frozen sequencer, a walk that succeeds and one that fails, a dirty line, hot bits old and young, allotments. -/
theorem witness_memory_events :
    (let s := w0.updCore 63 (fun c => { c with seqs := [(3, { frozen := some 0x800 })] }); (Map.get {} (s.core 63).seqs 3).frozen = some 0x800) ∧
    (match leafOf w0 { core := 0, die := 0, ctx := 0 } 0x1FFFFFFF with
      | .ok (p, l, _) => decide (p = 0x1F) && decide (l = 2)
      | .error _ => false) = true ∧
    (match leafOf w0 { core := 0, die := 0, ctx := 0 } (2 ^ 55 - 1) with
      | .ok _ => false
      | .error e => decide (e.code = cPGNP)) = true ∧
    dirtyIn ((w0.updCore 0 (fun c => { c with l1 := [(127, ⟨1, true⟩)] })).core 0).l1 64 128 ≠ [] ∧
    (let s := w0.updDie 3 (fun d => { d with hot := [(5, 0)] })
     Map.find (s.die 3).hot 5 = some 0 ∧ s.now < 0 + max 1 s.pkg.hotidle.toNat ∧ 0 + max 1 s.pkg.hotidle.toNat ≤ { s with now := 4096 }.now) ∧
    (Map.get {} ({ w0 with mds := [(7, { newHbm := some 1, newLp := some 2 })] } : State).mds 7).newLp = some 2 ∧
    ((bwFields 0x0000010302020414).foldl (· + ·) 0 = 32 ∧ (∀ x ∈ bwFields 0x0000010302020414, 1 ≤ x) ∧ (bwFields 0x0000020208000410).foldl (· + ·) 0 = 32 ∧
      1 ≤ (bwFields 0x0000020208000410).headD 0 ∧ (bwFields 0).foldl (· + ·) 0 ≠ 32 ∧ 0x480 % 16 = 0 ∧ 0x488 < 0x490) := by decide +kernel

/-- Launches: a kernel object that fits, none, a full queue; a head whose team is placed, a starved one that cannot be; a head that has
waited long enough and not; a dependence word that is zero and one that is not. -/
def launchOp : OpLaunch := ⟨hd0, 5, 6, 4, 0, false, 1, 0, 0, 0, 0, 0, 0⟩
def wObj (n : Nat) : State :=
  (wCtx (fun c => { c with regs := { c.regs with kobjt := 0x700000, kobjn := 1 }, queues := [(0, List.replicate n 9)] })).setMem 0x700000 (leBytes 0x20000 8)
def launchReq (s : State) : LaunchReq :=
  let o := launchOp
  let I := enter (.launch o) s r0
  { kobj := o.kobj.toNat, arg := I.rs o.sarg, teams := (I.rs o.sgrid).toNat % 2 ^ 32, rq := o.rq, mask := o.dieMask, prio := o.prio.toNat, queue := o.queue.toNat,
    dep := o.dep.toNat, depop := I.rs o.sdep, cmpl := o.cmpl, mbox := o.mbox }
def launchEnds (s : State) : Nat :=
  match tryLaunch (enter (.launch launchOp) s r0).s 0 (launchReq s) with
  | .accepted _ _ => 1
  | .refused _ _ => 2
  | .full => 3
theorem witness_launch :
    [wObj 63, w0, wObj 64].all (fun s => clear (.launch launchOp) s r0) = true ∧ launchEnds (wObj 63) = 1 ∧ launchEnds w0 = 2 ∧ launchEnds (wObj 64) = 3 := by
  decide +kernel
def grid9 : Grid := { lid := 9, decl := { FetchWord.decl with coop := false, team := 2 }, teams := 2, dieMask := 8 }
def wHead (g : Grid) (n : Nat) : State :=
  { State.reset with now := n, ctxs := [(5, { st := 1, queues := [(15, [9])], grids := [(9, g)] })], fresh := 40 }
theorem witness_placement :
    (heads (wHead grid9 0) = [(5, 9)] ∧ grid9.rq = false ∧ grid9.teams ≠ 0 ∧ grid9.decl.coop = false ∧ winFits (wHead grid9 0) grid9 = true ∧
      resumeSet (wHead grid9 0) 5 9 = [] ∧ nextIndex grid9 = some 0 ∧ chooseCore (wHead grid9 0) 5 9 grid9 = some 48) ∧
    (let s := wHead { grid9 with starved := true, dieMask := 0 } 0
     heads s = [(5, 9)] ∧ (s.grid 5 9).starved = true ∧ canAct s (5, 9) = false) ∧
    (let s := wHead { grid9 with headAt := some 0 } 51201
     Map.get [] (s.ctx 5).queues 15 = [9] ∧ (s.ctx 5).st = 1 ∧ (s.ctx 5).busy = false ∧ depOk s 5 (s.grid 5 9) = true ∧ (s.grid 5 9).headAt = some 0 ∧ 0 + max 1 (s.ctx 5).regs.sched.toNat < s.now ∧
      (wHead { grid9 with headAt := some 0 } 51200).now ≤ 0 + max 1 (s.ctx 5).regs.sched.toNat) ∧
    ([0x1000, 0x20000] : List Word64).all (fun a =>
      let s := wCtx (fun c => { c with queues := [(15, [9])], grids := Map.put c.grids 9 { grid9 with dep := 1, depop := a } })
      decide (Map.get [] (s.ctx 0).queues 15 = [9]) && decide ((s.grid 0 9).dep = 1) && !(s.grid 0 9).depMet && decide ((s.grid 0 9).pollAt ≤ s.now) &&
        (match vaReadHome s (bgWho 0) a.toNat 8 with
          | .ok (bs, _) => decide ((leNat bs = 0) ↔ (a = 0x1000))
          | .error _ => false)) = true := by decide +kernel

/-- Preemption: a team that drains, is flushed, is saved, is refused; victims; the ends of each mode; a saved team that resumes. -/
def wPre (d : Decl → Decl) (r : CtxRegs → CtxRegs) (st : TeamSt) : State :=
  (wTeam (fun t => { t with st := st, decl := d { t.decl with coop := false } })).updCtx 0 (fun c => { c with regs := r c.regs })
theorem witness_modes :
    (let s := wPre (fun d => { d with expect := 10 }) id .resident; (s.team 1).st = .resident ∧ (s.team 1).decl.coop = false ∧ canDrain s (s.team 1) = true) ∧
    (let s := wPre (fun d => { d with idem := true }) id .resident; canDrain s (s.team 1) = false ∧ canFlush s (s.team 1) = true) ∧
    (let s := wPre id (fun r => { r with saven := 1, savesz := 0xFFFF0000 }) .resident; canDrain s (s.team 1) = false ∧ canFlush s (s.team 1) = false ∧ imageFits s (s.team 1) = true) ∧
    (let s := wPre id id .resident; canDrain s (s.team 1) = false ∧ canFlush s (s.team 1) = false ∧ imageFits s (s.team 1) = false) ∧
    (((wPre id id (.draining 0)).team 1).st = .draining 0 ∧ 0 ≤ (wPre id id (.draining 0)).now ∧ ((wPre id id (.draining 99)).team 1).st = .draining 99 ∧ (wPre id id (.draining 99)).now < 99) ∧
    (let s := wPre id id .flushing; (s.team 1).st = .flushing ∧ s.cmds = [] ∧ teamPending s 1 = false) ∧
    (let s := wPre id (fun r => { r with saven := 1 }) .saving; (s.team 1).st = .saving ∧ saveReady s 1 = true ∧ freeImage s 0 = some 0) ∧
    (let s := (wPre id id .saved).updCtx 0 (fun c => { c with st := 1, queues := [(0, [1])] })
     turnOf s (heads s) = some (0, 1) ∧ resumeSet s 0 1 = [1] ∧ (s.team 1).ctx = 0 ∧ (s.team 1).lid = 1 ∧ resumeCore s (s.team 1) = some 0 ∧ (s.ctx 0).ring = [] ∧ (s.ctx 0).replies = [] ∧ s.cmds = [] ∧ (s.group r0).fault = none) := by decide +kernel
/-- Every core of die 0 is taken by context 0, whose only team, of a later class, stands on core 0; context 1's head is starved. -/
def wVictim : State :=
  let s := wPre id (fun r => { r with preAuto := true }) .resident
  let s := (s.updGrid 0 1 (fun g => { g with prio := 1 })).updCtx 1 (fun c => { c with
    st := 1, queues := [(0, [9])], grids := [(9, { grid9 with dieMask := 1, headAt := some 0 })] })
  { s with now := 51200, cores := (List.range 16).map (fun i => (i, { ctx := some 0 })) }
theorem witness_victims :
    (heads wVictim).find? (fun h => waitedFor wVictim h.1 h.2 (starveOf wVictim h.1) && !canAct wVictim h) = some (1, 9) ∧
    enough wVictim 1 9 [] (victims wVictim 1 9) = some [1] := by decide +kernel

/-- PackageEvents: a core idle long enough and not; each phase; a staged image that passes and fails; reports. -/
def wBoot (ph : BitVec 4) : State := { State.reset with pkg := { phase := ph, staging := Map.setN 0 [] 0 (leBytes 0x53504E4753465731 8 ++ leBytes 7 4) } }
theorem witness_package :
    (let s := State.reset; (s.core 63).gated = false ∧ (s.core 63).ctx = none ∧ s.teams = [] ∧ s.now < (s.core 63).idleAt + 65536 ∧ ({ s with now := 65536 }.core 63).idleAt + 65536 ≤ 65536) ∧
    ([1, 2, 3, 4, 5, 8, 15] : List (BitVec 4)).all (fun p => decide ((wBoot p).pkg.phase = p) && decide ((wBoot p).pkg.meas.length = 4) && !(wBoot p).pkg.attGo) = true ∧
    (stageN (wBoot 3).pkg 0 8 = 0x53504E4753465731 ∧ 0xD80 + imageLen (wBoot 3).pkg ≤ 2 ^ 26 ∧ imageSvn (wBoot 3).pkg = 7 ∧ stageN ({} : Pkg) 0 8 ≠ 0x53504E4753465731 ∧ (wBoot 4).pkg.cause ≠ 7) ∧
    ({ attGo := true } : Pkg).attGo = true := by decide +kernel


/-- FabricAndCollectives: no joined context and one; ranges at the end of what is exported and beyond; boxes with room and full; requests
of every kind; ports and links. -/
def wExp : State :=
  (wAtom.updCtx 0 (fun c => { c with
    regs := { c.regs with jointag := 5, expbase := 0x1000, expsize := 0x100 }, mbox := [(mbKey 0 31, List.replicate 15 ⟨5, 1⟩), (mbKey 0 30, List.replicate 16 ⟨5, 1⟩)] }))
def fabReq (k : FabKind) : FabReq :=
  { id := 9, own := r0, ctx := 0, die := 0, port := some 3, lane := 0, kind := k, chip := 1, addr := 0x80000000000000, op := .read 0 8, tok := none, pc := 0x20000, sentAt := 0 }
theorem witness_fabric_requests :
    joined w0 0 = none ∧ joined wExp 6 = none ∧ joined wExp 5 = some 0 ∧ fabAhead wExp ⟨3, 1, 0, 5, .mbsend 0x1F 7⟩ = false ∧
    fabAhead { wExp with fabIn := [⟨3, 1, 0, 5, .mbsend 0x1E 7⟩] } ⟨3, 1, 1, 5, .read 0 8⟩ = false ∧
    (let r := (wExp.ctx 0).regs
     r.expsize.toNat < 0xF9 + 8 ∧ 0xF8 + 8 ≤ r.expsize.toNat ∧ (r.expbase.toNat + 0xF8) % 2 ^ 64 = 0x10F8) ∧
    (match vaReadHome wExp (bgWho 0) 0x10F8 8 with
      | .ok (bs, _) => decide (bs.length = 8)
      | .error _ => false) = true ∧
    (vaWriteHome wExp (bgWho 0) 0x10F8 [1, 2, 3, 4]).2.isNone = true ∧
    (match xlate wExp (bgWho 0) 0x10F8 .atom true with
      | .ok (lf, u) => (match siteRead u (bgWho 0) lf true (tyBytes 2) with
        | .ok (x, _) => decide (x = 0)
        | .error _ => false)
      | .error _ => false) = true ∧ 0x10F8 % tyBytes 2 = 0 ∧
    (vMapped wExp 0 0 = true ∧ ((wExp.ctx 0).box 0 31).length < 16 ∧ 16 ≤ ((wExp.ctx 0).box 0 30).length ∧ (0x1F : BitVec 32).getLsbD 14 = false) := by decide +kernel
theorem witness_fabric_answers :
    ([.sync, .store, .redst, .send] : List FabKind).all (fun k => let s := { w0 with fabQ := [fabReq k] }
      (match fabOpenReq s 9 with
        | some q => decide (q = fabReq k) && q.port.isSome
        | none => false) && (Map.find (s.team 1).groups 0).isSome) = true ∧
    (fabOpenReq { w0 with fabQ := [{ fabReq .sync with port := none }] } 9).isSome = true ∧
    (let due := 0 + (if w0.pkg.fabtmo = 0 then 1000 else w0.pkg.fabtmo.toNat) * 168000; w0.time < due ∧ due ≤ { w0 with time := 168000000 }.time) ∧
    ((Map.get {} ({ w0 with fports := [(47, { up := true })] } : State).fports 47).up = true ∧ (Map.get {} w0.fports 47).up = false) ∧
    (let s := wCtx (fun c => { c with owner := true, takeover := some (false, 9) })
     (s.ctx 0).takeover = some (false, 9) ∧ b2n (s.ctx 0).owner = 1 ∧ b2n false ≠ 1) := by decide +kernel
/-- An all-gather of two ranks, 16 bytes each, window 4 KiB: before the first piece, after its notice; a timeout. -/
def clDesc0 : Nat := 2 + 8 * 2 ^ 64 + 0x1000 * 2 ^ 128 + 0x4000 * 2 ^ 192 + 4096 * 2 ^ 320
def collCmd (st : CollSt) : Cmd := { cmdOf (.coll { cpyOp with sub := 2 }) .coll .running with cap := arrWords clDesc0 64 8 ++ [0, 7], coll := st }
def wColl (st : CollSt) : State :=
  let s := { w0 with cmds := [collCmd st], fports := [(3, { up := true })], time := 336000000000 }
  s.updDie 0 (fun d => { d with route := [(7, 8)] })
theorem witness_collectives :
    ([{}, { noticed := [(1, 16)] }] : List CollSt).all (fun st => match collOf (wColl st) 50 with
      | some (c, o) => decide (c = collCmd st) && decide (o.sub = 2) && decide (collPeers c = [1]) && decide ((collSend c 2 1).2 = 16) && decide (collRecv c = 16) &&
        decide (clWin (collDesc c) = 4096) && collOpen (wColl st) c 1 2 && collOpen (wColl st) c 1 3
      | none => false) = true ∧
    (collCmd {}).had = [] ∧ farVa (collSend (collCmd {}) 2 1).1 = false ∧
    (match vaRead (wColl {}) ((wColl {}).who r0) (collSend (collCmd {}) 2 1).1 16 with
      | .ok (bs, _) => decide (bs.length = 16)
      | .error _ => false) = true ∧
    ((wColl {}).team 1).st ≠ .saved ∧ clTmo (collDesc (collCmd {})) * 168000000 ≤ (wColl {}).time - 0 ∧
      (wColl { lastAt := 1 }).time - 1 < clTmo (collDesc (collCmd {})) * 168000000 := by decide +kernel

/-- ContextCommands: each command in a state that accepts it; TLB entries; takeovers; completions. -/
def wState (st : BitVec 2) : State := wCtx (fun c => { c with st := st })
theorem witness_context_commands :
    (cmdOk (wState 0) ⟨0, 0⟩ [0] false = true ∧ cmdOk w0 ⟨0, 63⟩ [0] false = true ∧ cmdOk (wState 1) ⟨0, 0⟩ [1, 2] false = true ∧ cmdOk (wState 2) ⟨0, 0⟩ [1, 2] false = true ∧
      cmdOk (wState 1) ⟨0, 0⟩ [1] false = true ∧ cmdOk (wState 2) ⟨0, 0⟩ [2] false = true ∧ cmdOk (wState 0) ⟨1, 0⟩ [0, 1, 2] true = true) ∧
    ([2 ^ 64 - 1, 2, 0] : List Word64).all (fun a => decide (a.toNat = 2 ^ 64 - 1 ∨ a.toNat % 4 ≠ 3)) = true ∧
    (({ w0 with pcieUp := 3 } : State).pcieUp.getLsbD (b2n (w0.ctx 0).owner) = true ∧ w0.pcieUp.getLsbD (b2n (w0.ctx 0).owner) = false) ∧
    (let s := wCtx (fun c => { c with takeover := some (true, 0) }); s.pkg.phase = 8 ∧ (s.ctx 0).takeover = some (true, 0) ∧ 0 ≤ s.time ∧ s.time < 10 ^ 9) ∧
    ((wCtx (fun c => { c with regs := { c.regs with kvpolyPos := 8 } })).ctx 0).regs.kvpolyPos = 8 ∧ (w0.ctx 0).regs.kvpolyPos ≠ 8 := by decide +kernel
theorem witness_lose :
    (let s := (wKv 2 0 0 1).updCtx 0 (fun c => { c with st := 2 })
     cmdOk s ⟨0, 0⟩ [2] false = true ∧ kvGives (kDescs 0) (cmdTaken s ⟨0, 0⟩ 8) (fun ds s1 =>
      decide (ds.filter (fun p => dLive p.2 && decide (dTier p.2 = 0)) = [(0, desc0 0 0 1)]) &&
        kvGives (kDescPut 0 0 (recSet (desc0 0 0 1) 8 4 3 2)) s1 (fun _ _ => true)) = true) := by decide +kernel
def wBusy (cmd : BitVec 4) : State := wCtx (fun c => { c with busy := true, last := cmd, regs := { c.regs with rqtab := 0x20000000 } })
theorem witness_completions :
    ((wBusy 3).ctx 0).busy = true ∧ residents (wBusy 3) 0 = [1] ∧ residents (wBusy 3) 1 = [] ∧ ((wBusy 6).ctx 0).takeover = none ∧ ((wBusy 2).ctx 0).last = 2 ∧
    (rqWrite (wBusy 1) 0 0 (freeRecord 0)).2.isSome = true := by decide +kernel
def wTable : State :=
  { State.reset with ctxs := [(0, { busy := true, last := 1, regs := { rqtab := 0x100000 } })], cores := [(64, { tlb := [⟨0, 0, 2, 0x41F⟩] })] }
theorem table_off (c a : Nat) (cs : Map Ctx) (x : Ctx) (h : Map.get {} cs c = x) (hc : x.capHead = none) : offList c cs a := by
  intro h' e
  rw [h, hc] at e
  cases e
theorem witness_table : (wTable.ctx 0).busy = true ∧ (wTable.ctx 0).last = 1 ∧ (writeTable 0 (List.range 8192) wTable).2 = none ∧
    (∃ e t, writeTable 0 (List.range 8192) (wBusy 1) = (t, some e)) := by
  refine ⟨rfl, rfl, table_written (cs := wTable.ctxs) (by decide) (fun a _ _ => table_off 0 a _ _ rfl rfl) _ _ ⟨rfl, rfl, rfl, rfl, rfl⟩ (fun i h => List.mem_range.1 h), ?_⟩
  have h : (rqWrite (wBusy 1) 0 0 (freeRecord 0)).2.isSome = true := witness_completions.2.2.2.2.2
  obtain ⟨e, he⟩ := Option.isSome_iff_exists.1 h
  have hr : List.range 8192 = 0 :: (List.range 8191).map Nat.succ := List.range_succ_eq_map ..
  exact ⟨e, (rqWrite (wBusy 1) 0 0 (freeRecord 0)).1, by rw [hr]; simp only [writeTable, he]⟩

/-- HostAccess: an open window with words that launch and words that do not, in each state; messages, replies and mailboxes; W2. -/
def wWin (w : Word64) (n : Nat) : State := (wObj n).updCtx 0 (fun c => { c with lwin := [(0, w), (2, 1)] })
def windowEnds (s : State) : Nat :=
  match tryLaunch s 0 (windowReq 0 (fun i => (Map.get 0 (s.ctx 0).lwin i).toNat)) with
  | .accepted _ _ => 1
  | .refused _ _ => 2
  | .full => 3
def isBad (w : Word64) : Bool := windowBad (fun i => (Map.get 0 ((wWin w 0).ctx 0).lwin i).toNat)
theorem witness_windows :
    w1Open w0 0 0 = true ∧ ((wState 0).ctx 0).st = 0 ∧ w1Open (wState 0) 0 0 = true ∧ isBad 0 = true ∧ isBad 0x80000 = false ∧ isBad 0x80001 = false ∧
    windowEnds (wWin 0x80000 63) = 1 ∧ windowEnds (wWin 0x80001 63) = 2 ∧ windowEnds (wWin 0x80000 64) = 3 ∧ ((wWin 0x80000 64).ctx 0).st ≠ 0 := by decide +kernel
theorem witness_host_words :
    ((wCtx (fun c => { c with hmq := [5] })).ctx 0).hmq = [5] ∧ (w0.ctx 0).hmq = [] ∧ 1 ≠ b2n (w0.ctx 0).owner ∧
    (let s := wCall.updCtx 0 (fun c => { c with repseq := 1 }); replyTo s 0 (s.ctx 0).repseq = some r0 ∧ (s.team 1).st.runs = true ∧ w1Open s 0 0 = true) ∧
    (let s := (wCall.updCtx 0 (fun c => { c with repseq := 1 })).updTeam 1 (fun t => { t with st := .saved }); replyTo s 0 1 = some r0 ∧ (s.team 1).st.runs = false) ∧
    replyTo w0 0 (w0.ctx 0).repseq = none ∧
    (vMapped w0 0 0 = true ∧ vMapped w0 0 63 = false ∧ savedOn w0 0 63 = false ∧ ((wBox 15).ctx 0).box 0 31 = List.replicate 15 ⟨5, 1⟩ ∧ 16 ≤ (((wBox 16).ctx 0).box 0 31).length) := by
  decide +kernel
theorem witness_w2 :
    ([2, 15] : List (BitVec 4)).all (fun p => decide ((wBoot p).pkg.phase = p)) = true ∧ selected w0 1 5 = none ∧ selected w0 0 0 = some 0 ∧
    (match vaReadHome w0 (bgWho 0) (w2Va w0 0 0x20000) 8 with
      | .ok (bs, _) => decide (leNat bs = 0x0000FE0000000000)
      | .error _ => false) = true ∧
    (match vaReadHome w0 (bgWho 0) (w2Va w0 0 (2 ^ 35)) 8 with
      | .ok _ => false
      | .error _ => true) = true ∧
    (match vaCheck w0 (bgWho 0) (w2Va w0 0 0x10F8) 8 .write with
      | .ok u => (match xlate u (bgWho 0) 0x10F8 .write false with
        | .ok (lf, v) => (linePoisoned v (lineOf lf.pa)).isNone && decide (metaOf v (lineOf lf.pa) = 0)
        | .error _ => false)
      | .error _ => false) = true ∧ 0x10F8 % 256 + 8 ≤ 256 ∧ 0x3FFFFF8 + 8 ≤ 2 ^ 26 ∧ hostWaits w0 0 = false ∧
    hostWaits { w0 with hostQ := [.go ⟨0, 0⟩ 1] } 0 = true ∧ stagingOpen w0 ⟨0, 0, 0x10F8⟩ = false := by decide +kernel
theorem witness_host_registers :
    ((∀ c ∈ State.reset.ctxs, c.2.st = 0) ∧ (∃ c ∈ w0.ctxs, c.2.st ≠ 0)) ∧ w0.pkg.phase = 8 ∧ ((wState 0).ctx 0).st = 0 ∧ ((wState 2).ctx 0).st = 2 ∧
      ¬((w0.ctx 0).st = 0 ∨ ((w0.ctx 0).st = 2 ∧ 0 = b2n (w0.ctx 0).owner)) ∧ (fnCtxs w0 0 0)[63]? = some 63 ∧ (fnCtxs (wState 2) 0 0)[0]? = some 0 ∧ hostWaits w0 0 = false ∧
      (0x10008 = 0x10000 + 4096 * 0 + 0x10008 % 4096 ∧ 0x3F0400 = 65536 * 63 + 0x3F0400 % 65536 ∧ 0x520 < 0x10000) ∧ (0x1E0 < 0x200 ∧ 0x1E0 % 8 = 0 ∧ 0x1E0 % 64 ≤ 0x20) := by decide +kernel

/-- FaultQueue: a queue of no entries, of one that is VALID, of one that is free; a wait of the full interval and a shorter one. -/
def wQueue (n : BitVec 32) (base : Word64) : State :=
  (wGroup (fun g => { g with fault := some { frec := { code := 9 } } })).updCtx 0 (fun c => { c with
    regs := { c.regs with fqbase := base, fqn := n }, fqWait := [.group r0] })
theorem witness_fault_queue :
    itemRec (wQueue 0 0x1000) (.group r0) = some { code := 9 } ∧ ((wQueue 1 0x1000).ctx 0).fqWait = [.group r0] ∧ ((wQueue 1 0x1000).ctx 0).fqStuck = false ∧
    ((wQueue 1 0x1000).ctx 0).fqNext % 1 = 0 ∧ holderOf (wQueue 1 0x1000) 0 0 = none ∧
    (match fqValid (wQueue 1 0x1000) 0 0, fqValid ((wQueue 1 0x1000).setMem 0x1001 [1]) 0 0 with
      | .ok a, .ok b => !a && b
      | _, _ => false) = true ∧
    (formerWrite (wQueue 1 0x1000) 0 (fqVa (wQueue 1 0x1000) 0 0) ({ code := 9 } : FRec).bytes).2.isNone = true := by decide +kernel
theorem witness_watchdog :
    (let w : Wait := { kind := 3, lanes := [0], pc := 0x20000, born := 1, until_ := 0 }
     let s := wGroup (fun g => { g with waits := [{ w with kind := 5, until_ := 99 }, w] })
     (s.group r0).waits.find? (fun w => !w.noted && decide (w.until_ ≤ s.now)) = some w ∧ (s.team 1).st.runs = true) ∧
    (let s := wGroup (fun g => { g with waits := [{ kind := 5, lanes := [0], pc := 0x20000, born := 1, until_ := 99 }] })
     ∀ w ∈ (s.group r0).waits, w.noted = true ∨ s.now < w.until_) := by decide +kernel

/-! ## Witnesses of further clauses -/

/-- IssueOutcomes: a lost register with no check failing, and with one that fails; the first read of a token. -/
def wBad : State := wGroup (fun g => g.updLane 0 (fun t => { t with bad := [5] }))
def wNewTok : State := wGroup (fun g => { g with tokNew := [6] })
theorem witness_lost_checks :
    (ready (.iadd a2) (sound wBad r0) r0 = true ∧ (wBad.group r0).fault = none ∧ (match nextOf (.iadd a2) (sound wBad r0) with
      | some t => (t.group r0).fault.isNone
      | none => false) = true) ∧
    (let i : Instr := .rqbind ⟨hd0, 5, false⟩
     let s := wBad.updTeam 1 (fun t => { t with decl := { t.decl with rqsc := false } })
     let I := enter i s r0
     badLanes (I.s0.group r0) I.set I.en i = [0] ∧ sbBlocked (s.group r0) I.set i = false ∧ stallChk (I.s0.group r0) I.set I.en i = none ∧
      ready i (sound s r0) r0 = true ∧ (match nextOf i (sound s r0) with
        | some t => decide ((t.group r0).fault.map (fun h => h.frec.code.toNat) = some cRQSTATE)
        | none => false) = true) ∧
    (ready (.uadd u2) wNewTok r0 = true ∧ firstRead (.uadd u2) wNewTok r0 = true ∧ ready (.uadd u2) (tokAcq (.uadd u2) wNewTok r0) r0 = true) := by
  decide +kernel
/-- TakingFaults: a bound lane and one that is not, in a `.rqscope` kernel; Dispositions: the holder of a saved team. -/
theorem witness_mixed_faults :
    (let s := wLanes 2 (fun l t => { t with bind := if l = 0 then some (3, 8191) else none })
     (s.team 1).decl.rqsc = true ∧ chargeable 9 = true ∧ (s.lane r0 0).bind = some (3, 8191) ∧ ([0, 1].filter (fun l => (s.lane r0 l).bind.isNone)) = [1]) ∧
    (let s := wHeld.updTeam 1 (fun t => { t with st := .saved })
     ackHolder s ⟨0, 0, 2⟩ = some (.team 1) ∧ holderTeam s (.team 1) = some (1, 0) ∧ (s.team 1).st = .saved) ∧
    gridTeams wHeld 0 1 = [1] := by decide +kernel
/-- Rounding: E4M3's greatest value 448; 500 lies beyond it, 300 does not. Conversions: a block of which one value is a NaN, one without. -/
theorem witness_saturation : E4M3.val E4M3.maxCode = .num false 14 5 ∧ (14 : ℚ) * 2 ^ (5 : ℤ) = 448 ∧
    (2 : ℚ) ^ (8 : ℤ) ≤ (500 : ℚ) * 2 ^ (0 : ℤ) ∧ (500 : ℚ) * 2 ^ (0 : ℤ) < 2 ^ (9 : ℤ) ∧
    (roundAt .rne false 500 0 (max 8 (1 - (E4M3.bias : Int)) - E4M3.mb) false).1 = 16 ∧
    (roundAt .rne false 300 0 (max 8 (1 - (E4M3.bias : Int)) - E4M3.mb) false).1 = 9 ∧ max (8 : Int) (1 - (E4M3.bias : Int)) - E4M3.mb = 5 :=
  ⟨by decide +kernel, by norm_num, by norm_num, by norm_num, by decide +kernel, by decide +kernel, by decide +kernel⟩
theorem witness_mxq_blocks :
    ([0x7FC00000, 0x40400000] : List Word32).map (fun x => let I := enter (.mxq ⟨hd0, 4, 6, 0, 4, false⟩) (wV [(6, x)]) r0
      (I.en, (FP32.val ((I.th 0).r 6).toNat).isNan, (FP32.val ((I.th 0).r 6).toNat).isZero)) = [([0], true, false), ([0], false, false)] := by decide +kernel
/-- ControlTransfers: targets of BRU in an s-register and of CALL with a destination. SystemRegisters: a mapped virtual core. -/
theorem witness_more_targets :
    ([0x100000000000000, 4] : List Word64).all (fun x => let s := wTo x
      clear (.bru ⟨hd0, .s 4⟩) s r0 && decide ((enter (.bru ⟨hd0, .s 4⟩) s r0).rs 4 = x) && clear (.call ⟨hd0, 6, .v 4⟩) s r0) = true ∧
    (w0.ctx 0).vmap.find? (fun e => decide (e.2 = (w0.team 1).core + 0)) = some (0, (w0.team 1).core + 0) := by decide +kernel
/-- LoadsRead: a lane of a split store that L1 or L2 has accepted and one that it has not; data of another chip. -/
theorem witness_split_arrivals :
    (let ld : OutLoad := ⟨9, 4, false, true, true, [(0, 5)], 0, 4, [], [], 0⟩
     let st : HeldSt := { id := 8, leaf := { pa := 0x1000, pte := 0, lvl := 0 }, n := 4, ys := [(0, 5)] }
     [([], false), ([st], true)].all (fun e =>
       let s := wGroup (fun g => { g with loads := [ld], stq := e.1, lanes := [(0, { pc := 0x20008, st := .splitWait })] })
       decide ((s.group r0).loads.find? (fun x => x.split && ((Map.find x.vals 0).isSome || decide (0 ∈ x.far))) = some ld) &&
         decide ((s.lane r0 0).st = .splitWait) && (decide (0 ∈ unaccepted (s.group r0)) == e.2)) = true) ∧
    (let ld : OutLoad := ⟨9, 4, false, false, true, [], 0, 4, [], [0], 0x20000⟩
     let q : FabReq := { id := 9, own := r0, ctx := 0, die := 0, port := some 3, lane := 0, kind := .sync, chip := 1, addr := 0x80000000000000, op := .read 0 4, tok := none,
                         pc := 0x20000, sentAt := 0, ans := some (.ok [1, 2, 3, 4]) }
     let s := { wGroup (fun g => { g with loads := [ld], lanes := [(0, { pc := 0x20008, st := .splitWait })] }) with fabQ := [q] }
     (s.group r0).loads.find? (fun x => x.split && ((Map.find x.vals 0).isSome || decide (0 ∈ x.far))) = some ld ∧ fabFind s r0 ld.pc 0 = some q) := by decide +kernel
/-- Atomics: a packed ATOM that keeps its second half, at its first issue and at its second; one that does not; a kept half at its site. -/
def keepOp (sc : BitVec 3) (od : BitVec 2) (nr : Bool) : OpAtom := { atomOp with scope := sc, ord := od, ty := 4, nr := nr }
theorem witness_packed_first :
    ([2, 4] : List (BitVec 3)).all (fun sc => ([0, 1, 2, 3] : List (BitVec 2)).all (fun od => ([true, false] : List Bool).all (fun nr =>
      let o := keepOp sc od nr
      let J := (enter (.atom o) wAtom r0).ordered od sc
      let I := if atomKeeps o then J.back else J
      (atomKeeps o == (!nr || ordAcq od)) && clear (.atom o) wAtom r0 && !relPending wAtom r0 sc.toNat && (atomParts I I.s0).isEmpty &&
      (match checkLanes I.s I.who 4 .atom (atSau sc.toNat) (I.addrs (.plain o.a)) with
      | .ok (ls, t) => (I.addrs (.plain 6)).all (fun p => decide (p.2 = 0x1000) && !isFabric p.2) && !sauHolds t r0 4 ls &&
        (match byAddr ls with
        | [(0x1000, lf, ks)] => decide (ks = I.en) && (match siteRead t I.who lf (atSau sc.toNat) 2 with
          | .ok (old, v) => decide (old = 0) && (linePoisoned v (lineOf lf.pa)).isNone
          | .error _ => false)
        | _ => false)
      | .error _ => false)))) = true := by decide +kernel
theorem witness_packed_second :
    ([none, some (.olds [(0, 7)]), some (.failed { code := cECCU })] : List (Option SauAns)).all (fun a =>
      let q := { sauOp 0 4 true with keep := true, ans := a, olds := [(0, 3)] }
      let s := { wAtom.updTeam 1 (fun t => { t with decl := { t.decl with rqsc := false } }) with sauQ := [q] }
      let o := keepOp 4 0 false
      let I := enter (.atom o) s r0
      clear (.atom o) s r0 && decide (atomParts I I.s0 = [q]) && decide (I.en = [0, 1]) && (I.addrs (.plain o.a)).all (fun p => !isFabric p.2)) = true ∧
    (Map.find (wAtom.team r0.team).groups r0.gid).isSome ∧
    (let q := { sauOp 0 4 true with keep := true }
     let s := { wAtom with sauQ := [q] }
     decide (s.sauQ.find? (fun p => decide (p.id = 9)) = some q) && !sauBehind s q && (match siteRead s (s.who q.own) (sauLeaf q s) true 2 with
      | .ok (_, t) => (linePoisoned t (lineOf q.pa)).isNone
      | .error _ => false)) = true := by decide +kernel
/-- TilesAndAccumulators: tiles in use by a command, not configured, lost; a region that is misaligned; TTRN onto itself, of an MX format,
of 8,192 columns; an accumulator in use. -/
def wUsed : State := { wTile with cmds := [{ id := 50, ctx := 0, own := r0, instr := .mma mmaOp, cls := .matrix, tok := some 4, lane := 0, pc := 0x20000, st := .running }] }
theorem witness_tile_stops :
    (([.tcfg ⟨hd0, 0, 5⟩, .tzero ⟨hd0, 0⟩, .tld ⟨hd0, 0, 5⟩, .tst ⟨hd0, 0, 5⟩, .ttrn ⟨hd0, 0, 7⟩, .accrd ⟨hd0, 4, 0, .v 5⟩, .accwr ⟨hd0, 0, 5, .v 6⟩] : List Instr).all (fun i => clear i wUsed r0) = true ∧
      tilesBusy wUsed r0 [0] = true ∧ tilesBusy wUsed r0 [0, 7] = true ∧ accBusy wUsed r0 0 = true) ∧
    (clear (.tld ⟨hd0, 0, 5⟩) w0 r0 = true ∧ clear (.tst ⟨hd0, 0, 5⟩) w0 r0 = true ∧ shRows (w0.shapeOf r0 0).toNat = 0 ∧ tilesBusy w0 r0 [0] = false) ∧
    (let s := wTile.updGroup r0 (fun g => { g with sr := [(5, 0x101)] })
     clear (.tld ⟨hd0, 7, 5⟩) s r0 = true ∧ clear (.tst ⟨hd0, 7, 5⟩) s r0 = true ∧ (scrRegion (enter (.tld ⟨hd0, 7, 5⟩) s r0) false .read 64 0x101 512).isSome = true ∧
      (scrRegion (enter (.tst ⟨hd0, 7, 5⟩) s r0) false .write 64 0x101 512).isSome = true) ∧
    (let s := wTile.updTeam 1 (fun t => { t with badTile := [7] })
     tileBad (s.team 1) false 7 = true ∧ clear (.tst ⟨hd0, 7, 5⟩) s r0 = true ∧ clear (.ttrn ⟨hd0, 0, 7⟩) s r0 = true) ∧
    ([0, 0x100106, 0x20000010, 0x100100] : List Word64).map (fun w => let s := wTile.updTeam 1 (fun t => { t with tc := [(7, w)] })
      let x := (s.shapeOf r0 7).toNat
      (clear (.ttrn ⟨hd0, 0, 7⟩) s r0, clear (.ttrn ⟨hd0, 7, 7⟩) s r0, decide (shRows x = 0), plainFmt (shEfmt x), decide (4095 < shCols x))) =
      [(true, true, true, true, false), (true, true, false, false, false), (true, true, false, true, true), (true, true, false, true, false)] := by decide +kernel
/-- RequestInstructions: indices of no record; slots that the table does not list. -/
theorem witness_no_record :
    (clear (.rqwr ⟨hd0, 5, 5, 0x40, false⟩) (wS [(5, 8192)]) r0 = true ∧ (enter (.rqwr ⟨hd0, 5, 5, 0x40, false⟩) (wS [(5, 8192)]) r0).rs 5 = 8192) ∧
    (let s := (wKv 2 0 0 1).updGroup r0 (fun g => g.updLane 0 (fun t => { t with v := [(5, 7)] }))
     let I := enter (.rqbind ⟨hd0, 5, false⟩) s r0
     clear (.rqbind ⟨hd0, 5, false⟩) s r0 = true ∧ I.tm.decl.rqsc = true ∧ I.en = [0] ∧ ((I.th 0).r 5).toNat = 7 ∧ (s.ctx 0).former.table = [⟨0, 0, 1⟩]) := by decide +kernel
/-- Preemption: a COOP grid whose team may be flushed. -/
theorem witness_coop :
    let s := wPre (fun d => { d with idem := true, coop := true }) id .resident
    (s.team 1).st = .resident ∧ ((wTeam (fun t => { t with decl := { t.decl with coop := true, idem := true } })).team 1).decl.coop = true ∧
    (let u := wTeam (fun t => { t with decl := { t.decl with coop := true, idem := true } })
     gridRunning u (u.team 1) = [1] ∧ canFlush u (u.team 1) = true) := by decide +kernel
/-- Mailboxes for which messages from the backing ring wait; a refused store of a team that runs. -/
def wHeldBox : State := { wExp with sends := [{ sendTo 0x1F with arrived := true }] }
theorem witness_held_box :
    boxHeld wExp 0 0 31 = false ∧ boxHeld wHeldBox 0 0 31 = true ∧ vMapped wHeldBox 0 0 = true ∧ ((wHeldBox.ctx 0).box 0 31).length < 16 ∧
    boxHeld (wBox 15) 0 0 31 = false ∧ (w0.team (fabReq .store).own.team).st ≠ .ended := by decide +kernel
/-- Context commands with no write waiting; a takeover of a port whose link is down, from the other one. -/
theorem witness_commands_open :
    hostWaits (wState 0) 0 = false ∧ hostWaits (wState 1) 0 = false ∧ hostWaits (wState 2) 0 = false ∧ hostWaits w0 1 = false ∧
    (decide (1 = 1) ≠ (w0.ctx 0).owner) ∧ w0.pcieUp.getLsbD (b2n (w0.ctx 0).owner) = false ∧ cmdOk w0 ⟨1, 0⟩ [0, 1, 2] true = true := by decide +kernel
/-- HostAccess: writes of every kind that queue; the contexts of the other port in W0; a context that a port has lost. -/
def wLostCtx : State := wCtx (fun c => { c with owner := true, lostTo := true })
theorem witness_host_queue :
    ([.reg ⟨0, 0, 0, 8⟩ 5, .cmd ⟨0, 0⟩ 17, .cmd ⟨0, 0⟩ 6, .go ⟨0, 0⟩ 1, .ack ⟨0, 0, 0⟩ 5, .w2 ⟨0, 0, 0x10F8⟩ [1]] : List HostWr).all (fun x =>
      hostWaits { w0 with hostQ := [.go ⟨0, 0⟩ 1] } x.port) = true ∧
    ((fnCtxs w0 1 0 ++ otherCtxs w0 1 0)[0]? = some 0 ∧ (1 : Nat) ≠ b2n (w0.ctx 0).owner ∧ hostWaits w0 1 = false) ∧
    ((fnCtxs wLostCtx 0 0)[0]? = some 0 ∧ 0 ≠ b2n (wLostCtx.ctx 0).owner ∧ wLostCtx.pkg.phase = 8 ∧ hostWaits wLostCtx 0 = false) := by decide +kernel
/-- CommandsEnd: conversions, stores and attention commands at their completion, with operands and images inside the scratchpad. -/
def done48 (i : Instr) (cls : CmdCls) (sv : List (Nat × Word64)) (cap : List Word64) : Cmd := { cmdOf i cls .running with sv := sv, cap := cap }
def opWords : List Word64 := [BitVec.ofNat 64 (1 * 2 ^ 8 + 16 * 2 ^ 16 + 2 ^ 32), 0x3F800000, 0x1000]
theorem witness_matrix_ends :
    (let c := done48 (.acccvt ⟨hd0, 0, true, 5, 1, 1, 4, 0, 2, 0⟩) .matrix [(5, 0x100)] [0]
     endOk c = true ∧ (c.s 5).toNat + imgSize 2 16 16 ≤ 2 * MiB3 ∧ isMx 2 = false) ∧
    (let c := done48 (.acccvt ⟨hd0, 0, false, 7, 1, 2, 4, 0, 3, 1⟩) .matrix [] [0x200103]
     endOk c = true ∧ shRows 0x200103 = 16 ∧ shCols 0x200103 = 32) ∧
    (let c := done48 (.accst ⟨hd0, 4, 3, 5, 8⟩) .matrix [(5, 0x100), (8, 0x10001)] []
     endOk c = true ∧ (c.s 8).toNat = 1 + 65536 * 1 ∧ (c.s 5).toNat + 4 * 1 * 1 ≤ 2 * MiB3) ∧
    ([(.attn { attnOp with vrows := 16 }, false), (.attnv { attnOp with vrows := 16 }, true)] : List (Instr × Bool)).all (fun e =>
      let c := done48 e.1 .matrix [(5, 8)] (shape16 :: opWords)
      endOk c && decide (handleList (c.s 5) = [3]) && decide ((attnOpsOf (c.cap.drop 1)).map (fun x => (x.fail, x.dh, x.ntok)) = [(false, 16, 1)]) &&
        (attnOpsOf (c.cap.drop 1)).all (fun x => !attnBufBad (wEnd c) c x) && !tileBad ((wEnd c).team 1) (upperOf (wEnd c) r0) 1) = true ∧
    (let c := done48 (.attnf ⟨hd0, 4, 6, 5, 8⟩) .matrix [(5, 0x100), (8, 0x10001)] [0x400010, 0]
     endOk c = true ∧ tileBad ((wEnd c).team 1) (upperOf (wEnd c) r0) 6 = false ∧ scrBad ((wEnd c).team 1) (upperOf (wEnd c) r0) 0x100 4 = false ∧
      (match kRun ((wEnd c).engWho r0) (kMass 0 (mkOpnd ((wEnd c).team 1) false false (shEfmt 0x400010) (shRows 0x400010) (shCols 0x400010) 1 6 0x400010) 1
          (c.cap.getD 1 0).toNat (c.cap.drop 2) (attnfList (wEnd c) c ⟨hd0, 4, 6, 5, 8⟩) 0) (wEnd c) with
        | (.ok _, _) => true
        | _ => false) = true) ∧
    (let c := { done48 (.sxsect ⟨hd0, 4, 6, 8, 10, false, true, 3⟩) .gather [] [8, 7] with res := [(0, 1)] }
     endOk c = true ∧ (c.res.map (·.1)).Nodup ∧ (Map.find ((wEnd c).group r0).lanes 0).isSome ∧ sxPairs c.cap = [] ++ (8, 7) :: []) := by decide +kernel
/-- The copies: one row through each command; both moves of an image. -/
def cpyCap : List Word64 := arrWords object0 64 8 ++ arrWords (leNat box16) 64 8 ++ [shape16]
def copyRuns (k : CpyKind) (o : OpCpy) (i : Instr) : Bool :=
  let c := done48 i .copy [(5, 0x100), (6, 0)] cpyCap
  let s := wEnd c
  let p := cpyPlan c
  let m := imgRef k o c p
  endOk c && decide (bxRows p.b = 1) && (cpyScr k o c p m).all (fun x => !scrBad (s.team 1) (upperOf s r0) x.1 x.2) &&
    decide ((s.team 1).badTile = []) &&
    (match cpyRow k o c p m s 0 with
      | .ok (_, ws) t => (match gWrites t c ws with
        | .ok _ _ => true
        | _ => false)
      | _ => false)
theorem witness_copy_ends :
    copyRuns .plain cpyOp (.cpy cpyOp) = true ∧ copyRuns .plain { cpyOp with dir := 1 } (.cpy { cpyOp with dir := 1 }) = true ∧
    copyRuns .gather { cpyOp with saux := 6 } (.cpyg { cpyOp with saux := 6 }) = true ∧ copyRuns .expand cpyOp (.cpyx cpyOp) = true ∧
    copyRuns .compact { cpyOp with dir := 1 } (.cpyc { cpyOp with dir := 1 }) = true ∧ copyRuns .fill cpyOp (.cpyf cpyOp) = true ∧
    copyRuns .fill { cpyOp with dir := 1 } (.cpyf { cpyOp with dir := 1 }) = true ∧
    ([4, 5] : List (BitVec 3)).all (fun d => let c := done48 (.cpy { cpyOp with dir := d }) .copy [(5, 0x100), (6, 0)] cpyCap
      endOk c && !scrBad ((wEnd c).team 1) false 0 512 && !tileBad ((wEnd c).team 1) false 0) = true := by decide +kernel
/-- Rows of the object, inside, beside and past it, of BF16 and of E4M3 with scales; the metadata of CPYX; a row put into an image. -/
def objMx : Nat := 0x70024 * 2 ^ 64 + 32 * 2 ^ 128 + 16 * 2 ^ 160 + 0x2000 * 2 ^ 448
def boxAt (org ext : Nat) : Nat := org + (ext + 2 ^ 16 + 2 ^ 32 + 2 ^ 48 + 2 ^ 64) * 2 ^ 160
def readRow (e b : Nat) : Option (Option (Nat × Nat) × Bool) :=
  let c := done48 (.cpy cpyOp) .copy [] []
  let s := wEnd c
  let p : CpyPlan := { e := e, b := b, sh := 0 }
  let g := fun (d : Nat) => rowIdx p.b 0 d
  match objRead s c p g, objRun p g with
  | .ok _ _, none => some (none, true)
  | .ok _ _, some (lo, n, va, sa) => some (some (lo, n), !farVa va && !farVa sa && (match vaRead s (s.who r0) va (n * elemBits (oFmt e) / 8) with
    | .ok (_, u) => (match vaRead u (u.who r0) sa (n / 32) with
      | .ok _ => true
      | .error _ => false)
    | .error _ => false))
  | _, _ => none
theorem witness_rows :
    readRow object0 (boxAt 0 16) = some (some (0, 16), true) ∧ readRow object0 (boxAt 0xFFFFFFF8 16) = some (some (8, 8), true) ∧
    readRow object0 (boxAt 16 16) = some (none, true) ∧ readRow objMx (boxAt 0 32) = some (some (0, 32), true) ∧ isMx (oFmt objMx) = true ∧
    isMx (oFmt object0) = false ∧
    (let c := done48 (.cpyx cpyOp) .copy [] []
     let p : CpyPlan := { e := object0, b := boxAt 0 4, sh := 0 }
     (match objRead (wEnd c) c p (fun d => rowIdx p.b 0 d) with
       | .ok (_, raw) u => decide (raw.length = objSize p (fun d => rowIdx p.b 0 d)) && (match vaRead u (u.who c.own) (bxAux p.b) (metaBytes 0 (4 * subRatio 0)) with
         | .ok _ => true
         | .error _ => false)
       | _ => false) = true) ∧
    (let m : ImgRef := { place := 0, loc := 0x100, fmt := 0, rows := 1, cols := 16 }
     m.place ≤ 1 ∧ 0 < m.rows ∧ (List.replicate 16 5).length ≤ m.cols ∧ 16 * elemBits m.fmt % 8 = 0 ∧ m.loc + imgSize m.fmt m.rows m.cols ≤ 2 * MiB3) ∧
    (let m : ImgRef := { place := 1, loc := 3, fmt := 4, rows := 2, cols := 32 }
     m.place ≤ 1 ∧ 1 < m.rows ∧ 32 * elemBits m.fmt % 8 = 0 ∧ isMx m.fmt = true ∧ m.cols % 32 = 0) := by decide +kernel
/-- A write of a command to a place whose caches have room. -/
def wWrote : State := match xlate wCmds (wCmds.who r0) 0x1000 .write false with
  | .ok (_, v) => v
  | .error _ => wCmds
theorem witness_command_write : farVa 0x1000 = false ∧ pieceList 256 0x1000 4 = [(0x1000, 4)] ∧
    (match xlate wCmds (wCmds.who r0) 0x1000 .write false with
      | .ok (lf, _) => !lf.win && decide (lf.pa = 0x1000)
      | .error _ => false) = true ∧ roomy wWrote (wCmds.who r0) [0x1000] := by
  refine ⟨by decide +kernel, by decide +kernel, by decide +kernel, by decide +kernel, fun c => ?_, room_empty (by decide +kernel) (by decide +kernel) (by decide +kernel) (by decide)⟩
  have h : (wWrote.die (wCmds.who r0).die).shx = [] := by decide +kernel
  rw [h]
  exact Nat.le_of_ble_eq_true rfl
/-- Masses of pages that are absent, not LIVE, LIVE; codes of 1.0, 2^32 and −1.0. -/
theorem witness_masses :
    FP32.val 0x3F800000 = .num false 8388608 (-23) ∧ FP32.val 0x4F800000 = .num false 8388608 9 ∧ FP32.val 0xBF800000 = .num true 8388608 (-23) ∧
    ((wKv 2 0 0 1).ctx 0).regs.kvptn.toNat = 1 ∧
    kvGives (kDesc 0 0) ((wKv 2 0 0 1).setMem 0x300000 (leBytes 0 64)) (fun d _ => !dLive d) = true ∧
    kvGives (kDesc 0 0) (wKv 2 0 0 1) (fun d s1 => dLive d && kvGives (kDesc 0 0) s1 (fun e s2 => decide (e = d) && kvGives (kRq 0 (dRq d)) s2 (fun rec s3 =>
      kvGives (kPolicy 0 rec) s3 (fun _ _ => true)))) = true := by decide +kernel
theorem witness_mass_numbers : (8388608 : ℚ) * 2 ^ (-23 + 16 : ℤ) / 1 < 2 ^ 32 - 1 / 2 ∧ (2 ^ 32 - 1 / 2 : ℚ) ≤ 8388608 * 2 ^ (9 + 16 : ℤ) / 1 := by norm_num
/-- Collectives that wait for a piece and that have all; SXSECT's lane of two lists of one element. -/
theorem witness_coll_ends :
    (let c := collCmd {}
     (wColl {}).cmd 50 = some c ∧ c.st = .running ∧ 8 ≤ c.cap.length ∧ c.coll.ending = none ∧ collReady c { cpyOp with sub := 2 } = false) ∧
    (let st : CollSt := { noticed := [(1, 16)], out := [(1, List.replicate 16 0)], got := [(1, List.replicate 16 7)], ended := [1] }
     let c := collCmd st
     let s := wColl st
     let o : OpCpy := { cpyOp with sub := 2 }
     collReady c o = true ∧ c.left = [] ∧ (match gRead s c 0 (collSend c 2 (clRank (collDesc c))).1 (collSend c 2 (clRank (collDesc c))).2 with
       | .ok mine t => decide (mine.length = 16) && (match gWrites t c (collOut c o mine).1 with
         | .ok _ u => decide ((u.team 1).st ≠ .saved)
         | _ => false)
       | _ => false) = true) ∧
    (clRank (collDesc (collCmd {})) < clNrank (collDesc (collCmd {})) ∧ clFmt (collDesc (collCmd {})) = 0 ∧
      ([0, 1] : List Nat).all (fun p => !farVa (collDst (collCmd {}) p)) = true) := by decide +kernel
def wSx : State :=
  let w := wV [(6, 0x1000), (8, 0x1000), (10, 0x10001), (11, 8)]
  match sxRead (enter (.sxsect ⟨hd0, 4, 6, 8, 10, false, true, 3⟩) w r0) w 0x1000 with
  | .val _ v => v
  | _ => w
theorem witness_sxsect_lane :
    let I := enter (.sxsect ⟨hd0, 4, 6, 8, 10, false, true, 3⟩) (wV [(6, 0x1000), (8, 0x1000), (10, 0x10001), (11, 8)]) r0
    ((I.th 0).rv 10).toNat = 0x10001 ∧ ((I.th 0).rw 6).toNat = 0x1000 ∧ ((I.th 0).rw 8).toNat = 0x1000 ∧
      (match sxRead I wSx 0x1000 with
        | .val x v => decide (x = 0) && decide (v = wSx)
        | _ => false) = true := by decide +kernel
/-- FormerStep: requests that are committed and stop, and others; the eviction action at each of its ends. -/
def wEvict (marked : List Nat) (low kvln : Nat) (st : Nat) : State :=
  kvCtx (wKv st 0 0 1) (fun c => { c with
    regs := { c.regs with kvln := BitVec.ofNat 32 kvln }
    former := { c.former with lowwm := BitVec.ofNat 32 low, freepg := 4, stage := some { own := r0, todo := [0], marked := marked, rel := [] } } })
def evictCase (s : State) : List Nat :=
  match (s.ctx 0).former.stage, rqRead s 0 0 with
  | some g, .ok (r, t) =>
    let f := (s.ctx 0).former
    let level := if g.started then max f.lowwm.toNat f.highwm.toNat else f.lowwm.toNat
    [b2n (decide (0 ∈ g.marked)), b2n (decide (level ≤ f.freepg.toNat)), b2n (decide (Rq.state r = rqACTIVE)), lpRoom t 0 (descsOf t 0),
      ((descsOf t 0).filter (fun p => dLive p.2 && decide (dRq p.2 = 0) && decide (dTier p.2 = 0))).length]
  | _, _ => []
theorem witness_evictions :
    evictCase (wEvict [] 4 4 2) = [0, 1, 1, 4, 1] ∧ evictCase (wEvict [0] 4 4 1) = [1, 1, 0, 4, 1] ∧
    evictCase (wEvict [] 5 0 2) = [0, 0, 1, 0, 1] ∧ evictCase (wEvict [] 5 1 2) = [0, 0, 1, 1, 1] ∧
    ([⟨0, 0, 64⟩] : List StepEnt).map (·.rq) = [0] ∧ ((stepW 9 0).rqs[0]?).map (fun q => (q.idx, q.r)) = some (0, rec0 2) ∧ (stepW 9 0).rqs.map (·.idx) = [0, 1] ∧
    ([{ idx := 0, r := rec0 2 + 2 ^ 27 }, cand 0] : List RqW).map (·.idx) = [0, 1] := by decide +kernel
/-- KvPages: pages that cannot be reached while they are evaluated, demoted and moved; a rebuild that asks; what a member sends and gives. -/
def memStop {α : Type} (m : K α) (s : State) : Bool :=
  match kRun (bgWho 0) m s with
  | (.error (.mem _ _ _), _) => true
  | _ => false
/-- A descriptor that can be read and not updated; a page with its CRC whose pools lie at an address without translation. -/
def badUpdate (s : State) : State := { s with poison := [0x300000 / 64 + 1] }
def farPools (s : State) : State :=
  (kvCtx s (fun c => { c with regs := { c.regs with kvhpool := 0x20000000, kvlpool := 0x20000000 } })).setMem 0x50003C (leBytes 0x74357830 4)
theorem witness_wash_unreached :
    kvGives (kWashAt 0 0) (badUpdate (wKv 2 0 0 1)) (fun w s1 => match w with
      | some w => memStop (kEval 0 0 w.1) s1
      | none => false) = true ∧
    ([(0, WashAct.demote), (3, .cold)] : List (Nat × WashAct)).all (fun e => kvGives (kWashAt 0 0) (farPools (wKv 2 e.1 0 1)) (fun w s1 => match w with
      | some w => kvGives (kEval 0 0 w.1) s1 (fun a t => decide (a = e.2) && (if a = .demote then memStop (kDemote 0 0 none) t else memStop (kMove 0 0 false false none) t))
      | none => false)) = true := by decide +kernel
theorem witness_rebuild_asks :
    let s := kvCtx wLost (fun c => { c with parAsked := [] })
    kvGives (kDesc 0 0) s (fun d s1 => dLive d && decide (dTier d = 2) && rebuildWanted s 0 0 && decide (dPblk d ≠ noPage) &&
      kvGives (kDesc 0 0) s1 (fun d2 s2 => kvGives (kGeo 0 (dRq d2) (dLg d2)) s2 (fun _ _ => true))) = true ∧ 0 ∉ (s.ctx 0).parAsked := by decide +kernel
def wMember : State := kvCtx (wKv 2 0 0 1) (fun c => { c with regs := { c.regs with kvpolyPos := 7, kvslot := 0x100 }, parSealed := [0] })
theorem witness_member_gives :
    (wMember.ctx 0).regs.kvpolyPos.toNat = 7 ∧ 0 ∈ (wMember.ctx 0).parSealed ∧ kvGives (kSendBlock 0 0 .give) wMember (fun _ _ => true) = true ∧
    kvGives (kRead 0 (blockVa (wMember.ctx 0) 0) (blockLen (wMember.ctx 0) 0)) wMember (fun _ _ => true) = true := by decide +kernel
/-- A predella whose mask of block 0 names members 0 and 1, or 0 alone; a block being served; a stripe that can be read. -/
def wPred (mask : Byte) (serve : List (Nat × Nat)) : State :=
  kvCtx ((wKv 2 0 0 1).setMem 0x800000 [mask]) (fun c => { c with regs := { c.regs with kvpolyPos := 8 }, parServe := serve })
def wMask (mask : Byte) (serve : List (Nat × Nat)) : State := (kRun (bgWho 0) (kNat 0 (maskVa ((wPred mask serve).ctx 0) 0) 1) (wPred mask serve)).2
theorem witness_predella :
    ([(3, []), (3, [(0, 0)]), (1, [])] : List (Byte × List (Nat × Nat))).all (fun e => decide (((wPred e.1 e.2).ctx 0).regs.kvpolyPos = 8) && decide (((wPred e.1 e.2).ctx 0).parBad = []) &&
      kvGives (kNat 0 (maskVa ((wPred e.1 e.2).ctx 0) 0) 1) (wPred e.1 e.2) (fun m t => decide (m = e.1.toNat) && decide (t = wMask e.1 e.2))) = true ∧
    (List.range 8).filter (fun j => bitN 3 j && decide (j ≠ 0)) = [1] ∧ (List.range 8).filter (fun j => bitN 1 j && decide (j ≠ 0)) = [] ∧ bitN 3 0 = true ∧ bitN 1 1 = false ∧
    kvGives (kParityXor 0 0 0 false [1, 2, 3, 4]) (wPred 0 []) (fun _ _ => true) = true := by decide +kernel
theorem witness_predella_stripe : ∃ st t, kRun (bgWho 0) (kRead 0 (stripeVa ((wPred 3 [(0, 0)]).ctx 0) 0) (2 ^ 18))
    ((wMask 3 [(0, 0)]).updCtx 0 (fun y => { y with parServe := y.parServe.filter (· ≠ (0, 0)) })) = (.ok st, t) := by
  have hv : stripeVa ((wPred 3 [(0, 0)]).ctx 0) 0 = 0x1000000 := by decide +kernel
  obtain ⟨bs, t, h⟩ := reads_identity ((wMask 3 [(0, 0)]).updCtx 0 (fun y => { y with parServe := y.parServe.filter (· ≠ (0, 0)) })) 0 0x1000000 (2 ^ 18)
    (by decide +kernel) (by decide +kernel) (by decide +kernel) (by decide +kernel) (by decide)
  exact ⟨bs, t, by rw [hv, kRead_of_read h]⟩

/-- R250: SAT has no effect on a conversion that is exact for every value: an FP16 infinity stays one in FP32. -/
theorem test_cvt_exact_infinity :
    let t := ran (.cvt ⟨hd0, 4, 5, 0, 1, 0, 0, true⟩) (wV [(5, 0x7C00)])
    (vAt t 0 4, (t.group r0).fpflags) = (0x7F800000, 0) := by decide +kernel

end Sys2Proof.Tests
end

