-- ==== Sys2Proof/Proofs/NumberFormats.lean ====
section
/-! The number formats: E8M0 scales (R129). -/

namespace Sys2Proof.Machine

/-- Below 0xFF a code is its own residue of 8 bits, and its value is the power of two of R129. -/
theorem e8m0_of_lt {c : Nat} (h : c < 255) : e8m0 c = .num false 1 ((c : Int) - 127) := by
  have hmod : c % 256 = c := Nat.mod_eq_of_lt (by omega)
  rw [e8m0, hmod, if_neg h.ne]

theorem e8m0_255 : e8m0 255 = .nan := rfl

/-- A scale of 8 bits is NaN, at the last code alone, or a positive power of two. -/
theorem e8m0_cases {c : Nat} (h : c < 256) :
    (c = 255 ∧ e8m0 c = .nan) ∨ (c < 255 ∧ e8m0 c = .num false 1 ((c : Int) - 127)) := by
  obtain hlt | rfl := Nat.lt_or_eq_of_le (Nat.le_of_lt_succ h)
  · exact .inr ⟨hlt, e8m0_of_lt hlt⟩
  · exact .inl ⟨rfl, e8m0_255⟩

/-- Neither NaN nor a positive power of two is a zero, an infinity or negative. -/
theorem e8m0_unsigned_nonzero_noninf {c : Nat} (h : c < 256) :
    (e8m0 c).isZero = false ∧ (e8m0 c).isInf = false ∧ (e8m0 c).sign = false := by
  obtain ⟨-, hnan⟩ | ⟨-, hpow⟩ := e8m0_cases h
  · rw [hnan]; exact ⟨rfl, rfl, rfl⟩
  · rw [hpow]; exact ⟨rfl, rfl, rfl⟩

/-- Settles O25: the codes below 0xFF by their value, 0xFF by evaluation, and the rest by R129's two cases. -/
theorem e8M0Scales : Obligations.E8M0Scales :=
  ⟨fun _ => e8m0_of_lt, e8m0_255, fun _ => e8m0_unsigned_nonzero_noninf⟩

end Sys2Proof.Machine
end

