-- ==== Sys2Proof/Proofs/InstructionFormats.lean ====
section
/-! The formats of instruction words: what the decoder reads in each of R178's formats, and that the instruction it answers is one
of that format. -/

namespace Sys2Proof

/-! ## The decoder -/

/-- The checks answer the instruction of the parse or an error. -/
theorem i_eq_of_finish_ok {L : Limits} {p : Parse} {i : Instr} (h : finish L p = .ok i) : p.i = i := by
  simp only [finish] at h
  split_ifs at h
  exact Except.ok.inj h

theorem fieldsOf_fmt (w : Nat) : (fieldsOf w).2 = bitsN w 63 62 := by
  simp only [fieldsOf, unpack, bitsN, Nat.div_div_eq_div_mul, ← Nat.pow_add]

/-- A first word has no bit above FMT. -/
theorem bitsN_fmt {w : Nat} (h : w < 2 ^ 64) : bitsN w 63 62 = w / 2 ^ 62 :=
  Nat.mod_eq_of_lt (by omega)

/-- R178's last row. -/
theorem decode_reserved {L : Limits} {w0 : Nat} (w1 : Nat) (h : bitsN w0 63 62 = 3) :
    decode L w0 w1 = .error (.illenc 1) := by
  rw [← fieldsOf_fmt] at h
  simp only [decode, h]

/-- The decoder accepts in three formats: an F word that `Prs.full` reads, a P word of two halves, or the words of an L form. -/
theorem decode_ok_cases {L : Limits} {w0 w1 : Nat} {i : Instr} (h : decode L w0 w1 = .ok i) :
    (bitsN w0 63 62 = 0 ∧ ∃ p, Prs.full (fieldsOf w0).1 = some p ∧ finish L p = .ok i) ∨
    (bitsN w0 63 62 = 1 ∧ ∃ a b, Prs.half (bitsN w0 61 31) = some a ∧ Prs.half (bitsN w0 30 0) = some b ∧
      finish L { i := .pWord a b } = .ok i) ∨
    (bitsN w0 63 62 = 2 ∧ ∃ p, Prs.long (fieldsOf w0).1.op (fieldsOf w0).1.h (bitsN w0 40 0) (w1 % 2 ^ 64) = some p ∧
      finish L p = .ok i) := by
  simp only [decode, fieldsOf_fmt] at h
  split at h
  next hfmt =>
    left
    split at h
    next p hp => exact ⟨hfmt, p, hp, h⟩
    next => split at h <;> cases h
  next hfmt =>
    right; left
    split at h
    next a b ha hb => exact ⟨hfmt, a, b, ha, hb, h⟩
    next => cases h
  next hfmt =>
    right; right
    split at h
    next p hp => exact ⟨hfmt, p, hp, h⟩
    next => split at h <;> cases h
  next => cases h

namespace Machine

/-! ## The format of an instruction -/

/-- The FMT of an instruction's first word (R178), from the instruction alone. -/
def formatOf : Instr → Nat
  | .pWord _ _ => 1
  | i => if instrLen i = 16 then 2 else 0

theorem formatOf_eq_one_iff (i : Instr) : formatOf i = 1 ↔ ∃ a b, i = .pWord a b := by
  unfold formatOf
  split
  next a b => exact ⟨fun _ => ⟨a, b, rfl⟩, fun _ => rfl⟩
  next hp =>
    refine ⟨fun h => ?_, fun ⟨a, b, h⟩ => absurd h (hp a b)⟩
    split at h <;> cases h

theorem instrLen_eq (i : Instr) : instrLen i = if formatOf i = 2 then 16 else 8 := by
  cases i <;> rfl

-- The split has an alternative for each opcode of R204; its last carries a hypothesis against every other.
set_option maxRecDepth 1000 in
theorem formatOf_full {f : FW} {p : Parse} (h : Prs.full f = some p) : formatOf p.i = 0 := by
  unfold Prs.full at h
  split at h <;> cases h
  -- Opcodes whose MOD bit chooses between two instructions.
  case h_161 => cases f.n 1 <;> rfl
  case h_16 | h_163 | h_167 | h_168 => cases f.n 0 <;> rfl
  all_goals rfl

theorem formatOf_long {op : Nat} {hd : Hdr} {lo w1 : Nat} {p : Parse} (h : Prs.long op hd lo w1 = some p) :
    formatOf p.i = 2 := by
  unfold Prs.long at h
  split at h <;> cases h <;> rfl

/-- What decodes has the format of its first word (R178). -/
theorem formatOf_decode {L : Limits} {w0 w1 : Nat} {i : Instr} (h : decode L w0 w1 = .ok i) :
    formatOf i = bitsN w0 63 62 := by
  obtain ⟨hfmt, p, hp, hi⟩ | ⟨hfmt, a, b, -, -, hi⟩ | ⟨hfmt, p, hp, hi⟩ := decode_ok_cases h
  all_goals rw [hfmt, ← i_eq_of_finish_ok hi]
  · exact formatOf_full hp
  · rfl
  · exact formatOf_long hp

/-- Settles O4, by the formats of the instructions that each FMT decodes to. -/
theorem formatSelects : Obligations.FormatSelects := by
  intro L w0 w1 hw
  have hfmt : bitsN w0 63 62 = w0 / 2 ^ 62 := bitsN_fmt hw
  refine ⟨by rw [lengthOf, hfmt], fun h3 => ⟨decode_reserved w1 (hfmt.trans h3), rfl⟩, fun i hi => ⟨?_, ?_⟩⟩
  · rw [instrLen_eq, formatOf_decode hi, lengthOf]
  · rw [← hfmt, ← formatOf_decode hi, formatOf_eq_one_iff]

end Machine

end Sys2Proof
end

/-! The integer instructions that give each enabled lane a result (R233, R234): what writing registers of lanes leaves alone, what the
lanes and FPFLAGS hold afterwards, and the arithmetic of each operation. -/

namespace Sys2Proof.Machine

/-! ## What a lane keeps -/

/-- Of the registers of `t`, the lane `u` has changed at most those that `ws` names; it is the same thread, bound as it was, and in the
same state. -/
structure Thread.WritesOnly (ws : List RegRef) (t u : Thread) : Prop where
  value : ∀ n, (RegCls.v, n) ∉ ws → u.value n = t.value n
  pvalue : ∀ n, (RegCls.p, n) ∉ ws → u.pvalue n = t.pvalue n
  tid : u.tid = t.tid
  bind : u.bind = t.bind
  st : u.st = t.st

theorem Thread.pvalue_of_ge (t : Thread) {n : Nat} (h : 127 ≤ n) : t.pvalue n = decide (n = 127) := by
  unfold Thread.pvalue Thread.rp
  obtain rfl | hn := h.eq_or_lt
  · rfl
  · rw [BitVec.getLsbD_of_ge _ _ hn, Bool.or_false]

/-- Predicates from p127 on read the same in every lane (R181); below it, the writes decide. -/
theorem Thread.pvalue_eq_of_lt {t u : Thread} {n : Nat} (h : n < 127 → u.pvalue n = t.pvalue n) : u.pvalue n = t.pvalue n := by
  obtain hn | hn := Nat.lt_or_ge n 127
  · exact h hn
  · rw [Thread.pvalue_of_ge _ hn, Thread.pvalue_of_ge _ hn]

theorem Thread.WritesOnly.refl (ws : List RegRef) (t : Thread) : t.WritesOnly ws t :=
  ⟨fun _ _ => rfl, fun _ _ => rfl, rfl, rfl, rfl⟩

theorem Thread.WritesOnly.trans {ws : List RegRef} {t u v : Thread} (h : t.WritesOnly ws u) (k : u.WritesOnly ws v) :
    t.WritesOnly ws v where
  value n hn := (k.value n hn).trans (h.value n hn)
  pvalue n hn := (k.pvalue n hn).trans (h.pvalue n hn)
  tid := k.tid.trans h.tid
  bind := k.bind.trans h.bind
  st := k.st.trans h.st

theorem Thread.WritesOnly.mono {ws vs : List RegRef} {t u : Thread} (h : t.WritesOnly ws u) (hs : ws ⊆ vs) : t.WritesOnly vs u where
  value n hn := h.value n fun hw => hn (hs hw)
  pvalue n hn := h.pvalue n fun hw => hn (hs hw)
  tid := h.tid
  bind := h.bind
  st := h.st

theorem Thread.apply_keeps (t : Thread) (e : PendW) :
    (t.apply e).tid = t.tid ∧ (t.apply e).bind = t.bind ∧ (t.apply e).st = t.st := by
  unfold Thread.apply
  cases e.cls with
  | v => exact ⟨rfl, rfl, rfl⟩
  | p => dsimp only; unfold Thread.putP; split <;> exact ⟨rfl, rfl, rfl⟩
  | s => exact ⟨rfl, rfl, rfl⟩

theorem commitStep_keeps (ok : PendW → Bool) (u : Thread) (e : PendW) :
    (commitStep ok u e).tid = u.tid ∧ (commitStep ok u e).bind = u.bind ∧ (commitStep ok u e).st = u.st := by
  unfold commitStep
  split
  · exact u.apply_keeps e
  · exact ⟨rfl, rfl, rfl⟩

theorem commits_keep (ok : PendW → Bool) (ps : List PendW) (u : Thread) :
    (ps.foldl (commitStep ok) u).tid = u.tid ∧ (ps.foldl (commitStep ok) u).bind = u.bind ∧
      (ps.foldl (commitStep ok) u).st = u.st := by
  induction ps generalizing u with
  | nil => exact ⟨rfl, rfl, rfl⟩
  | cons e ps ih =>
    obtain ⟨htid, hbind, hst⟩ := commitStep_keeps ok u e
    obtain ⟨itid, ibind, ist⟩ := ih (commitStep ok u e)
    exact ⟨itid.trans htid, ibind.trans hbind, ist.trans hst⟩

/-- Results that arrive change no register for a reader at adequate distance (R196). -/
theorem Thread.writesOnly_commitIf (t : Thread) (ok : PendW → Bool) : t.WritesOnly [] (t.commitIf ok) := by
  have hkeep : (t.commitIf ok).tid = t.tid ∧ (t.commitIf ok).bind = t.bind ∧ (t.commitIf ok).st = t.st := by
    rw [Thread.commitIf_eq]
    split
    · exact ⟨rfl, rfl, rfl⟩
    · exact commits_keep ok t.pend { t with pend := [] }
  obtain ⟨htid, hbind, hst⟩ := hkeep
  exact ⟨fun n _ => t.value_commitIf ok n, fun n _ => pvalue_eq_of_lt (t.pvalue_commitIf ok n), htid, hbind, hst⟩

theorem Thread.writesOnly_pc (t : Thread) (pc : Word64) : t.WritesOnly [] { t with pc := pc } where
  value n _ := by rw [Thread.value_eq, Thread.value_eq]; rfl
  pvalue n _ := pvalue_eq_of_lt fun hn => by rw [Thread.pvalue_eq _ _ hn, Thread.pvalue_eq _ _ hn]; rfl
  tid := rfl
  bind := rfl
  st := rfl

theorem Thread.writesOnly_setV (t : Thread) (r : VReg) (x : Word32) : t.WritesOnly (rdV r) (t.setV r.toNat x) where
  value n hn := t.value_setV_of_ne x fun h => hn (by rw [h, rdV]; exact List.mem_singleton.2 rfl)
  pvalue n _ := pvalue_eq_of_lt (t.pvalue_setV r.toNat n x)
  tid := rfl
  bind := rfl
  st := rfl

/-! ## The issuing group -/

/-- Of a group, results that arrive in s-registers change these registers and what is known of them. -/
theorem commits_groupFrame (ok : PendW → Bool) (ps : List PendW) (g : Group) :
    ∃ sr spend badS tokNew, ps.foldl (commitStepS ok) g = { g with sr := sr, spend := spend, badS := badS, tokNew := tokNew } := by
  induction ps generalizing g with
  | nil => exact ⟨_, _, _, _, rfl⟩
  | cons e ps ih =>
    obtain ⟨sr, spend, badS, tokNew, h⟩ := ih (commitStepS ok g e)
    refine ⟨sr, spend, badS, tokNew, ?_⟩
    rw [List.foldl_cons, h]
    unfold commitStepS
    split <;> rfl

theorem Group.commitS_frame (g : Group) (ok : PendW → Bool) :
    ∃ sr spend badS tokNew, g.commitS ok = { g with sr := sr, spend := spend, badS := badS, tokNew := tokNew } := by
  rw [Group.commitS_eq]
  split
  · exact ⟨_, _, _, _, rfl⟩
  · exact commits_groupFrame ok g.spend { g with spend := [] }

theorem commitGroup_of_not_comesAfter {i : Instr} (hi : comesAfter i = false) (g : Group) (set : List Nat) :
    commitGroup g set i = (g.mapLanes set (fun _ t => t.commitIf (dueOk g i))).commitS (dueOk g i) := by
  unfold commitGroup
  rw [hi]
  rfl

theorem commitGroup_frame {i : Instr} (hi : comesAfter i = false) (g : Group) (set : List Nat) :
    ∃ lanes sr spend badS tokNew, commitGroup g set i =
      { g with lanes := lanes, sr := sr, spend := spend, badS := badS, tokNew := tokNew } := by
  rw [commitGroup_of_not_comesAfter hi]
  obtain ⟨sr, spend, badS, tokNew, h⟩ := (g.mapLanes set (fun _ t => t.commitIf (dueOk g i))).commitS_frame (dueOk g i)
  exact ⟨_, sr, spend, badS, tokNew, h⟩

theorem commitGroup_svalue {i : Instr} (hi : comesAfter i = false) (g : Group) (set : List Nat) (n : Nat) :
    (commitGroup g set i).svalue n = g.svalue n := by
  rw [commitGroup_of_not_comesAfter hi, Group.svalue_commitS, Group.svalue_mapLanes]

theorem retired_frame (I : Iss) (now : Nat) (g : Group) :
    retired I now g = { g with
      spacing := g.spacing + (1 + (hdrOf I.i).stall.toNat), nextIssue := (retired I now g).nextIssue, issueCnt := g.issueCnt + 1,
      lastIssue := now, waited := 0, hold := (retired I now g).hold, replay := none, unchecked := false,
      waits := (retired I now g).waits } := by
  unfold retired
  split <;> rfl

/-- Of its team, the accounting of an issue changes the group, RETIRED and the non-idempotent bit (R239, R344). -/
theorem retire_team_self (I : Iss) (s : State) :
    (retire I s).team I.ref.team = { s.team I.ref.team with
      groups := ((retire I s).team I.ref.team).groups,
      retired := (s.team I.ref.team).retired + (if I.en.isEmpty then 0 else 1),
      nonIdem := ((retire I s).team I.ref.team).nonIdem } := by
  unfold retire
  simp only [State.team_updCore, State.team_updGroup_self, State.team_updTeam_self]
  congr 1
  cases I.en.isEmpty with
  | false => rfl
  | true => exact (BitVec.add_zero _).symm

/-! ## Lanes outside the issue set -/

theorem enter_lane_of_not_mem (i : Instr) (s : State) (r : GRef) {l : Nat} (h : l ∉ issueSet (s.group r)) :
    (enter i s r).th l = s.lane r l := by
  show ((enter i s r).s.group r).lane l = _
  rw [enter_group]
  have hadv := Group.lane_mapLanes_of_not_mem (commitGroup (s.group r) (issueSet (s.group r)) i) (issueSet (s.group r))
    (fun _ t => { t with pc := BitVec.ofNat 64 (issuePc (s.group r) + instrLen i) }) l h
  have hdue := Group.lane_mapLanes_of_not_mem (s.group r) (issueSet (s.group r)) (fun _ t => t.commitIf (dueOk (s.group r) i)) l h
  unfold Group.lane at hdue hadv ⊢
  rw [← commitGroup_lanes] at hdue
  exact hadv.trans hdue

theorem enter_writesOnly (i : Instr) (s : State) (r : GRef) (l : Nat) : (s.lane r l).WritesOnly [] ((enter i s r).th l) := by
  by_cases h : l ∈ issueSet (s.group r)
  · rw [enter_lane i s r l h]
    exact (Thread.writesOnly_commitIf _ _).trans (Thread.writesOnly_pc _ _)
  · rw [enter_lane_of_not_mem i s r h]
    exact .refl ..

/-! ## The frame -/

section
variable {i : Instr} {s : State} {r : GRef} {f : Nat → Thread → Thread}

theorem retire_lanewise_group :
    (retire (enter i s r) ((enter i s r).lanewise f)).group r =
      retired (enter i s r) s.now
        ({ (commitGroup (s.group r) (issueSet (s.group r)) i).mapLanes (issueSet (s.group r))
            (fun _ t => { t with pc := BitVec.ofNat 64 (issuePc (s.group r) + instrLen i) }) with yieldMask := 0 }.mapLanes
          (enter i s r).en f) := by
  have h := retire_group_self (enter i s r) ((enter i s r).lanewise f)
  rw [enter_ref] at h
  rw [h]
  congr 1
  show ((enter i s r).s.updGroup r _).group r = _
  rw [State.group_updGroup_self, enter_group]

theorem retire_sameWorld {s : State} (I : Iss) {u : State} (h : sameWorld s u) : sameWorld s (retire I u) := by
  unfold sameWorld at h
  unfold retire sameWorld State.updCore State.updGroup State.updTeam
  rw [h]

theorem lanewise_sameWorld : sameWorld s ((enter i s r).lanewise f) := rfl

theorem lanewise_core (c : Nat) : ((enter i s r).lanewise f).core c = s.core c := rfl

/-- Of a core, the accounting of an issue changes a sequencer's entry. -/
theorem retire_core (I : Iss) (u : State) (c : Nat) : (retire I u).core c = { u.core c with seqs := ((retire I u).core c).seqs } := by
  by_cases hc : c = coreOf I.tm I.ref.gid
  · subst hc
    unfold retire
    simp only [State.core_updCore_self]
    rfl
  · unfold retire
    simp only [State.core_updCore_of_ne _ _ hc]
    rfl

theorem retire_lanewise_sameCores : sameCores s (retire (enter i s r) ((enter i s r).lanewise f)) := by
  intro c
  rw [retire_core, lanewise_core]

/-- The issuing team, of which the group alone has changed before the accounting. -/
theorem lanewise_team_self :
    ((enter i s r).lanewise f).team r.team = { s.team r.team with groups := (((enter i s r).lanewise f).team r.team).groups } := by
  have h : ((enter i s r).s.updGroup r fun g => g.mapLanes (enter i s r).en f).team r.team = { s.team r.team with
      groups := (((enter i s r).s.updGroup r fun g => g.mapLanes (enter i s r).en f).team r.team).groups } := by
    unfold enter
    simp only [State.team_updGroup_self]
  exact h

theorem retire_lanewise_team_self :
    (retire (enter i s r) ((enter i s r).lanewise f)).team r.team = { s.team r.team with
      groups := ((retire (enter i s r) ((enter i s r).lanewise f)).team r.team).groups,
      retired := (s.team r.team).retired + (if (enter i s r).en.isEmpty then 0 else 1),
      nonIdem := ((retire (enter i s r) ((enter i s r).lanewise f)).team r.team).nonIdem } := by
  have h := retire_team_self (enter i s r) ((enter i s r).lanewise f)
  rw [enter_ref, lanewise_team_self] at h
  exact h

theorem retire_lanewise_sameTeams : sameTeams s (retire (enter i s r) ((enter i s r).lanewise f)) r := by
  refine ⟨fun k hk => ?_, ?_, fun g hg => ?_⟩
  · rw [retire_team_of_ne _ _ hk]
    exact (State.team_updGroup_of_ne _ _ _ hk).trans (enter_team_of_ne i s hk)
  · rw [retire_lanewise_team_self]
  · have hne : (⟨r.team, g⟩ : GRef) ≠ r := fun h => hg (congrArg GRef.gid h)
    rw [retire_group_of_ne _ _ hne]
    exact (State.group_updGroup_of_ne _ _ hne).trans (enter_group_of_ne i s hne)

theorem retire_lanewise_sameGroup (hi : comesAfter i = false) :
    sameGroup s (retire (enter i s r) ((enter i s r).lanewise f)) r := by
  obtain ⟨lanes, sr, spend, badS, tokNew, h⟩ := commitGroup_frame hi (s.group r) (issueSet (s.group r))
  unfold sameGroup
  rw [retire_lanewise_group, h, retired_frame]
  rfl

theorem retire_lanewise_accounted (hi : comesAfter i = false) :
    accounted i s (retire (enter i s r) ((enter i s r).lanewise f)) r := by
  obtain ⟨lanes, sr, spend, badS, tokNew, hg⟩ := commitGroup_frame hi (s.group r) (issueSet (s.group r))
  refine ⟨?_, ?_, ?_⟩
  · rw [retire_lanewise_group, retired_spacing, hg]
    exact (Nat.add_assoc ..).symm
  · rw [retire_lanewise_group, retired_frame, hg]
    rfl
  · rw [retire_lanewise_team_self]

theorem retire_lanewise_lane_en {l : Nat} (h : l ∈ (enter i s r).en) :
    (retire (enter i s r) ((enter i s r).lanewise f)).lane r l = f l ((enter i s r).th l) :=
  (retire_lane ..).trans (lane_lanewise f h)

theorem retire_lanewise_lane_of_not_mem {l : Nat} (h : l ∉ (enter i s r).en) :
    (retire (enter i s r) ((enter i s r).lanewise f)).lane r l = (enter i s r).th l :=
  (retire_lane ..).trans (lane_lanewise_of_not_mem f h)

theorem retire_lanewise_svalue (hi : comesAfter i = false) (n : Nat) :
    ((retire (enter i s r) ((enter i s r).lanewise f)).group r).svalue n = (s.group r).svalue n := by
  rw [retire_lanewise_group, ← commitGroup_svalue hi (s.group r) (issueSet (s.group r)) n, Group.svalue_eq, Group.svalue_eq]
  unfold Group.rs
  rw [retired_sr, retired_spend]
  rfl

/-- A body that changes, in the enabled lanes, only registers that the instruction names as destinations leaves everything else as it
was (R33, R196). -/
theorem registerFrame_of_lanewise (body : Iss → Eff) (hx : exec i s = issue i s body) (hc : clear i s r) (hi : comesAfter i = false)
    (hb : body (enter i s r) = .ok ((enter i s r).lanewise f))
    (hf : ∀ l t, t.WritesOnly (uses i).writes (f l t) ∧ (f l t).pc = t.pc) : registerFrame i s r := by
  have hlane : ∀ l, (s.lane r l).WritesOnly (if l ∈ (enter i s r).en then (uses i).writes else [])
      ((retire (enter i s r) ((enter i s r).lanewise f)).lane r l) := by
    intro l
    have he := enter_writesOnly i s r l
    split
    next h =>
      rw [retire_lanewise_lane_en h]
      exact (he.mono (List.nil_subset _)).trans (hf l _).1
    next h =>
      rw [retire_lanewise_lane_of_not_mem h]
      exact he
  have hout : ∀ {l : Nat} {q : RegRef}, l ∉ (enter i s r).en ∨ q ∉ (uses i).writes →
      q ∉ (if l ∈ (enter i s r).en then (uses i).writes else []) := by
    intro l q h
    split
    next hl => exact h.resolve_left fun hn => hn hl
    next => exact List.not_mem_nil
  refine ⟨retire (enter i s r) ((enter i s r).lanewise f), by rw [hx, issue_clear body hc, hb, Iss.finish_ok],
    retire_sameWorld _ lanewise_sameWorld,
    retire_lanewise_sameCores, retire_lanewise_sameTeams, retire_lanewise_sameGroup hi,
    ⟨fun l hl => ?_, fun l n h => (hlane l).value n (hout h), fun l n h => (hlane l).pvalue n (hout h),
      fun n _ => retire_lanewise_svalue hi n⟩,
    fun l => ⟨(hlane l).tid, (hlane l).bind, (hlane l).st⟩, retire_lanewise_accounted hi, fun l hl => ?_⟩
  · rw [retire_lanewise_lane_of_not_mem fun h => hl (set_of_en h), enter_lane_of_not_mem i s r hl]
  · have hpc : ((enter i s r).th l).pc = BitVec.ofNat 64 (issuePc (s.group r) + instrLen i) := by rw [enter_lane i s r l hl]
    by_cases h : l ∈ (enter i s r).en
    · rw [retire_lanewise_lane_en h, (hf l _).2, hpc]
    · rw [retire_lanewise_lane_of_not_mem h, hpc]

end

/-! ## Results of lanes and flags -/

theorem commitGroup_fpflags {i : Instr} (hi : comesAfter i = false) (g : Group) (set : List Nat) :
    (commitGroup g set i).fpflags = g.fpflags := by
  obtain ⟨lanes, sr, spend, badS, tokNew, h⟩ := commitGroup_frame hi g set
  rw [h]

theorem State.orFlags_lane (s : State) (g : GRef) (f l : Nat) : (s.orFlags g f).lane g l = s.lane g l := by
  unfold State.orFlags
  split
  · rfl
  · unfold State.lane
    rw [State.group_updGroup_self]
    rfl

theorem State.orFlags_fpflags (s : State) (g : GRef) (f : Nat) :
    ((s.orFlags g f).group g).fpflags = (s.group g).fpflags ||| BitVec.ofNat 64 f := by
  unfold State.orFlags
  split
  next h => rw [h]; exact BitVec.or_zero.symm
  next => rw [State.group_updGroup_self]

section
variable {i : Instr} {s : State} {r : GRef}

theorem retire_enter_lane (u : State) (l : Nat) : (retire (enter i s r) u).lane r l = u.lane r l := retire_lane ..

theorem retire_enter_fpflags (u : State) : ((retire (enter i s r) u).group r).fpflags = (u.group r).fpflags := by
  have h := retire_group_self (enter i s r) u
  rw [enter_ref] at h
  rw [h, retired_frame]

theorem lanewise_fpflags (hi : comesAfter i = false) (f : Nat → Thread → Thread) :
    (((enter i s r).lanewise f).group r).fpflags = (s.group r).fpflags := by
  rw [← commitGroup_fpflags hi (s.group r) (issueSet (s.group r))]
  show (((enter i s r).s.updGroup r _).group r).fpflags = _
  rw [State.group_updGroup_self, enter_group]
  rfl

theorem value_outVF (d : VReg) (f : Thread → Res) {l : Nat} (h : l ∈ (enter i s r).en) :
    (((enter i s r).outVF d f).lane r l).value d.toNat = (f ((enter i s r).th l)).1 := by
  unfold Iss.outVF
  rw [enter_ref, State.orFlags_lane, value_outV d _ h]

theorem outVF_fpflags (hi : comesAfter i = false) (d : VReg) (f : Thread → Res) :
    (((enter i s r).outVF d f).group r).fpflags = (s.group r).fpflags ||| BitVec.ofNat 64 ((enter i s r).flagsOf f) := by
  unfold Iss.outVF
  rw [enter_ref, State.orFlags_fpflags]
  unfold Iss.outV
  rw [lanewise_fpflags hi]

/-- Results that set no flag. -/
theorem flagsOf_eq_zero {I : Iss} {f : Thread → Res} (h : ∀ t, (f t).2 = 0) : I.flagsOf f = 0 := by
  unfold Iss.flagsOf
  induction I.en with
  | nil => rfl
  | cons l ls ih => rw [List.foldl_cons, h]; exact ih

/-- A body that gives every enabled lane a fixed-latency result with flags (R140, R232). -/
theorem givesF_of_outVF {d : VReg} {g f : Iss → Thread → Res} (hx : exec i s = issue i s (fun I => .ok (I.outVF d (g I))))
    (hi : comesAfter i = false) (hf : ∀ I t, g I t = f I t) (hc : clear i s r) : GivesF i s r d (fun I _ t => f I t) := by
  obtain rfl : g = f := funext fun I => funext (hf I)
  refine ⟨_, by rw [hx, issue_clear _ hc, Iss.finish_ok], fun l hl => ?_, ?_⟩
  · rw [retire_enter_lane, value_outVF d _ hl]
  · unfold flagged
    rw [enter_ref, retire_enter_fpflags, outVF_fpflags hi]
    rfl

/-- The same where no result sets a flag. -/
theorem gives_of_outVF {d : VReg} {g f : Iss → Thread → Word32}
    (hx : exec i s = issue i s (fun I => .ok (I.outVF d (fun t => (g I t, 0))))) (hi : comesAfter i = false)
    (hf : ∀ I t, g I t = f I t) (hc : clear i s r) : Gives i s r d (fun I _ t => f I t) := by
  obtain rfl : g = f := funext fun I => funext (hf I)
  refine ⟨_, by rw [hx, issue_clear _ hc, Iss.finish_ok], fun l hl => ?_, ?_⟩
  · rw [retire_enter_lane, value_outVF d _ hl]
  · rw [retire_enter_fpflags, outVF_fpflags hi, flagsOf_eq_zero fun _ => rfl]
    exact BitVec.or_zero

/-- A body that gives every enabled lane a variable-latency result (R197). -/
theorem gives_of_setV {d : VReg} {g f : Iss → Thread → Word32}
    (hx : exec i s = issue i s (fun I => .ok (I.setV d (fun _ t => g I t)))) (hi : comesAfter i = false)
    (hf : ∀ I t, g I t = f I t) (hc : clear i s r) : Gives i s r d (fun I _ t => f I t) := by
  obtain rfl : g = f := funext fun I => funext (hf I)
  refine ⟨_, by rw [hx, issue_clear _ hc, Iss.finish_ok], fun l hl => ?_, ?_⟩
  · rw [retire_enter_lane, value_setV d _ hl]
  · rw [retire_enter_fpflags]
    exact lanewise_fpflags hi _

/-- A body that gives every enabled lane a pair (R181). -/
theorem gives2_of_outVp {d : VReg} {g f : Iss → Thread → Word64}
    (hx : exec i s = issue i s (fun I => .ok (I.outVp d (g I)))) (hi : comesAfter i = false)
    (hf : ∀ I t, g I t = f I t) (hc : clear i s r) : Gives2 i s r d (fun I _ t => f I t) := by
  obtain rfl : g = f := funext fun I => funext (hf I)
  refine ⟨_, by rw [hx, issue_clear _ hc, Iss.finish_ok], fun l hl => ?_, ?_⟩
  · rw [retire_enter_lane, value_outVp d _ hl]
  · rw [retire_enter_fpflags]
    exact lanewise_fpflags hi _

/-- The frame of an instruction whose one destination takes a variable-latency result. -/
theorem registerFrame_of_setV {d : VReg} {g : Iss → Thread → Word32}
    (hx : exec i s = issue i s (fun I => .ok (I.setV d (fun _ t => g I t)))) (hi : comesAfter i = false)
    (hw : (uses i).writes = rdV d) (hc : clear i s r) : registerFrame i s r :=
  registerFrame_of_lanewise _ hx hc hi rfl fun _ t => ⟨hw ▸ t.writesOnly_setV d _, rfl⟩

end

/-! ## Division (R234) -/

/-- R234's table for the quotient. -/
theorem idivR_eq (n : Bool) (x y : Word32) :
    idivR n x y =
      if y = 0 then 0xFFFFFFFF
      else if n = false ∧ x = 0x80000000 ∧ y = 0xFFFFFFFF then 0x80000000
      else if n then BitVec.ofNat 32 (x.toNat / y.toNat) else BitVec.ofInt 32 (x.toInt.tdiv y.toInt) := by
  unfold idivR
  split
  · rfl
  · cases n with
    | true => exact BitVec.ofInt_natCast ..
    | false =>
      split
      next h =>
        obtain ⟨-, rfl, rfl⟩ := h
        rfl
      next => rfl

/-- R234's table for the remainder, which is a − b × quotient. -/
theorem iremR_eq (n : Bool) (x y : Word32) :
    iremR n x y =
      if y = 0 then x
      else if n = false ∧ x = 0x80000000 ∧ y = 0xFFFFFFFF then 0
      else if n then BitVec.ofNat 32 (x.toNat - y.toNat * (x.toNat / y.toNat))
      else BitVec.ofInt 32 (x.toInt - y.toInt * x.toInt.tdiv y.toInt) := by
  unfold iremR
  split
  · rfl
  · rw [← Int.tmod_def]
    cases n with
    | true =>
      rw [← Nat.mod_eq_sub_mul_div]
      exact BitVec.ofInt_natCast ..
    | false =>
      split
      next h =>
        obtain ⟨-, rfl, rfl⟩ := h
        rfl
      next => rfl

/-- Settles O17: the frame of a variable-latency result, and R234's table of each operation. -/
theorem divisionTable : Obligations.DivisionTable := by
  intro s r o
  refine ⟨fun hc => ⟨registerFrame_of_setV (execIdiv.eq_1 o s) rfl rfl hc, ?_⟩,
    fun hc => ⟨registerFrame_of_setV (execIrem.eq_1 o s) rfl rfl hc, ?_⟩⟩
  · exact gives_of_setV (execIdiv.eq_1 o s) rfl (fun _ _ => idivR_eq ..) hc
  · exact gives_of_setV (execIrem.eq_1 o s) rfl (fun _ _ => iremR_eq ..) hc

/-! ## Exact results and widened operands (R232, R233) -/

/-- An exact result narrowed: wrapped, or clamped with its flag. -/
theorem narrow_eq (n sat : Bool) (x : Int) : narrow n sat x = (fitted n sat x, clampFlag n sat x) := by
  unfold narrow fitted clampFlag
  cases sat with
  | false => rfl
  | true =>
    have hle : typeMin n ≤ typeMax n := by cases n <;> decide
    have hfmt : (if n then N32 else I32) = ⟨32, typeMin n, typeMax n⟩ := by cases n <;> rfl
    simp only [if_true, true_and, hfmt, IFmt.sat]
    split
    next hlo => rw [max_eq_left (min_le_of_right_le hlo.le), if_pos (.inl hlo)]
    next hlo =>
      split
      next hhi => rw [min_eq_left hhi.le, max_eq_right hle, if_pos (.inr hhi)]
      next hhi => rw [min_eq_right (not_lt.1 hhi), max_eq_right (not_lt.1 hlo), if_neg (not_or.2 ⟨hlo, hhi⟩)]

/-- With SAT, R233: the exact value clamped, and the flag where the clamp changed it. -/
theorem narrow_sat (n : Bool) (x : Int) :
    narrow n true x =
      (BitVec.ofInt 32 (max (typeMin n) (min (typeMax n) x)), if x < typeMin n ∨ typeMax n < x then fSAT else 0) := by
  rw [narrow_eq]
  simp only [fitted, clampFlag, if_true, true_and]

/-- R233's ext: an operand widened to 64 bits as N says. -/
def extN (n : Bool) (x : Word32) : Word64 := if n then x.setWidth 64 else x.signExtend 64

theorem ofInt_typed (n : Bool) (x : Word32) : BitVec.ofInt 64 (typed n x) = extN n x := by
  cases n with
  | false => rfl
  | true => exact (BitVec.ofInt_natCast ..).trans (BitVec.ofNat_toNat ..)

theorem ofInt_typed_mul (n : Bool) (x y : Word32) : BitVec.ofInt 64 (typed n x * typed n y) = extN n x * extN n y := by
  rw [BitVec.ofInt_mul, ofInt_typed, ofInt_typed]

/-- The high half of an integer modulo 2^64. -/
theorem ofInt_div_pow_32 (x : Int) : BitVec.ofInt 32 (x / 2 ^ 32) = (BitVec.ofInt 64 x >>> 32).setWidth 32 := by
  apply BitVec.eq_of_toNat_eq
  simp only [BitVec.toNat_ofInt, BitVec.toNat_setWidth, BitVec.toNat_ushiftRight, Nat.shiftRight_eq_div_pow]
  omega

theorem imulhR_eq (n : Bool) (x y : Word32) : imulhR n x y = ((extN n x * extN n y) >>> 32).setWidth 32 := by
  rw [imulhR, ofInt_div_pow_32, ofInt_typed_mul]

theorem imadwR_eq (n : Bool) (x y : Word32) (z : Word64) : imadwR n x y z = extN n x * extN n y + z := by
  rw [imadwR, ofInt_typed_mul]

/-! ## Shifts (R233) -/

theorem shlR_eq (a b : Word32) : shlR a b = if 32 ≤ b.toNat then 0 else BitVec.ofNat 32 (a.toNat * 2 ^ b.toNat) := by
  rw [shlR, ← Nat.shiftLeft_eq]
  rfl

theorem shrR_eq (a b : Word32) : shrR a b = if 32 ≤ b.toNat then 0 else BitVec.ofNat 32 (a.toNat / 2 ^ b.toNat) := by
  rw [shrR, ← Nat.shiftRight_eq_div_pow, ← BitVec.toNat_ushiftRight, BitVec.ofNat_toNat, BitVec.setWidth_eq]

/-- An arithmetic shift by all but one of the places leaves copies of the sign bit. -/
theorem sshiftRight_31 (a : Word32) : a.sshiftRight 31 = if a.getLsbD 31 then 0xFFFFFFFF else 0 := by
  have hbit : ∀ j, j < 32 → (a.sshiftRight 31).getLsbD j = a.getLsbD 31 := fun j hj => by
    have hmsb : a.msb = a.getLsbD 31 := rfl
    rw [BitVec.getLsbD_sshiftRight, hmsb]
    obtain rfl | hpos := j.eq_zero_or_pos
    · rfl
    · simp [hj, show ¬31 + j < 32 by omega]
  apply BitVec.eq_of_getLsbD_eq
  intro j hj
  rw [hbit j hj]
  cases a.getLsbD 31 with
  | false => exact BitVec.getLsbD_zero.symm
  | true => exact ((BitVec.getLsbD_allOnes (v := 32)).trans (decide_eq_true hj)).symm

theorem sarR_eq (a b : Word32) :
    sarR a b = if 32 ≤ b.toNat then (if a.getLsbD 31 then 0xFFFFFFFF else 0) else a.sshiftRight b.toNat := by
  unfold sarR
  split
  next h => rw [min_eq_right (by omega), sshiftRight_31]
  next h => rw [min_eq_left (by omega)]

theorem rotlR_eq (a b : Word32) : rotlR a b = a <<< (b.toNat % 32) ||| a >>> (32 - b.toNat % 32) := by
  rw [rotlR, BitVec.rotateLeft_def, Nat.mod_mod]

/-! ## Fields (R233) -/

/-- The signed value of the low bits, as a bit vector of that width has it. -/
theorem sext_toNat {w : Nat} (x : BitVec w) : sext w x.toNat = x.toInt := by
  rw [sext, Nat.mod_eq_of_lt x.isLt, BitVec.toInt_eq_toNat_cond]

theorem fieldOf_of_empty {b : Word32} (h : b.toNat / 256 % 256 = 0 ∨ 32 ≤ b.toNat % 256) : fieldOf b = none := if_pos h

theorem fieldOf_of_nonempty {b : Word32} (h : ¬(b.toNat / 256 % 256 = 0 ∨ 32 ≤ b.toNat % 256)) :
    fieldOf b = some (b.toNat % 256, min (b.toNat % 256 + b.toNat / 256 % 256) 32 - b.toNat % 256) := if_neg h

theorem bfeR_eq (n : Bool) (a b : Word32) :
    bfeR n a b =
      let pos := b.toNat % 256
      let len := b.toNat / 256 % 256
      if len = 0 ∨ 32 ≤ pos then 0
      else
        let w := min (pos + len) 32 - pos
        let f : BitVec w := (a >>> pos).setWidth w
        if n then f.setWidth 32 else f.signExtend 32 := by
  have hfield : ∀ pos w : Nat, a.toNat / 2 ^ pos % 2 ^ w = ((a >>> pos).setWidth w).toNat := fun pos w => by
    rw [BitVec.toNat_setWidth, BitVec.toNat_ushiftRight, Nat.shiftRight_eq_div_pow]
  unfold bfeR
  by_cases h : b.toNat / 256 % 256 = 0 ∨ 32 ≤ b.toNat % 256
  · rw [fieldOf_of_empty h]
    exact (if_pos h).symm
  · simp only [fieldOf_of_nonempty h, if_neg h, hfield, sext_toNat, BitVec.ofNat_toNat]
    rfl

/-- The mask of `w` bits from `pos` on. -/
theorem getLsbD_fieldMask (pos w : Nat) {j : Nat} (hj : j < 32) :
    (BitVec.ofNat 32 ((2 ^ w - 1) * 2 ^ pos)).getLsbD j = decide (pos ≤ j ∧ j < pos + w) := by
  rw [BitVec.getLsbD_ofNat, Nat.testBit_mul_two_pow, Nat.testBit_two_pow_sub_one, decide_eq_true hj, Bool.true_and,
    ← Bool.decide_and]
  exact decide_eq_decide.2 (by omega)

/-- BFI takes the field's bits from the low bits of a and the others from c. -/
theorem getLsbD_bfiR (a b c : Word32) {j : Nat} (hj : j < 32) :
    (bfiR a b c).getLsbD j =
      if b.toNat % 256 ≤ j ∧ j < min (b.toNat % 256 + b.toNat / 256 % 256) 32 then a.getLsbD (j - b.toNat % 256)
      else c.getLsbD j := by
  unfold bfiR
  by_cases h : b.toNat / 256 % 256 = 0 ∨ 32 ≤ b.toNat % 256
  · rw [fieldOf_of_empty h, if_neg (by omega)]
  · rw [fieldOf_of_nonempty h]
    dsimp only
    rw [BitVec.getLsbD_or, BitVec.getLsbD_and, BitVec.getLsbD_and, BitVec.getLsbD_not, BitVec.getLsbD_shiftLeft,
      getLsbD_fieldMask _ _ hj]
    have hmask : b.toNat % 256 ≤ j ∧ j < b.toNat % 256 + (min (b.toNat % 256 + b.toNat / 256 % 256) 32 - b.toNat % 256) ↔
        b.toNat % 256 ≤ j ∧ j < min (b.toNat % 256 + b.toNat / 256 % 256) 32 := by omega
    simp only [hmask]
    split
    next hin => rw [decide_eq_true hin]; simp [hj, hin.1]
    next hout => rw [decide_eq_false hout]; simp [hj]

/-! ## The permute (R233) -/

theorem getLsbD_byteMask (j : Nat) : (0xFF : Word32).getLsbD j = decide (j < 8) := by
  have h : (0xFF : Word32) = BitVec.ofNat 32 (2 ^ 8 - 1) := rfl
  rw [h, BitVec.getLsbD_ofNat, Nat.testBit_two_pow_sub_one, ← Bool.decide_and]
  exact decide_eq_decide.2 (by omega)

theorem getLsbD_byteN (x : Word32) (k j : Nat) : (byteN x k).getLsbD j = (decide (j < 8) && x.getLsbD (8 * k + j)) := by
  rw [byteN, BitVec.getLsbD_and, BitVec.getLsbD_ushiftRight, getLsbD_byteMask, Bool.and_comm]

theorem toNat_byteN (x : Word32) (k : Nat) : (byteN x k).toNat = ((x >>> (8 * k)).setWidth 8).toNat := by
  rw [byteN, BitVec.toNat_and, BitVec.toNat_setWidth]
  exact Nat.and_two_pow_sub_one_eq_mod _ 8

/-- The register whose byte `k` is `x k`, for the `n` lowest bytes. -/
def packBytes (x : Nat → Word32) (n : Nat) : Word32 := (List.range n).foldl (fun d k => d ||| x k <<< (8 * k)) 0

theorem packBytes_succ (x : Nat → Word32) (n : Nat) : packBytes x (n + 1) = packBytes x n ||| x n <<< (8 * n) := by
  simp [packBytes, List.range_succ]

/-- Bytes packed together stand each in its own place. -/
theorem getLsbD_packBytes {x : Nat → Word32} (hx : ∀ k j, 8 ≤ j → (x k).getLsbD j = false) (n : Nat) {i : Nat} (hi : i < 32) :
    (packBytes x n).getLsbD i = (decide (i / 8 < n) && (x (i / 8)).getLsbD (i % 8)) := by
  induction n with
  | zero => exact BitVec.getLsbD_zero
  | succ n ih =>
    rw [packBytes_succ, BitVec.getLsbD_or, ih, BitVec.getLsbD_shiftLeft]
    obtain hlt | rfl | hgt := Nat.lt_trichotomy (i / 8) n
    · have hbelow : i < 8 * n := by omega
      simp [hlt, hlt.trans n.lt_succ_self, hbelow]
    · have hsub : i - 8 * (i / 8) = i % 8 := by omega
      have hin : ¬i < 8 * (i / 8) := by omega
      simp [hi, hsub, hin]
    · have habove : (x n).getLsbD (i - 8 * n) = false := hx n _ (by omega)
      simp [hgt.not_gt, show ¬i / 8 < n + 1 by omega, habove]

/-- So each byte can be read back. -/
theorem byteN_packBytes {x : Nat → Word32} (hx : ∀ k j, 8 ≤ j → (x k).getLsbD j = false) {n k : Nat} (hk : k < n) (hn : n ≤ 4) :
    byteN (packBytes x n) k = x k := by
  apply BitVec.eq_of_getLsbD_eq
  intro j hj
  rw [getLsbD_byteN]
  obtain hlt | hge := Nat.lt_or_ge j 8
  · have hdiv : (8 * k + j) / 8 = k := by omega
    have hmod : (8 * k + j) % 8 = j := by omega
    rw [getLsbD_packBytes hx n (by omega), hdiv, hmod, decide_eq_true hk, decide_eq_true hlt, Bool.true_and, Bool.true_and]
  · rw [hx k j hge, decide_eq_false hge.not_gt, Bool.false_and]

/-- Byte `n` of `b:a`, the bytes below 4 being those of `a`. -/
def byteOfPair (a b : Word32) (n : Nat) : Word32 := if n < 4 then byteN a n else byteN b (n - 4)

theorem byteOfPair_eq (a b : Word32) (n : Nat) : byteOfPair a b n = ((b ++ a) >>> (8 * n)).setWidth 32 &&& 0xFF := by
  apply BitVec.eq_of_getLsbD_eq
  intro j hj
  rw [BitVec.getLsbD_and, getLsbD_byteMask, BitVec.getLsbD_setWidth, BitVec.getLsbD_ushiftRight, BitVec.getLsbD_append,
    decide_eq_true hj, Bool.true_and, Bool.and_comm]
  unfold byteOfPair
  split
  next h =>
    rw [getLsbD_byteN]
    by_cases hlt : j < 8
    · rw [if_pos (by omega)]
    · rw [decide_eq_false hlt, Bool.false_and, Bool.false_and]
  next h =>
    have hsub : 8 * n + j - 32 = 8 * (n - 4) + j := by omega
    rw [getLsbD_byteN, if_neg (by omega), hsub]

/-- The byte that PRMT puts at place `k`: the one its selector names, or zero under the mask. -/
def prmtByte (a b c : Word32) (k : Nat) : Word32 :=
  if bitN c.toNat (12 + k) then 0 else byteOfPair a b (bitsN c.toNat (3 * k + 2) (3 * k))

theorem prmtR_eq (a b c : Word32) : prmtR a b c = packBytes (prmtByte a b c) 4 := rfl

theorem bitN_toNat {w : Nat} (x : BitVec w) (i : Nat) : bitN x.toNat i = x.getLsbD i :=
  (beq_eq_decide _ _).trans (Nat.testBit_eq_decide_div_mod_eq ..).symm

theorem bitsN_selector (x : Word32) (k : Nat) : bitsN x.toNat (3 * k + 2) (3 * k) = ((x >>> (3 * k)) &&& 7).toNat := by
  have hwidth : 3 * k + 2 + 1 - 3 * k = 3 := by omega
  rw [bitsN, hwidth, ← Nat.shiftRight_eq_div_pow, BitVec.toNat_and, BitVec.toNat_ushiftRight]
  exact (Nat.and_two_pow_sub_one_eq_mod _ 3).symm

theorem byteN_prmtR (a b c : Word32) {k : Nat} (hk : k < 4) :
    byteN (prmtR a b c) k =
      if c.getLsbD (12 + k) then 0
      else ((b ++ a) >>> (8 * ((c >>> (3 * k)) &&& 7).toNat)).setWidth 32 &&& 0xFF := by
  have hx : ∀ k j, 8 ≤ j → (prmtByte a b c k).getLsbD j = false := by
    intro k j hj
    unfold prmtByte byteOfPair
    split_ifs
    · exact BitVec.getLsbD_zero
    all_goals rw [getLsbD_byteN, decide_eq_false hj.not_gt, Bool.false_and]
  rw [prmtR_eq, byteN_packBytes hx hk le_rfl, prmtByte, bitN_toNat, byteOfPair_eq, bitsN_selector]

/-! ## The dot product (R233) -/

/-- Byte `k` of an operand of IDP4 as a number, unsigned or two's complement. -/
def dotByte (u : Bool) (x : Word32) (k : Nat) : Int :=
  let y : BitVec 8 := (x >>> (8 * k)).setWidth 8
  if u then (y.toNat : Int) else y.toInt

theorem idp4R_eq (ua sat ub : Bool) (a b c : Word32) :
    idp4R ua sat ub a b c =
      let sum := typeVal (ua && ub) c + dotByte ua a 0 * dotByte ub b 0 + dotByte ua a 1 * dotByte ub b 1 +
        dotByte ua a 2 * dotByte ub b 2 + dotByte ua a 3 * dotByte ub b 3
      (fitted (ua && ub) sat sum, clampFlag (ua && ub) sat sum) := by
  have hext : ∀ (u : Bool) (x : Word32) (k : Nat),
      (if u then ((byteN x k).toNat : Int) else sext 8 (byteN x k).toNat) = dotByte u x k := by
    intro u x k
    rw [toNat_byteN, sext_toNat]
    rfl
  unfold idp4R
  simp only [hext, narrow_eq]
  rfl

/-! ## Every operation of R233 -/

/-- Settles O19: each operation's result by its equation above; BFI bit by bit and PRMT byte by byte of the register it writes. -/
theorem shiftFieldPermute : Obligations.ShiftFieldPermute := by
  intro s r
  refine ⟨fun o => ⟨?_, ?_, ?_, ?_, ?_, ?_, fun hsat => ?_⟩, fun o => ⟨fun hc => ?_, fun hc => ?_, ?_, fun hsat => ?_⟩,
    fun o => ?_, fun o => ?_⟩
  · exact gives_of_outVF ((execShl.eq_1 o s).trans (alu2.eq_1 ..)) rfl fun _ _ => shlR_eq ..
  · exact gives_of_outVF ((execShr.eq_1 o s).trans (alu2.eq_1 ..)) rfl fun _ _ => shrR_eq ..
  · exact gives_of_outVF ((execSar.eq_1 o s).trans (alu2.eq_1 ..)) rfl fun _ _ => sarR_eq ..
  · exact gives_of_outVF ((execRotl.eq_1 o s).trans (alu2.eq_1 ..)) rfl fun _ _ => rotlR_eq ..
  · exact gives_of_outVF ((execBfe.eq_1 o s).trans (alu2.eq_1 ..)) rfl fun _ _ => bfeR_eq ..
  · exact gives_of_outVF ((execImulh.eq_1 o s).trans (alu2.eq_1 ..)) rfl fun _ _ => imulhR_eq ..
  · refine givesF_of_outVF ((execImul.eq_1 o s).trans (alu2.eq_1 ..)) rfl fun _ _ => ?_
    rw [hsat]
    exact narrow_sat ..
  · obtain ⟨t, ht, hval, -⟩ :=
      gives_of_outVF (i := .bfi o) (r := r) ((execBfi.eq_1 o s).trans (alu3.eq_1 ..)) rfl (fun _ _ => rfl) hc
    refine ⟨t, ht, fun l hl j hj => ?_⟩
    rw [hval l hl]
    exact getLsbD_bfiR _ _ _ hj
  · obtain ⟨t, ht, hval, -⟩ :=
      gives_of_outVF (i := .prmt o) (r := r) ((execPrmt.eq_1 o s).trans (alu3.eq_1 ..)) rfl (fun _ _ => rfl) hc
    refine ⟨t, ht, fun l hl k hk => ?_⟩
    rw [hval l hl]
    exact byteN_prmtR _ _ _ hk
  · exact gives2_of_outVp (execImadw.eq_1 o s) rfl fun _ _ => imadwR_eq ..
  · refine givesF_of_outVF ((execImad.eq_1 o s).trans (alu3.eq_1 ..)) rfl fun _ _ => ?_
    rw [hsat]
    exact narrow_sat ..
  · exact givesF_of_outVF (execIdp4.eq_1 o s) rfl fun _ _ => idp4R_eq ..
  · exact gives2_of_outVp (execLea.eq_1 o s) rfl fun _ _ => rfl

end Sys2Proof.Machine
